-- ==== Sys2Proof/Word.lean ====
section
/-! DEFINITION. The word types of HUFFCORE: 32-bit registers, bytes of IBUF and OBUF, 9-bit arena indices. -/

namespace Sys2Proof

/-- A register of the host register space (R23: "Registers are 32 bits wide"). -/
abbrev Word := BitVec 32

/-- A byte of IBUF or OBUF, and a Symbol (R8: "one byte value, domain 0–255"). -/
abbrev Byte := BitVec 8

/-- An index into the node arena (R11: "node index width | fixed 9 bits"). -/
abbrev NodeIdx := BitVec 9

end Sys2Proof
end

