-- ==== Sys2Proof/Config.lean ====
section
/-! DEFINITION. The implementation parameters of HUFFCORE (R11), the platform's placement of its
address spaces (R59), and the free values that stand for what the spec leaves unspecified. -/

namespace Sys2Proof

/-- The two OPEN parameters of R11. They are the constants that PARAM_IBUF and PARAM_OBUF read (R35);
a state carries them and no step changes them, so a statement about every state is a statement about
every configuration. -/
structure Config where
  /-- IBUF_BYTES, 1 ≤ IBUF_BYTES ≤ 2^32 − 1 -/
  ibufBytes : Word
  /-- OBUF_BYTES, 1 ≤ OBUF_BYTES ≤ 2^32 − 1 -/
  obufBytes : Word
  deriving DecidableEq, Repr

/-- The reference configuration of R11: 65536 and 66311. -/
def Config.reference : Config := { ibufBytes := 65536, obufBytes := 66311 }

/-- NODE_MAX, the capacity of the node arena (R11). -/
abbrev nodeMax : Nat := 511

/-- MAX_CODE_LEN (R10). -/
abbrev maxCodeLen : Nat := 32

/-- MAX_HEADER_BYTES (R11, R75). -/
abbrev maxHeaderBytes : Nat := 775

/-- The ID constant (R24), "HUFF". -/
def Config.idWord : Word := 0x48554646

/-- Where the platform places REG (R59, U16): an OPEN parameter that no rule reads. -/
opaque Config.regBase : Nat

/-- Where the platform places IBUF (R59, U16): an OPEN parameter that no rule reads. -/
opaque Config.ibufBase : Nat

/-- Where the platform places OBUF (R59, U16): an OPEN parameter that no rule reads. -/
opaque Config.obufBase : Nat

/-- FREE VALUE (log entry 3): what the register or table entry at a REG offset holds where a rule
leaves it unspecified (U8 to U12). First argument: the draw's number, second: the offset. -/
opaque Config.freeReg : Nat → Nat → Word

/-- FREE VALUE (log entry 3): what an OBUF byte holds that an error has drawn (R125), and what a host read
returns where nothing has written (R51).
First argument: the draw's number, second: the address. -/
opaque Config.freeObuf : Nat → Nat → Byte

/-- FREE VALUE (log entry 4): what a host read of an IBUF byte returns that nothing has written
since reset. First argument: the draw's number, second: the address. -/
opaque Config.freeIbuf : Nat → Nat → Byte

end Sys2Proof
end

