-- ==== Sys2Proof/Syntax.lean ====
section
/-! DEFINITION. The instructions of HUFFCORE: one constructor per row of the opcode table. The 18
commands take their operands from ARG0 and ARG1 (R69), so they carry none; a Leaf token of the
serialized tree carries its symbol byte (R72); the two payload bits carry nothing (R116). -/

namespace Sys2Proof

inductive Instr where
  /-- 0x00, R112 -/
  | nop
  /-- 0x01, R114 -/
  | compress
  /-- 0x02, R118 -/
  | decompress
  /-- 0x10, R83 -/
  | countFreq
  /-- 0x11, R86 -/
  | buildTree
  /-- 0x12, R88 -/
  | buildCodes
  /-- 0x18, R96 -/
  | serializeTree
  /-- 0x19, R97 -/
  | deserializeTree
  /-- 0x1A, R98 -/
  | writeHeader
  /-- 0x1B, R99 -/
  | readHeader
  /-- 0x20, R104 -/
  | bwReset
  /-- 0x21, R105 -/
  | writeBit
  /-- 0x22, R106 -/
  | writeCode
  /-- 0x23, R107 -/
  | bwFinish
  /-- 0x24, R113 -/
  | encodeByte
  /-- 0x28, R110 -/
  | brInit
  /-- 0x29, R111 -/
  | readBit
  /-- 0x2A, R117 -/
  | decodeSymbol
  /-- Tree token, flag byte 0x00: an Internal node (R72) -/
  | treeInternal
  /-- Tree token, flag byte 0x01 and a symbol byte: a Leaf (R72) -/
  | treeLeaf (symbol : Byte)
  /-- Payload bit 0: the walk goes to the left child (R116) -/
  | payloadBitLeft
  /-- Payload bit 1: the walk goes to the right child (R116) -/
  | payloadBitRight
  deriving DecidableEq, Repr

/-- The three formats of the opcode table. -/
inductive Format where
  | cmd
  | treeToken
  | payloadBit
  deriving DecidableEq, Repr

/-- The format an instruction is written in. -/
def Instr.format : Instr → Format
  | .nop | .compress | .decompress | .countFreq | .buildTree | .buildCodes => .cmd
  | .serializeTree | .deserializeTree | .writeHeader | .readHeader => .cmd
  | .bwReset | .writeBit | .writeCode | .bwFinish | .encodeByte => .cmd
  | .brInit | .readBit | .decodeSymbol => .cmd
  | .treeInternal | .treeLeaf _ => .treeToken
  | .payloadBitLeft | .payloadBitRight => .payloadBit

end Sys2Proof
end

