-- ==== Sys2Proof/WellFormed.lean ====
section
/-! DEFINITION. The well-formedness checks. An instruction is well formed in every case: the
commands carry no operand and a Leaf token's symbol "takes every value 0x00–0xFF" (R73). What can be
ill formed is a configuration (R11), a code (R10, R16) and a raw command word (R67). -/

namespace Sys2Proof

/-- Every instruction is well formed (R69: "An operand bit a command does not read is ignored, not
checked"; R73). -/
def Instr.wf (_ : Instr) : Bool := true

/-- R11: 1 ≤ IBUF_BYTES and 1 ≤ OBUF_BYTES (the upper bound 2^32 − 1 is the type's). -/
def Config.wf (c : Config) : Bool := c.ibufBytes != 0 && c.obufBytes != 0

/-- R67: the RSVD field of a command word must be 0. -/
def cmdWordRsvdZero (w : Word) : Bool := w.extractLsb' 8 24 == 0

/-- R10 and R16: a code has a length of 1 to 32, its bits stand at the top of the word and the
bits below them are 0. -/
def codeWf (value : Word) (length : Nat) : Bool :=
  1 ≤ length && length ≤ maxCodeLen && value <<< length == 0

end Sys2Proof
end

