-- ==== Sys2Proof/Decode.lean ====
section
/-! DEFINITION. The decoder of the three formats (command words R67 to R70, tree tokens R72 and R73,
payload bits R116), total and rejecting by name, and after it the encoder, written from the same
tables. -/

namespace Sys2Proof

/-- Why the decoder rejects. -/
inductive DecodeError where
  /-- a command word with RSVD ≠ 0 (R67) -/
  | rsvdNonZero
  /-- a command word with a reserved OPCODE (R70) -/
  | reservedOpcode
  /-- a flag byte 0x02–0xFF (R73) -/
  | illegalFlag
  /-- the bytes end before the token does (R72) -/
  | truncated
  deriving DecidableEq, Repr

/-- The opcodes of R68, row by row. -/
def opcodeTable : List (Byte × Instr) :=
  [(0x00, .nop), (0x01, .compress), (0x02, .decompress),
   (0x10, .countFreq), (0x11, .buildTree), (0x12, .buildCodes)]
  ++ [(0x18, .serializeTree), (0x19, .deserializeTree), (0x1A, .writeHeader), (0x1B, .readHeader)]
  ++ [(0x20, .bwReset), (0x21, .writeBit), (0x22, .writeCode), (0x23, .bwFinish), (0x24, .encodeByte)]
  ++ [(0x28, .brInit), (0x29, .readBit), (0x2A, .decodeSymbol)]

/-- The instruction an OPCODE selects (R68); every other value is reserved (R70). -/
def decodeOpcode (op : Byte) : Except DecodeError Instr :=
  match opcodeTable.find? (fun row => row.1 == op) with
  | some row => .ok row.2
  | none => .error .reservedOpcode

/-- A command word (R67): OPCODE = w[7:0], RSVD = w[31:8] must be 0. -/
def decodeCmd (w : Word) : Except DecodeError Instr :=
  if cmdWordRsvdZero w then decodeOpcode (w.extractLsb' 0 8) else .error .rsvdNonZero

/-- A token of the serialized tree (R72, R73), and the bytes after it. -/
def decodeToken : List Byte → Except DecodeError (Instr × List Byte)
  | [] => .error .truncated
  | flag :: rest =>
    if flag = 0x00 then .ok (.treeInternal, rest)
    else if flag = 0x01 then
      match rest with
      | [] => .error .truncated
      | symbol :: rest' => .ok (.treeLeaf symbol, rest')
    else .error .illegalFlag

/-- A payload bit (R116): 0 goes left, 1 goes right. -/
def decodeBit (b : Bool) : Instr := if b then .payloadBitRight else .payloadBitLeft

/-- What an instruction looks like where the hardware reads it: a word in CMD, bytes of a
serialized tree in IBUF, one bit of the payload. -/
inductive Encoded where
  | cmd (w : Word)
  | token (bytes : List Byte)
  | bit (b : Bool)
  deriving DecidableEq, Repr

/-- The decoder of all three formats; the bytes left over are those after a tree token. -/
def decode : Encoded → Except DecodeError (Instr × List Byte)
  | .cmd w => (decodeCmd w).map (fun i => (i, []))
  | .token bytes => decodeToken bytes
  | .bit b => .ok (decodeBit b, [])

/-- The OPCODE of a command (R68). Tree tokens and payload bits have none. -/
def Instr.opcode? : Instr → Option Byte
  | .nop => some 0x00
  | .compress => some 0x01
  | .decompress => some 0x02
  | .countFreq => some 0x10
  | .buildTree => some 0x11
  | .buildCodes => some 0x12
  | .serializeTree => some 0x18
  | .deserializeTree => some 0x19
  | .writeHeader => some 0x1A
  | .readHeader => some 0x1B
  | .bwReset => some 0x20
  | .writeBit => some 0x21
  | .writeCode => some 0x22
  | .bwFinish => some 0x23
  | .encodeByte => some 0x24
  | .brInit => some 0x28
  | .readBit => some 0x29
  | .decodeSymbol => some 0x2A
  | .treeInternal | .treeLeaf _ | .payloadBitLeft | .payloadBitRight => none

/-- The command word of an opcode: RSVD = 0 (R67). -/
def cmdWord (op : Byte) : Word := op.setWidth 32

/-- The encoding of an instruction (R67, R68, R72, R116). -/
def encode (i : Instr) : Encoded :=
  match i.opcode? with
  | some op => .cmd (cmdWord op)
  | none =>
    match i with
    | .treeLeaf symbol => .token [0x01, symbol]
    | .payloadBitLeft => .bit false
    | .payloadBitRight => .bit true
    | _ => .token [0x00]

/-- What the decoder reads from the bits w of an opcode-table row of nbits bits (log entry 12):
less than a byte is a payload bit; up to 16 bits are a tree token, its flag byte first, the bytes above nbits
zero; more are a command word. -/
def decodeTableWord (nbits w : Nat) : Option Instr :=
  if nbits < 8 then some (decodeBit (w.testBit 0))
  else if nbits ≤ 16 then
    match decodeToken [BitVec.ofNat 8 w, BitVec.ofNat 8 (w / 256)] with
    | .ok (i, _) => some i
    | .error _ => none
  else if w < 2 ^ 32 then
    match decodeCmd (BitVec.ofNat 32 w) with
    | .ok i => some i
    | .error _ => none
  else none

end Sys2Proof
end

