-- ==== Sys2Proof/Machine/State.lean ====
section
/-! DEFINITION. The state of HUFFCORE as plain data (R20), the events the host and the platform may
bring (R46, R141), the reasons a step can stop, and the state after reset (R44, R141). -/

namespace Sys2Proof.Machine

/-- A byte buffer (IBUF or OBUF, R47, R48): the bytes that hold a defined value, by rising address.
An address not listed has no value (R51); log entry 2. -/
abbrev Memory := List Host.Cell

/-- The error codes that are ever reported (R124); 4–7 and 12–15 never are (U23). -/
inductive Err where
  | none
  | truncatedOrCorrupt
  | endOfStream
  | codeTooLong
  | badCommand
  | badOperand
  | badState
  | outputOverflow
  deriving DecidableEq, Repr

/-- An entry of the node arena (R39): for a Leaf left and right are 0, for an Internal node symbol is 0. -/
structure Node where
  isLeaf : Bool
  symbol : Byte
  left : NodeIdx
  right : NodeIdx
  deriving DecidableEq, Repr

/-- A Huffman tree as the arena holds it, read from a root: "a Leaf holds a Symbol, an Internal node
holds exactly two children" (R17). -/
inductive HTree where
  | leaf (symbol : Byte)
  | node (left right : HTree)
  deriving DecidableEq, Repr

/-- The node arena and the fields of TREE_INFO that belong to it (R34, R39). -/
structure Arena where
  nodes : Vector Node nodeMax
  /-- NODE_COUNT -/
  count : BitVec 10
  /-- ROOT -/
  root : NodeIdx
  /-- TREE_VALID -/
  valid : Bool
  /-- the model's own: NODE holds the draw of an error (R125; log entry 3) -/
  drawn : Bool := false
  deriving DecidableEq, Repr

/-- The code table and its flag (R34, R37, R38). -/
structure CodeTable where
  /-- CODE_VAL -/
  val : Vector Word 256
  /-- CODE_LEN -/
  len : Vector (BitVec 6) 256
  /-- CODES_VALID -/
  valid : Bool
  /-- the model's own: the table holds the draw of an error (R125; log entry 3) -/
  drawn : Bool := false
  deriving DecidableEq, Repr

/-- The bit-stream writer and the buffer it appends to (R28, R32, R100). -/
structure Writer where
  /-- BW_ACC -/
  acc : Byte
  /-- BW_CNT -/
  cnt : BitVec 3
  /-- OUT_LEN -/
  outLen : Word
  /-- OBUF -/
  obuf : Memory
  deriving DecidableEq, Repr

/-- The bit-stream reader (R33). -/
structure Reader where
  /-- BR_POS -/
  pos : Word
  /-- BR_BIT -/
  bit : BitVec 3
  /-- BR_END -/
  limit : Word
  deriving DecidableEq, Repr

/-- An Internal node the deserializer has begun (R92, its recursion stack R42): `left i` waits for
the left subtree of node i, `right i l` for the right one, the left one being l. -/
inductive Frame where
  | left (i : NodeIdx)
  | right (i l : NodeIdx)
  deriving DecidableEq, Repr

/-- The deserializer in the middle of `des_tree` (R92): the cursor p, the bound E, cnt and the
recursion stack (R42). -/
structure Des where
  pos : Nat
  limit : Nat
  cnt : Nat
  stack : List Frame
  deriving DecidableEq, Repr

/-- Which command runs `des_tree` (R97, R99, R118). -/
inductive DesUse where
  | deserializeTree
  | readHeader
  | decompress
  deriving DecidableEq, Repr

/-- Which command runs `decode_sym` (R117, R118). -/
inductive WalkUse where
  | decodeSymbol
  | decompress
  deriving DecidableEq, Repr

/-- The decoder in the middle of a walk (R116): the current node and the count of symbols emitted
(R42); `dirty` says that the command has written something already (R125). -/
structure Walk where
  cur : NodeIdx
  emitted : Nat
  dirty : Bool
  deriving DecidableEq, Repr

/-- Where inside a running command the core stands, when it stands between two tokens of a tree or
two bits of a payload (R42; log entry 6). -/
inductive Activity where
  | deserialize (d : Des) (use : DesUse)
  | walk (w : Walk) (use : WalkUse)
  deriving DecidableEq, Repr

/-- The six operations of the host port (R46). -/
inductive HostOp where
  | regRead (off : Word)
  | regWrite (off v : Word)
  | ibufRead (a : Word)
  | ibufWrite (a : Word) (b : Byte)
  | obufRead (a : Word)
  | obufWrite (a : Word) (b : Byte)
  deriving DecidableEq, Repr

/-- One event of the total order of R61 (log entry 5): a host operation, the reset input (R141), or a
move of the core: `core` runs the accepted command, or one token or bit of it when the core stands
inside it; `coreBegin` runs it only up to its first token or bit. -/
inductive Move where
  | host (op : HostOp)
  | reset
  | core
  | coreBegin
  deriving DecidableEq, Repr

/-- What the host port handed back for the last host read (R66, column "the core hands back"). -/
inductive Answer where
  | word (v : Word)
  | byte (b : Byte)
  deriving DecidableEq, Repr

/-- What an error left of OBUF (R125): the bytes from address `start` up hold the draw of this number,
until they are written again (R61, R140). -/
structure ObufDraw where
  start : Nat
  number : Nat
  deriving DecidableEq, Repr

/-- The state of HUFFCORE (R20), and after it the model's own fields. -/
structure State where
  /-- PARAM_IBUF and PARAM_OBUF (R35): constants -/
  cfg : Config
  /-- CMD (R25) -/
  cmd : Word
  /-- STATUS.BUSY (R26) -/
  busy : Bool
  /-- STATUS.DONE (R26) -/
  done : Bool
  /-- STATUS.DROPPED (R26) -/
  dropped : Bool
  /-- STATUS.ERR (R26, R124) -/
  err : Err
  /-- IN_LEN (R27) -/
  inLen : Word
  /-- ARG0 (R29) -/
  arg0 : Word
  /-- ARG1 (R29) -/
  arg1 : Word
  /-- RESULT (R30) -/
  result : Word
  /-- HDR_SIZE (R31) -/
  hdrSize : Word
  /-- ORIG_SIZE (R31) -/
  origSize : Word
  /-- BW_STATE, OUT_LEN and OBUF (R28, R32, R48) -/
  writer : Writer
  /-- BR_POS, BR_BIT and BR_END (R33) -/
  reader : Reader
  /-- NODE and TREE_INFO but for CODES_VALID (R34, R39) -/
  tree : Arena
  /-- CODE_VAL, CODE_LEN and CODES_VALID (R34, R37, R38) -/
  codes : CodeTable
  /-- FREQ (R36) -/
  freq : Vector Word 256
  /-- IBUF (R47) -/
  ibuf : Memory
  /-- the transient state of R42, when the core stands inside a command -/
  activity : Option Activity
  /-- the model's own: the draws that errors left in OBUF, the latest first (log entry 3) -/
  obufDraws : List ObufDraw
  /-- the model's own: the events to come, in the order of R61 (log entry 5) -/
  schedule : List Move
  /-- the model's own: what the last host read returned -/
  answer : Option Answer
  /-- the model's own: the number of the next draw of free values (log entry 3) -/
  draws : Nat
  deriving DecidableEq, Repr

/-- Why the machine stops with a fault. -/
inductive Fault where
  /-- A core read of an IBUF byte that the host has not written since reset (R51, U14), raised by
  every command that reads IBUF, or of an address beyond the capacity (log entry 17), raised by READ_BIT
  and DECODE_SYMBOL. Safe: the hardware goes on with some byte. -/
  | ibufUnwritten (a : Nat)
  /-- A command that follows the arena found a missing index or no tree, which R40 excludes while
  TREE_VALID = 1, raised by the commands that read NODE. Safe: no state that a run reaches has it. -/
  | arenaBroken
  deriving DecidableEq, Repr

/-- Why the machine gives an instruction no meaning. -/
inductive Refusal where
  /-- An instruction without a meaning yet, raised by exec's arm. Safe. -/
  | notModelled (mnemonic : String)
  /-- A tree token outside a running deserializer, raised by the two token meanings: there it is
  data, not an instruction. Safe. -/
  | noTreeBeingRead
  /-- A payload bit outside a running walk, raised by the two payload-bit meanings: there it is
  data, not an instruction. Safe. -/
  | noWalk
  deriving DecidableEq, Repr

/-- The arena right after reset: its entries are unspecified (R44; log entry 1 names the 0). -/
def Arena.reset : Arena :=
  { nodes := Vector.replicate nodeMax { isLeaf := false, symbol := 0, left := 0, right := 0 }
    count := 0, root := 0, valid := false }

/-- The code table right after reset: its entries are unspecified (R44; log entry 1 names the 0). -/
def CodeTable.reset : CodeTable :=
  { val := Vector.replicate 256 0, len := Vector.replicate 256 0, valid := false }

/-- The machine right after reset (R44, R141), in the reference configuration of R11. -/
def State.reset : State :=
  { cfg := Config.reference
    cmd := 0, busy := false, done := false, dropped := false, err := .none
    inLen := 0, arg0 := 0, arg1 := 0, result := 0, hdrSize := 0, origSize := 0
    writer := { acc := 0, cnt := 0, outLen := 0, obuf := [] }
    reader := { pos := 0, bit := 0, limit := 0 }
    tree := Arena.reset
    codes := CodeTable.reset
    freq := Vector.replicate 256 0
    ibuf := []
    activity := none, obufDraws := [], schedule := [], answer := none, draws := 0 }

end Sys2Proof.Machine
end

