-- ==== Sys2Proof/Machine/Flags.lean ====
section
/-! DEFINITION. The flags (R41): STATUS as the host reads it, its changes at acceptance, at a dropped
write and at completion (R26, R138, R139), and the clearing of the validity flags. -/

namespace Sys2Proof.Machine

/-- The code of an error (R124). -/
def Err.code : Err → BitVec 4
  | .none => 0
  | .truncatedOrCorrupt => 1
  | .endOfStream => 2
  | .codeTooLong => 3
  | .badCommand => 8
  | .badOperand => 9
  | .badState => 10
  | .outputOverflow => 11

/-- STATUS (R26): BUSY[0], DONE[1], DROPPED[2], ERR[11:8], the rest 0. -/
def State.statusWord (s : State) : Word :=
  ((0 : BitVec 20) ++ s.err.code ++ (0 : BitVec 5) ++ BitVec.ofBool s.dropped
    ++ BitVec.ofBool s.done ++ BitVec.ofBool s.busy : BitVec 32)

/-- Acceptance of a command word (R138): CMD holds it, BUSY is 1, DONE, DROPPED and ERR are 0. What
the host reads from now on of the registers a command may write is a new draw (R58, log entry 3). -/
def State.accept (s : State) (v : Word) : State :=
  { s with
    cmd := v, busy := true, done := false, dropped := false, err := .none, activity := none
    draws := s.draws + 1 }

/-- A CMD write while BUSY = 1 (R25, R138): only STATUS.DROPPED changes. -/
def State.dropWrite (s : State) : State := { s with dropped := true }

/-- Completion (R139): ERR gets the code, BUSY is 0 and DONE is 1. The core stands inside no command
any more, and what is unspecified from now on is a new draw (log entry 3). -/
def State.complete (s : State) (e : Err) : State :=
  { s with busy := false, done := true, err := e, activity := none, draws := s.draws + 1 }

/-- `x[TREE_VALID] <- 0 ; x[CODES_VALID] <- 0` (R92, R99). -/
def State.clearValid (s : State) : State :=
  { s with tree := { s.tree with valid := false }, codes := { s.codes with valid := false } }

/-- What COMPRESS and DECOMPRESS write of the tree on an empty input (R114, R118):
TREE_VALID, CODES_VALID, NODE_COUNT, ROOT, HDR_SIZE and ORIG_SIZE are 0. -/
def State.noTree (s : State) : State :=
  { s with
    tree := { s.tree with valid := false, count := 0, root := 0 }
    codes := { s.codes with valid := false }
    hdrSize := 0
    origSize := 0 }

end Sys2Proof.Machine
end

