-- ==== Sys2Proof/Machine/Operands.lean ====
section
/-! DEFINITION. The operand forms: bytes and bits of words, the left-aligned form of a code, the
little-endian header fields, and the words in which the host reads registers made of fields. -/

namespace Sys2Proof.Machine

/-- Byte t of a word, `h[8t+7 : 8t]` (R98). -/
def wordByte (w : Word) (t : Nat) : Byte := w.extractLsb' (8 * t) 8

/-- The four bytes of a little-endian field, lowest address first (R52). -/
def le32Bytes (w : Word) : List Byte := [wordByte w 0, wordByte w 1, wordByte w 2, wordByte w 3]

/-- `LE32(b0, b1, b2, b3)` (R15, R52). -/
def le32 (b0 b1 b2 b3 : Byte) : Word := (b3 ++ b2 ++ b1 ++ b0 : BitVec 32)

/-- The bit of a byte at a stream position (R13: stream position p is bit 7 − p). -/
def streamBit (b : Byte) (p : BitVec 3) : Bool := b.getLsbD (7 - p.toNat)

/-- The byte with one bit set, at a stream position (R102: `2^(7 − BW_CNT)`). -/
def streamMask (p : BitVec 3) : Byte := (0x80 : Byte) >>> p.toNat

/-- The first n bits of a left-aligned value, bit 31 first (R106, R113). -/
def leadingBits (value : Word) (n : Nat) : List Bool := (List.range n).map value.getMsbD

/-- A bit string left-aligned in a word (R16): the first bit in bit 31, zeros below the last. -/
def leftAlign : List Bool → Word
  | [] => 0
  | b :: bs => (if b then (0x80000000 : Word) else 0) ||| (leftAlign bs >>> 1)

/-- A Leaf of the arena (R39). -/
def Node.ofSymbol (symbol : Byte) : Node := { isLeaf := true, symbol := symbol, left := 0, right := 0 }

/-- An Internal node of the arena (R39). -/
def Node.ofChildren (l r : NodeIdx) : Node := { isLeaf := false, symbol := 0, left := l, right := r }

/-- NODE[i] as the host reads it (R39): SYMBOL[7:0], LEFT[16:8], RIGHT[25:17], IS_LEAF[31]. -/
def Node.word (n : Node) : Word :=
  (BitVec.ofBool n.isLeaf ++ (0 : BitVec 5) ++ n.right ++ n.left ++ n.symbol : BitVec 32)

/-- The node whose fields a word gives (R39). -/
def Node.ofWord (w : Word) : Node :=
  { isLeaf := w.getLsbD 31, symbol := w.extractLsb' 0 8
    left := w.extractLsb' 8 9, right := w.extractLsb' 17 9 }

/-- BW_STATE (R32): BW_ACC[7:0], BW_CNT[10:8]. -/
def Writer.word (w : Writer) : Word := ((0 : BitVec 21) ++ w.cnt ++ w.acc : BitVec 32)

/-- TREE_INFO (R34): TREE_VALID[0], CODES_VALID[1], NODE_COUNT[17:8], ROOT[28:20]. -/
def treeInfoWord (t : Arena) (codesValid : Bool) : Word :=
  ((0 : BitVec 3) ++ t.root ++ (0 : BitVec 2) ++ t.count ++ (0 : BitVec 6)
    ++ BitVec.ofBool codesValid ++ BitVec.ofBool t.valid : BitVec 32)

/-- The symbol ENCODE_BYTE codes, ARG0[7:0] (R113). -/
def symbolArg (arg0 : Word) : Byte := arg0.setWidth 8

/-- The bit WRITE_BIT writes, ARG0[0] (R105). -/
def bitArg (arg0 : Word) : Bool := arg0.getLsbD 0

end Sys2Proof.Machine
end

