-- ==== Sys2Proof/Machine/Ops.lean ====
section
/-! DEFINITION. The shared operations: byte buffers, the host's register offsets, what an error leaves
(R125, ONE operation: State.raise and finish), and reading the arena as a tree. HUFFCORE has no trap
and nothing to return from (R128, R129): ending a command with an error is its exception. -/

namespace Sys2Proof.Machine

/-! ### Byte buffers -/

/-- The byte at an address, if one has been written there (R51). -/
def Memory.get : Memory → Nat → Option Byte
  | [], _ => none
  | (k, v) :: rest, a => if k = a then some v else if a < k then none else Memory.get rest a

/-- `MemWrite` of one byte (R48), keeping the addresses rising. -/
def Memory.set : Memory → Nat → Byte → Memory
  | [], a, b => [(a, b)]
  | (k, v) :: rest, a, b =>
    if a < k then (a, b) :: (k, v) :: rest
    else if k = a then (a, b) :: rest
    else (k, v) :: Memory.set rest a b

/-- Bytes written at consecutive addresses. -/
def Memory.setRange (m : Memory) (a : Nat) : List Byte → Memory
  | [] => m
  | b :: bs => Memory.setRange (m.set a b) (a + 1) bs

/-- The buffer with no byte written from address a up: an error draws those (R125). -/
def Memory.below (m : Memory) (a : Nat) : Memory := m.filter (fun cell => cell.1 < a)

/-- The draw that the byte at an address holds, if an error left one there (R125). -/
def drawAt : List ObufDraw → Nat → Option Nat
  | [], _ => none
  | d :: rest, a => if d.start ≤ a then some d.number else drawAt rest a

/-- An error draws every byte from address a up: its draw covers what older ones had there (R125). -/
def holdDraw (draws : List ObufDraw) (a number : Nat) : List ObufDraw :=
  { start := a, number := number } :: draws.filter (fun d => d.start < a)

/-- The canonical form: addresses strictly rising. (No entry can equal what an unlisted address
reads as, since an unlisted address has no value.) -/
def Memory.wf : Memory → Bool
  | [] => true
  | [_] => true
  | (k, _) :: (k', v') :: rest => k < k' && Memory.wf ((k', v') :: rest)

/-! ### How a command's pseudocode can end early -/

/-- `raise E` (R125); `dirty` says whether the pseudocode had written something before it. Or a fault. -/
inductive Stop where
  | raise (e : Err) (dirty : Bool)
  | fault (f : Fault)
  deriving DecidableEq, Repr

/-- `MemRead(IBUF, a, 1)` (R47); a byte nothing has written faults (R51, U14). DESIGN CHOICE (log entry
17): so does an address from IBUF_BYTES up, which R49 says is never read; no byte is listed there. -/
def memRead (ibuf : Memory) (a : Nat) : Except Stop Byte :=
  match ibuf.get a with
  | some b => .ok b
  | none => .error (.fault (.ibufUnwritten a))

/-- `MemRead` of n bytes from a up, in that order. -/
def memReadRange (ibuf : Memory) (a : Nat) : Nat → Except Stop (List Byte)
  | 0 => .ok []
  | n + 1 =>
    match memRead ibuf a with
    | .error e => .error e
    | .ok b =>
      match memReadRange ibuf (a + 1) n with
      | .error e => .error e
      | .ok bs => .ok (b :: bs)

/-! ### The REG space -/

/-- The registers and table entries of the map of R23. -/
inductive Reg where
  | id | cmd | status | inLen | outLen | arg0 | arg1 | result | hdrSize | origSize
  | bwState | brPos | brBit | brEnd | treeInfo | paramIbuf | paramObuf
  | freq (s : Byte) | codeVal (s : Byte) | codeLen (s : Byte) | node (i : Fin nodeMax)
  deriving DecidableEq, Repr

/-- The offset of a register (R23). -/
def Reg.offset : Reg → Nat
  | .id => 0x000 | .cmd => 0x004 | .status => 0x008 | .inLen => 0x00C | .outLen => 0x010
  | .arg0 => 0x014 | .arg1 => 0x018 | .result => 0x01C | .hdrSize => 0x020 | .origSize => 0x024
  | .bwState => 0x028 | .brPos => 0x02C | .brBit => 0x030 | .brEnd => 0x034 | .treeInfo => 0x038
  | .paramIbuf => 0x03C | .paramObuf => 0x040
  | .freq s => 0x400 + 4 * s.toNat
  | .codeVal s => 0x800 + 4 * s.toNat
  | .codeLen s => 0xC00 + 4 * s.toNat
  | .node i => 0x1000 + 4 * i.val

/-- The registers below the tables, in the order of their offsets (R23). -/
def controlRegs : List Reg :=
  [.id, .cmd, .status, .inLen, .outLen, .arg0, .arg1, .result, .hdrSize, .origSize,
   .bwState, .brPos, .brBit, .brEnd, .treeInfo, .paramIbuf, .paramObuf]

/-- What stands at a REG offset (R23): nothing at a misaligned (R55) or an unmapped one (R56). -/
def regAt (off : Word) : Option Reg :=
  let w := off.toNat / 4
  if off.toNat % 4 ≠ 0 then none
  else if w < 0x100 then controlRegs[w]?
  else if w < 0x200 then some (.freq (BitVec.ofNat 8 (w - 0x100)))
  else if w < 0x300 then some (.codeVal (BitVec.ofNat 8 (w - 0x200)))
  else if w < 0x400 then some (.codeLen (BitVec.ofNat 8 (w - 0x300)))
  else if h : w - 0x400 < nodeMax then some (.node ⟨w - 0x400, h⟩)
  else none

/-- The bits of a register that are not reserved (R26, R32, R33, R34, R38, R39). -/
def Reg.fieldMask : Reg → Word
  | .status => 0x00000F07
  | .bwState => 0x000007FF
  | .brBit => 0x00000007
  | .treeInfo => 0x1FF3FF03
  | .codeLen _ => 0x0000003F
  | .node _ => 0x83FFFFFF
  | _ => 0xFFFFFFFF

/-- A free draw for a register or table entry, within the width of its fields (R125: "a free draw
within the width of its field, with reserved fields still 0"). -/
def State.drawn (s : State) (r : Reg) : Word := Config.freeReg s.draws r.offset &&& r.fieldMask

/-! ### What an error leaves in a command's write set (R125, case 2; the write sets are R69's) -/

/-- RESULT holds a draw. -/
def State.drawResult (s : State) : State := { s with result := s.drawn .result }

/-- HDR_SIZE and ORIG_SIZE hold draws. -/
def State.drawHeader (s : State) : State :=
  { s with hdrSize := s.drawn .hdrSize, origSize := s.drawn .origSize }

/-- BW_STATE holds a draw. -/
def State.drawBwState (s : State) : State :=
  { s with writer := { s.writer with
      acc := (s.drawn .bwState).extractLsb' 0 8, cnt := (s.drawn .bwState).extractLsb' 8 3 } }

/-- OUT_LEN and every byte of OBUF from address a up hold draws. -/
def State.drawOutput (s : State) (a : Nat) : State :=
  { s with
    writer := { s.writer with outLen := s.drawn .outLen, obuf := s.writer.obuf.below a }
    obufDraws := holdDraw s.obufDraws a s.draws }

/-- OUT_LEN is 0 and every byte of OBUF holds a draw (COMPRESS and DECOMPRESS). -/
def State.drawObuf (s : State) : State :=
  { s with
    writer := { s.writer with outLen := 0, obuf := [] }
    obufDraws := holdDraw s.obufDraws 0 s.draws }

/-- BR_POS and BR_BIT hold draws. -/
def State.drawCursor (s : State) : State :=
  { s with reader := { s.reader with pos := s.drawn .brPos, bit := (s.drawn .brBit).extractLsb' 0 3 } }

/-- BR_END holds a draw. -/
def State.drawExtent (s : State) : State :=
  { s with reader := { s.reader with limit := s.drawn .brEnd } }

/-- The draws of a failing command for NODE. -/
@[irreducible] def State.drawnNodes (s : State) : Vector Node nodeMax :=
  Vector.ofFn (fun i => Node.ofWord (s.drawn (.node i)))

/-- The draws of a failing command for CODE_VAL. -/
@[irreducible] def State.drawnCodeVals (s : State) : Vector Word 256 :=
  Vector.ofFn (fun i => s.drawn (.codeVal (BitVec.ofNat 8 i)))

/-- The draws of a failing command for CODE_LEN. -/
@[irreducible] def State.drawnCodeLens (s : State) : Vector (BitVec 6) 256 :=
  Vector.ofFn (fun i => (s.drawn (.codeLen (BitVec.ofNat 8 i))).setWidth 6)

/-- The draws of a failing command for FREQ. -/
@[irreducible] def State.drawnFreqs (s : State) : Vector Word 256 :=
  Vector.ofFn (fun i => s.drawn (.freq (BitVec.ofNat 8 i)))

/-- NODE, NODE_COUNT and ROOT hold draws; TREE_VALID and CODES_VALID are 0. -/
def State.drawTree (s : State) : State :=
  { s with
    tree :=
      { nodes := s.drawnNodes
        count := (s.drawn .treeInfo).extractLsb' 8 10
        root := (s.drawn .treeInfo).extractLsb' 20 9
        valid := false, drawn := true }
    codes := { s.codes with valid := false } }

/-- CODE_VAL and CODE_LEN hold draws; CODES_VALID is 0. -/
def State.drawCodes (s : State) : State :=
  { s with codes := { val := s.drawnCodeVals, len := s.drawnCodeLens, valid := false, drawn := true } }

/-- FREQ holds draws. -/
def State.drawFreq (s : State) : State := { s with freq := s.drawnFreqs }

/-- ENDING A COMMAND WITH AN ERROR (R125), the one operation every `raise` goes through: if nothing
was written, only STATUS changes (case 1); otherwise the write set holds draws (case 2, `draw`);
the command completes with the code (case 4). -/
def State.raise (s : State) (e : Err) (dirty : Bool) (draw : State → State) : State :=
  (if dirty then draw s else s).complete e

/-- A stop of a command's pseudocode, as the outcome of the step. -/
def Stop.outcome (stop : Stop) (draw : State → State) (s : State) :
    Host.Outcome State Fault Refusal :=
  match stop with
  | .raise e dirty => .next (s.raise e dirty draw)
  | .fault f => .fault f

/-- The end of a command: what its pseudocode computed is written by `write` and the command
completes without error (R139), or the pseudocode stopped. -/
def finish {α : Type} (draw : State → State) (s : State) (r : Except Stop α) (write : α → State) :
    Host.Outcome State Fault Refusal :=
  match r with
  | .ok a => .next ((write a).complete .none)
  | .error stop => stop.outcome draw s

/-! ### Reading the arena -/

/-- NODE[i]; index 511 does not exist. -/
def nodeAt (nodes : Vector Node nodeMax) (i : NodeIdx) : Option Node := nodes[i.toNat]?

/-- The tree below arena index i, if it is one of depth below the fuel. -/
def treeAt (nodes : Vector Node nodeMax) : Nat → NodeIdx → Option HTree
  | 0, _ => none
  | fuel + 1, i =>
    match nodeAt nodes i with
    | none => none
    | some n =>
      if n.isLeaf then some (.leaf n.symbol)
      else
        match treeAt nodes fuel n.left with
        | none => none
        | some l =>
          match treeAt nodes fuel n.right with
          | none => none
          | some r => some (.node l r)

/-- The tree at ROOT. A path of distinct entries has at most NODE_MAX nodes, so NODE_MAX is enough. -/
def Arena.tree? (t : Arena) : Option HTree := treeAt t.nodes nodeMax t.root

/-- The tree at ROOT as a command reads it; an arena that is no tree faults (R40 excludes it). -/
def readTree (t : Arena) : Except Stop HTree :=
  match t.tree? with
  | some tree => .ok tree
  | none => .error (.fault .arenaBroken)

end Sys2Proof.Machine
end

