-- ==== Sys2Proof/Machine/Reader.lean ====
section
/-! DEFINITION. The bit-stream reader (R108 to R111): read_bit, and the commands BR_INIT and READ_BIT. -/

namespace Sys2Proof.Machine

/-- The cursors after one more bit (R109). -/
def Reader.advance (r : Reader) : Reader :=
  if r.bit = 7 then { r with bit := 0, pos := r.pos + 1 } else { r with bit := r.bit + 1 }

/-- `read_bit()` (R109). BR_POS and BR_END left as draws by a failed DECOMPRESS (R125, R147) may lie beyond
IBUF_BYTES, against R49; no rule gives that read an outcome, and it faults (DESIGN CHOICE, log entry 17). -/
def readBit (ibuf : Memory) (dirty : Bool) (r : Reader) : Except Stop (Bool × Reader) :=
  if r.limit.toNat ≤ r.pos.toNat then .error (.raise .endOfStream dirty)
  else
    match memRead ibuf r.pos.toNat with
    | .error e => .error e
    | .ok b => .ok (streamBit b r.bit, r.advance)

/-- The check of IN_LEN that every command over an IBUF range makes first (R27, R124). -/
def State.inLenTooBig (s : State) : Bool := s.cfg.ibufBytes.toNat < s.inLen.toNat

/-- The reader BR_INIT constructs (R110): the sum is taken without wrap-around and cut to IN_LEN. -/
def readerAt (start extent inLen : Word) : Reader :=
  { pos := start, bit := 0, limit := BitVec.ofNat 32 (min (start.toNat + extent.toNat) inLen.toNat) }

/-- BR_INIT (R110). Its only error comes before any write. -/
def execBrInit (s : State) : Host.Outcome State Fault Refusal :=
  finish id s
    (if s.inLenTooBig then .error (.raise .badOperand false)
      else .ok (readerAt s.arg0 s.arg1 s.inLen))
    (fun r => { s with reader := r })

/-- The write set of READ_BIT and DECODE_SYMBOL (R69): BR_POS, BR_BIT and RESULT. -/
def drawReadBit (s : State) : State := s.drawCursor.drawResult

/-- READ_BIT (R111). -/
def execReadBit (s : State) : Host.Outcome State Fault Refusal :=
  finish drawReadBit s (readBit s.ibuf false s.reader)
    (fun (v, r) => { s with reader := r, result := (BitVec.ofBool v).setWidth 32 })

end Sys2Proof.Machine
end

