-- ==== Sys2Proof/Machine/Analysis.lean ====
section
/-! DEFINITION. The frequency counter, the tree builder and the code-table generator (R83 to R90):
COUNT_FREQ, BUILD_TREE and BUILD_CODES. -/

namespace Sys2Proof.Machine

/-! ### Frequency counter -/

/-- `FREQ[b] <- FREQ[b] + 1` (R83). -/
def countByte (freq : Vector Word 256) (b : Byte) : Vector Word 256 :=
  freq.set b.toNat (freq[b.toNat]'b.isLt + 1) b.isLt

/-- The body of COUNT_FREQ over the bytes of the input (R83). -/
def countFreq (input : List Byte) : Vector Word 256 :=
  input.foldl countByte (Vector.replicate 256 0)

/-- IBUF[0 .. IN_LEN − 1], after the check of IN_LEN (R83, R114). -/
def readInput (s : State) : Except Stop (List Byte) :=
  if s.inLenTooBig then .error (.raise .badOperand false)
  else memReadRange s.ibuf 0 s.inLen.toNat

/-- COUNT_FREQ (R83). Its only error comes before any write. -/
def execCountFreq (s : State) : Host.Outcome State Fault Refusal :=
  finish id s (readInput s) (fun input => { s with freq := countFreq input })

/-! ### Tree builder -/

/-- An entry of PQ (R86): a weight W[i] and the arena index i. -/
abbrev Entry := Nat × Nat

/-- The order of R84: by weight, then by arena index. -/
def Entry.before (a b : Entry) : Bool := a.1 < b.1 || (a.1 == b.1 && a.2 < b.2)

/-- PQ ∪ {e}; PQ is held in the order of R84, so its least element is its first. -/
def insertEntry (e : Entry) : List Entry → List Entry
  | [] => [e]
  | x :: xs => if e.before x then e :: x :: xs else x :: insertEntry e xs

/-- The tree builder at work (R86): the arena, the next free index n, and PQ (R42). -/
structure Build where
  nodes : Vector Node nodeMax
  n : Nat
  pq : List Entry
  deriving DecidableEq, Repr

/-- NODE[n] gets a value and joins PQ with a weight (R86). -/
def Build.add (b : Build) (node : Node) (weight : Nat) (pq : List Entry) : Build :=
  { nodes := b.nodes.setIfInBounds b.n node, n := b.n + 1, pq := insertEntry (weight, b.n) pq }

/-- The symbols with FREQ[s] > 0, ascending, with their counts. -/
def presentSymbols (freq : Vector Word 256) : List (Byte × Nat) :=
  freq.toList.zipIdx.filterMap
    (fun (f, i) => if f = 0 then none else some (BitVec.ofNat 8 i, f.toNat))

/-- The leaves of R86, in ascending symbol order (R85). -/
def seedLeaves (freq : Vector Word 256) (nodes : Vector Node nodeMax) : Build :=
  (presentSymbols freq).foldl (fun b (s, f) => b.add (Node.ofSymbol s) f b.pq)
    { nodes := nodes, n := 0, pq := [] }

/-- The merge loop of R86: the two least entries are taken out, the first removed becomes the left
child. The fuel is the number of merges left. -/
def mergeAll : Nat → Build → Build
  | 0, b => b
  | fuel + 1, b =>
    match b.pq with
    | x :: y :: rest =>
      mergeAll fuel
        (b.add (Node.ofChildren (BitVec.ofNat 9 x.2) (BitVec.ofNat 9 y.2)) (x.1 + y.1) rest)
    | _ => b

/-- The body of BUILD_TREE (R86), on the arena as it stands; CODES_VALID is the caller's. -/
def buildTree (freq : Vector Word 256) (t : Arena) : Arena :=
  let seeded := seedLeaves freq t.nodes
  let built := mergeAll (seeded.pq.length - 1) seeded
  match built.pq with
  | [] => { t with valid := false, count := 0, root := 0 }
  | e :: _ =>
    { nodes := built.nodes, count := BitVec.ofNat 10 built.n, root := BitVec.ofNat 9 e.2, valid := true }

/-- BUILD_TREE (R86). -/
def execBuildTree (s : State) : Host.Outcome State Fault Refusal :=
  .next ({ s with tree := buildTree s.freq s.tree, codes := { s.codes with valid := false } }.complete
    .none)

/-! ### Code-table generator -/

/-- The leaves in traversal order, each with the accumulated bit string (R87, `visit` of R88). -/
def HTree.paths : HTree → List Bool → List (Byte × List Bool)
  | .leaf s, c => [(s, c)]
  | .node l r, c => HTree.paths l (c ++ [false]) ++ HTree.paths r (c ++ [true])

/-- The codes of a tree in traversal order; a root that is a Leaf has the code `0` (R87). -/
def HTree.codes : HTree → List (Byte × List Bool)
  | .leaf s => [(s, [false])]
  | t => t.paths []

/-- CODE_VAL[s] and CODE_LEN[s] get a code (R88). -/
def CodeTable.put (c : CodeTable) (s : Byte) (bits : List Bool) : CodeTable :=
  { c with
    val := c.val.set s.toNat (leftAlign bits) s.isLt
    len := c.len.set s.toNat (BitVec.ofNat 6 bits.length) s.isLt }

/-- A table in which no symbol has a code (R88). -/
def CodeTable.empty : CodeTable :=
  { val := Vector.replicate 256 0, len := Vector.replicate 256 0, valid := true }

/-- The body of BUILD_CODES below its first check (R88): the later of two leaves of one symbol wins.
CODE_TOO_LONG comes after the write of CODES_VALID. -/
def buildCodes (t : HTree) : Except Stop CodeTable :=
  if t.codes.any (fun (_, bits) => maxCodeLen < bits.length) then
    .error (.raise .codeTooLong true)
  else .ok (t.codes.foldl (fun c (s, bits) => c.put s bits) CodeTable.empty)

/-- BUILD_CODES (R88). -/
def execBuildCodes (s : State) : Host.Outcome State Fault Refusal :=
  finish State.drawCodes s
    (if s.tree.valid then
      match readTree s.tree with
      | .error e => .error e
      | .ok t => buildCodes t
    else .error (.raise .badState false))
    (fun c => { s with codes := c })

end Sys2Proof.Machine
end

