-- ==== Sys2Proof/Machine/Writer.lean ====
section
/-! DEFINITION. The bit-stream writer (R100 to R107): emit, write_bit, and the commands BW_RESET,
WRITE_BIT, WRITE_CODE and BW_FINISH. `cap` is OBUF_BYTES; `dirty` says whether the command has
written something before (R125). -/

namespace Sys2Proof.Machine

/-- `MemWrite(OBUF, x[OUT_LEN], 1, b)` and `x[OUT_LEN] <- x[OUT_LEN] + 1` (R101, R118). -/
def Writer.push (w : Writer) (b : Byte) : Writer :=
  { w with outLen := w.outLen + 1, obuf := w.obuf.set w.outLen.toNat b }

/-- `emit(b)` (R101). -/
def emit (cap : Nat) (b : Byte) (dirty : Bool) (w : Writer) : Except Stop Writer :=
  if cap ≤ w.outLen.toNat then .error (.raise .outputOverflow dirty)
  else .ok (w.push b)

/-- `emit` of several bytes, in order. -/
def emitAll (cap : Nat) : List Byte → Bool → Writer → Except Stop Writer
  | [], _, w => .ok w
  | b :: bs, dirty, w =>
    match emit cap b dirty w with
    | .error e => .error e
    | .ok w' => emitAll cap bs true w'

/-- `x[BW_ACC] <- 0 ; x[BW_CNT] <- 0`. -/
def Writer.clearByte (w : Writer) : Writer := { w with acc := 0, cnt := 0 }

/-- The first line of `write_bit` (R102): the target bit is set if v = 1. -/
def Writer.setBit (w : Writer) (v : Bool) : Writer :=
  if v then { w with acc := w.acc ||| streamMask w.cnt } else w

/-- `write_bit(v)` (R102), with the flush of R103. -/
def writeBit (cap : Nat) (v : Bool) (dirty : Bool) (w : Writer) : Except Stop Writer :=
  if w.cnt = 7 then
    match emit cap (w.setBit v).acc (dirty || v) (w.setBit v) with
    | .error e => .error e
    | .ok w' => .ok w'.clearByte
  else .ok { w.setBit v with cnt := w.cnt + 1 }

/-- `write_bit` of a bit string, first bit first. -/
def writeBits (cap : Nat) : List Bool → Bool → Writer → Except Stop Writer
  | [], _, w => .ok w
  | v :: vs, dirty, w =>
    match writeBit cap v dirty w with
    | .error e => .error e
    | .ok w' => writeBits cap vs true w'

/-- The body of BW_FINISH (R107). -/
def flushByte (cap : Nat) (dirty : Bool) (w : Writer) : Except Stop Writer :=
  if w.cnt = 0 then .ok w.clearByte
  else
    match emit cap w.acc dirty w with
    | .error e => .error e
    | .ok w' => .ok w'.clearByte

/-- OBUF_BYTES. -/
def State.obufCap (s : State) : Nat := s.cfg.obufBytes.toNat

/-- The write set of the bit-stream writer's commands (R69): BW_STATE, OUT_LEN, and OBUF from the
starting OUT_LEN up. -/
def drawWriter (s : State) : State := (s.drawOutput s.writer.outLen.toNat).drawBwState

/-- BW_RESET (R104). -/
def execBwReset (s : State) : Host.Outcome State Fault Refusal :=
  .next ({ s with writer := s.writer.clearByte }.complete .none)

/-- WRITE_BIT (R105). -/
def execWriteBit (s : State) : Host.Outcome State Fault Refusal :=
  finish drawWriter s (writeBit s.obufCap (bitArg s.arg0) false s.writer)
    (fun w => { s with writer := w })

/-- WRITE_CODE (R106). -/
def execWriteCode (s : State) : Host.Outcome State Fault Refusal :=
  finish drawWriter s
    (if maxCodeLen < s.arg1.toNat then .error (.raise .badOperand false)
      else writeBits s.obufCap (leadingBits s.arg0 s.arg1.toNat) false s.writer)
    (fun w => { s with writer := w })

/-- BW_FINISH (R107). -/
def execBwFinish (s : State) : Host.Outcome State Fault Refusal :=
  finish drawWriter s (flushByte s.obufCap false s.writer) (fun w => { s with writer := w })

end Sys2Proof.Machine
end

