-- ==== Sys2Proof/Machine/TreeFormat.lean ====
section
/-! DEFINITION. The tree serializer, the tree deserializer and the header codec (R91 to R99), and the
meanings of the two tree tokens (R72, R92). -/

namespace Sys2Proof.Machine

/-! ### Serializer -/

/-- The bytes `ser` emits for a tree (R91). -/
def HTree.serialize : HTree → List Byte
  | .leaf s => [0x01, s]
  | .node l r => 0x00 :: (HTree.serialize l ++ HTree.serialize r)

/-- The write set of SERIALIZE_TREE (R69): OUT_LEN, OBUF from the starting OUT_LEN up, and RESULT. -/
def drawSerialize (s : State) : State := (s.drawOutput s.writer.outLen.toNat).drawResult

/-- SERIALIZE_TREE (R96). -/
def execSerializeTree (s : State) : Host.Outcome State Fault Refusal :=
  finish drawSerialize s
    (if s.tree.valid && s.writer.cnt == 0 then
      match readTree s.tree with
      | .error e => .error e
      | .ok t => emitAll s.obufCap t.serialize false s.writer
    else .error (.raise .badState false))
    (fun w => { s with writer := w, result := w.outLen - s.writer.outLen })

/-! ### Header codec, compression direction -/

/-- The body of WRITE_HEADER (R98): the placeholder, the tree, then the backfill of the two
little-endian fields. HDR_SIZE is the OUT_LEN it leaves. -/
def writeHeader (cap : Nat) (origSize : Word) (t : HTree) (w : Writer) : Except Stop Writer :=
  match emitAll cap (List.replicate 8 0x00 ++ t.serialize) true { w.clearByte with outLen := 0 } with
  | .error e => .error e
  | .ok w' =>
    .ok { w' with obuf := (w'.obuf.setRange 0 (le32Bytes w'.outLen)).setRange 4 (le32Bytes origSize) }

/-- The write set of WRITE_HEADER (R69): OUT_LEN, all of OBUF, HDR_SIZE, ORIG_SIZE and BW_STATE. -/
def drawWriteHeader (s : State) : State := ((s.drawOutput 0).drawHeader).drawBwState

/-- WRITE_HEADER (R98). -/
def execWriteHeader (s : State) : Host.Outcome State Fault Refusal :=
  finish drawWriteHeader s
    (if s.tree.valid then
      match readTree s.tree with
      | .error e => .error e
      | .ok t => writeHeader s.obufCap s.arg0 t s.writer
    else .error (.raise .badState false))
    (fun w => { s with writer := w, hdrSize := w.outLen, origSize := s.arg0 })

/-! ### Deserializer -/

/-- Every error inside `des_tree` is this one, and comes after its write of TREE_VALID (R92). -/
def corrupt {α : Type} : Except Stop α := .error (.raise .truncatedOrCorrupt true)

/-- `read_byte()` at address p with bound limit (R92). -/
def readWithin (ibuf : Memory) (limit p : Nat) : Except Stop Byte :=
  if limit ≤ p then corrupt else memRead ibuf p

/-- The next token of the stream, and the deserializer with its cursor after it (R92): the flag byte,
and the symbol byte where the decoder asks for one more. -/
def fetchToken (ibuf : Memory) (d : Des) : Except Stop (Instr × Des) :=
  match readWithin ibuf d.limit d.pos with
  | .error e => .error e
  | .ok flag =>
    match decodeToken [flag] with
    | .ok (i, _) => .ok (i, { d with pos := d.pos + 1 })
    | .error .truncated =>
      match readWithin ibuf d.limit (d.pos + 1) with
      | .error e => .error e
      | .ok symbol =>
        match decodeToken [flag, symbol] with
        | .ok (i, _) => .ok (i, { d with pos := d.pos + 2 })
        | .error _ => corrupt
    | .error _ => corrupt

/-- `des_node` returns node v to the Internal nodes that wait for it (R92): one that waited for its
left subtree now waits for its right one; one that waited for its right subtree is written, and is
itself returned. The last component is the root, when no node waits any more. -/
def deliver (nodes : Vector Node nodeMax) (v : NodeIdx) :
    List Frame → Vector Node nodeMax × List Frame × Option NodeIdx
  | [] => (nodes, [], some v)
  | .left i :: stack => (nodes, .right i v :: stack, none)
  | .right i l :: stack => deliver (nodes.setIfInBounds i.toNat (Node.ofChildren l v)) i stack

/-- What one token leaves: the deserializer, the arena and, at the end of the tree, its root. -/
abbrev TokenResult := Except Stop (Des × Vector Node nodeMax × Option NodeIdx)

/-- A Leaf token (R92): `alloc`, `NODE[i] <- Leaf`, `return i`. -/
def desLeaf (symbol : Byte) (d : Des) (nodes : Vector Node nodeMax) : TokenResult :=
  if nodeMax ≤ d.cnt then corrupt
  else
    let r := deliver (nodes.setIfInBounds d.cnt (Node.ofSymbol symbol)) (BitVec.ofNat 9 d.cnt) d.stack
    .ok ({ d with cnt := d.cnt + 1, stack := r.2.1 }, r.1, r.2.2)

/-- An Internal token (R92): `alloc`, then its left subtree is next. -/
def desInternal (d : Des) (nodes : Vector Node nodeMax) : TokenResult :=
  if nodeMax ≤ d.cnt then corrupt
  else .ok ({ d with cnt := d.cnt + 1, stack := .left (BitVec.ofNat 9 d.cnt) :: d.stack }, nodes, none)

/-- One token of `des_node`. `fetchToken` gives no instruction but the two tokens. -/
def desToken (i : Instr) (d : Des) (nodes : Vector Node nodeMax) : TokenResult :=
  match i with
  | .treeLeaf symbol => desLeaf symbol d nodes
  | .treeInternal => desInternal d nodes
  | _ => corrupt

/-- `des_node` token by token, up to fuel tokens. -/
def desLoop (ibuf : Memory) :
    Nat → Des → Vector Node nodeMax → Except Stop (Des × Vector Node nodeMax × NodeIdx)
  | 0, _, _ => corrupt
  | fuel + 1, d, nodes =>
    match fetchToken ibuf d with
    | .error e => .error e
    | .ok (i, d') =>
      match desToken i d' nodes with
      | .error e => .error e
      | .ok (d'', nodes', some root) => .ok (d'', nodes', root)
      | .ok (d'', nodes', none) => desLoop ibuf fuel d'' nodes'

/-- The deserializer at the start of `des_tree(p0, E)` (R92). -/
def Des.start (p0 limit : Nat) : Des := { pos := p0, limit := limit, cnt := 0, stack := [] }

/-- The arena `des_tree` leaves (R92): ROOT, NODE_COUNT, TREE_VALID. -/
def Des.arena (d : Des) (nodes : Vector Node nodeMax) (root : NodeIdx) : Arena :=
  { nodes := nodes, count := BitVec.ofNat 10 d.cnt, root := root, valid := true }

/-- `des_tree(p0, E)` (R92): the arena and the address after the tree. The 512th token fails the
arena check (R94), so the fuel never runs out first. -/
def desTree (ibuf : Memory) (p0 limit : Nat) (nodes : Vector Node nodeMax) :
    Except Stop (Arena × Word) :=
  match desLoop ibuf (nodeMax + 1) (Des.start p0 limit) nodes with
  | .error e => .error e
  | .ok (d, nodes', root) => .ok (d.arena nodes' root, BitVec.ofNat 32 d.pos)

/-- The write set of DESERIALIZE_TREE (R69): NODE, TREE_INFO and RESULT. -/
def drawDeserialize (s : State) : State := s.drawTree.drawResult

/-- The bound of DESERIALIZE_TREE, `min(ARG1, IN_LEN)` (R97). -/
def State.desLimit (s : State) : Nat := min s.arg1.toNat s.inLen.toNat

/-- DESERIALIZE_TREE (R97). -/
def execDeserializeTree (s : State) : Host.Outcome State Fault Refusal :=
  finish drawDeserialize s
    (if s.inLenTooBig then .error (.raise .badOperand false)
      else desTree s.ibuf s.arg0.toNat s.desLimit s.tree.nodes)
    (fun (tree, p) => { s with tree := tree, codes := { s.codes with valid := false }, result := p })

/-! ### Header codec, decompression direction -/

/-- The two fields at the start of a compressed buffer (R99): header_size and original_size, with the
checks IN_LEN ≥ 8 and header_size ≤ IN_LEN around them. -/
def readHeaderFields (ibuf : Memory) (inLen : Word) : Except Stop (Word × Word) :=
  if inLen.toNat < 8 then corrupt
  else
    match memReadRange ibuf 0 8 with
    | .ok [h0, h1, h2, h3, o0, o1, o2, o3] =>
      if inLen.toNat < (le32 h0 h1 h2 h3).toNat then corrupt
      else .ok (le32 h0 h1 h2 h3, le32 o0 o1 o2 o3)
    | .ok _ => corrupt
    | .error e => .error e

/-- What the body of READ_HEADER computes (R99). -/
structure HeaderRead where
  hdrSize : Word
  origSize : Word
  tree : Arena
  /-- the cursor after the last tree byte -/
  after : Word
  deriving DecidableEq, Repr

/-- The body of READ_HEADER (R99), below its first check. -/
def readHeader (ibuf : Memory) (inLen : Word) (nodes : Vector Node nodeMax) :
    Except Stop HeaderRead :=
  match readHeaderFields ibuf inLen with
  | .error e => .error e
  | .ok (h, o) =>
    match desTree ibuf 8 h.toNat nodes with
    | .error e => .error e
    | .ok (tree, p) => .ok { hdrSize := h, origSize := o, tree := tree, after := p }

/-- READ_HEADER's writes but for RESULT (R99, R118). -/
def State.withHeader (s : State) (r : HeaderRead) : State :=
  { s with
    hdrSize := r.hdrSize, origSize := r.origSize, tree := r.tree
    codes := { s.codes with valid := false } }

/-- The write set of READ_HEADER (R69): HDR_SIZE, ORIG_SIZE, NODE, TREE_INFO and RESULT. -/
def drawReadHeader (s : State) : State := s.drawHeader.drawTree.drawResult

/-- READ_HEADER (R99). -/
def execReadHeader (s : State) : Host.Outcome State Fault Refusal :=
  finish drawReadHeader s
    (if s.inLenTooBig then .error (.raise .badOperand false)
      else readHeader s.ibuf s.inLen s.tree.nodes)
    (fun r => { s.withHeader r with result := r.after })

end Sys2Proof.Machine
end

