-- ==== Sys2Proof/Machine/Codec.lean ====
section
/-! DEFINITION. The encoder and the decoder (R112 to R123): NOP, ENCODE_BYTE, COMPRESS, DECODE_SYMBOL
and DECOMPRESS, and what a token of a tree or a bit of a payload does when the core takes them one at
a time (R92, R116). -/

namespace Sys2Proof.Machine

/-- NOP (R112). -/
def execNop (s : State) : Host.Outcome State Fault Refusal := .next (s.complete .none)

/-! ### Encoder -/

/-- The code of a symbol in the code table, as bits (R113): the first CODE_LEN[s] bits of CODE_VAL[s]. -/
def CodeTable.bits (c : CodeTable) (s : Byte) : List Bool :=
  leadingBits (c.val[s.toNat]'s.isLt) (c.len[s.toNat]'s.isLt).toNat

/-- ENCODE_BYTE (R113). -/
def execEncodeByte (s : State) : Host.Outcome State Fault Refusal :=
  finish drawWriter s
    (if s.codes.valid && s.codes.len[(symbolArg s.arg0).toNat]'(symbolArg s.arg0).isLt != 0 then
      writeBits s.obufCap (s.codes.bits (symbolArg s.arg0)) false s.writer
    else .error (.raise .badState false))
    (fun w => { s with writer := w })

/-- What COMPRESS computes of a non-empty input (R114). -/
structure Compressed where
  freq : Vector Word 256
  tree : Arena
  codes : CodeTable
  hdrSize : Word
  writer : Writer
  deriving DecidableEq, Repr

/-- COMPRESS from BUILD_TREE on (R114), on a non-empty input: BUILD_TREE, BUILD_CODES, WRITE_HEADER
with n, the payload, BW_FINISH. COUNT_FREQ has written FREQ, so every error leaves draws. -/
def compressInput (s : State) (input : List Byte) : Except Stop Compressed :=
  let freq := countFreq input
  let tree := buildTree freq s.tree
  match readTree tree with
  | .error e => .error e
  | .ok t =>
    match buildCodes t with
    | .error e => .error e
    | .ok codes =>
      match writeHeader s.obufCap s.inLen t s.writer with
      | .error e => .error e
      | .ok header =>
        match writeBits s.obufCap (input.flatMap codes.bits) true header with
        | .error e => .error e
        | .ok payload =>
          match flushByte s.obufCap true payload with
          | .error e => .error e
          | .ok w =>
            .ok { freq := freq, tree := tree, codes := codes, hdrSize := header.outLen, writer := w }

/-- The write set of COMPRESS (R69), OUT_LEN being 0 (R125). -/
def drawCompress (s : State) : State :=
  ((((s.drawFreq.drawTree).drawCodes).drawHeader).drawObuf).drawBwState

/-- COMPRESS of the empty input (R114, R121). -/
def State.compressEmpty (s : State) : State :=
  { s.noTree with
    freq := countFreq []
    writer := { s.writer.clearByte with outLen := 0 } }

/-- COMPRESS (R114). -/
def execCompress (s : State) : Host.Outcome State Fault Refusal :=
  match readInput s with
  | .error stop => stop.outcome drawCompress s
  | .ok input =>
    if s.inLen = 0 then .next (s.compressEmpty.complete .none)
    else
      finish drawCompress s (compressInput s input)
        (fun c => { s with
          freq := c.freq, tree := c.tree, codes := c.codes
          hdrSize := c.hdrSize, origSize := s.inLen, writer := c.writer })

/-! ### Decoder -/

/-- One bit of the tree walk (R116): from node cur, either on to another Internal node (left) or to
the symbol the walk emits (right). A Leaf as current node is a one-leaf tree's root, which consumes
a bit and ignores it. -/
def walkBit (nodes : Vector Node nodeMax) (cur : NodeIdx) (v : Bool) :
    Except Stop (NodeIdx ⊕ Byte) :=
  match nodeAt nodes cur with
  | none => .error (.fault .arenaBroken)
  | some n =>
    if n.isLeaf then .ok (.inr n.symbol)
    else
      match nodeAt nodes (if v then n.right else n.left) with
      | none => .error (.fault .arenaBroken)
      | some child =>
        if child.isLeaf then .ok (.inr child.symbol)
        else .ok (.inl (if v then n.right else n.left))

/-- The walk of `decode_sym` from node cur, over up to fuel bits (R116). -/
def walkLoop (nodes : Vector Node nodeMax) (ibuf : Memory) :
    Nat → NodeIdx → Bool → Reader → Except Stop (Byte × Reader)
  | 0, _, dirty, _ => .error (.raise .endOfStream dirty)
  | fuel + 1, cur, dirty, r =>
    match readBit ibuf dirty r with
    | .error e => .error e
    | .ok (v, r') =>
      match walkBit nodes cur v with
      | .error e => .error e
      | .ok (.inr symbol) => .ok (symbol, r')
      | .ok (.inl next) => walkLoop nodes ibuf fuel next true r'

/-- The bits of the bytes from BR_POS up to BR_END: no walk can read more (R109). -/
def Reader.bitsLeft (r : Reader) : Nat := 8 * (r.limit.toNat - r.pos.toNat)

/-- `decode_sym()` (R116). The fuel covers every bit that is left, so it never runs out first. -/
def decodeSym (t : Arena) (ibuf : Memory) (dirty : Bool) (r : Reader) : Except Stop (Byte × Reader) :=
  walkLoop t.nodes ibuf (r.bitsLeft + 1) t.root dirty r

/-- DECODE_SYMBOL (R117). -/
def execDecodeSymbol (s : State) : Host.Outcome State Fault Refusal :=
  finish drawReadBit s
    (if s.tree.valid then decodeSym s.tree s.ibuf false s.reader
      else .error (.raise .badState false))
    (fun (symbol, r) => { s with reader := r, result := symbol.setWidth 32 })

/-- The loop of R118 over n symbols: each goes straight to OBUF[OUT_LEN]. -/
def decodeMany (t : Arena) (ibuf : Memory) : Nat → Reader → Writer → Except Stop (Reader × Writer)
  | 0, r, w => .ok (r, w)
  | n + 1, r, w =>
    match decodeSym t ibuf true r with
    | .error e => .error e
    | .ok (symbol, r') => decodeMany t ibuf n r' (w.push symbol)

/-- The reader over the payload (R118): `h + min(o, IN_LEN − h)` is its end. -/
def payloadReader (h o inLen : Word) : Reader :=
  { pos := h, bit := 0
    limit := BitVec.ofNat 32 (h.toNat + min o.toNat (inLen.toNat - h.toNat)) }

/-- What DECOMPRESS computes of a non-empty input (R118). -/
structure Decompressed where
  header : HeaderRead
  reader : Reader
  writer : Writer
  deriving DecidableEq, Repr

/-- DECOMPRESS below its IN_LEN checks (R118). -/
def decompressInput (s : State) : Except Stop Decompressed :=
  match readHeader s.ibuf s.inLen s.tree.nodes with
  | .error e => .error e
  | .ok header =>
    if s.obufCap < header.origSize.toNat then .error (.raise .outputOverflow true)
    else
      match decodeMany header.tree s.ibuf header.origSize.toNat
          (payloadReader header.hdrSize header.origSize s.inLen) { s.writer with outLen := 0 } with
      | .error e => .error e
      | .ok (r, w) => .ok { header := header, reader := r, writer := w }

/-- The write set of DECOMPRESS (R69), OUT_LEN being 0 (R125). -/
def drawDecompress (s : State) : State :=
  (((s.drawTree.drawHeader).drawCursor).drawExtent).drawObuf

/-- DECOMPRESS of the empty input (R118, R121). -/
def State.decompressEmpty (s : State) : State :=
  { s.noTree with writer := { s.writer with outLen := 0 } }

/-- DECOMPRESS (R118). -/
def execDecompress (s : State) : Host.Outcome State Fault Refusal :=
  if s.inLenTooBig then .next (s.raise .badOperand false drawDecompress)
  else if s.inLen = 0 then .next (s.decompressEmpty.complete .none)
  else
    finish drawDecompress s (decompressInput s)
      (fun r => { s.withHeader r.header with reader := r.reader, writer := r.writer })

/-! ### One token, one bit at a time -/

/-- What an error leaves in the command that runs `des_tree`. -/
def DesUse.draw : DesUse → State → State
  | .deserializeTree => drawDeserialize
  | .readHeader => drawReadHeader
  | .decompress => drawDecompress

/-- What an error leaves in the command that runs `decode_sym`. -/
def WalkUse.draw : WalkUse → State → State
  | .decodeSymbol => drawReadBit
  | .decompress => drawDecompress

/-- The core stands before the next bit of a payload. -/
def State.walking (s : State) (use : WalkUse) (w : Walk) : State :=
  { s with activity := some (.walk w use) }

/-- DECOMPRESS after its tree is read (R118): the check of original_size, the reader over the
payload, OUT_LEN = 0, and the walk from ROOT if there is a symbol to decode. -/
def startPayload (s : State) : Host.Outcome State Fault Refusal :=
  if s.obufCap < s.origSize.toNat then .next (s.raise .outputOverflow true drawDecompress)
  else
    let s' := { s with
      reader := payloadReader s.hdrSize s.origSize s.inLen, writer := { s.writer with outLen := 0 } }
    if s.origSize = 0 then .next (s'.complete .none)
    else .next (s'.walking .decompress { cur := s.tree.root, emitted := 0, dirty := true })

/-- The rest of the command once `des_tree` has returned address p (R97, R99, R118). -/
def afterTree (use : DesUse) (p : Nat) (s : State) : Host.Outcome State Fault Refusal :=
  match use with
  | .deserializeTree | .readHeader => .next ({ s with result := BitVec.ofNat 32 p }.complete .none)
  | .decompress => startPayload s

/-- What a token leaves in the state. -/
def tokenOutcome (use : DesUse) (s : State) (r : TokenResult) : Host.Outcome State Fault Refusal :=
  match r with
  | .error stop => stop.outcome use.draw s
  | .ok (d, nodes, none) =>
    .next { s with tree := { s.tree with nodes := nodes }, activity := some (.deserialize d use) }
  | .ok (d, nodes, some root) => afterTree use d.pos { s with tree := d.arena nodes root }

/-- The Leaf token (R72, R92), met by a running deserializer whose cursor stands after it. -/
def execTreeLeaf (symbol : Byte) (s : State) : Host.Outcome State Fault Refusal :=
  match s.activity with
  | some (.deserialize d use) => tokenOutcome use s (desLeaf symbol d s.tree.nodes)
  | _ => .refused .noTreeBeingRead

/-- The Internal token (R72, R92), met by a running deserializer whose cursor stands after it. -/
def execTreeInternal (s : State) : Host.Outcome State Fault Refusal :=
  match s.activity with
  | some (.deserialize d use) => tokenOutcome use s (desInternal d s.tree.nodes)
  | _ => .refused .noTreeBeingRead

/-- The rest of the command once the walk has emitted a symbol (R117, R118). -/
def afterSymbol (use : WalkUse) (w : Walk) (symbol : Byte) (s : State) :
    Host.Outcome State Fault Refusal :=
  match use with
  | .decodeSymbol => .next ({ s with result := symbol.setWidth 32 }.complete .none)
  | .decompress =>
    let s' := { s with writer := s.writer.push symbol }
    if w.emitted + 1 < s.origSize.toNat then
      .next (s'.walking use { cur := s.tree.root, emitted := w.emitted + 1, dirty := true })
    else .next (s'.complete .none)

/-- A payload bit v (R116), met by a running walk whose reader stands after it. -/
def walkOutcome (v : Bool) (s : State) : Host.Outcome State Fault Refusal :=
  match s.activity with
  | some (.walk w use) =>
    match walkBit s.tree.nodes w.cur v with
    | .error stop => stop.outcome use.draw s
    | .ok (.inl next) => .next (s.walking use { w with cur := next, dirty := true })
    | .ok (.inr symbol) => afterSymbol use w symbol s
  | _ => .refused .noWalk

/-- The payload bit 0 (R116): left. -/
def execPayloadBitLeft (s : State) : Host.Outcome State Fault Refusal := walkOutcome false s

/-- The payload bit 1 (R116): right. -/
def execPayloadBitRight (s : State) : Host.Outcome State Fault Refusal := walkOutcome true s

end Sys2Proof.Machine
end

