-- ==== Sys2Proof/Machine/Dispatch.lean ====
section
/-! DEFINITION. One arm per instruction, each a direct call of its meaning. -/

namespace Sys2Proof.Machine

def exec (i : Instr) (s : State) : Host.Outcome State Fault Refusal :=
  match i with
  | .nop => Sys2Proof.Machine.execNop s
  | .compress => Sys2Proof.Machine.execCompress s
  | .decompress => Sys2Proof.Machine.execDecompress s
  | .countFreq => Sys2Proof.Machine.execCountFreq s
  | .buildTree => Sys2Proof.Machine.execBuildTree s
  | .buildCodes => Sys2Proof.Machine.execBuildCodes s
  | .serializeTree => Sys2Proof.Machine.execSerializeTree s
  | .deserializeTree => Sys2Proof.Machine.execDeserializeTree s
  | .writeHeader => Sys2Proof.Machine.execWriteHeader s
  | .readHeader => Sys2Proof.Machine.execReadHeader s
  | .bwReset => Sys2Proof.Machine.execBwReset s
  | .writeBit => Sys2Proof.Machine.execWriteBit s
  | .writeCode => Sys2Proof.Machine.execWriteCode s
  | .bwFinish => Sys2Proof.Machine.execBwFinish s
  | .encodeByte => Sys2Proof.Machine.execEncodeByte s
  | .brInit => Sys2Proof.Machine.execBrInit s
  | .readBit => Sys2Proof.Machine.execReadBit s
  | .decodeSymbol => Sys2Proof.Machine.execDecodeSymbol s
  | .treeInternal => Sys2Proof.Machine.execTreeInternal s
  | .treeLeaf symbol => Sys2Proof.Machine.execTreeLeaf symbol s
  | .payloadBitLeft => Sys2Proof.Machine.execPayloadBitLeft s
  | .payloadBitRight => Sys2Proof.Machine.execPayloadBitRight s

end Sys2Proof.Machine
end

