-- ==== Sys2Proof/Machine/HostPort.lean ====
section
/-! DEFINITION. The host port (R46 and R53 to R58): the six operations, what each register reads as,
and the reset input (R141, R142). -/

namespace Sys2Proof.Machine

/-- What a register or table entry reads as while BUSY = 0 (R23 to R39), the draw of an error included
(R125, R140); none where its contents are unspecified otherwise (R37, R38, R39). -/
def State.regValue (s : State) : Reg → Option Word
  | .id => some Config.idWord
  | .cmd => some s.cmd
  | .status => some s.statusWord
  | .inLen => some s.inLen
  | .outLen => some s.writer.outLen
  | .arg0 => some s.arg0
  | .arg1 => some s.arg1
  | .result => some s.result
  | .hdrSize => some s.hdrSize
  | .origSize => some s.origSize
  | .bwState => some s.writer.word
  | .brPos => some s.reader.pos
  | .brBit => some (s.reader.bit.setWidth 32)
  | .brEnd => some s.reader.limit
  | .treeInfo => some (treeInfoWord s.tree s.codes.valid)
  | .paramIbuf => some s.cfg.ibufBytes
  | .paramObuf => some s.cfg.obufBytes
  | .freq b => some (s.freq[b.toNat]'b.isLt)
  | .codeVal b => if s.codes.valid || s.codes.drawn then some (s.codes.val[b.toNat]'b.isLt) else none
  | .codeLen b =>
    if s.codes.valid || s.codes.drawn then some ((s.codes.len[b.toNat]'b.isLt).setWidth 32) else none
  | .node i =>
    if s.tree.drawn || (s.tree.valid && i.val < s.tree.count.toNat) then some (s.tree.nodes[i.val].word)
    else none

/-- The registers whose reads return their values even while BUSY = 1 (R58). -/
def Reg.stable : Reg → Bool
  | .id | .cmd | .status | .inLen | .arg0 | .arg1 | .paramIbuf | .paramObuf => true
  | _ => false

/-- `RegRead(off)` (R46, R55, R56, R58). -/
def State.regRead (s : State) (off : Word) : Word :=
  match regAt off with
  | none => 0
  | some r =>
    if s.busy && !r.stable then s.drawn r
    else
      match s.regValue r with
      | some v => v
      | none => s.drawn r

/-- `IbufRead(a)` (R46); a byte that nothing has written is a draw (log entry 4). -/
def State.ibufRead (s : State) (a : Word) : Byte :=
  if a.toNat < s.cfg.ibufBytes.toNat then
    match s.ibuf.get a.toNat with
    | some b => b
    | none => Config.freeIbuf s.draws a.toNat
  else 0

/-- The byte an OBUF address holds (R61): the last one written, or the draw that an error left there
(R125, R140); none where nothing has written since reset (R51). -/
def State.obufByte (s : State) (a : Nat) : Option Byte :=
  (s.writer.obuf.get a).or ((drawAt s.obufDraws a).map (fun number => Config.freeObuf number a))

/-- `ObufRead(a)` (R46, R51, R58): unspecified while BUSY = 1 and where the address holds no byte. -/
def State.obufRead (s : State) (a : Word) : Byte :=
  if s.busy then Config.freeObuf s.draws a.toNat
  else if a.toNat < s.obufCap then
    match s.obufByte a.toNat with
    | some b => b
    | none => Config.freeObuf s.draws a.toNat
  else 0

/-- `RegWrite(0x004, v)` (R25, R138): a command word is accepted, or dropped while BUSY = 1. -/
def State.cmdWrite (s : State) (v : Word) : State := if s.busy then s.dropWrite else s.accept v

/-- A write of a writable register other than CMD while BUSY = 0 (R23); every other one is ignored
(R56). -/
def State.regStore (s : State) (r : Reg) (v : Word) : State :=
  match r with
  | .inLen => { s with inLen := v }
  | .outLen => { s with writer := { s.writer with outLen := v } }
  | .arg0 => { s with arg0 := v }
  | .arg1 => { s with arg1 := v }
  | .freq b => { s with freq := s.freq.set b.toNat v b.isLt }
  | _ => s

/-- `RegWrite(off, v)` (R46, R55, R56, R58). -/
def State.regWrite (s : State) (off v : Word) : State :=
  match regAt off with
  | none => s
  | some .cmd => s.cmdWrite v
  | some r => if s.busy then s else s.regStore r v

/-- `IbufWrite(a, b)` (R46, R58). -/
def State.ibufWrite (s : State) (a : Word) (b : Byte) : State :=
  if a.toNat < s.cfg.ibufBytes.toNat && !s.busy then { s with ibuf := s.ibuf.set a.toNat b } else s

/-- The port hands back a value. While BUSY = 1 the next read may return another one (R58), so the
draw's number moves on; while BUSY = 0 reads are idempotent (R57). -/
def State.answerWith (s : State) (v : Answer) : State :=
  { s with answer := some v, draws := if s.busy then s.draws + 1 else s.draws }

/-- One operation of the host port (R46); `ObufWrite` is ignored. -/
def State.hostOp (s : State) : HostOp → State
  | .regRead off => s.answerWith (.word (s.regRead off))
  | .regWrite off v => s.regWrite off v
  | .ibufRead a => s.answerWith (.byte (s.ibufRead a))
  | .ibufWrite a b => s.ibufWrite a b
  | .obufRead a => s.answerWith (.byte (s.obufRead a))
  | .obufWrite _ _ => s

/-- The reset input (R141, R142): every register and table at its reset value, every byte of IBUF and
OBUF unwritten, a running command abandoned. The configuration is constant; the model's own fields
go on (the events to come, the last answer, and what is unspecified is a new draw). -/
def State.resetInput (s : State) : State :=
  { State.reset with
    cfg := s.cfg, schedule := s.schedule, answer := s.answer, draws := s.draws + 1 }

end Sys2Proof.Machine
end

