-- ==== Sys2Proof/Machine/Resume.lean ====
section
/-! DEFINITION. What the core does when it moves (R138, R139): it runs the accepted command, or, where
it stands inside one (R42), fetches the next token of the tree or the next bit of the payload and runs
it. Also: the start of a command up to its first token or bit, and the placing of an instruction where
the core takes its next one. -/

namespace Sys2Proof.Machine

/-- The core stands inside `des_tree` (R92): the next token is fetched at the cursor and run. -/
def resumeDeserialize (s : State) (d : Des) (use : DesUse) : Host.Outcome State Fault Refusal :=
  match fetchToken s.ibuf d with
  | .error stop => stop.outcome use.draw s
  | .ok (i, d') => exec i { s with activity := some (.deserialize d' use) }

/-- The core stands inside `decode_sym` (R116): the next bit is read (R109) and run. -/
def resumeWalk (s : State) (w : Walk) (use : WalkUse) : Host.Outcome State Fault Refusal :=
  match readBit s.ibuf w.dirty s.reader with
  | .error stop => stop.outcome use.draw s
  | .ok (v, r) => exec (decodeBit v) { s with reader := r }

/-- The accepted word runs (R138): a command by its meaning, any other word completes with
BAD_COMMAND, changing nothing else (R67, R70). -/
def runCommand (s : State) : Host.Outcome State Fault Refusal :=
  match decodeCmd s.cmd with
  | .ok i => exec i s
  | .error _ => .next (s.raise .badCommand false id)

/-- A move of the core: nothing while it is idle (R137). -/
def coreMove (s : State) : Host.Outcome State Fault Refusal :=
  if s.busy then
    match s.activity with
    | none => runCommand s
    | some (.deserialize d use) => resumeDeserialize s d use
    | some (.walk w use) => resumeWalk s w use
  else .next s

/-- The core stands before the first token of a tree, with TREE_VALID and CODES_VALID cleared (R92). -/
def State.deserializing (s : State) (use : DesUse) (p0 limit : Nat) : State :=
  { s.clearValid with activity := some (.deserialize (Des.start p0 limit) use) }

/-- READ_HEADER and DECOMPRESS up to their first token (R99, R118). -/
def beginHeader (use : DesUse) (s : State) : Host.Outcome State Fault Refusal :=
  match readHeaderFields s.ibuf s.inLen with
  | .error stop => stop.outcome use.draw s
  | .ok (h, o) => .next ({ s with hdrSize := h, origSize := o }.deserializing use 8 h.toNat)

/-- A command up to its first token or bit; a command without any, or one that ends before it, as a
whole. -/
def beginCommand (i : Instr) (s : State) : Host.Outcome State Fault Refusal :=
  match i with
  | .deserializeTree =>
    if s.inLenTooBig then exec i s
    else .next (s.deserializing .deserializeTree s.arg0.toNat s.desLimit)
  | .readHeader => if s.inLenTooBig then exec i s else beginHeader .readHeader s
  | .decompress =>
    if s.inLenTooBig then exec i s
    else if s.inLen = 0 then exec i s
    else beginHeader .decompress s
  | .decodeSymbol =>
    if s.tree.valid then
      .next (s.walking .decodeSymbol { cur := s.tree.root, emitted := 0, dirty := false })
    else exec i s
  | _ => exec i s

/-- The move `coreBegin`: the accepted command starts; where there is none to start, as `coreMove`. -/
def beginMove (s : State) : Host.Outcome State Fault Refusal :=
  if s.busy && s.activity.isNone then
    match decodeCmd s.cmd with
    | .ok i => beginCommand i s
    | .error _ => coreMove s
  else coreMove s

/-- One event of the order of R61. -/
def runMove (m : Move) (s : State) : Host.Outcome State Fault Refusal :=
  match m with
  | .host op => .next (s.hostOp op)
  | .reset => .next s.resetInput
  | .core => coreMove s
  | .coreBegin => beginMove s

/-- A payload bit as the core's next instruction (log entry 7): DECODE_SYMBOL is in its walk at ROOT,
and the bit is the first of IBUF[0], which alone is readable. -/
def State.atPayloadBit (s : State) (v : Bool) : State :=
  { (s.accept 0x2A).walking .decodeSymbol { cur := s.tree.root, emitted := 0, dirty := false } with
    ibuf := s.ibuf.set 0 (if v then 0x80 else 0x00)
    reader := { pos := 0, bit := 0, limit := 1 } }

/-- A tree token as the core's next instruction (log entry 7): DESERIALIZE_TREE is at its first
token, whose bytes are IBUF[0] and IBUF[1]. -/
def State.atTreeToken (s : State) (w : Nat) : State :=
  { (s.accept 0x19).deserializing .deserializeTree 0 2 with
    ibuf := (s.ibuf.set 0 (BitVec.ofNat 8 w)).set 1 (BitVec.ofNat 8 (w / 256)) }

/-- The bits w of an opcode-table row of nbits bits where the core takes its next instruction (log
entry 7): a command word is accepted in CMD; no event comes before the core's move. -/
def State.loadWord (s : State) (nbits w : Nat) : State :=
  if nbits < 8 then { s.atPayloadBit (w.testBit 0) with schedule := [] }
  else if nbits ≤ 16 then { s.atTreeToken w with schedule := [] }
  else { s.accept (BitVec.ofNat 32 w) with schedule := [] }

end Sys2Proof.Machine
end

