-- ==== Sys2Proof/Machine/Step.lean ====
section
/-! DEFINITION. One step: the next event of the order of R61, or, when none is to come, a move of the
core. -/

namespace Sys2Proof.Machine

/-- One step of HUFFCORE. -/
def step (s : State) : Host.Outcome State Fault Refusal :=
  match s.schedule with
  | [] => coreMove s
  | m :: rest => runMove m { s with schedule := rest }

/-- s with the instruction of an opcode-table row where step takes its next one. -/
def State.withFetchWord (s : State) (nbits w : Nat) : State := s.loadWord nbits w

end Sys2Proof.Machine
end

