-- ==== Sys2Proof/Safety.lean ====
section
/-! DEFINITION. What claims about HUFFCORE are stated in: what a well-formed arena, writer, code table
and state are (R32, R34, R37, R38, R40), what it means that a run is safe, and the plain reading of the
bit stream and of the compressed format (R71 to R76). -/

namespace Sys2Proof.Machine

/-! ### The arena -/

/-- The symbols of a tree's leaves, from left to right. -/
def HTree.leaves : HTree → List Byte
  | .leaf s => [s]
  | .node l r => HTree.leaves l ++ HTree.leaves r

/-- How many nodes a tree has. -/
def HTree.size : HTree → Nat
  | .leaf _ => 1
  | .node l r => 1 + HTree.size l + HTree.size r

/-- The depth of the deepest leaf. -/
def HTree.depth : HTree → Nat
  | .leaf _ => 0
  | .node l r => 1 + max (HTree.depth l) (HTree.depth r)

/-- The weight of a tree: the sum of its leaves' counts (W of R86). -/
def HTree.weight (f : Byte → Nat) : HTree → Nat
  | .leaf s => f s
  | .node l r => HTree.weight f l + HTree.weight f r

/-- The number of bits a tree codes its symbols with, Σ f·L over the leaves at depth L (R77, R78). -/
def HTree.cost (f : Byte → Nat) : HTree → Nat
  | .leaf _ => 0
  | .node l r => HTree.cost f l + HTree.cost f r + HTree.weight f (.node l r)

/-- Arena entry i is the root of a tree, and the list gives the indices of its nodes in pre-order
(each node before its left subtree, that before its right one). -/
inductive Holds (nodes : Vector Node nodeMax) : Nat → HTree → List Nat → Prop
  | leaf {i : Nat} {n : Node} (entry : nodes[i]? = some n) (isLeaf : n.isLeaf = true) :
      Holds nodes i (.leaf n.symbol) [i]
  | node {i : Nat} {n : Node} {l r : HTree} {L R : List Nat} (entry : nodes[i]? = some n)
      (isInternal : n.isLeaf = false) (left : Holds nodes n.left.toNat l L)
      (right : Holds nodes n.right.toNat r R) : Holds nodes i (.node l r) (i :: (L ++ R))

/-- R40: the tree at ROOT reaches every index below NODE_COUNT exactly once and no other, and has at
most 256 leaves. -/
def Arena.WellFormed (t : Arena) : Prop :=
  ∃ tree indices, Holds t.nodes t.root.toNat tree indices ∧
    indices.Perm (List.range t.count.toNat) ∧ tree.leaves.length ≤ 256

/-- FREQ[s] as a number. -/
abbrev freqOf (freq : Vector Word 256) (s : Byte) : Nat := (freq[s.toNat]'s.isLt).toNat

/-- The symbols with a positive count, ascending, with their counts (R85). -/
def Present (freq : Vector Word 256) (symbols : List (Byte × Nat)) : Prop :=
  symbols.Pairwise (fun a b => a.1.toNat < b.1.toNat) ∧
    ∀ x f, (x, f) ∈ symbols ↔ f = freqOf freq x ∧ f ≠ 0

/-- CODE_VAL and CODE_LEN of a symbol. -/
def CodeTable.entry (c : CodeTable) (s : Byte) : Word × BitVec 6 :=
  (c.val[s.toNat]'s.isLt, c.len[s.toNat]'s.isLt)

/-- The order of R84: the node of smaller weight first, at equal weight the smaller arena index. -/
def Before (W : Nat → Nat) (a b : Nat) : Prop := W a < W b ∨ (W a = W b ∧ a < b)

/-- Arena index i waits to be merged when entry j is made: it exists, and no Internal node made
before (from index k on) has it as a child (PQ of R86). -/
def Waiting (nodes : Vector Node nodeMax) (k j i : Nat) : Prop :=
  i < j ∧ ∀ j' n, k ≤ j' → j' < j → nodes[j']? = some n → i ≠ n.left.toNat ∧ i ≠ n.right.toNat

/-- Entry j merges the two least waiting nodes, the least one as its left child (R84, R86). -/
def MergesLeast (nodes : Vector Node nodeMax) (k : Nat) (W : Nat → Nat) (j : Nat) : Prop :=
  ∃ l r : NodeIdx, nodes[j]? = some (Node.ofChildren l r) ∧ W j = W l.toNat + W r.toNat ∧
    Waiting nodes k j l.toNat ∧ Waiting nodes k j r.toNat ∧ Before W l.toNat r.toNat ∧
    ∀ i, Waiting nodes k j i → i = l.toNat ∨ i = r.toNat ∨ Before W r.toNat i

/-- The arena BUILD_TREE makes of a list of symbols and their counts (R84 to R86): the leaves first,
in that order, then the Internal nodes in the order of their creation; W gives the weights. -/
def Arena.Greedy (t : Arena) (symbols : List (Byte × Nat)) (W : Nat → Nat) : Prop :=
  (∀ i (h : i < symbols.length),
    t.nodes[i]? = some (Node.ofSymbol (symbols[i]'h).1) ∧ W i = (symbols[i]'h).2) ∧
  (∀ j, symbols.length ≤ j → j < 2 * symbols.length - 1 → MergesLeast t.nodes symbols.length W j)

/-- The nodes the deserializer has allocated for what stands on its recursion stack (R92): the
Internal nodes that wait, and the complete left subtrees they hold. -/
inductive Pending (nodes : Vector Node nodeMax) : List Frame → List Nat → Prop
  | nil : Pending nodes [] []
  | left {i : NodeIdx} {stack : List Frame} {L : List Nat} (rest : Pending nodes stack L) :
      Pending nodes (.left i :: stack) (i.toNat :: L)
  | right {i l : NodeIdx} {t : HTree} {M : List Nat} {stack : List Frame} {L : List Nat}
      (subtree : Holds nodes l.toNat t M) (rest : Pending nodes stack L) :
      Pending nodes (.right i l :: stack) (i.toNat :: (M ++ L))

/-- The deserializer between two tokens: its stack accounts for every index it has allocated. -/
def Des.WellFormed (d : Des) (nodes : Vector Node nodeMax) : Prop :=
  d.cnt ≤ nodeMax ∧ ∃ L, Pending nodes d.stack L ∧ L.Perm (List.range d.cnt)

/-- R40 with the flags of R34 (CODES_VALID = 1 ⇒ TREE_VALID = 1), and what they need of a core that
stands inside a command. -/
def State.ArenaInv (s : State) : Prop :=
  (s.tree.valid = true → s.tree.WellFormed) ∧
  (s.codes.valid = true → s.tree.valid = true) ∧
  (∀ d use, s.activity = some (.deserialize d use) →
    s.tree.valid = false ∧ s.codes.valid = false ∧ d.WellFormed s.tree.nodes) ∧
  (∀ w use, s.activity = some (.walk w use) →
    s.tree.valid = true ∧ w.cur.toNat < s.tree.count.toNat)

/-! ### Reset -/

/-- R44, R141: the reset values of the registers, the tables and the buffers. ID, PARAM_IBUF and
PARAM_OBUF are constants, and R44 gives CODE_VAL, CODE_LEN and NODE no value. -/
def State.AtReset (s : State) : Prop :=
  s.busy = false ∧ s.done = false ∧ s.dropped = false ∧ s.err = .none ∧
  s.cmd = 0 ∧ s.inLen = 0 ∧ s.arg0 = 0 ∧ s.arg1 = 0 ∧ s.result = 0 ∧ s.hdrSize = 0 ∧
  s.origSize = 0 ∧ s.writer.acc = 0 ∧ s.writer.cnt = 0 ∧ s.writer.outLen = 0 ∧
  s.reader.pos = 0 ∧ s.reader.bit = 0 ∧ s.reader.limit = 0 ∧
  s.tree.valid = false ∧ s.codes.valid = false ∧ s.tree.count = 0 ∧ s.tree.root = 0 ∧
  (∀ b : Byte, s.freq[b.toNat]'b.isLt = 0) ∧ (∀ a, s.ibuf.get a = none) ∧
  (∀ a, s.writer.obuf.get a = none) ∧ s.obufDraws = [] ∧ s.activity = none

/-! ### The other invariants -/

/-- R26: BUSY and DONE never hold together and ERR is 0 while BUSY = 1; the core stands inside a
command only while BUSY = 1. -/
def State.StatusInv (s : State) : Prop :=
  (s.busy = true → s.done = false ∧ s.err = .none) ∧ (s.activity.isSome = true → s.busy = true)

/-- The buffers, and the draws of errors in OBUF (R125), are in their canonical form, the buffers hold only
addresses that exist (R47, R48, R50), and
DECOMPRESS between two bits has OUT_LEN at the symbols it has emitted, of the original_size that fits
(R118). -/
def State.BufferInv (s : State) : Prop :=
  Memory.wf s.ibuf = true ∧ Memory.wf s.writer.obuf = true ∧
  (∀ cell ∈ s.ibuf, cell.1 < s.cfg.ibufBytes.toNat) ∧
  (∀ cell ∈ s.writer.obuf, cell.1 < s.obufCap) ∧
  s.obufDraws.Pairwise (fun later earlier => earlier.start < later.start) ∧
  (∀ w, s.activity = some (.walk w .decompress) →
    s.busy = true ∧ s.writer.outLen.toNat = w.emitted ∧ w.emitted < s.origSize.toNat ∧
      s.origSize.toNat ≤ s.obufCap)

/-- R32: the bits of BW_ACC at stream positions not yet written are 0. -/
def Writer.Clean (w : Writer) : Prop := w.acc <<< w.cnt.toNat = 0

/-- R37, R38: a symbol without a code has the value 0, a code has at most 32 bits, and the bits
below a code's last are 0. -/
def CodeTable.WellFormed (c : CodeTable) : Prop :=
  ∀ s : Byte, (c.len[s.toNat]'s.isLt).toNat ≤ maxCodeLen ∧
    (c.val[s.toNat]'s.isLt) <<< (c.len[s.toNat]'s.isLt).toNat = 0 ∧
    ((c.len[s.toNat]'s.isLt) = 0 → (c.val[s.toNat]'s.isLt) = 0)

/-- A safe run never meets a broken arena: the only fault left is the host's neglect of its duty to
write every IBUF byte that a command reads (R66, R51). -/
def Safe (o : Host.Outcome State Fault Refusal) : Prop := o ≠ .fault .arenaBroken

/-! ### Frames -/

/-- What the write sets of R69 name; TREE_INFO without its CODES_VALID is `treeInfo`. -/
inductive Part where
  | result | hdrSize | origSize | bwState | outLen | obuf | brPos | brBit | brEnd
  | node | treeInfo | codesValid | codeTable | freq
  deriving DecidableEq, Repr

/-- A part is the same in two states; for OBUF every byte is, a drawn one too, and a table that holds the
draw of an error still holds it. -/
def Part.Same (s t : State) : Part → Prop
  | .result => t.result = s.result
  | .hdrSize => t.hdrSize = s.hdrSize
  | .origSize => t.origSize = s.origSize
  | .bwState => t.writer.acc = s.writer.acc ∧ t.writer.cnt = s.writer.cnt
  | .outLen => t.writer.outLen = s.writer.outLen
  | .obuf => (∀ a, t.writer.obuf.get a = s.writer.obuf.get a) ∧ t.obufDraws = s.obufDraws
  | .brPos => t.reader.pos = s.reader.pos
  | .brBit => t.reader.bit = s.reader.bit
  | .brEnd => t.reader.limit = s.reader.limit
  | .node => t.tree.nodes = s.tree.nodes ∧ t.tree.drawn = s.tree.drawn
  | .treeInfo => t.tree.valid = s.tree.valid ∧ t.tree.count = s.tree.count ∧ t.tree.root = s.tree.root
  | .codesValid => t.codes.valid = s.codes.valid
  | .codeTable => t.codes.val = s.codes.val ∧ t.codes.len = s.codes.len ∧ t.codes.drawn = s.codes.drawn
  | .freq => t.freq = s.freq

/-- The write set of a command (R69, column "writes"). -/
def writesOf : Instr → List Part
  | .nop => []
  | .compress =>
    [.freq, .node, .codeTable, .treeInfo, .codesValid, .hdrSize, .origSize, .bwState, .outLen, .obuf]
  | .decompress =>
    [.node, .treeInfo, .codesValid, .hdrSize, .origSize, .brPos, .brBit, .brEnd, .outLen, .obuf]
  | .countFreq => [.freq]
  | .buildTree => [.node, .treeInfo, .codesValid]
  | .buildCodes => [.codeTable, .codesValid]
  | .serializeTree => [.outLen, .obuf, .result]
  | .deserializeTree => [.node, .treeInfo, .codesValid, .result]
  | .writeHeader => [.outLen, .obuf, .hdrSize, .origSize, .bwState]
  | .readHeader => [.hdrSize, .origSize, .node, .treeInfo, .codesValid, .result]
  | .bwReset => [.bwState]
  | .writeBit | .writeCode | .bwFinish | .encodeByte => [.bwState, .outLen, .obuf]
  | .brInit => [.brPos, .brBit, .brEnd]
  | .readBit | .decodeSymbol => [.brPos, .brBit, .result]
  | .treeInternal | .treeLeaf _ | .payloadBitLeft | .payloadBitRight => []

/-- What no command writes at all (R22, R24, R25, R27, R29, R35, R47), and the model's own events. -/
def SameInputs (s t : State) : Prop :=
  t.cfg = s.cfg ∧ t.cmd = s.cmd ∧ t.inLen = s.inLen ∧ t.arg0 = s.arg0 ∧ t.arg1 = s.arg1 ∧
    t.ibuf = s.ibuf ∧ t.dropped = s.dropped ∧ t.schedule = s.schedule ∧ t.answer = s.answer

/-- The errors a command may report (R124, R127). -/
def errorsOf : Instr → List Err
  | .nop | .buildTree | .bwReset => []
  | .compress => [.badOperand, .codeTooLong, .outputOverflow]
  | .decompress => [.badOperand, .truncatedOrCorrupt, .outputOverflow, .endOfStream]
  | .deserializeTree | .readHeader => [.badOperand, .truncatedOrCorrupt]
  | .buildCodes => [.badState, .codeTooLong]
  | .serializeTree | .writeHeader | .encodeByte => [.badState, .outputOverflow]
  | .writeCode => [.badOperand, .outputOverflow]
  | .decodeSymbol => [.badState, .endOfStream]
  | .countFreq | .brInit => [.badOperand]
  | .writeBit | .bwFinish => [.outputOverflow]
  | .readBit => [.endOfStream]
  | .treeInternal | .treeLeaf _ | .payloadBitLeft | .payloadBitRight => []

/-- Whether the pseudocode of a command that raises an error other than BAD_OPERAND and BAD_STATE (the
checks before any write) has executed an assignment before it, which tells the two cases of R125 apart.
DEDUCED (log entry 9): an assignment that stores the value already there counts, a read does not.
SERIALIZE_TREE has emitted a byte unless OBUF is full at the first one; WRITE_BIT, WRITE_CODE and
ENCODE_BYTE have set a bit or moved BW_CNT unless the first bit is a 0 that finds OBUF full;
DECODE_SYMBOL has moved its cursors unless there is not one bit. BW_FINISH and READ_BIT raise before
they assign; the others assign in their first line after the checks. -/
def State.WroteBefore (s : State) : Instr → Prop
  | .compress | .decompress | .deserializeTree | .readHeader | .writeHeader | .buildCodes => True
  | .serializeTree => s.writer.outLen.toNat < s.cfg.obufBytes.toNat
  | .writeBit => bitArg s.arg0 = true
  | .writeCode =>
    ¬(s.writer.cnt = 7 ∧ s.arg0.msb = false ∧ s.cfg.obufBytes.toNat ≤ s.writer.outLen.toNat)
  | .encodeByte =>
    ¬(s.writer.cnt = 7 ∧ (s.codes.entry (symbolArg s.arg0)).1.msb = false ∧
      s.cfg.obufBytes.toNat ≤ s.writer.outLen.toNat)
  | .decodeSymbol => s.reader.pos.toNat < s.reader.limit.toNat
  | .nop | .countFreq | .buildTree | .bwReset | .bwFinish | .brInit | .readBit => False
  | .treeInternal | .treeLeaf _ | .payloadBitLeft | .payloadBitRight => False

/-- What case 2 of R125 leaves in t of a part of the write set of command i, which failed in s: a free
draw within the width of each field; TREE_VALID and CODES_VALID are 0, and OUT_LEN of COMPRESS and
DECOMPRESS; of OBUF every byte the command could have written holds a draw, and no other byte changes.
NODE and the code table are marked as holding the draws (log entry 3). -/
def Part.Drawn (i : Instr) (s t : State) : Part → Prop
  | .result => t.result = s.drawn .result
  | .hdrSize => t.hdrSize = s.drawn .hdrSize
  | .origSize => t.origSize = s.drawn .origSize
  | .bwState =>
    t.writer.acc = (s.drawn .bwState).extractLsb' 0 8 ∧ t.writer.cnt = (s.drawn .bwState).extractLsb' 8 3
  | .outLen => t.writer.outLen = if i = .compress ∨ i = .decompress then 0 else s.drawn .outLen
  | .obuf => ∀ a, t.obufByte a =
      if i ∈ [.writeHeader, .compress, .decompress] ∨ s.writer.outLen.toNat ≤ a then
        some (Config.freeObuf s.draws a)
      else s.obufByte a
  | .brPos => t.reader.pos = s.drawn .brPos
  | .brBit => t.reader.bit = (s.drawn .brBit).extractLsb' 0 3
  | .brEnd => t.reader.limit = s.drawn .brEnd
  | .node => (∀ j : Fin nodeMax, t.tree.nodes[j] = Node.ofWord (s.drawn (.node j))) ∧ t.tree.drawn = true
  | .treeInfo => t.tree.valid = false ∧ t.tree.count = (s.drawn .treeInfo).extractLsb' 8 10 ∧
      t.tree.root = (s.drawn .treeInfo).extractLsb' 20 9
  | .codesValid => t.codes.valid = false
  | .codeTable => (∀ b : Byte, t.codes.entry b =
      (s.drawn (.codeVal b), (s.drawn (.codeLen b)).setWidth 6)) ∧ t.codes.drawn = true
  | .freq => ∀ b : Byte, t.freq[b.toNat]'b.isLt = s.drawn (.freq b)

/-- The command that runs `des_tree`. -/
def DesUse.command : DesUse → Instr
  | .deserializeTree => .deserializeTree
  | .readHeader => .readHeader
  | .decompress => .decompress

/-- The command that runs `decode_sym`. -/
def WalkUse.command : WalkUse → Instr
  | .decodeSymbol => .decodeSymbol
  | .decompress => .decompress

/-! ### The input, the bit stream and the compressed format -/

/-- IBUF holds these bytes from address a up. -/
def HoldsBytes (m : Memory) (a : Nat) (bytes : List Byte) : Prop :=
  ∀ j (h : j < bytes.length), m.get (a + j) = some (bytes[j]'h)

/-- The byte whose bits are given first bit first, the missing ones being 0 (R76). -/
def packByte : List Bool → Byte
  | [] => 0
  | b :: bs => (if b then (0x80 : Byte) else 0) ||| (packByte bs >>> 1)

/-- Byte j of a bit string (R76). -/
def streamByte (bits : List Bool) (j : Nat) : Byte := packByte ((bits.drop (8 * j)).take 8)

/-- The bytes of a payload (R76, R77): the last one is padded with zero bits. -/
def payloadBytes (bits : List Bool) : List Byte :=
  (List.range ((bits.length + 7) / 8)).map (streamByte bits)

/-- The bits of the byte under construction (R32). -/
def Writer.pendingBits (w : Writer) : List Bool := (List.range w.cnt.toNat).map w.acc.getMsbD

/-- w' is w with these bits appended to its stream (R100 to R103): the whole bytes stand in OBUF from
OUT_LEN up, the rest in BW_ACC, and no other byte of OBUF changes. -/
def Writer.Appended (w : Writer) (bits : List Bool) (w' : Writer) : Prop :=
  let all := w.pendingBits ++ bits
  w'.cnt.toNat = all.length % 8 ∧
  w'.acc = streamByte all (all.length / 8) ∧
  w'.outLen.toNat = w.outLen.toNat + all.length / 8 ∧
  ∀ a, w'.obuf.get a =
    if w.outLen.toNat ≤ a ∧ a < w.outLen.toNat + all.length / 8 then
      some (streamByte all (a - w.outLen.toNat))
    else w.obuf.get a

/-- w' is w with these whole bytes appended by `emit` (R101), and no other byte of OBUF changed. -/
def Writer.AppendedBytes (w : Writer) (bytes : List Byte) (w' : Writer) : Prop :=
  w'.cnt = w.cnt ∧ w'.acc = w.acc ∧
  w'.outLen.toNat = w.outLen.toNat + bytes.length ∧
  ∀ a, w'.obuf.get a =
    if w.outLen.toNat ≤ a then (bytes[a - w.outLen.toNat]?).or (w.obuf.get a) else w.obuf.get a

/-- The header of a compressed buffer (R71): header_size, original_size, the serialized tree. -/
def headerBytes (origSize : Word) (t : HTree) : List Byte :=
  le32Bytes (BitVec.ofNat 32 (8 + t.serialize.length)) ++ le32Bytes origSize ++ t.serialize

/-- A compressed buffer's header as READ_HEADER accepts it (R99): the two fields and a tree of at most
256 leaves, which ends at or before header_size, and header_size within the input. -/
structure HeaderIn (ibuf : Memory) (inLen h o : Word) (t : HTree) : Prop where
  bytes : HoldsBytes ibuf 0 (le32Bytes h ++ le32Bytes o ++ t.serialize)
  tree : 8 + t.serialize.length ≤ h.toNat
  within : h.toNat ≤ inLen.toNat
  leaves : t.leaves.length ≤ 256

/-- Bytes from address a up to a bound, all written, that begin with no tree `des_tree` accepts (R92, R94):
no tree of at most 256 leaves has its serialized form there. -/
structure HoldsNoTree (ibuf : Memory) (a limit : Nat) : Prop where
  written : ∀ p, a ≤ p → p < limit → ibuf.get p ≠ none
  noTree : ∀ t : HTree, HoldsBytes ibuf a t.serialize → a + t.serialize.length ≤ limit →
    256 < t.leaves.length

/-- The bit strings of a sequence of symbols, each given by a code (R76). -/
def codeStream (code : Byte → List Bool) (symbols : List Byte) : List Bool := symbols.flatMap code

/-- The compressed buffer of an input (R71): the header of its tree, and its payload. -/
def compressedBytes (input : List Byte) (tree : HTree) (codes : CodeTable) : List Byte :=
  headerBytes (BitVec.ofNat 32 input.length) tree ++ payloadBytes (codeStream codes.bits input)

/-- The next bits the reader gives are these, and they lie within its extent (R109). -/
def Reader.Gives (r : Reader) (ibuf : Memory) (bits : List Bool) : Prop :=
  ∀ j (h : j < bits.length),
    r.pos.toNat + (r.bit.toNat + j) / 8 < r.limit.toNat ∧
    ∃ b, ibuf.get (r.pos.toNat + (r.bit.toNat + j) / 8) = some b ∧
      b.getMsbD ((r.bit.toNat + j) % 8) = bits[j]'h

/-- r' is r moved on by n bits (R109). -/
def Reader.MovedBy (r : Reader) (n : Nat) (r' : Reader) : Prop :=
  r'.limit = r.limit ∧ r'.bit.toNat = (r.bit.toNat + n) % 8 ∧
  r'.pos.toNat = r.pos.toNat + (r.bit.toNat + n) / 8

end Sys2Proof.Machine
end

