-- ==== Sys2Proof/Certificates/Slice0/Obligations.lean ====
section
/-! DEFINITION. The statements about HUFFCORE for the provers, in the order of OBLIGATIONS.json: the
encodings, the host port, the steps, the invariants, what all commands have in common, each command's
result, and the codec as a whole. -/

open Sys2Proof Sys2Proof.Machine

/-! ### Encodings -/

/-- A sanity check of the decoder on words written out from R67, R68, R72 and R116. -/
def Obligations.WordsDecode : Prop :=
  decodeCmd 0x00000000 = .ok .nop ∧ decodeCmd 0x00000002 = .ok .decompress ∧
  decodeCmd 0x00000012 = .ok .buildCodes ∧ decodeCmd 0x0000001B = .ok .readHeader ∧
  decodeCmd 0x00000024 = .ok .encodeByte ∧ decodeCmd 0x0000002A = .ok .decodeSymbol ∧
  decodeCmd 0x0000002B = .error .reservedOpcode ∧ decodeCmd 0x00000100 = .error .rsvdNonZero ∧
  decodeToken [0x01, 0xFF] = .ok (.treeLeaf 0xFF, []) ∧
  decodeToken [0x00, 0x01, 0x41] = .ok (.treeInternal, [0x01, 0x41]) ∧
  decodeToken [0x02] = .error .illegalFlag ∧
  decodeBit false = .payloadBitLeft ∧ decodeBit true = .payloadBitRight

/-- Decoding an instruction's encoding gives it back, with every operand (R67, R68, R72, R116). -/
def Obligations.DecodeInvertsEncode : Prop :=
  ∀ i : Instr, i.wf = true → decode (encode i) = .ok (i, [])

/-- R67, R68: a word is a command exactly when it is that command's one encoding. -/
def Obligations.CommandWordsExact : Prop :=
  ∀ (w : Word) (i : Instr), decodeCmd w = .ok i ↔ encode i = .cmd w

/-- R70: every reserved OPCODE and every word with RSVD ≠ 0 completes with BAD_COMMAND and changes
nothing but STATUS (CMD holds the word since its acceptance). -/
def Obligations.NonCommandsComplete : Prop :=
  ∀ s : State, s.schedule = [] → s.busy = true → s.activity = none →
    (s.cmd.extractLsb' 8 24 ≠ 0 ∨
      ∃ op : Nat, s.cmd.extractLsb' 0 8 = BitVec.ofNat 8 op ∧
        ((0x03 ≤ op ∧ op ≤ 0x0F) ∨ (0x13 ≤ op ∧ op ≤ 0x17) ∨ (0x1C ≤ op ∧ op ≤ 0x1F) ∨
          (0x25 ≤ op ∧ op ≤ 0x27) ∨ (0x2B ≤ op ∧ op ≤ 0xFF))) →
    step s = .next { s with
      busy := false, done := true, err := .badCommand, activity := none, draws := s.draws + 1 }

/-- R72, R73: the two tokens of the tree format, and the illegal flag bytes. -/
def Obligations.TreeTokensExact : Prop :=
  (∀ (bytes : List Byte) (i : Instr) (rest : List Byte), decodeToken bytes = .ok (i, rest) ↔
    (i = .treeInternal ∧ bytes = 0x00 :: rest) ∨
    (∃ symbol, i = .treeLeaf symbol ∧ bytes = 0x01 :: symbol :: rest)) ∧
  (∀ (flag : Byte) (rest : List Byte), 2 ≤ flag.toNat →
    decodeToken (flag :: rest) = .error .illegalFlag)

/-! ### The host port -/

/-- R138, R25: a CMD write while BUSY = 0 is accepted at once; while BUSY = 1 it is dropped, leaves
CMD unchanged and sets STATUS.DROPPED. -/
def Obligations.CommandWrites : Prop :=
  ∀ (s : State) (v : Word) (rest : List Move), s.schedule = .host (.regWrite 0x004 v) :: rest →
    (s.busy = false → step s = .next { s with
      cmd := v, busy := true, done := false, dropped := false, err := .none, activity := none
      draws := s.draws + 1, schedule := rest }) ∧
    (s.busy = true → step s = .next { s with dropped := true, schedule := rest })

/-- R58, R146: while BUSY = 1 host writes of every offset but CMD's, of IBUF and of OBUF change
nothing; a read hands back its answer; the registers that no command writes, STATUS among them, and
IBUF read their values, and addresses beyond IBUF 0 (R46). (Every other read is a draw, of which
nothing is said. That the counter of draws moves with a read is the model's: log entry 3.) -/
def Obligations.BusyPort : Prop :=
  ∀ s : State, s.busy = true →
    (∀ rest off v, off ≠ 0x004 → s.schedule = .host (.regWrite off v) :: rest →
      step s = .next { s with schedule := rest }) ∧
    (∀ rest a b, s.schedule = .host (.ibufWrite a b) :: rest ∨
        s.schedule = .host (.obufWrite a b) :: rest →
      step s = .next { s with schedule := rest }) ∧
    (∀ rest off, s.schedule = .host (.regRead off) :: rest → step s = .next { s with
      answer := some (.word (s.regRead off)), draws := s.draws + 1, schedule := rest }) ∧
    (∀ rest a, s.schedule = .host (.ibufRead a) :: rest → step s = .next { s with
      answer := some (.byte (s.ibufRead a)), draws := s.draws + 1, schedule := rest }) ∧
    (∀ rest a, s.schedule = .host (.obufRead a) :: rest → step s = .next { s with
      answer := some (.byte (s.obufRead a)), draws := s.draws + 1, schedule := rest }) ∧
    s.regRead 0x000 = 0x48554646 ∧ s.regRead 0x004 = s.cmd ∧
    (s.regRead 0x008).getLsbD 0 = true ∧ (s.regRead 0x008).getLsbD 1 = s.done ∧
    (s.regRead 0x008).getLsbD 2 = s.dropped ∧ (s.regRead 0x008).extractLsb' 8 4 = s.err.code ∧
    s.regRead 0x00C = s.inLen ∧ s.regRead 0x014 = s.arg0 ∧ s.regRead 0x018 = s.arg1 ∧
    s.regRead 0x03C = s.cfg.ibufBytes ∧ s.regRead 0x040 = s.cfg.obufBytes ∧
    (∀ (a : Word) (b : Byte), a.toNat < s.cfg.ibufBytes.toNat → s.ibuf.get a.toNat = some b →
      s.ibufRead a = b) ∧
    ∀ a : Word, s.cfg.ibufBytes.toNat ≤ a.toNat → s.ibufRead a = 0

/-- R55, R56: misaligned and unmapped offsets read 0 and ignore writes. -/
def Obligations.UnmappedOffsets : Prop :=
  ∀ (s : State) (off v : Word),
    (off.toNat % 4 ≠ 0 ∨ (0x044 ≤ off.toNat ∧ off.toNat ≤ 0x3FC) ∨
      (0x17FC ≤ off.toNat ∧ off.toNat ≤ 0x1FFC) ∨ 0x2000 ≤ off.toNat) →
    s.regRead off = 0 ∧ s.regWrite off v = s

/-- R23: while BUSY = 0 each register reads its contents at its offset (R24 to R36), a read-only one
ignores writes (R56), also one of the windows of CODE_VAL, CODE_LEN and NODE (R64), and the code table
and the arena read their entries while their flags are 1 (R37, R38, R39) and while they hold the draw
of an error (R125, R140). -/
def Obligations.RegisterMap : Prop :=
  ∀ s : State, s.busy = false →
    (s.regRead 0x000 = 0x48554646 ∧ s.regRead 0x004 = s.cmd ∧
      (s.regRead 0x008).getLsbD 0 = s.busy ∧ (s.regRead 0x008).getLsbD 1 = s.done ∧
      (s.regRead 0x008).getLsbD 2 = s.dropped ∧ (s.regRead 0x008).extractLsb' 8 4 = s.err.code ∧
      s.regRead 0x00C = s.inLen ∧ s.regRead 0x010 = s.writer.outLen ∧
      s.regRead 0x014 = s.arg0 ∧ s.regRead 0x018 = s.arg1 ∧ s.regRead 0x01C = s.result ∧
      s.regRead 0x020 = s.hdrSize ∧ s.regRead 0x024 = s.origSize ∧
      (s.regRead 0x028).extractLsb' 0 8 = s.writer.acc ∧
      (s.regRead 0x028).extractLsb' 8 3 = s.writer.cnt ∧
      s.regRead 0x02C = s.reader.pos ∧ (s.regRead 0x030).extractLsb' 0 3 = s.reader.bit ∧
      s.regRead 0x034 = s.reader.limit ∧
      (s.regRead 0x038).getLsbD 0 = s.tree.valid ∧ (s.regRead 0x038).getLsbD 1 = s.codes.valid ∧
      (s.regRead 0x038).extractLsb' 8 10 = s.tree.count ∧
      (s.regRead 0x038).extractLsb' 20 9 = s.tree.root ∧
      s.regRead 0x03C = s.cfg.ibufBytes ∧ s.regRead 0x040 = s.cfg.obufBytes) ∧
    (∀ b : Byte, s.regRead (BitVec.ofNat 32 (0x400 + 4 * b.toNat)) = s.freq[b.toNat]'b.isLt) ∧
    (∀ off ∈ [0x000, 0x008, 0x01C, 0x020, 0x024, 0x028, 0x02C, 0x030, 0x034, 0x038, 0x03C, 0x040],
      ∀ v, s.regWrite off v = s) ∧
    (∀ off v : Word, 0x800 ≤ off.toNat → off.toNat < 0x17FC → s.regWrite off v = s) ∧
    (s.codes.valid = true ∨ s.codes.drawn = true → ∀ b : Byte,
      s.regRead (BitVec.ofNat 32 (0x800 + 4 * b.toNat)) = s.codes.val[b.toNat]'b.isLt ∧
      s.regRead (BitVec.ofNat 32 (0xC00 + 4 * b.toNat)) = (s.codes.len[b.toNat]'b.isLt).setWidth 32) ∧
    (∀ i : Fin nodeMax, (s.tree.valid = true ∧ i.val < s.tree.count.toNat) ∨ s.tree.drawn = true →
      (s.regRead (BitVec.ofNat 32 (0x1000 + 4 * i.val))).extractLsb' 0 8 = (s.tree.nodes[i.val]).symbol ∧
      (s.regRead (BitVec.ofNat 32 (0x1000 + 4 * i.val))).extractLsb' 8 9 = (s.tree.nodes[i.val]).left ∧
      (s.regRead (BitVec.ofNat 32 (0x1000 + 4 * i.val))).extractLsb' 17 9 = (s.tree.nodes[i.val]).right ∧
      (s.regRead (BitVec.ofNat 32 (0x1000 + 4 * i.val))).getLsbD 31 = (s.tree.nodes[i.val]).isLeaf)

/-- R23: every field marked reserved reads 0, whatever BUSY is and whatever is drawn (U21). -/
def Obligations.ReservedFieldsReadZero : Prop :=
  ∀ s : State,
    s.regRead 0x008 &&& 0xFFFFF0F8 = 0 ∧ s.regRead 0x028 &&& 0xFFFFF800 = 0 ∧
    s.regRead 0x030 &&& 0xFFFFFFF8 = 0 ∧ s.regRead 0x038 &&& 0xE00C00FC = 0 ∧
    (∀ b : Byte, s.regRead (BitVec.ofNat 32 (0xC00 + 4 * b.toNat)) &&& 0xFFFFFFC0 = 0) ∧
    (∀ i : Fin nodeMax, s.regRead (BitVec.ofNat 32 (0x1000 + 4 * i.val)) &&& 0x7C000000 = 0)

/-- R57: while BUSY = 0 a host read hands back what its location reads as and changes nothing else
(R46), and the same read again gives the same answer; the ignored OBUF write changes nothing. -/
def Obligations.ReadsHaveNoSideEffect : Prop :=
  ∀ (s : State) (rest : List Move), s.busy = false →
    (∀ off, s.schedule = .host (.regRead off) :: rest →
      step s = .next { s with answer := some (.word (s.regRead off)), schedule := rest }) ∧
    (∀ a, s.schedule = .host (.ibufRead a) :: rest →
      step s = .next { s with answer := some (.byte (s.ibufRead a)), schedule := rest }) ∧
    (∀ a, s.schedule = .host (.obufRead a) :: rest →
      step s = .next { s with answer := some (.byte (s.obufRead a)), schedule := rest }) ∧
    (∀ a b, s.schedule = .host (.obufWrite a b) :: rest →
      step s = .next { s with schedule := rest }) ∧
    (∀ op, (∀ off v, op ≠ .regWrite off v) → (∀ a b, op ≠ .ibufWrite a b) →
      s.schedule = .host op :: rest → ∃ t, step s = .next t ∧
        ∀ again, step { t with schedule := .host op :: again } = .next { t with schedule := again })

/-- R27, R28, R29, R36: while BUSY = 0 the writable registers hold what the host writes; a host
write of any offset but CMD's (CommandWrites) is that store and nothing else. -/
def Obligations.WritableRegisters : Prop :=
  ∀ (s : State) (v : Word), s.busy = false →
    (∀ off rest, off ≠ 0x004 → s.schedule = .host (.regWrite off v) :: rest →
      step s = .next { s.regWrite off v with schedule := rest }) ∧
    s.regWrite 0x00C v = { s with inLen := v } ∧
    s.regWrite 0x010 v = { s with writer := { s.writer with outLen := v } } ∧
    s.regWrite 0x014 v = { s with arg0 := v } ∧
    s.regWrite 0x018 v = { s with arg1 := v } ∧
    ∀ b : Byte, s.regWrite (BitVec.ofNat 32 (0x400 + 4 * b.toNat)) v =
      { s with freq := s.freq.set b.toNat v b.isLt }

/-- R46: the byte operations of the port while BUSY = 0 (what a step hands back of the reads:
ReadsHaveNoSideEffect). A byte written to IBUF reads back, and no other byte changes; addresses
beyond the buffers read 0; ObufWrite is ignored. An OBUF read returns the byte last written there, or
the draw that an error left there last (R61, R125). (Where c is an address that nothing has written,
that it reads the same before and after is the model's choice of draws, log entries 3 and 4.) -/
def Obligations.BufferPort : Prop :=
  ∀ (s : State) (a : Word) (b : Byte), s.busy = false → Memory.wf s.ibuf = true →
    (∀ rest, s.schedule = .host (.ibufWrite a b) :: rest →
      step s = .next { s.ibufWrite a b with schedule := rest }) ∧
    (a.toNat < s.cfg.ibufBytes.toNat → (s.ibufWrite a b).ibufRead a = b ∧
      s.ibufWrite a b = { s with ibuf := (s.ibufWrite a b).ibuf } ∧
      ∀ c : Word, c ≠ a → (s.ibufWrite a b).ibufRead c = s.ibufRead c) ∧
    (s.cfg.ibufBytes.toNat ≤ a.toNat → s.ibufRead a = 0 ∧ s.ibufWrite a b = s) ∧
    (a.toNat < s.cfg.obufBytes.toNat → s.obufByte a.toNat = some b → s.obufRead a = b) ∧
    (s.cfg.obufBytes.toNat ≤ a.toNat → s.obufRead a = 0) ∧
    s.hostOp (.obufWrite a b) = s

/-- R141, R142: the reset input, at any time (also while a command runs), sets every register and
FREQ entry to its reset value and makes every byte of IBUF and OBUF unwritten. -/
def Obligations.ResetInput : Prop :=
  ∀ (s : State) (rest : List Move), s.schedule = .reset :: rest →
    ∃ t, step s = .next t ∧ t.AtReset ∧ t.cfg = s.cfg ∧ t.schedule = rest

/-! ### Steps -/

/-- R138: the step of an accepted command word is the meaning of the command it decodes to, also
where the order of R61 names the core's move. R137: between commands the core is idle, whatever CMD
holds, and keeps its state. The model's move `coreBegin` (log entry 6) begins the command
(MicroStepsAgree says how that goes on), as a whole where the command reads no tree and no payload;
inside a command, and on a word that is no command, it is the core's move. -/
def Obligations.StepRunsCommand : Prop :=
  ∀ s : State,
    (∀ i, s.busy = true → s.activity = none → decodeCmd s.cmd = .ok i →
      (s.schedule = [] → step s = exec i s) ∧
      (∀ rest, s.schedule = .core :: rest → step s = exec i { s with schedule := rest }) ∧
      (∀ rest, s.schedule = .coreBegin :: rest →
        step s = beginCommand i { s with schedule := rest }) ∧
      (i ∉ [.deserializeTree, .readHeader, .decompress, .decodeSymbol] →
        beginCommand i s = exec i s)) ∧
    (∀ rest, s.busy = true →
      (s.activity.isSome = true ∨ ∃ e, decodeCmd s.cmd = .error e) →
      step { s with schedule := .coreBegin :: rest } = step { s with schedule := .core :: rest }) ∧
    (s.busy = false → s.schedule = [] → step s = .next s) ∧
    (∀ m rest, s.busy = false → m = .core ∨ m = .coreBegin → s.schedule = m :: rest →
      step s = .next { s with schedule := rest })

/-- R92, R109, R116: inside `des_tree` the step fetches the token at the cursor, below the bound,
and runs its meaning with the cursor after it; a bound reached, or a flag byte that is no token
(R73), ends the command with TRUNCATED_OR_CORRUPT and TREE_VALID = CODES_VALID = 0. Inside `decode_sym`
the step reads the bit at the cursors, below BR_END, and runs its meaning with the cursors moved on; at
BR_END the command ends with END_OF_STREAM, DECOMPRESS with the flags and OUT_LEN 0 (R118, R125). -/
def Obligations.StepRunsTokensAndBits : Prop :=
  ∀ s : State, s.schedule = [] → s.busy = true →
    (∀ (i : Instr) (d : Des) (use : DesUse) (bytes : List Byte),
      s.activity = some (.deserialize d use) →
      encode i = .token bytes → HoldsBytes s.ibuf d.pos bytes → d.pos + bytes.length ≤ d.limit →
      step s = exec i
        { s with activity := some (.deserialize { d with pos := d.pos + bytes.length } use) }) ∧
    (∀ (d : Des) (use : DesUse), s.activity = some (.deserialize d use) →
      (d.limit ≤ d.pos ∨
        (d.pos < d.limit ∧ ∃ flag, s.ibuf.get d.pos = some flag ∧
          (2 ≤ flag.toNat ∨ (flag = 0x01 ∧ d.limit = d.pos + 1)))) →
      ∃ t, step s = .next t ∧ t.busy = false ∧ t.done = true ∧ t.err = .truncatedOrCorrupt ∧
        t.tree.valid = false ∧ t.codes.valid = false) ∧
    (∀ (i : Instr) (w : Walk) (use : WalkUse) (v : Bool), s.activity = some (.walk w use) →
      encode i = .bit v → s.reader.Gives s.ibuf [v] →
      ∃ r, s.reader.MovedBy 1 r ∧ step s = exec i { s with reader := r }) ∧
    (∀ (w : Walk) (use : WalkUse), s.activity = some (.walk w use) →
      s.reader.limit.toNat ≤ s.reader.pos.toNat →
      ∃ t, step s = .next t ∧ t.busy = false ∧ t.done = true ∧ t.err = .endOfStream ∧
        (use = .decompress → w.dirty = true →
          t.tree.valid = false ∧ t.codes.valid = false ∧ t.writer.outLen = 0))

/-! ### Invariants -/

/-- The machine after reset has the reset values of R44, and the invariants below hold of it. -/
def Obligations.ResetInvariants : Prop :=
  State.reset.AtReset ∧ State.reset.ArenaInv ∧ State.reset.StatusInv ∧ State.reset.BufferInv ∧
    State.reset.cfg.wf = true ∧ State.reset.writer.Clean ∧
    (State.reset.codes.valid = true → State.reset.codes.WellFormed)

/-- R40 (the spec's inference from R86 and R97): every step keeps the arena a tree of at most 256
leaves that reaches every index below NODE_COUNT exactly once, whenever TREE_VALID = 1. R34 (its
inference from the write sets): CODES_VALID = 1 only with TREE_VALID = 1. -/
def Obligations.ArenaInvariant : Prop :=
  ∀ s t : State, s.ArenaInv → step s = .next t → t.ArenaInv

/-- R26: BUSY and DONE never hold together, and ERR is 0 while BUSY = 1. -/
def Obligations.StatusInvariant : Prop :=
  ∀ s t : State, s.StatusInv → step s = .next t → t.StatusInv

/-- R50: no step makes OBUF or IBUF hold a byte outside its capacity, and both, and the draws of
errors in OBUF (log entry 3), stay in their canonical form. -/
def Obligations.BufferInvariant : Prop :=
  ∀ s t : State, s.BufferInv → step s = .next t → t.BufferInv ∧ t.cfg = s.cfg

/-- R37, R38: with CODES_VALID = 1 a symbol without a code has CODE_VAL = 0, and every code has at
most 32 bits with 0 below them. -/
def Obligations.CodeTableInvariant : Prop :=
  ∀ s t : State, (s.codes.valid = true → s.codes.WellFormed) → step s = .next t →
    (t.codes.valid = true → t.codes.WellFormed)

/-- R51: under the arena invariant the only fault is a core read of an IBUF byte that nothing has
written. That it is a fault is the spec's word; that no other fault exists is derived; that a read
beyond IBUF_BYTES, which R49 excludes, is this fault too is the model's choice (log entry 17). -/
def Obligations.FaultsAreUnwrittenReads : Prop :=
  ∀ (s : State) (f : Fault), s.ArenaInv → step s = .fault f →
    ∃ a, f = .ibufUnwritten a ∧ s.ibuf.get a = none

/-! ### What all commands have in common -/

/-- R139: what a command leaves that goes on to a next state: BUSY = 0 and DONE = 1, and no command
writes CMD, IN_LEN (R27), ARG0, ARG1 (R29), the parameters, IBUF (R47) or DROPPED. -/
def Obligations.CompletionLeaves : Prop :=
  ∀ (i : Instr) (s t : State), i.format = .cmd → exec i s = .next t →
    t.busy = false ∧ t.done = true ∧ t.activity = none ∧ SameInputs s t

/-- R127: each command reports no errors but those of its row. -/
def Obligations.ErrorsByCommand : Prop :=
  ∀ (i : Instr) (s t : State), i.format = .cmd → exec i s = .next t →
    t.err = .none ∨ t.err ∈ errorsOf i

/-- R125: what an error leaves. Raised before any write (case 1: always BAD_OPERAND and BAD_STATE), it
changes nothing but STATUS; after one (case 2), every part of the command's write set holds a draw within
its field's width, TREE_VALID, CODES_VALID and the OUT_LEN of COMPRESS and DECOMPRESS being 0, every OBUF
byte that the command could have written holding one and no other byte changed (Part.Drawn), and nothing
outside the write set changes (case 3). So every error of COMPRESS, DECOMPRESS, DESERIALIZE_TREE,
READ_HEADER, WRITE_HEADER and BUILD_CODES but BAD_OPERAND and BAD_STATE leaves draws. Which errors of the
other commands come after a write (State.WroteBefore) is the model's reading, log entry 9. (That
BAD_OPERAND leaves the validity flags and OUT_LEN of COMPRESS, DECOMPRESS, DESERIALIZE_TREE and
READ_HEADER as they were, and not 0 as R97, R99, R114 and R118 say of every error, is the model's
choice of R125 over them: log entry 16.) -/
def Obligations.ErrorEffects : Prop :=
  ∀ (i : Instr) (s t : State), i.format = .cmd → exec i s = .next t → t.err ≠ .none →
    (t.err = .badOperand ∨ t.err = .badState ∨ ¬s.WroteBefore i → t = s.complete t.err) ∧
    (t.err ≠ .badOperand → t.err ≠ .badState → s.WroteBefore i →
      (∀ p ∈ writesOf i, (p = .obuf → Memory.wf s.writer.obuf = true) → p.Drawn i s t) ∧
      (∀ p : Part, p ∉ writesOf i → p.Same s t))

/-- R69: a command changes nothing outside its write set, with or without an error (R125, case 3).
The frame of all 18 commands. Part.Same of OBUF and of the tables covers the draws of earlier errors,
which so last until a command that writes the place (R61, R140). -/
def Obligations.WriteSets : Prop :=
  ∀ (i : Instr) (s t : State), i.format = .cmd → exec i s = .next t →
    ∀ p : Part, p ∉ writesOf i → p.Same s t

/-- R150 (the spec's inference from R98, R101, R114 and R118): WRITE_HEADER, COMPRESS and DECOMPRESS
write OBUF from address 0 up, the other writers from the OUT_LEN they start at; without an error no
byte from the final OUT_LEN up changes. -/
def Obligations.ObufFrame : Prop :=
  ∀ (i : Instr) (s t : State), i.format = .cmd → Memory.wf s.writer.obuf = true →
    exec i s = .next t →
    (i ∉ [.writeHeader, .compress, .decompress] →
      ∀ a, a < s.writer.outLen.toNat →
        t.writer.obuf.get a = s.writer.obuf.get a ∧ t.obufByte a = s.obufByte a) ∧
    (t.err = .none → ∀ a, t.writer.outLen.toNat ≤ a →
      t.writer.obuf.get a = s.writer.obuf.get a ∧ t.obufByte a = s.obufByte a)

/-- The frame of the tree tokens and the payload bits: outside the write set of the command that runs,
nothing changes, and of OBUF, without an error, no byte but the one a decoded symbol goes to,
OBUF[OUT_LEN] (R118). -/
def Obligations.TokenFrames : Prop :=
  ∀ (i : Instr) (s t : State) (command : Instr), i.format ≠ .cmd → Memory.wf s.writer.obuf = true →
    ((∃ d use, s.activity = some (.deserialize d use) ∧ command = use.command) ∨
      (∃ w use, s.activity = some (.walk w use) ∧ command = use.command)) →
    exec i s = .next t →
    SameInputs s t ∧ (∀ p : Part, p ∉ writesOf command → p.Same s t) ∧
    (t.err = .none → ∀ a, a ≠ s.writer.outLen.toNat →
      t.writer.obuf.get a = s.writer.obuf.get a ∧ t.obufByte a = s.obufByte a)

/-- The writer has no stray bits after a command that completes without error, if it had none before
(R32, the spec's inference from R102: "the bits of BW_ACC at stream positions BW_CNT to 7 … are 0"). -/
def Obligations.WriterStaysClean : Prop :=
  ∀ (i : Instr) (s t : State), i.format = .cmd → s.writer.Clean → exec i s = .next t →
    t.err = .none → t.writer.Clean

/-- R27: a command that reads IBUF raises BAD_OPERAND when IN_LEN > IBUF_BYTES. BAD_STATE comes from
the commands that need a tree, without one (R88, R96, R98, R117), from SERIALIZE_TREE with a partial
byte (R96) and from ENCODE_BYTE without a code (R113). All of it before any write (R125, case 1).
(That BAD_OPERAND of COMPRESS, DECOMPRESS, DESERIALIZE_TREE and READ_HEADER changes nothing but
STATUS, against R97, R99, R114 and R118, is the model's choice: log entry 16.) -/
def Obligations.FirstChecks : Prop :=
  ∀ s : State,
    (s.cfg.ibufBytes.toNat < s.inLen.toNat →
      ∀ i ∈ [Instr.countFreq, .compress, .decompress, .deserializeTree, .readHeader, .brInit],
        exec i s = .next (s.complete .badOperand)) ∧
    (s.tree.valid = false → ∀ i ∈ [Instr.buildCodes, .serializeTree, .writeHeader, .decodeSymbol],
      exec i s = .next (s.complete .badState)) ∧
    (s.writer.cnt ≠ 0 → exec .serializeTree s = .next (s.complete .badState)) ∧
    (s.codes.valid = false ∨ (s.codes.entry (s.arg0.setWidth 8)).2 = 0 →
      exec .encodeByte s = .next (s.complete .badState))

/-! ### The unit commands -/

/-- R112, R104: NOP changes nothing but STATUS; BW_RESET clears BW_STATE, and OUT_LEN and OBUF stay. -/
def Obligations.NopAndBwResetComplete : Prop :=
  decodeCmd 0x00000000 = .ok .nop ∧ decodeCmd 0x00000020 = .ok .bwReset ∧ ∀ s : State,
    exec .nop s = .next { s with
      busy := false, done := true, err := .none, activity := none, draws := s.draws + 1 } ∧
    exec .bwReset s = .next { s with
      writer := { s.writer with acc := 0, cnt := 0 }
      busy := false, done := true, err := .none, activity := none, draws := s.draws + 1 }

/-- R110: BR_INIT sets the cursors and clamps BR_END to IN_LEN, the sum taken without wrap-around;
IN_LEN > IBUF_BYTES raises BAD_OPERAND before any write. -/
def Obligations.BrInitCompletes : Prop :=
  decodeCmd 0x00000028 = .ok .brInit ∧ ∀ s : State,
    (s.inLen.toNat ≤ s.cfg.ibufBytes.toNat →
      ∃ r : Reader, exec .brInit s = .next ({ s with reader := r }.complete .none) ∧
        r.pos = s.arg0 ∧ r.bit = 0 ∧
        r.limit.toNat = min (s.arg0.toNat + s.arg1.toNat) s.inLen.toNat) ∧
    (s.cfg.ibufBytes.toNat < s.inLen.toNat → exec .brInit s = .next (s.complete .badOperand))

/-- R111: READ_BIT puts the bit at the cursors in RESULT and moves them on (R109); at the end of the
extent it raises END_OF_STREAM and changes nothing. -/
def Obligations.ReadBitCompletes : Prop :=
  decodeCmd 0x00000029 = .ok .readBit ∧ ∀ s : State,
    (∀ v, s.reader.Gives s.ibuf [v] → ∃ r, s.reader.MovedBy 1 r ∧
      exec .readBit s =
        .next ({ s with reader := r, result := if v then 1 else 0 }.complete .none)) ∧
    (s.reader.limit.toNat ≤ s.reader.pos.toNat →
      exec .readBit s = .next (s.complete .endOfStream))

/-- R105, R102: WRITE_BIT sets the bit of BW_ACC at stream position BW_CNT if ARG0[0] is 1 and moves
BW_CNT on; the eighth bit flushes the byte to OBUF[OUT_LEN], or raises OUTPUT_OVERFLOW when
OUT_LEN ≥ OBUF_BYTES. -/
def Obligations.WriteBitCompletes : Prop :=
  decodeCmd 0x00000021 = .ok .writeBit ∧ ∀ (s : State) (byte : Byte),
    byte = (if s.arg0.getLsbD 0 then
      s.writer.acc ||| BitVec.ofNat 8 (2 ^ (7 - s.writer.cnt.toNat)) else s.writer.acc) →
    (s.writer.cnt ≠ 7 → exec .writeBit s = .next ({ s with
      writer := { s.writer with acc := byte, cnt := s.writer.cnt + 1 } }.complete .none)) ∧
    (s.writer.cnt = 7 → s.writer.outLen.toNat < s.cfg.obufBytes.toNat →
      exec .writeBit s = .next ({ s with
        writer := { acc := 0, cnt := 0, outLen := s.writer.outLen + 1
                    obuf := s.writer.obuf.set s.writer.outLen.toNat byte } }.complete .none)) ∧
    (s.writer.cnt = 7 → s.cfg.obufBytes.toNat ≤ s.writer.outLen.toNat →
      ∃ t, exec .writeBit s = .next t ∧ t.err = .outputOverflow)

/-- R106: WRITE_CODE appends the first ARG1 bits of ARG0, bit 31 first; more than 32 bits raise
BAD_OPERAND before any write; bytes that do not fit raise OUTPUT_OVERFLOW. Where BW_ACC holds stray
bits (after an error, R147) it still completes; what the first byte then holds is not said here. -/
def Obligations.WriteCodeCompletes : Prop :=
  ∀ s : State,
    (s.arg1.toNat ≤ 32 →
      s.writer.outLen.toNat + (s.writer.cnt.toNat + s.arg1.toNat) / 8 ≤ s.cfg.obufBytes.toNat ∨
        s.writer.cnt.toNat + s.arg1.toNat < 8 →
      ∃ w, exec .writeCode s = .next ({ s with writer := w }.complete .none) ∧
        w.cnt.toNat = (s.writer.cnt.toNat + s.arg1.toNat) % 8 ∧
        w.outLen.toNat = s.writer.outLen.toNat + (s.writer.cnt.toNat + s.arg1.toNat) / 8 ∧
        (s.writer.Clean → Memory.wf s.writer.obuf = true →
          s.writer.Appended ((List.range s.arg1.toNat).map s.arg0.getMsbD) w)) ∧
    (s.arg1.toNat ≤ 32 →
      s.cfg.obufBytes.toNat < s.writer.outLen.toNat + (s.writer.cnt.toNat + s.arg1.toNat) / 8 →
      8 ≤ s.writer.cnt.toNat + s.arg1.toNat →
      ∃ t, exec .writeCode s = .next t ∧ t.err = .outputOverflow) ∧
    (32 < s.arg1.toNat → exec .writeCode s = .next (s.complete .badOperand))

/-- R107: BW_FINISH appends a partial byte as it stands, or nothing when there is none, and leaves
the writer empty; a partial byte without room raises OUTPUT_OVERFLOW. -/
def Obligations.BwFinishCompletes : Prop :=
  decodeCmd 0x00000023 = .ok .bwFinish ∧ ∀ s : State,
    (s.writer.cnt = 0 →
      exec .bwFinish s = .next ({ s with writer := { s.writer with acc := 0, cnt := 0 } }.complete .none)) ∧
    (s.writer.cnt ≠ 0 → s.writer.outLen.toNat < s.cfg.obufBytes.toNat →
      exec .bwFinish s = .next ({ s with writer :=
        { acc := 0, cnt := 0, outLen := s.writer.outLen + 1
          obuf := s.writer.obuf.set s.writer.outLen.toNat s.writer.acc } }.complete .none)) ∧
    (s.writer.cnt ≠ 0 → s.cfg.obufBytes.toNat ≤ s.writer.outLen.toNat →
      ∃ t, exec .bwFinish s = .next t ∧ t.err = .outputOverflow)

/-- R113: ENCODE_BYTE appends the first CODE_LEN[s] bits of CODE_VAL[s], s being ARG0[7:0]; bytes
that do not fit raise OUTPUT_OVERFLOW. Stray bits in BW_ACC (R147) as with WRITE_CODE. -/
def Obligations.EncodeByteCompletes : Prop :=
  ∀ (s : State) (x : Byte) (n : Nat), x = s.arg0.setWidth 8 → s.codes.valid = true →
    (s.codes.entry x).2 ≠ 0 → n = (s.codes.entry x).2.toNat →
    (s.writer.outLen.toNat + (s.writer.cnt.toNat + n) / 8 ≤ s.cfg.obufBytes.toNat ∨
        s.writer.cnt.toNat + n < 8 →
      ∃ w, exec .encodeByte s = .next ({ s with writer := w }.complete .none) ∧
        w.cnt.toNat = (s.writer.cnt.toNat + n) % 8 ∧
        w.outLen.toNat = s.writer.outLen.toNat + (s.writer.cnt.toNat + n) / 8 ∧
        (s.writer.Clean → Memory.wf s.writer.obuf = true →
          s.writer.Appended ((List.range n).map (s.codes.entry x).1.getMsbD) w)) ∧
    (s.cfg.obufBytes.toNat < s.writer.outLen.toNat + (s.writer.cnt.toNat + n) / 8 →
      8 ≤ s.writer.cnt.toNat + n →
      ∃ t, exec .encodeByte s = .next t ∧ t.err = .outputOverflow)

/-- R83: COUNT_FREQ leaves in FREQ how often each byte stands in IBUF[0 .. IN_LEN − 1]; IN_LEN >
IBUF_BYTES raises BAD_OPERAND before any write. -/
def Obligations.CountFreqCompletes : Prop :=
  decodeCmd 0x00000010 = .ok .countFreq ∧ ∀ s : State,
    (∀ input : List Byte, HoldsBytes s.ibuf 0 input → input.length = s.inLen.toNat →
      s.inLen.toNat ≤ s.cfg.ibufBytes.toNat →
      ∃ freq, (∀ b : Byte, freqOf freq b = input.count b) ∧
        exec .countFreq s = .next ({ s with freq := freq }.complete .none)) ∧
    (s.cfg.ibufBytes.toNat < s.inLen.toNat → exec .countFreq s = .next (s.complete .badOperand))

/-- R84, R85, R86: BUILD_TREE always completes. With k ≥ 1 present symbols it leaves the leaves in
ascending symbol order, every merge of the two least waiting nodes in the order of (weight, index),
2k − 1 nodes and the root last; with none it leaves no tree. (That the arena is then well formed is
R40, the spec's inference from R86.) -/
def Obligations.BuildTreeCompletes : Prop :=
  decodeCmd 0x00000011 = .ok .buildTree ∧
  ∀ (s : State) (symbols : List (Byte × Nat)), Present s.freq symbols →
    ∃ a : Arena, exec .buildTree s =
        .next ({ s with tree := a, codes := { s.codes with valid := false } }.complete .none) ∧
      (symbols = [] → a.valid = false ∧ a.count = 0 ∧ a.root = 0) ∧
      (symbols ≠ [] → a.valid = true ∧ a.WellFormed ∧
        a.count.toNat = 2 * symbols.length - 1 ∧
        a.root.toNat = (if symbols.length = 1 then 0 else 2 * symbols.length - 2) ∧
        ∃ W, a.Greedy symbols W)

/-- R87, R88: BUILD_CODES puts each leaf's path in the table, the later of two leaves of one symbol
winning, and no code where there is no leaf; a leaf deeper than 32 raises CODE_TOO_LONG, and no tree
BAD_STATE before any write. -/
def Obligations.BuildCodesCompletes : Prop :=
  decodeCmd 0x00000012 = .ok .buildCodes ∧ ∀ s : State,
    (s.tree.valid = true → s.tree.WellFormed →
      ∃ t L, Holds s.tree.nodes s.tree.root.toNat t L ∧
        (t.depth ≤ 32 → ∃ c : CodeTable,
          exec .buildCodes s = .next ({ s with codes := c }.complete .none) ∧ c.valid = true ∧
          (∀ x, x ∉ t.leaves → c.entry x = (0, 0)) ∧
          (∀ pre x bits post, t.codes = pre ++ (x, bits) :: post → x ∉ post.map Prod.fst →
            c.entry x = (leftAlign bits, BitVec.ofNat 6 bits.length))) ∧
        (32 < t.depth → ∃ u, exec .buildCodes s = .next u ∧ u.err = .codeTooLong ∧
          u.codes.valid = false)) ∧
    (s.tree.valid = false → exec .buildCodes s = .next (s.complete .badState))

/-- R89 (the spec's inference from R87): after BUILD_CODES on a tree whose leaves hold distinct
symbols no code is a prefix of another. -/
def Obligations.CodesArePrefixFree : Prop :=
  ∀ (s u : State) (t : HTree) (L : List Nat), s.tree.valid = true → s.tree.WellFormed →
    Holds s.tree.nodes s.tree.root.toNat t L → t.leaves.Nodup →
    exec .buildCodes s = .next u → u.codes.valid = true →
    ∀ x y : Byte, x ≠ y → (u.codes.entry x).2 ≠ 0 → (u.codes.entry y).2 ≠ 0 →
      ¬(u.codes.bits x <+: u.codes.bits y)

/-- R90 (the spec's inference from R84, R86 and R87): for exactly two symbols, BUILD_TREE makes one
Internal root with two leaves, and BUILD_CODES then gives the symbol of smaller frequency (on equal
frequency the smaller symbol) the code `0` and the other `1`. -/
def Obligations.TwoSymbolCodes : Prop :=
  ∀ (s : State) (x y : Byte), x ≠ y → freqOf s.freq x ≠ 0 → freqOf s.freq y ≠ 0 →
    (∀ z, z ≠ x → z ≠ y → freqOf s.freq z = 0) →
    (freqOf s.freq x < freqOf s.freq y ∨ (freqOf s.freq x = freqOf s.freq y ∧ x.toNat < y.toNat)) →
    ∃ t u, exec .buildTree s = .next t ∧
      (∃ L, Holds t.tree.nodes t.tree.root.toNat (.node (.leaf x) (.leaf y)) L) ∧
      exec .buildCodes t = .next u ∧ u.err = .none ∧ u.codes.valid = true ∧
      u.codes.entry x = (0x00000000, 1) ∧ u.codes.entry y = (0x80000000, 1)

/-- R96, R91: SERIALIZE_TREE appends the 3k − 1 bytes of the tree's pre-order form and reports their
number; without room it raises OUTPUT_OVERFLOW, and without a tree or with a partial byte BAD_STATE
before any write. -/
def Obligations.SerializeTreeCompletes : Prop :=
  decodeCmd 0x00000018 = .ok .serializeTree ∧ ∀ s : State,
    (s.tree.valid = true → s.tree.WellFormed → s.writer.cnt = 0 → Memory.wf s.writer.obuf = true →
      ∃ t L, Holds s.tree.nodes s.tree.root.toNat t L ∧
        (s.writer.outLen.toNat + (3 * t.leaves.length - 1) ≤ s.cfg.obufBytes.toNat →
          ∃ w, s.writer.AppendedBytes t.serialize w ∧ exec .serializeTree s =
            .next ({ s with
              writer := w, result := BitVec.ofNat 32 (3 * t.leaves.length - 1) }.complete .none)) ∧
        (s.cfg.obufBytes.toNat < s.writer.outLen.toNat + (3 * t.leaves.length - 1) →
          ∃ u, exec .serializeTree s = .next u ∧ u.err = .outputOverflow)) ∧
    (s.tree.valid = false ∨ s.writer.cnt ≠ 0 →
      exec .serializeTree s = .next (s.complete .badState))

/-- R92, R93, R97: DESERIALIZE_TREE inverts the serializer. Over the serialized form of any tree of
at most 256 leaves that lies below min(ARG1, IN_LEN), it rebuilds that tree, numbered in pre-order
from 0, and reports the address after it. -/
def Obligations.DeserializeInvertsSerialize : Prop :=
  ∀ (s : State) (t : HTree), s.inLen.toNat ≤ s.cfg.ibufBytes.toNat →
    HoldsBytes s.ibuf s.arg0.toNat t.serialize →
    s.arg0.toNat + t.serialize.length ≤ min s.arg1.toNat s.inLen.toNat → t.leaves.length ≤ 256 →
    ∃ a : Arena, Holds a.nodes 0 t (List.range t.size) ∧ a.root = 0 ∧ a.valid = true ∧
      a.count.toNat = 2 * t.leaves.length - 1 ∧
      exec .deserializeTree s = .next ({ s with
        tree := a, codes := { s.codes with valid := false }
        result := BitVec.ofNat 32 (s.arg0.toNat + t.serialize.length) }.complete .none)

/-- DESERIALIZE_TREE accepts nothing else (R92, R97): when it completes without error, the bytes from
ARG0 up to RESULT are the serialized form of the tree it leaves, and they lie below the bound. -/
def Obligations.DeserializeIsSound : Prop :=
  ∀ s u : State, exec .deserializeTree s = .next u → u.err = .none →
    ∃ t : HTree, Holds u.tree.nodes 0 t (List.range t.size) ∧ u.tree.root = 0 ∧
      u.tree.valid = true ∧ u.tree.count.toNat = t.size ∧
      HoldsBytes s.ibuf s.arg0.toNat t.serialize ∧
      u.result.toNat = s.arg0.toNat + t.serialize.length ∧
      u.result.toNat ≤ min s.arg1.toNat s.inLen.toNat

/-- R98: WRITE_HEADER leaves the header of 3k + 7 bytes at OBUF[0], with header_size and
original_size = ARG0 little-endian, and the writer empty behind it; without room it raises
OUTPUT_OVERFLOW, and without a tree BAD_STATE before any write. -/
def Obligations.WriteHeaderCompletes : Prop :=
  decodeCmd 0x0000001A = .ok .writeHeader ∧ ∀ s : State,
    (s.tree.valid = true → s.tree.WellFormed → Memory.wf s.writer.obuf = true →
      ∃ t L, Holds s.tree.nodes s.tree.root.toNat t L ∧
        (3 * t.leaves.length + 7 ≤ s.cfg.obufBytes.toNat →
          ∃ w : Writer, w.acc = 0 ∧ w.cnt = 0 ∧ w.outLen.toNat = 3 * t.leaves.length + 7 ∧
            (∀ a, w.obuf.get a = ((headerBytes s.arg0 t)[a]?).or (s.writer.obuf.get a)) ∧
            exec .writeHeader s = .next ({ s with
              writer := w, hdrSize := BitVec.ofNat 32 (3 * t.leaves.length + 7)
              origSize := s.arg0 }.complete .none)) ∧
        (s.cfg.obufBytes.toNat < 3 * t.leaves.length + 7 →
          ∃ u, exec .writeHeader s = .next u ∧ u.err = .outputOverflow)) ∧
    (s.tree.valid = false → exec .writeHeader s = .next (s.complete .badState))

/-- R99: READ_HEADER reads back the two fields and the tree of any header it accepts; RESULT is the
address after the tree, and bytes between it and header_size are not read. (WRITE_HEADER's headers
have none.) -/
def Obligations.ReadHeaderCompletes : Prop :=
  ∀ (s : State) (h o : Word) (t : HTree), s.inLen.toNat ≤ s.cfg.ibufBytes.toNat →
    HeaderIn s.ibuf s.inLen h o t →
    ∃ a : Arena, Holds a.nodes 0 t (List.range t.size) ∧ a.root = 0 ∧ a.valid = true ∧
      a.count.toNat = t.size ∧
      exec .readHeader s = .next ({ s with
        hdrSize := h, origSize := o
        tree := a, codes := { s.codes with valid := false }
        result := BitVec.ofNat 32 (8 + t.serialize.length) }.complete .none)

/-- Bytes that DESERIALIZE_TREE, READ_HEADER and DECOMPRESS turn away (R92, R97, R99, R118), each with
TREE_VALID = CODES_VALID = 0, and DECOMPRESS with OUT_LEN = 0. Fewer than 8 bytes (for DECOMPRESS at
least one, the empty input being no error), and a header_size beyond IN_LEN (the source's Scenario D),
raise TRUNCATED_OR_CORRUPT. So do bytes that hold no tree: where no tree of at most 256 leaves has its
serialized form at ARG0 and up to the bound, or behind the header's two fields and up to header_size.
Behind a header that is accepted, DECOMPRESS raises OUTPUT_OVERFLOW when original_size > OBUF_BYTES, and
otherwise END_OF_STREAM when the extent, h + min(o, IN_LEN − h), ends after some symbols, fewer than
original_size, in the middle of the next code or before it. -/
def Obligations.CorruptBuffers : Prop :=
  ∀ s : State, s.inLen.toNat ≤ s.cfg.ibufBytes.toNat →
    ((s.inLen.toNat < 8 ∨
      ∃ h o, HoldsBytes s.ibuf 0 (le32Bytes h ++ le32Bytes o) ∧
        (s.inLen.toNat < h.toNat ∨ HoldsNoTree s.ibuf 8 h.toNat)) →
      ∀ i, i = .readHeader ∨ (i = .decompress ∧ s.inLen ≠ 0) →
        ∃ u, exec i s = .next u ∧ u.err = .truncatedOrCorrupt ∧ u.tree.valid = false ∧
          u.codes.valid = false ∧ (i = .decompress → u.writer.outLen = 0)) ∧
    (HoldsNoTree s.ibuf s.arg0.toNat (min s.arg1.toNat s.inLen.toNat) →
      ∃ u, exec .deserializeTree s = .next u ∧ u.err = .truncatedOrCorrupt ∧ u.tree.valid = false ∧
        u.codes.valid = false) ∧
    (∀ (h o : Word) (t : HTree), HeaderIn s.ibuf s.inLen h o t →
      (s.cfg.obufBytes.toNat < o.toNat → ∃ u, exec .decompress s = .next u ∧
        u.err = .outputOverflow ∧ u.writer.outLen = 0 ∧ u.tree.valid = false ∧
        u.codes.valid = false) ∧
      (∀ (code : Byte → List Bool) (symbols : List Byte) (x : Byte) (bits more : List Bool)
          (start stop : Reader),
        o.toNat ≤ s.cfg.obufBytes.toNat → symbols.length < o.toNat →
        (∀ y ∈ symbols, (y, code y) ∈ t.codes) → (x, bits ++ more) ∈ t.codes → more ≠ [] →
        start.pos = h → start.bit = 0 →
        start.limit.toNat = h.toNat + min o.toNat (s.inLen.toNat - h.toNat) →
        start.Gives s.ibuf (codeStream code symbols ++ bits) →
        start.MovedBy (codeStream code symbols ++ bits).length stop →
        stop.limit.toNat ≤ stop.pos.toNat →
        ∃ u, exec .decompress s = .next u ∧ u.err = .endOfStream ∧ u.writer.outLen = 0 ∧
          u.tree.valid = false ∧ u.codes.valid = false))

/-- R116, R117: DECODE_SYMBOL follows the bits the reader gives down the tree to a leaf and puts its
symbol in RESULT; a one-leaf tree consumes one bit, whatever it is. Bits that run out before a leaf
raise END_OF_STREAM, with nothing changed when there is not even one; no tree raises BAD_STATE before
any write. -/
def Obligations.DecodeSymbolCompletes : Prop :=
  decodeCmd 0x0000002A = .ok .decodeSymbol ∧ ∀ s : State,
    (∀ (t : HTree) (L : List Nat), s.tree.valid = true →
      Holds s.tree.nodes s.tree.root.toNat t L →
      (∀ x bits, (x, bits) ∈ t.codes → s.reader.Gives s.ibuf bits →
        ∃ r, s.reader.MovedBy bits.length r ∧
          exec .decodeSymbol s =
            .next ({ s with reader := r, result := x.setWidth 32 }.complete .none)) ∧
      (∀ x v, t = .leaf x → s.reader.Gives s.ibuf [v] →
        ∃ r, s.reader.MovedBy 1 r ∧
          exec .decodeSymbol s =
            .next ({ s with reader := r, result := x.setWidth 32 }.complete .none)) ∧
      (∀ x bits rest r, (x, bits ++ rest) ∈ t.codes → rest ≠ [] → s.reader.Gives s.ibuf bits →
        s.reader.MovedBy bits.length r → r.limit.toNat ≤ r.pos.toNat →
        ∃ u, exec .decodeSymbol s = .next u ∧ u.err = .endOfStream)) ∧
    (s.tree.valid = true → s.reader.limit.toNat ≤ s.reader.pos.toNat →
      exec .decodeSymbol s = .next (s.complete .endOfStream)) ∧
    (s.tree.valid = false → exec .decodeSymbol s = .next (s.complete .badState))

/-! ### Tree tokens and payload bits -/

/-- R92: an Internal token allocates the next index and makes its left subtree next. A Leaf token
writes its node at the next index: where an Internal node waits for its left subtree, the leaf is
that subtree and the right one is next; where the leaf is the right subtree of the outermost node,
or the whole tree, the tree is complete. A token beyond the arena's 511 nodes raises
TRUNCATED_OR_CORRUPT with TREE_VALID = CODES_VALID = 0. (Deeper nests, and what DECOMPRESS does next: MicroStepsAgree.) -/
def Obligations.TreeTokensComplete : Prop :=
  ∀ (s : State) (d : Des) (use : DesUse) (x : Byte), s.activity = some (.deserialize d use) →
    (d.cnt < nodeMax → exec .treeInternal s = .next { s with
      activity := some (.deserialize { d with
        cnt := d.cnt + 1, stack := .left (BitVec.ofNat 9 d.cnt) :: d.stack } use) }) ∧
    (∀ i rest, d.cnt < nodeMax → d.stack = .left i :: rest →
      exec (.treeLeaf x) s = .next { s with
        tree := { s.tree with nodes := s.tree.nodes.setIfInBounds d.cnt (Node.ofSymbol x) }
        activity := some (.deserialize { d with
          cnt := d.cnt + 1, stack := .right i (BitVec.ofNat 9 d.cnt) :: rest } use) }) ∧
    (d.cnt < nodeMax → d.stack = [] → use ≠ .decompress →
      exec (.treeLeaf x) s = .next ({ s with
        tree := { nodes := s.tree.nodes.setIfInBounds d.cnt (Node.ofSymbol x)
                  count := BitVec.ofNat 10 (d.cnt + 1), root := BitVec.ofNat 9 d.cnt, valid := true }
        result := BitVec.ofNat 32 d.pos }.complete .none)) ∧
    (∀ i l, d.cnt < nodeMax → d.stack = [.right i l] → use ≠ .decompress →
      exec (.treeLeaf x) s = .next ({ s with
        tree := { nodes := (s.tree.nodes.setIfInBounds d.cnt (Node.ofSymbol x)).setIfInBounds i.toNat
                    (Node.ofChildren l (BitVec.ofNat 9 d.cnt))
                  count := BitVec.ofNat 10 (d.cnt + 1), root := i, valid := true }
        result := BitVec.ofNat 32 d.pos }.complete .none)) ∧
    (nodeMax ≤ d.cnt → ∀ i ∈ [Instr.treeInternal, .treeLeaf x],
      ∃ t, exec i s = .next t ∧ t.err = .truncatedOrCorrupt ∧ t.tree.valid = false ∧
        t.codes.valid = false)

/-- R116: a payload bit moves the walk to the child it names, 0 to the left one and 1 to the right
one; a Leaf there is the symbol (DECODE_SYMBOL's result, R117; for DECOMPRESS the next byte of OBUF
and a new walk from ROOT, or the end, R118). A one-leaf tree ignores the bit's value. -/
def Obligations.PayloadBitsComplete : Prop :=
  ∀ (s : State) (w : Walk) (use : WalkUse) (t : HTree) (L : List Nat) (v : Bool) (i : Instr),
    s.activity = some (.walk w use) → Holds s.tree.nodes w.cur.toNat t L →
    i = (if v then .payloadBitRight else .payloadBitLeft) →
    (∀ l r a b, t = .node l r → (if v then r else l) = .node a b →
      ∃ (c : NodeIdx) (Lc : List Nat), Holds s.tree.nodes c.toNat (.node a b) Lc ∧
        exec i s = .next { s with activity := some (.walk { w with cur := c, dirty := true } use) }) ∧
    (∀ x, t = .leaf x ∨ (∃ l r, t = .node l r ∧ (if v then r else l) = .leaf x) →
      (use = .decodeSymbol →
        exec i s = .next ({ s with result := x.setWidth 32 }.complete .none)) ∧
      (use = .decompress → w.emitted + 1 < s.origSize.toNat →
        exec i s = .next { s with
          writer := s.writer.push x
          activity := some (.walk
            { cur := s.tree.root, emitted := w.emitted + 1, dirty := true } .decompress) }) ∧
      (use = .decompress → s.origSize.toNat ≤ w.emitted + 1 →
        exec i s = .next ({ s with writer := s.writer.push x }.complete .none)))

/-- A command run token by token and bit by bit ends as its meaning says (R19, R42): after the
command's beginning some number of the core's steps gives exactly what exec gives. -/
def Obligations.MicroStepsAgree : Prop :=
  ∀ (i : Instr) (s : State), i.format = .cmd → s.schedule = [] → s.busy = true →
    s.activity = none →
    (∀ t, beginCommand i s = .next t → ∃ n, Sys2Proof.core.run n t = exec i s) ∧
    ((∀ t, beginCommand i s ≠ .next t) → beginCommand i s = exec i s)

/-! ### The codec as a whole -/

/-- R121 (the spec's inference from R114 and R118): COMPRESS and DECOMPRESS of the empty input
complete without error, with OUT_LEN = 0; and what they write then (R114, R118). -/
def Obligations.EmptyInput : Prop :=
  ∀ s : State, s.inLen = 0 →
    (∃ t, exec .compress s = .next t ∧ t.err = .none ∧ t.writer.outLen = 0 ∧
      t.writer.acc = 0 ∧ t.writer.cnt = 0 ∧ (∀ b : Byte, t.freq[b.toNat]'b.isLt = 0) ∧
      t.tree.valid = false ∧ t.codes.valid = false ∧ t.tree.count = 0 ∧ t.tree.root = 0 ∧
      t.hdrSize = 0 ∧ t.origSize = 0 ∧ t.writer.obuf = s.writer.obuf) ∧
    (∃ t, exec .decompress s = .next t ∧ t.err = .none ∧ t.writer.outLen = 0 ∧
      t.tree.valid = false ∧ t.codes.valid = false ∧ t.tree.count = 0 ∧ t.tree.root = 0 ∧
      t.hdrSize = 0 ∧ t.origSize = 0 ∧ t.writer.obuf = s.writer.obuf)

/-- R114: COMPRESS of a non-empty input. Its tree is BUILD_TREE's on the counts of the input (the
nodes, NODE_COUNT and ROOT of R84 to R86), its table BUILD_CODES', without a code for a symbol that
is not in the input, and, where it fits, OBUF[0 .. OUT_LEN − 1] is the compressed buffer (R71):
header, then the codes of the input's bytes, first bit first, padded with zeros; it ends with
CODE_TOO_LONG where a code is longer than 32 bits and with OUTPUT_OVERFLOW where the buffer does not
fit, both with OUT_LEN = 0 and TREE_VALID = CODES_VALID = 0. -/
def Obligations.CompressCompletes : Prop :=
  ∀ (s : State) (input : List Byte), HoldsBytes s.ibuf 0 input → input.length = s.inLen.toNat →
    input ≠ [] → s.inLen.toNat ≤ s.cfg.ibufBytes.toNat → Memory.wf s.writer.obuf = true →
    ∃ (freq : Vector Word 256) (a : Arena) (tree : HTree) (L : List Nat)
        (symbols : List (Byte × Nat)) (W : Nat → Nat),
      (∀ b : Byte, freqOf freq b = input.count b) ∧ Present freq symbols ∧
      Holds a.nodes a.root.toNat tree L ∧ a.WellFormed ∧ a.valid = true ∧ a.Greedy symbols W ∧
      a.count.toNat = 2 * symbols.length - 1 ∧
      a.root.toNat = (if symbols.length = 1 then 0 else 2 * symbols.length - 2) ∧
      tree.leaves.Perm (symbols.map Prod.fst) ∧
      (tree.depth ≤ 32 → ∃ codes : CodeTable, codes.valid = true ∧ codes.WellFormed ∧
        (∀ x bits, (x, bits) ∈ tree.codes → codes.bits x = bits) ∧
        (∀ x, x ∉ input → codes.entry x = (0, 0)) ∧
        ((compressedBytes input tree codes).length ≤ s.cfg.obufBytes.toNat →
          ∃ w : Writer, w.acc = 0 ∧ w.cnt = 0 ∧
            w.outLen.toNat = (compressedBytes input tree codes).length ∧
            (∀ j, w.obuf.get j =
              ((compressedBytes input tree codes)[j]?).or (s.writer.obuf.get j)) ∧
            exec .compress s = .next ({ s with
              freq := freq, tree := a, codes := codes, writer := w, origSize := s.inLen
              hdrSize := BitVec.ofNat 32 (8 + tree.serialize.length) }.complete .none)) ∧
        (s.cfg.obufBytes.toNat < (compressedBytes input tree codes).length →
          ∃ u, exec .compress s = .next u ∧ u.err = .outputOverflow ∧ u.writer.outLen = 0 ∧
            u.tree.valid = false ∧ u.codes.valid = false)) ∧
      (32 < tree.depth → ∃ u, exec .compress s = .next u ∧ u.err = .codeTooLong ∧
        u.writer.outLen = 0 ∧ u.tree.valid = false ∧ u.codes.valid = false)

/-- When COMPRESS can fail (R12, R78, R115: inferences of the spec, from R86 and R114). A buffer
compressed without error has at most n bytes behind its header and at most n + 775 in all;
with OBUF_BYTES ≥ IBUF_BYTES + 775 there is no OUTPUT_OVERFLOW; below F(35) = 9,227,465 bytes of input
there is no CODE_TOO_LONG. (The reference configuration meets the second condition, and its IBUF the
third.) -/
def Obligations.WhenCompressFails : Prop :=
  ∀ (s : State) (input : List Byte), HoldsBytes s.ibuf 0 input → input.length = s.inLen.toNat →
    s.inLen.toNat ≤ s.cfg.ibufBytes.toNat → Memory.wf s.writer.obuf = true →
    ∃ t, exec .compress s = .next t ∧
      (t.err = .none ∨ t.err = .codeTooLong ∨ t.err = .outputOverflow) ∧
      (t.err = .none → t.writer.outLen.toNat ≤ t.hdrSize.toNat + input.length ∧
        t.writer.outLen.toNat ≤ input.length + 775) ∧
      (s.cfg.ibufBytes.toNat + 775 ≤ s.cfg.obufBytes.toNat → t.err ≠ .outputOverflow) ∧
      (input.length < 9227465 → t.err ≠ .codeTooLong)

/-- R122 (the spec's inference from R114 and R98): after a successful COMPRESS of n ≥ 1 bytes with k
distinct symbols the first two fields of OBUF are header_size = HDR_SIZE = 8 + 3k − 1 and
original_size = ORIG_SIZE = n, little-endian. -/
def Obligations.CompressedHeaderFields : Prop :=
  ∀ (s t : State) (input : List Byte), HoldsBytes s.ibuf 0 input → input.length = s.inLen.toNat →
    input ≠ [] → Memory.wf s.writer.obuf = true → exec .compress s = .next t → t.err = .none →
    t.hdrSize.toNat = 8 + 3 * input.dedup.length - 1 ∧ t.origSize.toNat = input.length ∧
    HoldsBytes t.writer.obuf 0 (le32Bytes t.hdrSize ++ le32Bytes t.origSize) ∧
    ∀ w : Word, le32 (wordByte w 0) (wordByte w 1) (wordByte w 2) (wordByte w 3) = w

/-- R123 (the spec's inference from R114): COMPRESS of n ≥ 1 copies of one byte: one leaf, one code
of one bit, a payload of ⌈n/8⌉ zero bytes. -/
def Obligations.CompressOneSymbol : Prop :=
  ∀ (s : State) (b : Byte) (n : Nat), 1 ≤ n → n = s.inLen.toNat →
    HoldsBytes s.ibuf 0 (List.replicate n b) → n ≤ s.cfg.ibufBytes.toNat →
    10 + (n + 7) / 8 ≤ s.cfg.obufBytes.toNat → Memory.wf s.writer.obuf = true →
    ∃ t, exec .compress s = .next t ∧ t.err = .none ∧ t.tree.count = 1 ∧ t.tree.root = 0 ∧
      t.tree.nodes[0]? = some (Node.ofSymbol b) ∧ t.codes.entry b = (0, 1) ∧
      (∀ x, x ≠ b → (t.codes.entry x).2 = 0) ∧
      t.writer.outLen.toNat = 10 + (n + 7) / 8 ∧
      ∀ j, 10 ≤ j → j < 10 + (n + 7) / 8 → t.writer.obuf.get j = some 0x00

/-- R118: DECOMPRESS decodes the compressed format. Behind any header that READ_HEADER accepts, and
where the extent from header_size, of original_size bytes cut at IN_LEN, begins with the codes of as
many symbols, it leaves those symbols at OBUF[0 .. n − 1], the tree in the arena, and the reader
behind the last code. Bytes before header_size that are no part of the tree, and bits after the last
code, may be anything. -/
def Obligations.DecompressDecodes : Prop :=
  ∀ (s : State) (h o : Word) (t : HTree) (code : Byte → List Bool) (symbols : List Byte)
      (start : Reader),
    s.inLen.toNat ≤ s.cfg.ibufBytes.toNat → HeaderIn s.ibuf s.inLen h o t →
    symbols.length = o.toNat → (∀ x ∈ symbols, (x, code x) ∈ t.codes) →
    start.pos = h → start.bit = 0 →
    start.limit.toNat = h.toNat + min o.toNat (s.inLen.toNat - h.toNat) →
    start.Gives s.ibuf (codeStream code symbols) →
    symbols.length ≤ s.cfg.obufBytes.toNat → Memory.wf s.writer.obuf = true →
    ∃ (a : Arena) (r : Reader) (w : Writer),
      Holds a.nodes 0 t (List.range t.size) ∧ a.root = 0 ∧ a.count.toNat = t.size ∧ a.valid = true ∧
      r.pos.toNat = h.toNat + (codeStream code symbols).length / 8 ∧
      r.bit.toNat = (codeStream code symbols).length % 8 ∧ r.limit = start.limit ∧
      w.outLen.toNat = symbols.length ∧ w.acc = s.writer.acc ∧ w.cnt = s.writer.cnt ∧
      (∀ j, w.obuf.get j = (symbols[j]?).or (s.writer.obuf.get j)) ∧
      exec .decompress s = .next ({ s with
        hdrSize := h, origSize := o, tree := a
        codes := { s.codes with valid := false }, reader := r, writer := w }.complete .none)

/-- Round trip (R120, the spec's inference from R114, R118 and R116): what COMPRESS leaves of an
input without error, DECOMPRESS turns back into that input, for every input (also the empty one)
that the OBUF of the decompressing machine can hold. -/
def Obligations.RoundTrip : Prop :=
  ∀ (s t s' : State) (input buffer : List Byte),
    HoldsBytes s.ibuf 0 input → input.length = s.inLen.toNat → Memory.wf s.writer.obuf = true →
    exec .compress s = .next t → t.err = .none →
    HoldsBytes t.writer.obuf 0 buffer → buffer.length = t.writer.outLen.toNat →
    HoldsBytes s'.ibuf 0 buffer → buffer.length = s'.inLen.toNat →
    s'.inLen.toNat ≤ s'.cfg.ibufBytes.toNat → input.length ≤ s'.cfg.obufBytes.toNat →
    Memory.wf s'.writer.obuf = true →
    ∃ u, exec .decompress s' = .next u ∧ u.err = .none ∧ u.writer.outLen.toNat = input.length ∧
      HoldsBytes u.writer.obuf 0 input

/-- R119 (the spec's inference from R114 and R118): COMPRESS and DECOMPRESS depend on nothing but
IN_LEN, IBUF[0 .. IN_LEN − 1] and the configuration: from any two states that agree on these they
end with the same error, and without error with the same write set and the same OBUF[0 .. OUT_LEN −
1]. -/
def Obligations.CodecIsPure : Prop :=
  ∀ s s' : State, s'.cfg = s.cfg → s'.inLen = s.inLen →
    (∀ a, a < s.inLen.toNat → s'.ibuf.get a = s.ibuf.get a) →
    Memory.wf s.writer.obuf = true → Memory.wf s'.writer.obuf = true →
    ∀ i ∈ [Instr.compress, .decompress], ∀ t, exec i s = .next t →
    ∃ t', exec i s' = .next t' ∧ t'.err = t.err ∧
      (t.err = .none →
        (i = .compress → t'.freq = t.freq ∧ (t.codes.valid = true → t'.codes = t.codes) ∧
          t'.writer.acc = t.writer.acc ∧ t'.writer.cnt = t.writer.cnt) ∧
        (i = .decompress → s.inLen ≠ 0 → t'.reader = t.reader) ∧
        t'.hdrSize = t.hdrSize ∧ t'.origSize = t.origSize ∧ t'.codes.valid = t.codes.valid ∧
        t'.writer.outLen = t.writer.outLen ∧ t'.tree.valid = t.tree.valid ∧
        t'.tree.count = t.tree.count ∧ t'.tree.root = t.tree.root ∧
        (∀ j, j < t.tree.count.toNat → t'.tree.nodes[j]? = t.tree.nodes[j]?) ∧
        ∀ j, j < t.writer.outLen.toNat → t'.writer.obuf.get j = t.writer.obuf.get j)
end

