-- ==== Sys2Proof/Laws/Tree.lean ====
section
/-! SUPPORT. Trees in the arena: what Holds says, how it meets treeAt, and the sizes of trees
(R40, R74). -/

namespace Sys2Proof.Machine

/-! ### Sizes -/

theorem HTree.leaves_pos (t : HTree) : 0 < t.leaves.length := by
  induction t with
  | leaf s => simp [HTree.leaves]
  | node l r ihl ihr => simp only [HTree.leaves, List.length_append]; omega

/-- A tree of k leaves has 2k − 1 nodes (R74). -/
theorem HTree.size_eq (t : HTree) : t.size + 1 = 2 * t.leaves.length := by
  induction t with
  | leaf s => simp [HTree.leaves, HTree.size]
  | node l r ihl ihr => simp only [HTree.leaves, HTree.size, List.length_append]; omega

theorem HTree.size_pos (t : HTree) : 0 < t.size := by
  cases t <;> simp only [HTree.size] <;> omega

/-- A path has fewer steps than the tree has leaves. -/
theorem HTree.depth_lt_leaves (t : HTree) : t.depth < t.leaves.length := by
  induction t with
  | leaf s => simp [HTree.depth, HTree.leaves]
  | node l r ihl ihr =>
    have := l.leaves_pos
    have := r.leaves_pos
    simp only [HTree.depth, HTree.leaves, List.length_append]; omega

theorem HTree.depth_lt_size (t : HTree) : t.depth < t.size := by
  have h1 := t.depth_lt_leaves
  have h2 := t.size_eq
  omega

/-- The serialized tree of k leaves has 3k − 1 bytes (R74). -/
theorem HTree.serialize_length (t : HTree) : t.serialize.length + 1 = 3 * t.leaves.length := by
  induction t with
  | leaf s => simp [HTree.leaves, HTree.serialize]
  | node l r ihl ihr =>
    simp only [HTree.leaves, HTree.serialize, List.length_append, List.length_cons]; omega

/-! ### Holds -/

variable {nodes nodes' : Vector Node nodeMax} {i : Nat} {t t' : HTree} {L L' : List Nat}

theorem Holds.length_eq (h : Holds nodes i t L) : L.length = t.size := by
  induction h with
  | leaf => rfl
  | node _ _ _ _ ihl ihr =>
    simp only [List.length_cons, List.length_append, ihl, ihr, HTree.size]; omega

theorem Holds.head_mem (h : Holds nodes i t L) : i ∈ L := by
  cases h <;> simp

/-- Only existing entries are reached. -/
theorem Holds.lt_nodeMax (h : Holds nodes i t L) : ∀ j ∈ L, j < nodeMax := by
  induction h with
  | leaf entry => intro j hj; simp at hj; subst hj; exact (Vector.getElem?_eq_some_iff.1 entry).1
  | node entry _ _ _ ihl ihr =>
    intro j hj
    rcases List.mem_cons.1 hj with rfl | hj
    · exact (Vector.getElem?_eq_some_iff.1 entry).1
    · rcases List.mem_append.1 hj with hj | hj
      · exact ihl j hj
      · exact ihr j hj

/-- What an index holds is one tree. -/
theorem Holds.unique (h : Holds nodes i t L) (h' : Holds nodes i t' L') : t = t' ∧ L = L' := by
  induction h generalizing t' L' with
  | leaf entry hl =>
    cases h' with
    | leaf entry' => rw [entry] at entry'; cases entry'; exact ⟨rfl, rfl⟩
    | node entry' hn => rw [entry] at entry'; cases entry'; rw [hl] at hn; cases hn
  | node entry hn _ _ ihl ihr =>
    cases h' with
    | leaf entry' hl => rw [entry] at entry'; cases entry'; rw [hn] at hl; cases hl
    | node entry' _ hl' hr' =>
      rw [entry] at entry'; cases entry'
      obtain ⟨rfl, rfl⟩ := ihl hl'
      obtain ⟨rfl, rfl⟩ := ihr hr'
      exact ⟨rfl, rfl⟩

/-- Entries a tree does not reach do not matter. -/
theorem Holds.congr (h : Holds nodes i t L) (hag : ∀ j ∈ L, nodes'[j]? = nodes[j]?) :
    Holds nodes' i t L := by
  induction h with
  | leaf entry hl => exact .leaf (by rw [hag _ (by simp), entry]) hl
  | node entry hn _ _ ihl ihr =>
    refine .node (by rw [hag _ (by simp), entry]) hn (ihl ?_) (ihr ?_)
    · intro j hj; exact hag j (by simp [hj])
    · intro j hj; exact hag j (by simp [hj])

/-- Every index a tree reaches is the root of a tree within it. -/
theorem Holds.sub (h : Holds nodes i t L) : ∀ j ∈ L, ∃ t' L', Holds nodes j t' L' ∧ L' ⊆ L := by
  induction h with
  | leaf entry hl =>
    intro j hj; simp at hj; subst hj
    exact ⟨_, _, .leaf entry hl, fun _ hx => hx⟩
  | @node i n l r L R entry hn hl hr ihl ihr =>
    intro j hj
    rcases List.mem_cons.1 hj with rfl | hj
    · exact ⟨_, _, .node entry hn hl hr, fun _ hx => hx⟩
    · rcases List.mem_append.1 hj with hj | hj
      · obtain ⟨t', L', h', hs⟩ := ihl j hj
        exact ⟨t', L', h', fun x hx => by simp [hs hx]⟩
      · obtain ⟨t', L', h', hs⟩ := ihr j hj
        exact ⟨t', L', h', fun x hx => by simp [hs hx]⟩

/-! ### treeAt -/

theorem Holds.treeAt (h : Holds nodes i t L) {fuel : Nat} (hf : t.depth < fuel) {idx : NodeIdx}
    (hi : idx.toNat = i) : treeAt nodes fuel idx = some t := by
  induction h generalizing fuel idx with
  | leaf entry hl =>
    obtain ⟨f, rfl⟩ : ∃ f, fuel = f + 1 := ⟨fuel - 1, by omega⟩
    simp only [Machine.treeAt, nodeAt, hi, entry, hl, if_true]
  | node entry hn _ _ ihl ihr =>
    obtain ⟨f, rfl⟩ : ∃ f, fuel = f + 1 := ⟨fuel - 1, by omega⟩
    simp only [HTree.depth] at hf
    simp only [Machine.treeAt, nodeAt, hi, entry, hn, ihl (fuel := f) (by omega) rfl,
      ihr (fuel := f) (by omega) rfl, Bool.false_eq_true, if_false]

theorem holds_of_treeAt {fuel : Nat} {idx : NodeIdx} {t : HTree}
    (h : treeAt nodes fuel idx = some t) : ∃ L, Holds nodes idx.toNat t L := by
  induction fuel generalizing idx t with
  | zero => cases h
  | succ f ih =>
    simp only [treeAt] at h
    split at h
    · cases h
    · rename_i n hn
      split at h
      · rename_i hl
        cases h
        exact ⟨_, .leaf hn hl⟩
      · rename_i hl
        split at h
        · cases h
        · rename_i l hl'
          split at h
          · cases h
          · rename_i r hr'
            cases h
            obtain ⟨L, hL⟩ := ih hl'
            obtain ⟨R, hR⟩ := ih hr'
            exact ⟨_, .node hn (by simpa using hl) hL hR⟩

/-! ### Well-formed arenas -/

theorem Arena.WellFormed.count_le {a : Arena} (h : a.WellFormed) : a.count.toNat ≤ nodeMax := by
  obtain ⟨tree, L, hh, hp, -⟩ := h
  by_contra hc
  have hm : nodeMax ∈ L := hp.mem_iff.2 (List.mem_range.2 (by omega))
  exact absurd (hh.lt_nodeMax _ hm) (by omega)

/-- A well-formed arena reads as its tree, of 2k − 1 = NODE_COUNT nodes. -/
theorem Arena.WellFormed.tree {a : Arena} (h : a.WellFormed) :
    ∃ t L, Holds a.nodes a.root.toNat t L ∧ a.tree? = some t ∧ readTree a = .ok t ∧
      t.size = a.count.toNat ∧ t.leaves.length ≤ 256 := by
  have hc := h.count_le
  obtain ⟨t, L, hh, hp, hl⟩ := h
  have hs : t.size = a.count.toNat := by rw [← hh.length_eq, hp.length_eq, List.length_range]
  have hd := t.depth_lt_size
  have ht : a.tree? = some t := hh.treeAt (by omega) rfl
  exact ⟨t, L, hh, ht, by simp only [readTree, ht], hs, hl⟩

end Sys2Proof.Machine
end

