-- ==== Sys2Proof/Laws/Deserialize.lean ====
section
/-! SUPPORT. The deserializer (R92 to R95): one token keeps the stack's account of the arena, a
completed tree is well formed, and the serialized form of a tree gives that tree back in pre-order. -/

namespace Sys2Proof.Machine

theorem idx_toNat {c : Nat} (h : c < 512) : (BitVec.ofNat 9 c).toNat = c := by
  rw [BitVec.toNat_ofNat]; exact Nat.mod_eq_of_lt (by omega)

theorem nodes_set_self {nodes : Vector Node nodeMax} {i : Nat} (h : i < nodeMax) (n : Node) :
    (nodes.setIfInBounds i n)[i]? = some n := by
  simp [h]

theorem nodes_set_other {nodes : Vector Node nodeMax} {i j : Nat} (h : j ≠ i) (n : Node) :
    (nodes.setIfInBounds i n)[j]? = nodes[j]? := by
  simp [Ne.symm h]

/-- Writing an entry a tree does not reach. -/
theorem Holds.set {nodes : Vector Node nodeMax} {i k : Nat} {t : HTree} {L : List Nat}
    (h : Holds nodes i t L) (hk : k ∉ L) (n : Node) : Holds (nodes.setIfInBounds k n) i t L :=
  h.congr (fun _ hj => nodes_set_other (fun e => hk (by rw [← e]; exact hj)) n)

theorem Pending.set {nodes : Vector Node nodeMax} {k : Nat} {stack : List Frame} {L : List Nat}
    (h : Pending nodes stack L) (hk : k ∉ L) (n : Node) :
    Pending (nodes.setIfInBounds k n) stack L := by
  induction h with
  | nil => exact .nil
  | left _ ih => exact .left (ih (fun hm => hk (by simp [hm])))
  | right sub _ ih =>
    exact .right (sub.set (fun hm => hk (by simp [hm])) n) (ih (fun hm => hk (by simp [hm])))

/-- Everything `deliver` can do with a complete subtree. -/
theorem deliver_spec {nodes : Vector Node nodeMax} {v : NodeIdx} {t : HTree} {M : List Nat}
    {stack : List Frame} {L : List Nat} (hv : Holds nodes v.toNat t M) (hp : Pending nodes stack L)
    (hnd : (M ++ L).Nodup) (hlt : ∀ j ∈ M ++ L, j < nodeMax) :
    (∃ root t' M', (deliver nodes v stack).2 = ([], some root) ∧
      Holds (deliver nodes v stack).1 root.toNat t' M' ∧ M'.Perm (M ++ L)) ∨
    (∃ L', (deliver nodes v stack).2.2 = none ∧
      Pending (deliver nodes v stack).1 (deliver nodes v stack).2.1 L' ∧ L'.Perm (M ++ L)) := by
  induction stack generalizing nodes v t M L with
  | nil =>
    cases hp
    exact .inl ⟨v, t, M, rfl, hv, by simp⟩
  | cons f stack ih =>
    cases hp with
    | @left i _ L1 rest =>
      refine .inr ⟨i.toNat :: (M ++ L1), rfl, .right hv rest, ?_⟩
      exact List.perm_middle.symm
    | @right i l tl ML _ L1 sub rest =>
      have hi : i.toNat < nodeMax := hlt _ (by simp)
      have hd := List.nodup_append.1 hnd
      have hnd' : (i.toNat :: (ML ++ L1)).Nodup := hd.2.1
      have hiM : i.toNat ∉ M := fun hm => hd.2.2 _ hm _ (by simp) rfl
      have hiML : i.toNat ∉ ML := fun hm => (List.nodup_cons.1 hnd').1 (by simp [hm])
      have hiL : i.toNat ∉ L1 := fun hm => (List.nodup_cons.1 hnd').1 (by simp [hm])
      have hnew : Holds (nodes.setIfInBounds i.toNat (Node.ofChildren l v)) i.toNat (.node tl t)
          (i.toNat :: (ML ++ M)) :=
        .node (n := Node.ofChildren l v) (nodes_set_self hi _) rfl (sub.set hiML _) (hv.set hiM _)
      have hperm : (i.toNat :: (ML ++ M) ++ L1).Perm (M ++ i.toNat :: (ML ++ L1)) := by
        refine List.Perm.trans ?_ List.perm_middle.symm
        simp only [List.cons_append, List.perm_cons]
        rw [List.append_assoc]
        refine (List.perm_append_comm_assoc ML M L1).trans ?_
        simp
      have := ih hnew (rest.set hiL (Node.ofChildren l v)) (hperm.nodup_iff.2 hnd)
        (fun j hj => hlt j (hperm.mem_iff.1 hj))
      rcases this with ⟨root, t', M', h1, h2, h3⟩ | ⟨L', h1, h2, h3⟩
      · exact .inl ⟨root, t', M', h1, h2, h3.trans hperm⟩
      · exact .inr ⟨L', h1, h2, h3.trans hperm⟩

theorem perm_range_succ {L : List Nat} {c : Nat} (h : L.Perm (List.range c)) :
    (c :: L).Perm (List.range (c + 1)) := by
  rw [List.range_succ]
  exact (List.perm_cons c |>.2 h).trans (List.perm_append_singleton c _).symm

/-- What one token leaves (R92). -/
def TokenKept (d : Des) (nodes : Vector Node nodeMax) : Option NodeIdx → Prop
  | none => d.WellFormed nodes
  | some root => (d.arena nodes root).WellFormed

/-- A complete tree in the arena is well formed. -/
theorem Des.arena_wellFormed {d : Des} {nodes : Vector Node nodeMax} {root : NodeIdx} {t : HTree}
    {M : List Nat} (hc : d.cnt ≤ nodeMax) (hh : Holds nodes root.toNat t M)
    (hp : M.Perm (List.range d.cnt)) : (d.arena nodes root).WellFormed := by
  have hcnt : (d.arena nodes root).count.toNat = d.cnt := by
    have hc' : d.cnt ≤ 511 := hc
    simp only [Des.arena, BitVec.toNat_ofNat]; exact Nat.mod_eq_of_lt (by omega)
  refine ⟨t, M, hh, by rw [hcnt]; exact hp, ?_⟩
  have h1 := t.size_eq
  have h2 : t.size = d.cnt := by rw [← hh.length_eq, hp.length_eq, List.length_range]
  have hc' : d.cnt ≤ 511 := hc
  omega

/-- A token keeps the deserializer's account of the arena (R92, R94). -/
theorem desToken_kept {i : Instr} {d d' : Des} {nodes nodes' : Vector Node nodeMax}
    {ro : Option NodeIdx} (hw : d.WellFormed nodes) (h : desToken i d nodes = .ok (d', nodes', ro)) :
    TokenKept d' nodes' ro := by
  obtain ⟨hc, L, hp, hperm⟩ := hw
  have hnot : d.cnt ∉ L := fun hm => by simpa using hperm.mem_iff.1 hm
  unfold desToken at h
  split at h
  · rename_i symbol
    unfold desLeaf at h
    split at h
    · cases h
    · rename_i hlt
      have hlt : d.cnt < nodeMax := by omega
      have hlt' : d.cnt < 511 := hlt
      have hidx := idx_toNat (c := d.cnt) (by omega)
      simp only [Except.ok.injEq, Prod.mk.injEq] at h
      obtain ⟨rfl, rfl, rfl⟩ := h
      have hleaf : Holds (nodes.setIfInBounds d.cnt (Node.ofSymbol symbol)) (BitVec.ofNat 9 d.cnt).toNat
          (.leaf symbol) [d.cnt] := by
        rw [hidx]; exact .leaf (n := Node.ofSymbol symbol) (nodes_set_self hlt _) rfl
      have hall := perm_range_succ hperm
      rcases deliver_spec hleaf (hp.set hnot _) (hall.nodup_iff.2 List.nodup_range)
        (fun j hj => by have := List.mem_range.1 (hall.mem_iff.1 hj); omega) with
        ⟨root, t', M', h1, h2, h3⟩ | ⟨L', h1, h2, h3⟩
      · rw [h1]
        exact Des.arena_wellFormed (by simp only; omega) h2 (h3.trans hall)
      · rw [h1]
        exact ⟨by simp only; omega, L', h2, h3.trans hall⟩
  · unfold desInternal at h
    split at h
    · cases h
    · rename_i hlt
      have hlt' : d.cnt < 511 := by
        have : ¬ 511 ≤ d.cnt := hlt
        omega
      simp only [Except.ok.injEq, Prod.mk.injEq] at h
      obtain ⟨rfl, rfl, rfl⟩ := h
      refine ⟨by simp only [nodeMax]; omega, (BitVec.ofNat 9 d.cnt).toNat :: L, .left hp, ?_⟩
      rw [idx_toNat (by omega)]
      exact perm_range_succ hperm
  · cases h

/-- What fetching a token changes: the cursor. -/
theorem fetchToken_des {ibuf : Memory} {d d' : Des} {i : Instr}
    (h : fetchToken ibuf d = .ok (i, d')) :
    d'.limit = d.limit ∧ d'.cnt = d.cnt ∧ d'.stack = d.stack := by
  unfold fetchToken at h
  repeat' split at h
  all_goals first | (cases h; done) | (cases h; exact ⟨rfl, rfl, rfl⟩)

theorem fetchToken_wellFormed {ibuf : Memory} {d d' : Des} {i : Instr} {nodes : Vector Node nodeMax}
    (h : fetchToken ibuf d = .ok (i, d')) (hw : d.WellFormed nodes) : d'.WellFormed nodes := by
  obtain ⟨-, h2, h3⟩ := fetchToken_des h
  unfold Des.WellFormed at *
  rw [h2, h3]; exact hw

/-- The deserializer leaves a well-formed arena (R40, R94). -/
theorem desLoop_wellFormed {ibuf : Memory} {fuel : Nat} {d d' : Des}
    {nodes nodes' : Vector Node nodeMax} {root : NodeIdx} (hw : d.WellFormed nodes)
    (h : desLoop ibuf fuel d nodes = .ok (d', nodes', root)) :
    (d'.arena nodes' root).WellFormed := by
  induction fuel generalizing d nodes with
  | zero => cases h
  | succ f ih =>
    simp only [desLoop] at h
    split at h
    · cases h
    · rename_i i d1 hf
      split at h
      · cases h
      · rename_i d2 nodes2 root2 ht
        cases h
        exact desToken_kept (fetchToken_wellFormed hf hw) ht
      · rename_i d2 nodes2 ht
        exact ih (desToken_kept (fetchToken_wellFormed hf hw) ht) h

theorem Des.start_wellFormed (p0 limit : Nat) (nodes : Vector Node nodeMax) :
    (Des.start p0 limit).WellFormed nodes :=
  ⟨Nat.zero_le _, [], .nil, by simp [Des.start]⟩

theorem desTree_wellFormed {ibuf : Memory} {p0 limit : Nat} {nodes : Vector Node nodeMax}
    {a : Arena} {p : Word} (h : desTree ibuf p0 limit nodes = .ok (a, p)) :
    a.WellFormed ∧ a.valid = true := by
  unfold desTree at h
  split at h
  · cases h
  · rename_i d nodes' root hl
    cases h
    exact ⟨desLoop_wellFormed (Des.start_wellFormed _ _ _) hl, rfl⟩

/-! ### Reading a serialized tree -/

/-- What the loop does once node v is complete. -/
def afterNode (ibuf : Memory) (fuel : Nat) (d : Des) (nodes : Vector Node nodeMax) (v : NodeIdx) :
    Except Stop (Des × Vector Node nodeMax × NodeIdx) :=
  match deliver nodes v d.stack with
  | (nodes', stack, some root) => .ok ({ d with stack := stack }, nodes', root)
  | (nodes', stack, none) => desLoop ibuf fuel { d with stack := stack } nodes'

theorem HoldsBytes.head {m : Memory} {a : Nat} {b : Byte} {bs : List Byte}
    (h : HoldsBytes m a (b :: bs)) : m.get a = some b := by
  have := h 0 (by simp)
  simpa only [Nat.add_zero, List.getElem_cons_zero] using this

theorem HoldsBytes.tail {m : Memory} {a : Nat} {b : Byte} {bs : List Byte}
    (h : HoldsBytes m a (b :: bs)) : HoldsBytes m (a + 1) bs := by
  intro j hj
  have := h (j + 1) (by simp only [List.length_cons]; omega)
  rw [List.getElem_cons_succ] at this
  rw [← this]; congr 1; omega

theorem HoldsBytes.append {m : Memory} {a : Nat} {xs ys : List Byte} :
    HoldsBytes m a (xs ++ ys) ↔ HoldsBytes m a xs ∧ HoldsBytes m (a + xs.length) ys := by
  induction xs generalizing a with
  | nil => simp [HoldsBytes]
  | cons x xs ih =>
    constructor
    · intro h
      have ht := ih.1 h.tail
      refine ⟨?_, ?_⟩
      · intro j hj
        cases j with
        | zero => have := h.head; simp only [Nat.add_zero, List.getElem_cons_zero]; exact this
        | succ j =>
          have := ht.1 j (by simpa using hj)
          rw [List.getElem_cons_succ, ← this]; congr 1; omega
      · have := ht.2
        rwa [Nat.add_right_comm, Nat.add_assoc] at this
    · rintro ⟨h1, h2⟩
      have h2' : HoldsBytes m (a + 1 + xs.length) ys := by
        rwa [Nat.add_right_comm, Nat.add_assoc]
      have ht := ih.2 ⟨h1.tail, h2'⟩
      intro j hj
      cases j with
      | zero =>
        have := h1.head
        simp only [Nat.add_zero, List.cons_append, List.getElem_cons_zero]; exact this
      | succ j =>
        have := ht j (by simpa using hj)
        simp only [List.cons_append, List.getElem_cons_succ]
        rw [← this]; congr 1; omega

theorem readWithin_ok {ibuf : Memory} {limit p : Nat} {b : Byte} (hp : p < limit)
    (hb : ibuf.get p = some b) : readWithin ibuf limit p = .ok b := by
  have : ¬limit ≤ p := by omega
  simp [readWithin, this, memRead, hb]

theorem fetchToken_leaf {ibuf : Memory} {d : Des} {s : Byte} (hl : d.pos + 1 < d.limit)
    (h0 : ibuf.get d.pos = some 0x01) (h1 : ibuf.get (d.pos + 1) = some s) :
    fetchToken ibuf d = .ok (.treeLeaf s, { d with pos := d.pos + 2 }) := by
  simp only [fetchToken, readWithin_ok (Nat.lt_of_succ_lt hl) h0, decodeToken, readWithin_ok hl h1]
  rfl

theorem fetchToken_internal {ibuf : Memory} {d : Des} (hl : d.pos < d.limit)
    (h0 : ibuf.get d.pos = some 0x00) :
    fetchToken ibuf d = .ok (.treeInternal, { d with pos := d.pos + 1 }) := by
  simp only [fetchToken, readWithin_ok hl h0, decodeToken]
  rfl

/-- Reading the serialized form of a tree: its nodes get the next indices in pre-order (R93), then
the loop goes on with its root. -/
theorem desLoop_serialize {ibuf : Memory} (t : HTree) (fuel pos limit c : Nat) (stack : List Frame)
    (nodes : Vector Node nodeMax) (hb : HoldsBytes ibuf pos t.serialize)
    (hl : pos + t.serialize.length ≤ limit) (hc : c + t.size ≤ nodeMax) :
    ∃ nodes', Holds nodes' c t (List.range' c t.size) ∧
      (∀ j, j < c ∨ c + t.size ≤ j → nodes'[j]? = nodes[j]?) ∧
      desLoop ibuf (fuel + t.size) { pos := pos, limit := limit, cnt := c, stack := stack } nodes =
        afterNode ibuf fuel
          { pos := pos + t.serialize.length, limit := limit, cnt := c + t.size, stack := stack }
          nodes' (BitVec.ofNat 9 c) := by
  induction t generalizing fuel pos c stack nodes with
  | leaf s =>
    simp only [HTree.serialize, HTree.size, List.length_cons, List.length_nil] at *
    have hc' : c < nodeMax := by omega
    have hn : ¬nodeMax ≤ c := by omega
    refine ⟨nodes.setIfInBounds c (Node.ofSymbol s),
      .leaf (n := Node.ofSymbol s) (nodes_set_self hc' _) rfl,
      fun j hj => nodes_set_other (by omega) _, ?_⟩
    have hf := fetchToken_leaf (ibuf := ibuf) (s := s)
      (d := { pos := pos, limit := limit, cnt := c, stack := stack }) (by simp only; omega)
      hb.head hb.tail.head
    simp only [desLoop, hf, desToken, desLeaf, hn, if_false, afterNode]
    generalize deliver (nodes.setIfInBounds c (Node.ofSymbol s)) (BitVec.ofNat 9 c) stack = r
    obtain ⟨n', st, ro⟩ := r
    cases ro <;> rfl
  | node l r ihl ihr =>
    simp only [HTree.serialize, HTree.size, List.length_cons, List.length_append] at *
    have hc' : c < nodeMax := by omega
    have hc'' : c < 511 := hc'
    have hn : ¬nodeMax ≤ c := by omega
    have hsz := l.size_pos
    have hcl : c + 1 + l.size ≤ nodeMax := by omega
    have hcr : c + 1 + l.size + r.size ≤ nodeMax := by omega
    have hcr' : c + 1 + l.size + r.size ≤ 511 := hcr
    have hrp := r.size_pos
    obtain ⟨hbl, hbr⟩ := HoldsBytes.append.1 hb.tail
    obtain ⟨n1, hh1, hk1, he1⟩ := ihl (fuel + r.size) (pos + 1) (c + 1)
      (.left (BitVec.ofNat 9 c) :: stack) nodes hbl (by omega) hcl
    obtain ⟨n2, hh2, hk2, he2⟩ := ihr fuel (pos + 1 + l.serialize.length) (c + 1 + l.size)
      (.right (BitVec.ofNat 9 c) (BitVec.ofNat 9 (c + 1)) :: stack) n1 hbr (by omega) hcr
    refine ⟨n2.setIfInBounds c
      (Node.ofChildren (BitVec.ofNat 9 (c + 1)) (BitVec.ofNat 9 (c + 1 + l.size))), ?_, ?_, ?_⟩
    · have hL : List.range' c (1 + l.size + r.size) =
          c :: (List.range' (c + 1) l.size ++ List.range' (c + 1 + l.size) r.size) := by
        rw [show 1 + l.size + r.size = (l.size + r.size) + 1 by omega, List.range'_succ,
          List.range'_append_1]
      rw [hL]
      refine .node (n := Node.ofChildren (BitVec.ofNat 9 (c + 1)) (BitVec.ofNat 9 (c + 1 + l.size)))
        (nodes_set_self hc' _) rfl ?_ ?_
      · simp only [Node.ofChildren, idx_toNat (show c + 1 < 512 by omega)]
        refine Holds.set (hh1.congr ?_) ?_ _
        · intro j hj
          rw [List.mem_range'_1] at hj
          exact hk2 j (by omega)
        · intro hm; rw [List.mem_range'_1] at hm; omega
      · simp only [Node.ofChildren, idx_toNat (show c + 1 + l.size < 512 by omega)]
        refine hh2.set ?_ _
        intro hm; rw [List.mem_range'_1] at hm; omega
    · intro j hj
      rw [nodes_set_other (by omega), hk2 j (by omega), hk1 j (by omega)]
    · have hf := fetchToken_internal (ibuf := ibuf)
        (d := { pos := pos, limit := limit, cnt := c, stack := stack }) (by simp only; omega)
        hb.head
      have hfu : fuel + (1 + l.size + r.size) = (fuel + r.size + l.size) + 1 := by omega
      rw [hfu]
      simp only [desLoop, hf, desToken, desInternal, hn, if_false]
      rw [he1]
      simp only [afterNode, deliver]
      rw [he2]
      simp only [afterNode, deliver, idx_toNat (show c < 512 by omega)]
      have e1 : pos + 1 + l.serialize.length + r.serialize.length =
          pos + (l.serialize.length + r.serialize.length + 1) := by omega
      have e2 : c + 1 + l.size + r.size = c + (1 + l.size + r.size) := by omega
      rw [e1, e2]

/-- `des_tree` over the serialized form of a tree of at most 256 leaves: the tree, in pre-order from
index 0 (R93), and the address after it (R92). -/
theorem desTree_serialize {ibuf : Memory} (t : HTree) (p0 limit : Nat) (nodes : Vector Node nodeMax)
    (hb : HoldsBytes ibuf p0 t.serialize) (hl : p0 + t.serialize.length ≤ limit)
    (hk : t.leaves.length ≤ 256) :
    ∃ nodes', Holds nodes' 0 t (List.range t.size) ∧
      desTree ibuf p0 limit nodes =
        .ok ({ nodes := nodes', count := BitVec.ofNat 10 t.size, root := 0, valid := true },
          BitVec.ofNat 32 (p0 + t.serialize.length)) := by
  have hs := t.size_eq
  have hs' : t.size ≤ nodeMax := by simp only [nodeMax]; omega
  obtain ⟨n', hh, -, he⟩ := desLoop_serialize t (nodeMax + 1 - t.size) p0 limit 0 [] nodes hb hl
    (by omega)
  have hfu : nodeMax + 1 - t.size + t.size = nodeMax + 1 := by omega
  rw [hfu] at he
  refine ⟨n', by rwa [List.range_eq_range'], ?_⟩
  simp only [desTree, Des.start, he, afterNode, deliver, Des.arena, Nat.zero_add]
  rfl

/-! ### Nothing else is read -/

theorem readWithin_cases {m : Memory} {limit p : Nat} {b : Byte} (h : readWithin m limit p = .ok b) :
    p < limit ∧ m.get p = some b := by
  unfold readWithin memRead at h
  split at h
  · cases h
  · split at h
    · rename_i hl _ _ hb
      cases h
      exact ⟨Nat.lt_of_not_le hl, hb⟩
    · cases h

/-- The two tokens that can be fetched (R92). -/
theorem fetchToken_cases {ibuf : Memory} {d d' : Des} {i : Instr} (h : fetchToken ibuf d = .ok (i, d')) :
    (i = .treeInternal ∧ d.pos < d.limit ∧ ibuf.get d.pos = some 0x00 ∧ d' = { d with pos := d.pos + 1 }) ∨
    (∃ s, i = .treeLeaf s ∧ d.pos + 1 < d.limit ∧ ibuf.get d.pos = some 0x01 ∧
      ibuf.get (d.pos + 1) = some s ∧ d' = { d with pos := d.pos + 2 }) := by
  unfold fetchToken at h
  split at h
  · cases h
  · rename_i flag hf
    obtain ⟨hl, hb⟩ := readWithin_cases hf
    simp only [decodeToken] at h
    by_cases h0 : flag = 0x00
    · subst h0
      cases h
      exact .inl ⟨rfl, hl, hb, rfl⟩
    · by_cases h1 : flag = 0x01
      · subst h1
        simp only [if_neg h0, if_true] at h
        split at h
        · cases h
        · rename_i s hs
          obtain ⟨hl', hb'⟩ := readWithin_cases hs
          cases h
          exact .inr ⟨s, rfl, hl', hb, hb', rfl⟩
      · simp only [if_neg h0, if_neg h1, corrupt] at h
        cases h

theorem HoldsBytes.cons {m : Memory} {a : Nat} {b : Byte} {bs : List Byte} (h : m.get a = some b)
    (h' : HoldsBytes m (a + 1) bs) : HoldsBytes m a (b :: bs) := by
  intro j hj
  cases j with
  | zero => simpa using h
  | succ j =>
    have := h' j (by simpa using hj)
    rw [show a + (j + 1) = a + 1 + j by omega]
    simpa using this

/-- Whatever the loop reads to its end begins with the serialized form of a tree (R92). -/
theorem desLoop_sound {ibuf : Memory} (fuel pos limit c : Nat) (stack : List Frame)
    (nodes : Vector Node nodeMax) {r : Des × Vector Node nodeMax × NodeIdx}
    (h : desLoop ibuf fuel { pos := pos, limit := limit, cnt := c, stack := stack } nodes = .ok r) :
    ∃ t : HTree, HoldsBytes ibuf pos t.serialize ∧ pos + t.serialize.length ≤ limit ∧
      c + t.size ≤ nodeMax ∧ t.size ≤ fuel := by
  induction fuel using Nat.strongRecOn generalizing pos c stack nodes with
  | _ fuel ih =>
    cases fuel with
    | zero => cases h
    | succ fuel =>
      simp only [desLoop] at h
      split at h
      · cases h
      · rename_i i d' hf
        rcases fetchToken_cases hf with ⟨rfl, hl, hb, rfl⟩ | ⟨s, rfl, hl, hb, hb', rfl⟩
        · simp only at hl hb
          simp only [desToken, desInternal] at h
          by_cases hc : nodeMax ≤ c
          · simp only [hc, if_true, corrupt] at h; cases h
          · simp only [hc, if_false] at h
            obtain ⟨l, h1, h2, h3, h4⟩ := ih fuel (by omega) (pos + 1) (c + 1) _ nodes h
            obtain ⟨n1, -, -, he⟩ := desLoop_serialize l (fuel - l.size) (pos + 1) limit (c + 1)
              (.left (BitVec.ofNat 9 c) :: stack) nodes h1 h2 h3
            rw [Nat.sub_add_cancel h4] at he
            rw [he] at h
            simp only [afterNode, deliver] at h
            have hsz := l.size_pos
            obtain ⟨r', g1, g2, g3, g4⟩ := ih (fuel - l.size) (by omega) _ _ _ _ h
            refine ⟨.node l r', HoldsBytes.cons hb (HoldsBytes.append.2 ⟨h1, g1⟩), ?_, ?_, ?_⟩
            · simp only [HTree.serialize, List.length_cons, List.length_append]; omega
            · simp only [HTree.size]; omega
            · simp only [HTree.size]; omega
        · simp only at hl hb hb'
          simp only [desToken, desLeaf] at h
          by_cases hc : nodeMax ≤ c
          · simp only [hc, if_true, corrupt] at h; cases h
          · refine ⟨.leaf s, HoldsBytes.cons hb (HoldsBytes.cons hb' (fun j hj => absurd hj (by simp))), ?_, ?_, ?_⟩
            · simp only [HTree.serialize, List.length_cons, List.length_nil]; omega
            · simp only [HTree.size]; omega
            · simp only [HTree.size]; omega

/-- `des_tree` accepts nothing but the serialized form of a tree of at most 256 leaves (R92). -/
theorem desTree_sound {ibuf : Memory} {p0 limit : Nat} {nodes : Vector Node nodeMax} {a : Arena} {p : Word}
    (h : desTree ibuf p0 limit nodes = .ok (a, p)) :
    ∃ t : HTree, HoldsBytes ibuf p0 t.serialize ∧ p0 + t.serialize.length ≤ limit ∧
      t.leaves.length ≤ 256 := by
  unfold desTree at h
  split at h
  · cases h
  · rename_i d n root hd
    obtain ⟨t, h1, h2, h3, -⟩ := desLoop_sound _ p0 limit 0 [] nodes hd
    have := t.size_eq
    have h3' : 0 + t.size ≤ 511 := h3
    exact ⟨t, h1, h2, by omega⟩

end Sys2Proof.Machine
end

