-- ==== Sys2Proof/Laws/Build.lean ====
section
/-! SUPPORT. The frequency counter and the tree builder (R83 to R86): the counts, the order of PQ, and
what one merge keeps. -/

namespace Sys2Proof.Machine

/-! ### PQ -/

theorem insertEntry_perm (e : Entry) (l : List Entry) : (insertEntry e l).Perm (e :: l) := by
  induction l with
  | nil => exact .refl _
  | cons x xs ih =>
    simp only [insertEntry]
    split
    · exact .refl _
    · exact ((List.perm_cons x).2 ih).trans (.swap e x xs)

theorem Entry.before_trans {a b c : Entry} (h1 : a.before b = true) (h2 : b.before c = true) :
    a.before c = true := by
  simp only [Entry.before, Bool.or_eq_true, decide_eq_true_eq, Bool.and_eq_true, beq_iff_eq] at *
  omega

theorem Entry.before_of_not {a b : Entry} (h : a.before b ≠ true) (hne : a.2 ≠ b.2) :
    b.before a = true := by
  simp only [Entry.before, ne_eq, Bool.or_eq_true, decide_eq_true_eq, Bool.and_eq_true,
    beq_iff_eq] at *
  omega

/-- PQ stays in the order of R84. -/
theorem insertEntry_sorted {e : Entry} {l : List Entry} (h : l.Pairwise (fun a b => a.before b = true))
    (hne : ∀ x ∈ l, x.2 ≠ e.2) : (insertEntry e l).Pairwise (fun a b => a.before b = true) := by
  induction l with
  | nil => simp [insertEntry]
  | cons x xs ih =>
    obtain ⟨h1, h2⟩ := List.pairwise_cons.1 h
    simp only [insertEntry]
    split
    · rename_i hb
      refine List.pairwise_cons.2 ⟨?_, h⟩
      intro z hz
      rcases List.mem_cons.1 hz with rfl | hz
      · exact hb
      · exact Entry.before_trans hb (h1 z hz)
    · rename_i hb
      refine List.pairwise_cons.2 ⟨?_, ih h2 (fun z hz => hne z (by simp [hz]))⟩
      intro z hz
      rcases List.mem_cons.1 ((insertEntry_perm e xs).mem_iff.1 hz) with rfl | hz
      · exact Entry.before_of_not hb (Ne.symm (hne x (by simp)))
      · exact h1 z hz

/-- Items that carry an entry each, inserted as their entries are. -/
theorem insertEntry_map {α : Type} (f : α → Entry) (x : α) (l : List α) :
    ∃ l' : List α, l'.Perm (x :: l) ∧ l'.map f = insertEntry (f x) (l.map f) := by
  induction l with
  | nil => exact ⟨[x], .refl _, rfl⟩
  | cons y ys ih =>
    obtain ⟨l', hp, he⟩ := ih
    simp only [List.map_cons, insertEntry]
    split
    · exact ⟨x :: y :: ys, .refl _, rfl⟩
    · exact ⟨y :: l', ((List.perm_cons y).2 hp).trans (.swap x y ys), by rw [List.map_cons, he]⟩

/-! ### The present symbols -/

theorem mem_presentSymbols {freq : Vector Word 256} {s : Byte} {f : Nat} :
    (s, f) ∈ presentSymbols freq ↔ f = (freq[s.toNat]'s.isLt).toNat ∧ f ≠ 0 := by
  simp only [presentSymbols, List.mem_filterMap, Prod.exists, List.mem_zipIdx_iff_getElem?]
  constructor
  · rintro ⟨w, i, hw, h⟩
    split at h
    · cases h
    · rename_i hne
      cases h
      obtain ⟨hi, hw⟩ := List.getElem?_eq_some_iff.1 hw
      have hi' : i < 256 := by simpa using hi
      have e : (BitVec.ofNat 8 i).toNat = i := by
        rw [BitVec.toNat_ofNat]; exact Nat.mod_eq_of_lt hi'
      refine ⟨?_, fun h0 => hne (BitVec.eq_of_toNat_eq (by simpa using h0))⟩
      subst hw
      simp [e]
  · rintro ⟨rfl, hne⟩
    refine ⟨freq[s.toNat]'s.isLt, s.toNat, ?_, ?_⟩
    · simp [s.isLt]
    · have : freq[s.toNat]'s.isLt ≠ 0#32 := fun h => hne (by rw [h]; rfl)
      simp [this]

/-- The present symbols in ascending order (R85). -/
theorem presentSymbols_sorted (freq : Vector Word 256) :
    (presentSymbols freq).Pairwise (fun a b => a.1.toNat < b.1.toNat) := by
  have h : (freq.toList.zipIdx).Pairwise (fun a b => a.2 < b.2) := by
    rw [List.pairwise_iff_getElem]
    intro i j hi hj hij
    simpa using hij
  unfold presentSymbols
  rw [List.pairwise_filterMap]
  have hlt : ∀ a ∈ freq.toList.zipIdx, a.2 < 256 := by
    intro a ha
    have := List.mem_zipIdx_iff_getElem?.1 ha
    obtain ⟨hi, -⟩ := List.getElem?_eq_some_iff.1 this
    simpa using hi
  refine (List.Pairwise.and_mem.1 h).imp ?_
  rintro ⟨w, i⟩ ⟨w', i'⟩ ⟨h1, h2, hlt'⟩ b hb b' hb'
  simp only at *
  split at hb
  · cases hb
  · split at hb'
    · cases hb'
    · cases hb; cases hb'
      have e1 := hlt _ h1
      have e2 := hlt _ h2
      simp only at e1 e2
      simp only [BitVec.toNat_ofNat]
      omega

theorem presentSymbols_nodup (freq : Vector Word 256) :
    ((presentSymbols freq).map Prod.fst).Nodup := by
  rw [List.Nodup, List.pairwise_map]
  refine (presentSymbols_sorted freq).imp ?_
  intro a b h e
  rw [e] at h; omega

theorem presentSymbols_length (freq : Vector Word 256) : (presentSymbols freq).length ≤ 256 := by
  have h : (presentSymbols freq).length ≤ freq.toList.zipIdx.length := List.length_filterMap_le _ _
  simpa using h

/-! ### The frequency counter -/

theorem countByte_get (freq : Vector Word 256) (b s : Byte) :
    (countByte freq b)[s.toNat]'s.isLt =
      if s = b then freq[s.toNat]'s.isLt + 1 else freq[s.toNat]'s.isLt := by
  by_cases h : s = b
  · subst h; simp [countByte]
  · have h' : b.toNat ≠ s.toNat := fun e => h (BitVec.eq_of_toNat_eq e.symm)
    simp [countByte, h', h]

/-- COUNT_FREQ counts (R83). -/
theorem countFreq_get (input : List Byte) (s : Byte) (h : input.length < 2 ^ 32) :
    ((countFreq input)[s.toNat]'s.isLt).toNat = input.count s := by
  have key : ∀ (input : List Byte) (freq : Vector Word 256),
      (freq[s.toNat]'s.isLt).toNat + input.length < 2 ^ 32 →
      ((input.foldl countByte freq)[s.toNat]'s.isLt).toNat =
        (freq[s.toNat]'s.isLt).toNat + input.count s := by
    intro input
    induction input with
    | nil => intro freq _; simp
    | cons b bs ih =>
      intro freq hf
      rw [List.length_cons] at hf
      by_cases hs : s = b
      · subst hs
        have h1 : ((countByte freq s)[s.toNat]'s.isLt).toNat = (freq[s.toNat]'s.isLt).toNat + 1 := by
          rw [countByte_get, if_pos rfl, BitVec.toNat_add]
          exact Nat.mod_eq_of_lt (by simp; omega)
        rw [List.foldl_cons, ih _ (by rw [h1]; omega), h1, List.count_cons_self]; omega
      · have h1 : (countByte freq b)[s.toNat]'s.isLt = freq[s.toNat]'s.isLt := by
          rw [countByte_get, if_neg hs]
        rw [List.foldl_cons, ih _ (by rw [h1]; omega), h1, List.count_cons_of_ne (Ne.symm hs)]
  have := key input (Vector.replicate 256 0) (by simpa using h)
  simpa [countFreq] using this

/-! ### The leaves -/

/-- The builder after its leaves (R85, R86). -/
structure Seeded (ps : List (Byte × Nat)) (b : Build) : Prop where
  count : b.n = ps.length
  leaf : ∀ i (h : i < ps.length), b.nodes[i]? = some (Node.ofSymbol (ps[i]'h).1)
  entries : b.pq.Perm (ps.zipIdx.map (fun x => (x.1.2, x.2)))
  sorted : b.pq.Pairwise (fun a b => a.before b = true)

theorem seeded_of_foldl (ps : List (Byte × Nat)) (nodes : Vector Node nodeMax)
    (h : ps.length ≤ nodeMax) :
    Seeded ps (ps.foldl (fun b (x : Byte × Nat) => b.add (Node.ofSymbol x.1) x.2 b.pq)
      { nodes := nodes, n := 0, pq := [] }) := by
  induction ps using List.reverseRecOn with
  | nil => exact ⟨rfl, by simp, by simp, by simp⟩
  | append_singleton ps x ih =>
    rw [List.length_append, List.length_singleton] at h
    obtain ⟨h1, h2, h3, h4⟩ := ih (by omega)
    rw [List.foldl_append, List.foldl_cons, List.foldl_nil]
    generalize ps.foldl _ _ = b at h1 h2 h3 h4
    refine ⟨by simp [Build.add, h1], ?_, ?_, ?_⟩
    · intro i hi
      rw [List.length_append, List.length_singleton] at hi
      by_cases he : i = ps.length
      · subst he
        simp only [Build.add, h1]
        rw [nodes_set_self (by omega)]; simp
      · simp only [Build.add, h1]
        rw [nodes_set_other he, h2 i (by omega), List.getElem_append_left]
    · simp only [Build.add, h1]
      refine (insertEntry_perm _ _).trans ?_
      rw [List.zipIdx_append, List.map_append]
      simp only [Nat.zero_add, List.zipIdx_singleton, List.map_cons, List.map_nil]
      exact ((List.perm_cons _).2 h3).trans (List.perm_append_singleton _ _).symm
    · refine insertEntry_sorted h4 ?_
      intro e he
      have := h3.mem_iff.1 he
      simp only [List.mem_map] at this
      obtain ⟨⟨y, i⟩, hy, rfl⟩ := this
      have := List.mem_zipIdx_iff_getElem?.1 hy
      obtain ⟨hi, -⟩ := List.getElem?_eq_some_iff.1 this
      simp only [h1]; omega

end Sys2Proof.Machine
end

