-- ==== Sys2Proof/Laws/Memory.lean ====
section
/-! SUPPORT. The laws of byte buffers: reading after writing, the canonical form, and which addresses
are listed. -/

namespace Sys2Proof.Machine

@[simp] theorem Memory.get_nil (a : Nat) : Memory.get [] a = none := rfl

/-- Every address of a list is above k. -/
abbrev Memory.Above (m : Memory) (k : Nat) : Prop := ∀ cell ∈ m, k < cell.1

theorem Memory.wf_cons (k : Nat) (v : Byte) (m : Memory) :
    Memory.wf ((k, v) :: m) = true ↔ Memory.Above m k ∧ Memory.wf m = true := by
  induction m generalizing k v with
  | nil => simp [Memory.wf, Memory.Above]
  | cons c m ih =>
    obtain ⟨k', v'⟩ := c
    simp only [Memory.wf, Bool.and_eq_true, decide_eq_true_eq, ih, Memory.Above, List.mem_cons,
      forall_eq_or_imp]
    constructor
    · rintro ⟨hk, ha, hw⟩
      exact ⟨⟨hk, fun c hc => Nat.lt_trans hk (ha c hc)⟩, ha, hw⟩
    · rintro ⟨⟨hk, -⟩, ha, hw⟩
      exact ⟨hk, ha, hw⟩

theorem Memory.get_of_above {m : Memory} {k a : Nat} (h : Memory.Above m k) (ha : a ≤ k) :
    Memory.get m a = none := by
  cases m with
  | nil => rfl
  | cons c m =>
    obtain ⟨k', v'⟩ := c
    have hk : k < k' := h (k', v') (by simp)
    have h1 : k' ≠ a := by omega
    have h2 : a < k' := by omega
    simp [Memory.get, h1, h2]

/-- Reading after writing. -/
theorem Memory.get_set {m : Memory} (h : Memory.wf m = true) (a : Nat) (b : Byte) (c : Nat) :
    (m.set a b).get c = if c = a then some b else m.get c := by
  induction m with
  | nil =>
    by_cases hc : c = a
    · simp [Memory.set, Memory.get, hc]
    · have : ¬ a = c := fun h => hc h.symm
      simp [Memory.set, Memory.get, hc, this]
  | cons cell m ih =>
    obtain ⟨k, v⟩ := cell
    obtain ⟨hab, hwm⟩ := (Memory.wf_cons k v m).1 h
    have ih := ih hwm
    simp only [Memory.set]
    split
    · rename_i hlt
      simp only [Memory.get]
      split_ifs <;> first | rfl | omega
    · split
      · rename_i hk
        subst hk
        simp only [Memory.get]
        split_ifs <;> first | rfl | omega
      · simp only [Memory.get, ih]
        split_ifs <;> first | rfl | omega

theorem Memory.get_set_same {m : Memory} (h : Memory.wf m = true) (a : Nat) (b : Byte) :
    (m.set a b).get a = some b := by simp [Memory.get_set h]

theorem Memory.get_set_other {m : Memory} (h : Memory.wf m = true) {a c : Nat} (b : Byte)
    (hc : c ≠ a) : (m.set a b).get c = m.get c := by simp [Memory.get_set h, hc]

theorem Memory.mem_set {m : Memory} {a : Nat} {b : Byte} {cell : Host.Cell}
    (h : cell ∈ m.set a b) : cell = (a, b) ∨ cell ∈ m := by
  induction m with
  | nil => simpa [Memory.set] using h
  | cons c m ih =>
    obtain ⟨k, v⟩ := c
    simp only [Memory.set] at h
    split at h
    · simpa using h
    · split at h
      · rcases List.mem_cons.1 h with rfl | h
        · exact .inl rfl
        · exact .inr (List.mem_cons_of_mem _ h)
      · rcases List.mem_cons.1 h with rfl | h
        · exact .inr (by simp)
        · rcases ih h with h | h
          · exact .inl h
          · exact .inr (List.mem_cons_of_mem _ h)

/-- A write keeps the canonical form. -/
theorem Memory.wf_set {m : Memory} (h : Memory.wf m = true) (a : Nat) (b : Byte) :
    Memory.wf (m.set a b) = true := by
  induction m with
  | nil => rfl
  | cons c m ih =>
    obtain ⟨k, v⟩ := c
    obtain ⟨hab, hwm⟩ := (Memory.wf_cons k v m).1 h
    simp only [Memory.set]
    split
    · rename_i hlt
      refine (Memory.wf_cons _ _ _).2 ⟨?_, h⟩
      intro c hc
      rcases List.mem_cons.1 hc with rfl | hc
      · exact hlt
      · exact Nat.lt_trans hlt (hab c hc)
    · split
      · rename_i hk
        exact (Memory.wf_cons _ _ _).2 ⟨hk ▸ hab, hwm⟩
      · refine (Memory.wf_cons _ _ _).2 ⟨?_, ih hwm⟩
        intro c hc
        rcases Memory.mem_set hc with rfl | hc
        · simp only; omega
        · exact hab c hc

theorem Memory.wf_setRange {m : Memory} (h : Memory.wf m = true) (a : Nat) (bs : List Byte) :
    Memory.wf (m.setRange a bs) = true := by
  induction bs generalizing m a with
  | nil => exact h
  | cons b bs ih => exact ih (Memory.wf_set h a b) (a + 1)

theorem Memory.get_setRange {m : Memory} (h : Memory.wf m = true) (a : Nat) (bs : List Byte)
    (c : Nat) :
    (m.setRange a bs).get c =
      if a ≤ c ∧ c < a + bs.length then bs[c - a]? else m.get c := by
  induction bs generalizing m a with
  | nil =>
    have : ¬(a ≤ c ∧ c < a + 0) := by omega
    simp only [Memory.setRange, List.length_nil, this, if_false]
  | cons b bs ih =>
    simp only [Memory.setRange, ih (Memory.wf_set h a b), Memory.get_set h, List.length_cons]
    by_cases h1 : c = a
    · subst h1
      have h2 : ¬(c + 1 ≤ c) := by omega
      simp [h2]
    · by_cases h2 : a + 1 ≤ c ∧ c < a + 1 + bs.length
      · have h3 : a ≤ c ∧ c < a + (bs.length + 1) := by omega
        obtain ⟨d, rfl⟩ : ∃ d, c = a + 1 + d := ⟨c - (a + 1), by omega⟩
        have h4 : a + 1 + d - a = d + 1 := by omega
        have h5 : a + 1 + d - (a + 1) = d := by omega
        rw [if_pos h2, if_pos h3, h4, h5, List.getElem?_cons_succ]
      · have h3 : ¬(a ≤ c ∧ c < a + (bs.length + 1)) := by omega
        rw [if_neg h2, if_neg h3, if_neg h1]

theorem Memory.mem_setRange {m : Memory} {a : Nat} {bs : List Byte} {cell : Host.Cell}
    (h : cell ∈ m.setRange a bs) : (a ≤ cell.1 ∧ cell.1 < a + bs.length) ∨ cell ∈ m := by
  induction bs generalizing m a with
  | nil => exact .inr h
  | cons b bs ih =>
    rcases ih h with h | h
    · refine .inl ?_
      simp only [List.length_cons]; omega
    · rcases Memory.mem_set h with rfl | h
      · refine .inl ?_
        simp only [List.length_cons]; omega
      · exact .inr h

theorem Memory.mem_below {m : Memory} {a : Nat} {cell : Host.Cell} :
    cell ∈ m.below a ↔ cell ∈ m ∧ cell.1 < a := by
  simp [Memory.below]

theorem Memory.below_zero (m : Memory) : m.below 0 = [] := by
  simp [Memory.below]

theorem Memory.wf_below {m : Memory} (h : Memory.wf m = true) (a : Nat) :
    Memory.wf (m.below a) = true := by
  induction m with
  | nil => rfl
  | cons c m ih =>
    obtain ⟨k, v⟩ := c
    obtain ⟨hab, hwm⟩ := (Memory.wf_cons k v m).1 h
    unfold Memory.below
    rw [List.filter_cons]
    split
    · exact (Memory.wf_cons _ _ _).2 ⟨fun c hc => hab c (List.mem_of_mem_filter hc), ih hwm⟩
    · exact ih hwm

theorem Memory.get_below {m : Memory} (h : Memory.wf m = true) (a c : Nat) :
    (m.below a).get c = if c < a then m.get c else none := by
  induction m with
  | nil => simp [Memory.below]
  | cons cell m ih =>
    obtain ⟨k, v⟩ := cell
    obtain ⟨hab, hwm⟩ := (Memory.wf_cons k v m).1 h
    have ih := ih hwm
    unfold Memory.below at ih ⊢
    rw [List.filter_cons]
    by_cases hk : k < a
    · simp only [hk, decide_true, if_true, Memory.get, ih]
      split_ifs <;> first | rfl | omega
    · simp only [hk, decide_false, Bool.false_eq_true, if_false, ih, Memory.get]
      split_ifs <;> first | rfl | omega | skip
      exact Memory.get_of_above hab (by omega)

/-! ### The draws of errors -/

/-- An error's draw stands from its address up, and below it what stood there before (R125). -/
theorem drawAt_holdDraw (draws : List ObufDraw) (a number c : Nat) :
    drawAt (holdDraw draws a number) c = if a ≤ c then some number else drawAt draws c := by
  by_cases h : a ≤ c
  · simp [holdDraw, drawAt, h]
  · simp only [holdDraw, drawAt, h, if_false]
    induction draws with
    | nil => rfl
    | cons d rest ih =>
      rw [List.filter_cons]
      by_cases hd : d.start < a
      · simp only [hd, decide_true, if_true, drawAt, ih]
      · simp only [hd, decide_false, Bool.false_eq_true, if_false, ih, drawAt]
        rw [if_neg (by omega)]

/-- The draws stay in their canonical form: the later ones start higher than the earlier ones they leave. -/
theorem pairwise_holdDraw {draws : List ObufDraw}
    (h : draws.Pairwise (fun later earlier => earlier.start < later.start)) (a number : Nat) :
    (holdDraw draws a number).Pairwise (fun later earlier => earlier.start < later.start) :=
  List.pairwise_cons.2
    ⟨fun _ hd => of_decide_eq_true (List.mem_filter.1 hd).2, h.sublist List.filter_sublist⟩

end Sys2Proof.Machine
end

