-- ==== Sys2Proof/Laws/State.lean ====
section
/-! SUPPORT. One lemma per field per update of State: what each shared update of the state leaves in
each field. And what finish and raise answer. -/

namespace Sys2Proof.Machine

/-! ### raise and finish -/

@[simp] theorem State.raise_false (s : State) (e : Err) (draw : State → State) :
    s.raise e false draw = s.complete e := rfl

@[simp] theorem State.raise_true (s : State) (e : Err) (draw : State → State) :
    s.raise e true draw = (draw s).complete e := rfl

@[simp] theorem Stop.outcome_raise (e : Err) (dirty : Bool) (draw : State → State) (s : State) :
    (Stop.raise e dirty).outcome draw s = .next (s.raise e dirty draw) := rfl

@[simp] theorem Stop.outcome_fault (f : Fault) (draw : State → State) (s : State) :
    (Stop.fault f).outcome draw s = .fault f := rfl

@[simp] theorem finish_ok {α : Type} (draw : State → State) (s : State) (a : α) (write : α → State) :
    finish draw s (.ok a) write = .next ((write a).complete .none) := rfl

@[simp] theorem finish_error {α : Type} (draw : State → State) (s : State) (stop : Stop)
    (write : α → State) : finish draw s (.error stop) write = stop.outcome draw s := rfl

/-- What a stop can lead to. -/
theorem Stop.outcome_next {stop : Stop} {draw : State → State} {s t : State}
    (h : stop.outcome draw s = .next t) :
    ∃ e, (stop = .raise e false ∧ t = s.complete e) ∨
      (stop = .raise e true ∧ t = (draw s).complete e) := by
  cases stop with
  | fault f => cases h
  | raise e dirty =>
    refine ⟨e, ?_⟩
    cases dirty
    · left; exact ⟨rfl, by cases h; rfl⟩
    · right; exact ⟨rfl, by cases h; rfl⟩

/-- Everything the end of a command can lead to. -/
theorem finish_next {α : Type} {draw : State → State} {s t : State} {r : Except Stop α}
    {write : α → State} (h : finish draw s r write = .next t) :
    (∃ a, r = .ok a ∧ t = (write a).complete .none) ∨
    (∃ e, r = .error (.raise e false) ∧ t = s.complete e) ∨
    (∃ e, r = .error (.raise e true) ∧ t = (draw s).complete e) := by
  cases r with
  | ok a => cases h; exact .inl ⟨a, rfl, rfl⟩
  | error stop =>
    obtain ⟨e, ⟨rfl, rfl⟩ | ⟨rfl, rfl⟩⟩ := Stop.outcome_next h
    · exact .inr (.inl ⟨e, rfl, rfl⟩)
    · exact .inr (.inr ⟨e, rfl, rfl⟩)

/-- Where the end of a command faults. -/
theorem finish_fault {α : Type} {draw : State → State} {s : State} {r : Except Stop α}
    {write : α → State} {f : Fault} (h : finish draw s r write = .fault f) :
    r = .error (.fault f) := by
  cases r with
  | ok a => cases h
  | error stop => cases stop <;> cases h; rfl

/-! ### complete -/

@[simp] theorem State.complete_cfg (s : State) (e : Err) :
    (s.complete e).cfg = s.cfg := rfl

@[simp] theorem State.complete_cmd (s : State) (e : Err) :
    (s.complete e).cmd = s.cmd := rfl

@[simp] theorem State.complete_busy (s : State) (e : Err) :
    (s.complete e).busy = false := rfl

@[simp] theorem State.complete_done (s : State) (e : Err) :
    (s.complete e).done = true := rfl

@[simp] theorem State.complete_dropped (s : State) (e : Err) :
    (s.complete e).dropped = s.dropped := rfl

@[simp] theorem State.complete_err (s : State) (e : Err) :
    (s.complete e).err = e := rfl

@[simp] theorem State.complete_inLen (s : State) (e : Err) :
    (s.complete e).inLen = s.inLen := rfl

@[simp] theorem State.complete_arg0 (s : State) (e : Err) :
    (s.complete e).arg0 = s.arg0 := rfl

@[simp] theorem State.complete_arg1 (s : State) (e : Err) :
    (s.complete e).arg1 = s.arg1 := rfl

@[simp] theorem State.complete_result (s : State) (e : Err) :
    (s.complete e).result = s.result := rfl

@[simp] theorem State.complete_hdrSize (s : State) (e : Err) :
    (s.complete e).hdrSize = s.hdrSize := rfl

@[simp] theorem State.complete_origSize (s : State) (e : Err) :
    (s.complete e).origSize = s.origSize := rfl

@[simp] theorem State.complete_writer (s : State) (e : Err) :
    (s.complete e).writer = s.writer := rfl

@[simp] theorem State.complete_reader (s : State) (e : Err) :
    (s.complete e).reader = s.reader := rfl

@[simp] theorem State.complete_tree (s : State) (e : Err) :
    (s.complete e).tree = s.tree := rfl

@[simp] theorem State.complete_codes (s : State) (e : Err) :
    (s.complete e).codes = s.codes := rfl

@[simp] theorem State.complete_freq (s : State) (e : Err) :
    (s.complete e).freq = s.freq := rfl

@[simp] theorem State.complete_ibuf (s : State) (e : Err) :
    (s.complete e).ibuf = s.ibuf := rfl

@[simp] theorem State.complete_activity (s : State) (e : Err) :
    (s.complete e).activity = none := rfl

@[simp] theorem State.complete_obufDraws (s : State) (e : Err) :
    (s.complete e).obufDraws = s.obufDraws := rfl

@[simp] theorem State.complete_schedule (s : State) (e : Err) :
    (s.complete e).schedule = s.schedule := rfl

@[simp] theorem State.complete_answer (s : State) (e : Err) :
    (s.complete e).answer = s.answer := rfl

@[simp] theorem State.complete_draws (s : State) (e : Err) :
    (s.complete e).draws = s.draws + 1 := rfl

/-! ### accept -/

@[simp] theorem State.accept_cfg (s : State) (v : Word) :
    (s.accept v).cfg = s.cfg := rfl

@[simp] theorem State.accept_cmd (s : State) (v : Word) :
    (s.accept v).cmd = v := rfl

@[simp] theorem State.accept_busy (s : State) (v : Word) :
    (s.accept v).busy = true := rfl

@[simp] theorem State.accept_done (s : State) (v : Word) :
    (s.accept v).done = false := rfl

@[simp] theorem State.accept_dropped (s : State) (v : Word) :
    (s.accept v).dropped = false := rfl

@[simp] theorem State.accept_err (s : State) (v : Word) :
    (s.accept v).err = .none := rfl

@[simp] theorem State.accept_inLen (s : State) (v : Word) :
    (s.accept v).inLen = s.inLen := rfl

@[simp] theorem State.accept_arg0 (s : State) (v : Word) :
    (s.accept v).arg0 = s.arg0 := rfl

@[simp] theorem State.accept_arg1 (s : State) (v : Word) :
    (s.accept v).arg1 = s.arg1 := rfl

@[simp] theorem State.accept_result (s : State) (v : Word) :
    (s.accept v).result = s.result := rfl

@[simp] theorem State.accept_hdrSize (s : State) (v : Word) :
    (s.accept v).hdrSize = s.hdrSize := rfl

@[simp] theorem State.accept_origSize (s : State) (v : Word) :
    (s.accept v).origSize = s.origSize := rfl

@[simp] theorem State.accept_writer (s : State) (v : Word) :
    (s.accept v).writer = s.writer := rfl

@[simp] theorem State.accept_reader (s : State) (v : Word) :
    (s.accept v).reader = s.reader := rfl

@[simp] theorem State.accept_tree (s : State) (v : Word) :
    (s.accept v).tree = s.tree := rfl

@[simp] theorem State.accept_codes (s : State) (v : Word) :
    (s.accept v).codes = s.codes := rfl

@[simp] theorem State.accept_freq (s : State) (v : Word) :
    (s.accept v).freq = s.freq := rfl

@[simp] theorem State.accept_ibuf (s : State) (v : Word) :
    (s.accept v).ibuf = s.ibuf := rfl

@[simp] theorem State.accept_activity (s : State) (v : Word) :
    (s.accept v).activity = none := rfl

@[simp] theorem State.accept_obufDraws (s : State) (v : Word) :
    (s.accept v).obufDraws = s.obufDraws := rfl

@[simp] theorem State.accept_schedule (s : State) (v : Word) :
    (s.accept v).schedule = s.schedule := rfl

@[simp] theorem State.accept_answer (s : State) (v : Word) :
    (s.accept v).answer = s.answer := rfl

@[simp] theorem State.accept_draws (s : State) (v : Word) :
    (s.accept v).draws = s.draws + 1 := rfl

/-! ### dropWrite -/

@[simp] theorem State.dropWrite_cfg (s : State) :
    s.dropWrite.cfg = s.cfg := rfl

@[simp] theorem State.dropWrite_cmd (s : State) :
    s.dropWrite.cmd = s.cmd := rfl

@[simp] theorem State.dropWrite_busy (s : State) :
    s.dropWrite.busy = s.busy := rfl

@[simp] theorem State.dropWrite_done (s : State) :
    s.dropWrite.done = s.done := rfl

@[simp] theorem State.dropWrite_dropped (s : State) :
    s.dropWrite.dropped = true := rfl

@[simp] theorem State.dropWrite_err (s : State) :
    s.dropWrite.err = s.err := rfl

@[simp] theorem State.dropWrite_inLen (s : State) :
    s.dropWrite.inLen = s.inLen := rfl

@[simp] theorem State.dropWrite_arg0 (s : State) :
    s.dropWrite.arg0 = s.arg0 := rfl

@[simp] theorem State.dropWrite_arg1 (s : State) :
    s.dropWrite.arg1 = s.arg1 := rfl

@[simp] theorem State.dropWrite_result (s : State) :
    s.dropWrite.result = s.result := rfl

@[simp] theorem State.dropWrite_hdrSize (s : State) :
    s.dropWrite.hdrSize = s.hdrSize := rfl

@[simp] theorem State.dropWrite_origSize (s : State) :
    s.dropWrite.origSize = s.origSize := rfl

@[simp] theorem State.dropWrite_writer (s : State) :
    s.dropWrite.writer = s.writer := rfl

@[simp] theorem State.dropWrite_reader (s : State) :
    s.dropWrite.reader = s.reader := rfl

@[simp] theorem State.dropWrite_tree (s : State) :
    s.dropWrite.tree = s.tree := rfl

@[simp] theorem State.dropWrite_codes (s : State) :
    s.dropWrite.codes = s.codes := rfl

@[simp] theorem State.dropWrite_freq (s : State) :
    s.dropWrite.freq = s.freq := rfl

@[simp] theorem State.dropWrite_ibuf (s : State) :
    s.dropWrite.ibuf = s.ibuf := rfl

@[simp] theorem State.dropWrite_activity (s : State) :
    s.dropWrite.activity = s.activity := rfl

@[simp] theorem State.dropWrite_obufDraws (s : State) :
    s.dropWrite.obufDraws = s.obufDraws := rfl

@[simp] theorem State.dropWrite_schedule (s : State) :
    s.dropWrite.schedule = s.schedule := rfl

@[simp] theorem State.dropWrite_answer (s : State) :
    s.dropWrite.answer = s.answer := rfl

@[simp] theorem State.dropWrite_draws (s : State) :
    s.dropWrite.draws = s.draws := rfl

/-! ### clearValid -/

@[simp] theorem State.clearValid_cfg (s : State) :
    s.clearValid.cfg = s.cfg := rfl

@[simp] theorem State.clearValid_cmd (s : State) :
    s.clearValid.cmd = s.cmd := rfl

@[simp] theorem State.clearValid_busy (s : State) :
    s.clearValid.busy = s.busy := rfl

@[simp] theorem State.clearValid_done (s : State) :
    s.clearValid.done = s.done := rfl

@[simp] theorem State.clearValid_dropped (s : State) :
    s.clearValid.dropped = s.dropped := rfl

@[simp] theorem State.clearValid_err (s : State) :
    s.clearValid.err = s.err := rfl

@[simp] theorem State.clearValid_inLen (s : State) :
    s.clearValid.inLen = s.inLen := rfl

@[simp] theorem State.clearValid_arg0 (s : State) :
    s.clearValid.arg0 = s.arg0 := rfl

@[simp] theorem State.clearValid_arg1 (s : State) :
    s.clearValid.arg1 = s.arg1 := rfl

@[simp] theorem State.clearValid_result (s : State) :
    s.clearValid.result = s.result := rfl

@[simp] theorem State.clearValid_hdrSize (s : State) :
    s.clearValid.hdrSize = s.hdrSize := rfl

@[simp] theorem State.clearValid_origSize (s : State) :
    s.clearValid.origSize = s.origSize := rfl

@[simp] theorem State.clearValid_writer (s : State) :
    s.clearValid.writer = s.writer := rfl

@[simp] theorem State.clearValid_reader (s : State) :
    s.clearValid.reader = s.reader := rfl

@[simp] theorem State.clearValid_tree (s : State) :
    s.clearValid.tree = { s.tree with valid := false } := rfl

@[simp] theorem State.clearValid_codes (s : State) :
    s.clearValid.codes = { s.codes with valid := false } := rfl

@[simp] theorem State.clearValid_freq (s : State) :
    s.clearValid.freq = s.freq := rfl

@[simp] theorem State.clearValid_ibuf (s : State) :
    s.clearValid.ibuf = s.ibuf := rfl

@[simp] theorem State.clearValid_activity (s : State) :
    s.clearValid.activity = s.activity := rfl

@[simp] theorem State.clearValid_obufDraws (s : State) :
    s.clearValid.obufDraws = s.obufDraws := rfl

@[simp] theorem State.clearValid_schedule (s : State) :
    s.clearValid.schedule = s.schedule := rfl

@[simp] theorem State.clearValid_answer (s : State) :
    s.clearValid.answer = s.answer := rfl

@[simp] theorem State.clearValid_draws (s : State) :
    s.clearValid.draws = s.draws := rfl

/-! ### noTree -/

@[simp] theorem State.noTree_cfg (s : State) :
    s.noTree.cfg = s.cfg := rfl

@[simp] theorem State.noTree_cmd (s : State) :
    s.noTree.cmd = s.cmd := rfl

@[simp] theorem State.noTree_busy (s : State) :
    s.noTree.busy = s.busy := rfl

@[simp] theorem State.noTree_done (s : State) :
    s.noTree.done = s.done := rfl

@[simp] theorem State.noTree_dropped (s : State) :
    s.noTree.dropped = s.dropped := rfl

@[simp] theorem State.noTree_err (s : State) :
    s.noTree.err = s.err := rfl

@[simp] theorem State.noTree_inLen (s : State) :
    s.noTree.inLen = s.inLen := rfl

@[simp] theorem State.noTree_arg0 (s : State) :
    s.noTree.arg0 = s.arg0 := rfl

@[simp] theorem State.noTree_arg1 (s : State) :
    s.noTree.arg1 = s.arg1 := rfl

@[simp] theorem State.noTree_result (s : State) :
    s.noTree.result = s.result := rfl

@[simp] theorem State.noTree_hdrSize (s : State) :
    s.noTree.hdrSize = 0 := rfl

@[simp] theorem State.noTree_origSize (s : State) :
    s.noTree.origSize = 0 := rfl

@[simp] theorem State.noTree_writer (s : State) :
    s.noTree.writer = s.writer := rfl

@[simp] theorem State.noTree_reader (s : State) :
    s.noTree.reader = s.reader := rfl

@[simp] theorem State.noTree_tree (s : State) :
    s.noTree.tree = { s.tree with valid := false, count := 0, root := 0 } := rfl

@[simp] theorem State.noTree_codes (s : State) :
    s.noTree.codes = { s.codes with valid := false } := rfl

@[simp] theorem State.noTree_freq (s : State) :
    s.noTree.freq = s.freq := rfl

@[simp] theorem State.noTree_ibuf (s : State) :
    s.noTree.ibuf = s.ibuf := rfl

@[simp] theorem State.noTree_activity (s : State) :
    s.noTree.activity = s.activity := rfl

@[simp] theorem State.noTree_obufDraws (s : State) :
    s.noTree.obufDraws = s.obufDraws := rfl

@[simp] theorem State.noTree_schedule (s : State) :
    s.noTree.schedule = s.schedule := rfl

@[simp] theorem State.noTree_answer (s : State) :
    s.noTree.answer = s.answer := rfl

@[simp] theorem State.noTree_draws (s : State) :
    s.noTree.draws = s.draws := rfl

/-! ### drawResult -/

@[simp] theorem State.drawResult_cfg (s : State) :
    s.drawResult.cfg = s.cfg := rfl

@[simp] theorem State.drawResult_cmd (s : State) :
    s.drawResult.cmd = s.cmd := rfl

@[simp] theorem State.drawResult_busy (s : State) :
    s.drawResult.busy = s.busy := rfl

@[simp] theorem State.drawResult_done (s : State) :
    s.drawResult.done = s.done := rfl

@[simp] theorem State.drawResult_dropped (s : State) :
    s.drawResult.dropped = s.dropped := rfl

@[simp] theorem State.drawResult_err (s : State) :
    s.drawResult.err = s.err := rfl

@[simp] theorem State.drawResult_inLen (s : State) :
    s.drawResult.inLen = s.inLen := rfl

@[simp] theorem State.drawResult_arg0 (s : State) :
    s.drawResult.arg0 = s.arg0 := rfl

@[simp] theorem State.drawResult_arg1 (s : State) :
    s.drawResult.arg1 = s.arg1 := rfl

@[simp] theorem State.drawResult_result (s : State) :
    s.drawResult.result = s.drawn .result := rfl

@[simp] theorem State.drawResult_hdrSize (s : State) :
    s.drawResult.hdrSize = s.hdrSize := rfl

@[simp] theorem State.drawResult_origSize (s : State) :
    s.drawResult.origSize = s.origSize := rfl

@[simp] theorem State.drawResult_writer (s : State) :
    s.drawResult.writer = s.writer := rfl

@[simp] theorem State.drawResult_reader (s : State) :
    s.drawResult.reader = s.reader := rfl

@[simp] theorem State.drawResult_tree (s : State) :
    s.drawResult.tree = s.tree := rfl

@[simp] theorem State.drawResult_codes (s : State) :
    s.drawResult.codes = s.codes := rfl

@[simp] theorem State.drawResult_freq (s : State) :
    s.drawResult.freq = s.freq := rfl

@[simp] theorem State.drawResult_ibuf (s : State) :
    s.drawResult.ibuf = s.ibuf := rfl

@[simp] theorem State.drawResult_activity (s : State) :
    s.drawResult.activity = s.activity := rfl

@[simp] theorem State.drawResult_obufDraws (s : State) :
    s.drawResult.obufDraws = s.obufDraws := rfl

@[simp] theorem State.drawResult_schedule (s : State) :
    s.drawResult.schedule = s.schedule := rfl

@[simp] theorem State.drawResult_answer (s : State) :
    s.drawResult.answer = s.answer := rfl

@[simp] theorem State.drawResult_draws (s : State) :
    s.drawResult.draws = s.draws := rfl

/-! ### drawHeader -/

@[simp] theorem State.drawHeader_cfg (s : State) :
    s.drawHeader.cfg = s.cfg := rfl

@[simp] theorem State.drawHeader_cmd (s : State) :
    s.drawHeader.cmd = s.cmd := rfl

@[simp] theorem State.drawHeader_busy (s : State) :
    s.drawHeader.busy = s.busy := rfl

@[simp] theorem State.drawHeader_done (s : State) :
    s.drawHeader.done = s.done := rfl

@[simp] theorem State.drawHeader_dropped (s : State) :
    s.drawHeader.dropped = s.dropped := rfl

@[simp] theorem State.drawHeader_err (s : State) :
    s.drawHeader.err = s.err := rfl

@[simp] theorem State.drawHeader_inLen (s : State) :
    s.drawHeader.inLen = s.inLen := rfl

@[simp] theorem State.drawHeader_arg0 (s : State) :
    s.drawHeader.arg0 = s.arg0 := rfl

@[simp] theorem State.drawHeader_arg1 (s : State) :
    s.drawHeader.arg1 = s.arg1 := rfl

@[simp] theorem State.drawHeader_result (s : State) :
    s.drawHeader.result = s.result := rfl

@[simp] theorem State.drawHeader_hdrSize (s : State) :
    s.drawHeader.hdrSize = s.drawn .hdrSize := rfl

@[simp] theorem State.drawHeader_origSize (s : State) :
    s.drawHeader.origSize = s.drawn .origSize := rfl

@[simp] theorem State.drawHeader_writer (s : State) :
    s.drawHeader.writer = s.writer := rfl

@[simp] theorem State.drawHeader_reader (s : State) :
    s.drawHeader.reader = s.reader := rfl

@[simp] theorem State.drawHeader_tree (s : State) :
    s.drawHeader.tree = s.tree := rfl

@[simp] theorem State.drawHeader_codes (s : State) :
    s.drawHeader.codes = s.codes := rfl

@[simp] theorem State.drawHeader_freq (s : State) :
    s.drawHeader.freq = s.freq := rfl

@[simp] theorem State.drawHeader_ibuf (s : State) :
    s.drawHeader.ibuf = s.ibuf := rfl

@[simp] theorem State.drawHeader_activity (s : State) :
    s.drawHeader.activity = s.activity := rfl

@[simp] theorem State.drawHeader_obufDraws (s : State) :
    s.drawHeader.obufDraws = s.obufDraws := rfl

@[simp] theorem State.drawHeader_schedule (s : State) :
    s.drawHeader.schedule = s.schedule := rfl

@[simp] theorem State.drawHeader_answer (s : State) :
    s.drawHeader.answer = s.answer := rfl

@[simp] theorem State.drawHeader_draws (s : State) :
    s.drawHeader.draws = s.draws := rfl

/-! ### drawBwState -/

@[simp] theorem State.drawBwState_cfg (s : State) :
    s.drawBwState.cfg = s.cfg := rfl

@[simp] theorem State.drawBwState_cmd (s : State) :
    s.drawBwState.cmd = s.cmd := rfl

@[simp] theorem State.drawBwState_busy (s : State) :
    s.drawBwState.busy = s.busy := rfl

@[simp] theorem State.drawBwState_done (s : State) :
    s.drawBwState.done = s.done := rfl

@[simp] theorem State.drawBwState_dropped (s : State) :
    s.drawBwState.dropped = s.dropped := rfl

@[simp] theorem State.drawBwState_err (s : State) :
    s.drawBwState.err = s.err := rfl

@[simp] theorem State.drawBwState_inLen (s : State) :
    s.drawBwState.inLen = s.inLen := rfl

@[simp] theorem State.drawBwState_arg0 (s : State) :
    s.drawBwState.arg0 = s.arg0 := rfl

@[simp] theorem State.drawBwState_arg1 (s : State) :
    s.drawBwState.arg1 = s.arg1 := rfl

@[simp] theorem State.drawBwState_result (s : State) :
    s.drawBwState.result = s.result := rfl

@[simp] theorem State.drawBwState_hdrSize (s : State) :
    s.drawBwState.hdrSize = s.hdrSize := rfl

@[simp] theorem State.drawBwState_origSize (s : State) :
    s.drawBwState.origSize = s.origSize := rfl

@[simp] theorem State.drawBwState_writer (s : State) :
    s.drawBwState.writer = { s.writer with acc := (s.drawn .bwState).extractLsb' 0 8, cnt := (s.drawn .bwState).extractLsb' 8 3 } := rfl

@[simp] theorem State.drawBwState_reader (s : State) :
    s.drawBwState.reader = s.reader := rfl

@[simp] theorem State.drawBwState_tree (s : State) :
    s.drawBwState.tree = s.tree := rfl

@[simp] theorem State.drawBwState_codes (s : State) :
    s.drawBwState.codes = s.codes := rfl

@[simp] theorem State.drawBwState_freq (s : State) :
    s.drawBwState.freq = s.freq := rfl

@[simp] theorem State.drawBwState_ibuf (s : State) :
    s.drawBwState.ibuf = s.ibuf := rfl

@[simp] theorem State.drawBwState_activity (s : State) :
    s.drawBwState.activity = s.activity := rfl

@[simp] theorem State.drawBwState_obufDraws (s : State) :
    s.drawBwState.obufDraws = s.obufDraws := rfl

@[simp] theorem State.drawBwState_schedule (s : State) :
    s.drawBwState.schedule = s.schedule := rfl

@[simp] theorem State.drawBwState_answer (s : State) :
    s.drawBwState.answer = s.answer := rfl

@[simp] theorem State.drawBwState_draws (s : State) :
    s.drawBwState.draws = s.draws := rfl

/-! ### drawOutput -/

@[simp] theorem State.drawOutput_cfg (s : State) (a : Nat) :
    (s.drawOutput a).cfg = s.cfg := rfl

@[simp] theorem State.drawOutput_cmd (s : State) (a : Nat) :
    (s.drawOutput a).cmd = s.cmd := rfl

@[simp] theorem State.drawOutput_busy (s : State) (a : Nat) :
    (s.drawOutput a).busy = s.busy := rfl

@[simp] theorem State.drawOutput_done (s : State) (a : Nat) :
    (s.drawOutput a).done = s.done := rfl

@[simp] theorem State.drawOutput_dropped (s : State) (a : Nat) :
    (s.drawOutput a).dropped = s.dropped := rfl

@[simp] theorem State.drawOutput_err (s : State) (a : Nat) :
    (s.drawOutput a).err = s.err := rfl

@[simp] theorem State.drawOutput_inLen (s : State) (a : Nat) :
    (s.drawOutput a).inLen = s.inLen := rfl

@[simp] theorem State.drawOutput_arg0 (s : State) (a : Nat) :
    (s.drawOutput a).arg0 = s.arg0 := rfl

@[simp] theorem State.drawOutput_arg1 (s : State) (a : Nat) :
    (s.drawOutput a).arg1 = s.arg1 := rfl

@[simp] theorem State.drawOutput_result (s : State) (a : Nat) :
    (s.drawOutput a).result = s.result := rfl

@[simp] theorem State.drawOutput_hdrSize (s : State) (a : Nat) :
    (s.drawOutput a).hdrSize = s.hdrSize := rfl

@[simp] theorem State.drawOutput_origSize (s : State) (a : Nat) :
    (s.drawOutput a).origSize = s.origSize := rfl

@[simp] theorem State.drawOutput_writer (s : State) (a : Nat) :
    (s.drawOutput a).writer = { s.writer with outLen := s.drawn .outLen, obuf := s.writer.obuf.below a } := rfl

@[simp] theorem State.drawOutput_reader (s : State) (a : Nat) :
    (s.drawOutput a).reader = s.reader := rfl

@[simp] theorem State.drawOutput_tree (s : State) (a : Nat) :
    (s.drawOutput a).tree = s.tree := rfl

@[simp] theorem State.drawOutput_codes (s : State) (a : Nat) :
    (s.drawOutput a).codes = s.codes := rfl

@[simp] theorem State.drawOutput_freq (s : State) (a : Nat) :
    (s.drawOutput a).freq = s.freq := rfl

@[simp] theorem State.drawOutput_ibuf (s : State) (a : Nat) :
    (s.drawOutput a).ibuf = s.ibuf := rfl

@[simp] theorem State.drawOutput_activity (s : State) (a : Nat) :
    (s.drawOutput a).activity = s.activity := rfl

@[simp] theorem State.drawOutput_obufDraws (s : State) (a : Nat) :
    (s.drawOutput a).obufDraws = holdDraw s.obufDraws a s.draws := rfl

@[simp] theorem State.drawOutput_schedule (s : State) (a : Nat) :
    (s.drawOutput a).schedule = s.schedule := rfl

@[simp] theorem State.drawOutput_answer (s : State) (a : Nat) :
    (s.drawOutput a).answer = s.answer := rfl

@[simp] theorem State.drawOutput_draws (s : State) (a : Nat) :
    (s.drawOutput a).draws = s.draws := rfl

/-! ### drawObuf -/

@[simp] theorem State.drawObuf_cfg (s : State) :
    s.drawObuf.cfg = s.cfg := rfl

@[simp] theorem State.drawObuf_cmd (s : State) :
    s.drawObuf.cmd = s.cmd := rfl

@[simp] theorem State.drawObuf_busy (s : State) :
    s.drawObuf.busy = s.busy := rfl

@[simp] theorem State.drawObuf_done (s : State) :
    s.drawObuf.done = s.done := rfl

@[simp] theorem State.drawObuf_dropped (s : State) :
    s.drawObuf.dropped = s.dropped := rfl

@[simp] theorem State.drawObuf_err (s : State) :
    s.drawObuf.err = s.err := rfl

@[simp] theorem State.drawObuf_inLen (s : State) :
    s.drawObuf.inLen = s.inLen := rfl

@[simp] theorem State.drawObuf_arg0 (s : State) :
    s.drawObuf.arg0 = s.arg0 := rfl

@[simp] theorem State.drawObuf_arg1 (s : State) :
    s.drawObuf.arg1 = s.arg1 := rfl

@[simp] theorem State.drawObuf_result (s : State) :
    s.drawObuf.result = s.result := rfl

@[simp] theorem State.drawObuf_hdrSize (s : State) :
    s.drawObuf.hdrSize = s.hdrSize := rfl

@[simp] theorem State.drawObuf_origSize (s : State) :
    s.drawObuf.origSize = s.origSize := rfl

@[simp] theorem State.drawObuf_writer (s : State) :
    s.drawObuf.writer = { s.writer with outLen := 0, obuf := [] } := rfl

@[simp] theorem State.drawObuf_reader (s : State) :
    s.drawObuf.reader = s.reader := rfl

@[simp] theorem State.drawObuf_tree (s : State) :
    s.drawObuf.tree = s.tree := rfl

@[simp] theorem State.drawObuf_codes (s : State) :
    s.drawObuf.codes = s.codes := rfl

@[simp] theorem State.drawObuf_freq (s : State) :
    s.drawObuf.freq = s.freq := rfl

@[simp] theorem State.drawObuf_ibuf (s : State) :
    s.drawObuf.ibuf = s.ibuf := rfl

@[simp] theorem State.drawObuf_activity (s : State) :
    s.drawObuf.activity = s.activity := rfl

@[simp] theorem State.drawObuf_obufDraws (s : State) :
    s.drawObuf.obufDraws = holdDraw s.obufDraws 0 s.draws := rfl

@[simp] theorem State.drawObuf_schedule (s : State) :
    s.drawObuf.schedule = s.schedule := rfl

@[simp] theorem State.drawObuf_answer (s : State) :
    s.drawObuf.answer = s.answer := rfl

@[simp] theorem State.drawObuf_draws (s : State) :
    s.drawObuf.draws = s.draws := rfl

/-! ### drawCursor -/

@[simp] theorem State.drawCursor_cfg (s : State) :
    s.drawCursor.cfg = s.cfg := rfl

@[simp] theorem State.drawCursor_cmd (s : State) :
    s.drawCursor.cmd = s.cmd := rfl

@[simp] theorem State.drawCursor_busy (s : State) :
    s.drawCursor.busy = s.busy := rfl

@[simp] theorem State.drawCursor_done (s : State) :
    s.drawCursor.done = s.done := rfl

@[simp] theorem State.drawCursor_dropped (s : State) :
    s.drawCursor.dropped = s.dropped := rfl

@[simp] theorem State.drawCursor_err (s : State) :
    s.drawCursor.err = s.err := rfl

@[simp] theorem State.drawCursor_inLen (s : State) :
    s.drawCursor.inLen = s.inLen := rfl

@[simp] theorem State.drawCursor_arg0 (s : State) :
    s.drawCursor.arg0 = s.arg0 := rfl

@[simp] theorem State.drawCursor_arg1 (s : State) :
    s.drawCursor.arg1 = s.arg1 := rfl

@[simp] theorem State.drawCursor_result (s : State) :
    s.drawCursor.result = s.result := rfl

@[simp] theorem State.drawCursor_hdrSize (s : State) :
    s.drawCursor.hdrSize = s.hdrSize := rfl

@[simp] theorem State.drawCursor_origSize (s : State) :
    s.drawCursor.origSize = s.origSize := rfl

@[simp] theorem State.drawCursor_writer (s : State) :
    s.drawCursor.writer = s.writer := rfl

@[simp] theorem State.drawCursor_reader (s : State) :
    s.drawCursor.reader = { s.reader with pos := s.drawn .brPos, bit := (s.drawn .brBit).extractLsb' 0 3 } := rfl

@[simp] theorem State.drawCursor_tree (s : State) :
    s.drawCursor.tree = s.tree := rfl

@[simp] theorem State.drawCursor_codes (s : State) :
    s.drawCursor.codes = s.codes := rfl

@[simp] theorem State.drawCursor_freq (s : State) :
    s.drawCursor.freq = s.freq := rfl

@[simp] theorem State.drawCursor_ibuf (s : State) :
    s.drawCursor.ibuf = s.ibuf := rfl

@[simp] theorem State.drawCursor_activity (s : State) :
    s.drawCursor.activity = s.activity := rfl

@[simp] theorem State.drawCursor_obufDraws (s : State) :
    s.drawCursor.obufDraws = s.obufDraws := rfl

@[simp] theorem State.drawCursor_schedule (s : State) :
    s.drawCursor.schedule = s.schedule := rfl

@[simp] theorem State.drawCursor_answer (s : State) :
    s.drawCursor.answer = s.answer := rfl

@[simp] theorem State.drawCursor_draws (s : State) :
    s.drawCursor.draws = s.draws := rfl

/-! ### drawExtent -/

@[simp] theorem State.drawExtent_cfg (s : State) :
    s.drawExtent.cfg = s.cfg := rfl

@[simp] theorem State.drawExtent_cmd (s : State) :
    s.drawExtent.cmd = s.cmd := rfl

@[simp] theorem State.drawExtent_busy (s : State) :
    s.drawExtent.busy = s.busy := rfl

@[simp] theorem State.drawExtent_done (s : State) :
    s.drawExtent.done = s.done := rfl

@[simp] theorem State.drawExtent_dropped (s : State) :
    s.drawExtent.dropped = s.dropped := rfl

@[simp] theorem State.drawExtent_err (s : State) :
    s.drawExtent.err = s.err := rfl

@[simp] theorem State.drawExtent_inLen (s : State) :
    s.drawExtent.inLen = s.inLen := rfl

@[simp] theorem State.drawExtent_arg0 (s : State) :
    s.drawExtent.arg0 = s.arg0 := rfl

@[simp] theorem State.drawExtent_arg1 (s : State) :
    s.drawExtent.arg1 = s.arg1 := rfl

@[simp] theorem State.drawExtent_result (s : State) :
    s.drawExtent.result = s.result := rfl

@[simp] theorem State.drawExtent_hdrSize (s : State) :
    s.drawExtent.hdrSize = s.hdrSize := rfl

@[simp] theorem State.drawExtent_origSize (s : State) :
    s.drawExtent.origSize = s.origSize := rfl

@[simp] theorem State.drawExtent_writer (s : State) :
    s.drawExtent.writer = s.writer := rfl

@[simp] theorem State.drawExtent_reader (s : State) :
    s.drawExtent.reader = { s.reader with limit := s.drawn .brEnd } := rfl

@[simp] theorem State.drawExtent_tree (s : State) :
    s.drawExtent.tree = s.tree := rfl

@[simp] theorem State.drawExtent_codes (s : State) :
    s.drawExtent.codes = s.codes := rfl

@[simp] theorem State.drawExtent_freq (s : State) :
    s.drawExtent.freq = s.freq := rfl

@[simp] theorem State.drawExtent_ibuf (s : State) :
    s.drawExtent.ibuf = s.ibuf := rfl

@[simp] theorem State.drawExtent_activity (s : State) :
    s.drawExtent.activity = s.activity := rfl

@[simp] theorem State.drawExtent_obufDraws (s : State) :
    s.drawExtent.obufDraws = s.obufDraws := rfl

@[simp] theorem State.drawExtent_schedule (s : State) :
    s.drawExtent.schedule = s.schedule := rfl

@[simp] theorem State.drawExtent_answer (s : State) :
    s.drawExtent.answer = s.answer := rfl

@[simp] theorem State.drawExtent_draws (s : State) :
    s.drawExtent.draws = s.draws := rfl

/-! ### drawTree -/

@[simp] theorem State.drawTree_cfg (s : State) :
    s.drawTree.cfg = s.cfg := rfl

@[simp] theorem State.drawTree_cmd (s : State) :
    s.drawTree.cmd = s.cmd := rfl

@[simp] theorem State.drawTree_busy (s : State) :
    s.drawTree.busy = s.busy := rfl

@[simp] theorem State.drawTree_done (s : State) :
    s.drawTree.done = s.done := rfl

@[simp] theorem State.drawTree_dropped (s : State) :
    s.drawTree.dropped = s.dropped := rfl

@[simp] theorem State.drawTree_err (s : State) :
    s.drawTree.err = s.err := rfl

@[simp] theorem State.drawTree_inLen (s : State) :
    s.drawTree.inLen = s.inLen := rfl

@[simp] theorem State.drawTree_arg0 (s : State) :
    s.drawTree.arg0 = s.arg0 := rfl

@[simp] theorem State.drawTree_arg1 (s : State) :
    s.drawTree.arg1 = s.arg1 := rfl

@[simp] theorem State.drawTree_result (s : State) :
    s.drawTree.result = s.result := rfl

@[simp] theorem State.drawTree_hdrSize (s : State) :
    s.drawTree.hdrSize = s.hdrSize := rfl

@[simp] theorem State.drawTree_origSize (s : State) :
    s.drawTree.origSize = s.origSize := rfl

@[simp] theorem State.drawTree_writer (s : State) :
    s.drawTree.writer = s.writer := rfl

@[simp] theorem State.drawTree_reader (s : State) :
    s.drawTree.reader = s.reader := rfl

@[simp] theorem State.drawTree_tree (s : State) :
    s.drawTree.tree = { nodes := s.drawnNodes, count := (s.drawn .treeInfo).extractLsb' 8 10, root := (s.drawn .treeInfo).extractLsb' 20 9, valid := false, drawn := true } := rfl

@[simp] theorem State.drawTree_codes (s : State) :
    s.drawTree.codes = { s.codes with valid := false } := rfl

@[simp] theorem State.drawTree_freq (s : State) :
    s.drawTree.freq = s.freq := rfl

@[simp] theorem State.drawTree_ibuf (s : State) :
    s.drawTree.ibuf = s.ibuf := rfl

@[simp] theorem State.drawTree_activity (s : State) :
    s.drawTree.activity = s.activity := rfl

@[simp] theorem State.drawTree_obufDraws (s : State) :
    s.drawTree.obufDraws = s.obufDraws := rfl

@[simp] theorem State.drawTree_schedule (s : State) :
    s.drawTree.schedule = s.schedule := rfl

@[simp] theorem State.drawTree_answer (s : State) :
    s.drawTree.answer = s.answer := rfl

@[simp] theorem State.drawTree_draws (s : State) :
    s.drawTree.draws = s.draws := rfl

/-! ### drawCodes -/

@[simp] theorem State.drawCodes_cfg (s : State) :
    s.drawCodes.cfg = s.cfg := rfl

@[simp] theorem State.drawCodes_cmd (s : State) :
    s.drawCodes.cmd = s.cmd := rfl

@[simp] theorem State.drawCodes_busy (s : State) :
    s.drawCodes.busy = s.busy := rfl

@[simp] theorem State.drawCodes_done (s : State) :
    s.drawCodes.done = s.done := rfl

@[simp] theorem State.drawCodes_dropped (s : State) :
    s.drawCodes.dropped = s.dropped := rfl

@[simp] theorem State.drawCodes_err (s : State) :
    s.drawCodes.err = s.err := rfl

@[simp] theorem State.drawCodes_inLen (s : State) :
    s.drawCodes.inLen = s.inLen := rfl

@[simp] theorem State.drawCodes_arg0 (s : State) :
    s.drawCodes.arg0 = s.arg0 := rfl

@[simp] theorem State.drawCodes_arg1 (s : State) :
    s.drawCodes.arg1 = s.arg1 := rfl

@[simp] theorem State.drawCodes_result (s : State) :
    s.drawCodes.result = s.result := rfl

@[simp] theorem State.drawCodes_hdrSize (s : State) :
    s.drawCodes.hdrSize = s.hdrSize := rfl

@[simp] theorem State.drawCodes_origSize (s : State) :
    s.drawCodes.origSize = s.origSize := rfl

@[simp] theorem State.drawCodes_writer (s : State) :
    s.drawCodes.writer = s.writer := rfl

@[simp] theorem State.drawCodes_reader (s : State) :
    s.drawCodes.reader = s.reader := rfl

@[simp] theorem State.drawCodes_tree (s : State) :
    s.drawCodes.tree = s.tree := rfl

@[simp] theorem State.drawCodes_codes (s : State) :
    s.drawCodes.codes = { val := s.drawnCodeVals, len := s.drawnCodeLens, valid := false, drawn := true } := rfl

@[simp] theorem State.drawCodes_freq (s : State) :
    s.drawCodes.freq = s.freq := rfl

@[simp] theorem State.drawCodes_ibuf (s : State) :
    s.drawCodes.ibuf = s.ibuf := rfl

@[simp] theorem State.drawCodes_activity (s : State) :
    s.drawCodes.activity = s.activity := rfl

@[simp] theorem State.drawCodes_obufDraws (s : State) :
    s.drawCodes.obufDraws = s.obufDraws := rfl

@[simp] theorem State.drawCodes_schedule (s : State) :
    s.drawCodes.schedule = s.schedule := rfl

@[simp] theorem State.drawCodes_answer (s : State) :
    s.drawCodes.answer = s.answer := rfl

@[simp] theorem State.drawCodes_draws (s : State) :
    s.drawCodes.draws = s.draws := rfl

/-! ### drawFreq -/

@[simp] theorem State.drawFreq_cfg (s : State) :
    s.drawFreq.cfg = s.cfg := rfl

@[simp] theorem State.drawFreq_cmd (s : State) :
    s.drawFreq.cmd = s.cmd := rfl

@[simp] theorem State.drawFreq_busy (s : State) :
    s.drawFreq.busy = s.busy := rfl

@[simp] theorem State.drawFreq_done (s : State) :
    s.drawFreq.done = s.done := rfl

@[simp] theorem State.drawFreq_dropped (s : State) :
    s.drawFreq.dropped = s.dropped := rfl

@[simp] theorem State.drawFreq_err (s : State) :
    s.drawFreq.err = s.err := rfl

@[simp] theorem State.drawFreq_inLen (s : State) :
    s.drawFreq.inLen = s.inLen := rfl

@[simp] theorem State.drawFreq_arg0 (s : State) :
    s.drawFreq.arg0 = s.arg0 := rfl

@[simp] theorem State.drawFreq_arg1 (s : State) :
    s.drawFreq.arg1 = s.arg1 := rfl

@[simp] theorem State.drawFreq_result (s : State) :
    s.drawFreq.result = s.result := rfl

@[simp] theorem State.drawFreq_hdrSize (s : State) :
    s.drawFreq.hdrSize = s.hdrSize := rfl

@[simp] theorem State.drawFreq_origSize (s : State) :
    s.drawFreq.origSize = s.origSize := rfl

@[simp] theorem State.drawFreq_writer (s : State) :
    s.drawFreq.writer = s.writer := rfl

@[simp] theorem State.drawFreq_reader (s : State) :
    s.drawFreq.reader = s.reader := rfl

@[simp] theorem State.drawFreq_tree (s : State) :
    s.drawFreq.tree = s.tree := rfl

@[simp] theorem State.drawFreq_codes (s : State) :
    s.drawFreq.codes = s.codes := rfl

@[simp] theorem State.drawFreq_freq (s : State) :
    s.drawFreq.freq = s.drawnFreqs := rfl

@[simp] theorem State.drawFreq_ibuf (s : State) :
    s.drawFreq.ibuf = s.ibuf := rfl

@[simp] theorem State.drawFreq_activity (s : State) :
    s.drawFreq.activity = s.activity := rfl

@[simp] theorem State.drawFreq_obufDraws (s : State) :
    s.drawFreq.obufDraws = s.obufDraws := rfl

@[simp] theorem State.drawFreq_schedule (s : State) :
    s.drawFreq.schedule = s.schedule := rfl

@[simp] theorem State.drawFreq_answer (s : State) :
    s.drawFreq.answer = s.answer := rfl

@[simp] theorem State.drawFreq_draws (s : State) :
    s.drawFreq.draws = s.draws := rfl

end Sys2Proof.Machine
end

