-- ==== Sys2Proof/Laws/Writer.lean ====
section
/-! SUPPORT. The bit-stream writer: what emit and write_bit do, said once, and what a whole bit string
appends to the stream (R100 to R103). -/

namespace Sys2Proof.Machine

/-! ### Bytes of the stream -/

/-- One byte's worth of facts about BW_ACC, over all bytes and cursors. -/
theorem packByte_pending : ∀ (acc : Byte) (cnt : BitVec 3), acc <<< cnt.toNat = 0 →
    packByte ((List.range cnt.toNat).map acc.getMsbD) = acc := by decide +kernel

theorem pending_setBit : ∀ (cnt : BitVec 3) (v : Bool) (acc : Byte), acc <<< cnt.toNat = 0 →
    cnt ≠ 7 →
    (List.range (cnt + 1).toNat).map (if v then acc ||| streamMask cnt else acc).getMsbD =
      (List.range cnt.toNat).map acc.getMsbD ++ [v] ∧
    (if v then acc ||| streamMask cnt else acc) <<< (cnt + 1).toNat = 0 := by decide +kernel

theorem pack_setBit_last : ∀ (v : Bool) (acc : Byte), acc <<< 7 = 0 →
    (if v then acc ||| streamMask 7 else acc) =
      packByte ((List.range 7).map acc.getMsbD ++ [v]) := by decide +kernel

theorem streamByte_succ (bits : List Bool) (j : Nat) :
    streamByte bits (j + 1) = streamByte (bits.drop 8) j := by
  simp only [streamByte, List.drop_drop]
  congr 3; omega

theorem streamByte_zero_of_length {bits : List Bool} (h : bits.length ≤ 8) :
    streamByte bits 0 = packByte bits := by
  simp [streamByte, List.take_of_length_le h]

@[simp] theorem Writer.pendingBits_length (w : Writer) : w.pendingBits.length = w.cnt.toNat := by
  simp [Writer.pendingBits]

/-! ### emit -/

@[simp] theorem Writer.push_acc (w : Writer) (b : Byte) : (w.push b).acc = w.acc := rfl
@[simp] theorem Writer.push_cnt (w : Writer) (b : Byte) : (w.push b).cnt = w.cnt := rfl
@[simp] theorem Writer.push_outLen (w : Writer) (b : Byte) : (w.push b).outLen = w.outLen + 1 := rfl
@[simp] theorem Writer.push_obuf (w : Writer) (b : Byte) :
    (w.push b).obuf = w.obuf.set w.outLen.toNat b := rfl
@[simp] theorem Writer.clearByte_acc (w : Writer) : w.clearByte.acc = 0 := rfl
@[simp] theorem Writer.clearByte_cnt (w : Writer) : w.clearByte.cnt = 0 := rfl
@[simp] theorem Writer.clearByte_outLen (w : Writer) : w.clearByte.outLen = w.outLen := rfl
@[simp] theorem Writer.clearByte_obuf (w : Writer) : w.clearByte.obuf = w.obuf := rfl

@[simp] theorem Writer.setBit_acc (w : Writer) (v : Bool) :
    (w.setBit v).acc = if v then w.acc ||| streamMask w.cnt else w.acc := by
  unfold Writer.setBit; split <;> rfl
@[simp] theorem Writer.setBit_cnt (w : Writer) (v : Bool) : (w.setBit v).cnt = w.cnt := by
  unfold Writer.setBit; split <;> rfl
@[simp] theorem Writer.setBit_outLen (w : Writer) (v : Bool) : (w.setBit v).outLen = w.outLen := by
  unfold Writer.setBit; split <;> rfl
@[simp] theorem Writer.setBit_obuf (w : Writer) (v : Bool) : (w.setBit v).obuf = w.obuf := by
  unfold Writer.setBit; split <;> rfl

theorem emit_of_lt {cap : Nat} {w : Writer} (h : w.outLen.toNat < cap) (b : Byte) (dirty : Bool) :
    emit cap b dirty w = .ok (w.push b) := if_neg (by omega)

theorem emit_of_ge {cap : Nat} {w : Writer} (h : cap ≤ w.outLen.toNat) (b : Byte) (dirty : Bool) :
    emit cap b dirty w = .error (.raise .outputOverflow dirty) := if_pos h

/-- Everything emit can answer. -/
theorem emit_cases (cap : Nat) (b : Byte) (dirty : Bool) (w : Writer) :
    (cap ≤ w.outLen.toNat ∧ emit cap b dirty w = .error (.raise .outputOverflow dirty)) ∨
    (w.outLen.toNat < cap ∧ emit cap b dirty w = .ok (w.push b)) := by
  by_cases h : cap ≤ w.outLen.toNat
  · exact .inl ⟨h, emit_of_ge h b dirty⟩
  · exact .inr ⟨by omega, emit_of_lt (by omega) b dirty⟩

/-- OUT_LEN never wraps through emit (R101). -/
theorem outLen_succ {cap : Nat} {n : Word} (hcap : cap < 2 ^ 32) (h : n.toNat < cap) :
    (n + 1).toNat = n.toNat + 1 := by
  rw [BitVec.toNat_add]
  exact Nat.mod_eq_of_lt (by simp; omega)

/-! ### write_bit -/

/-- The writer after a bit that completes no byte. -/
abbrev Writer.bitIn (w : Writer) (v : Bool) : Writer := { w.setBit v with cnt := w.cnt + 1 }

/-- The writer after a bit that completes a byte. -/
abbrev Writer.byteOut (w : Writer) (v : Bool) : Writer := ((w.setBit v).push (w.setBit v).acc).clearByte

/-- Everything one write_bit can answer (R102). -/
theorem writeBit_cases (cap : Nat) (v dirty : Bool) (w : Writer) :
    (w.cnt ≠ 7 ∧ writeBit cap v dirty w = .ok (w.bitIn v)) ∨
    (w.cnt = 7 ∧ w.outLen.toNat < cap ∧ writeBit cap v dirty w = .ok (w.byteOut v)) ∨
    (w.cnt = 7 ∧ cap ≤ w.outLen.toNat ∧
      writeBit cap v dirty w = .error (.raise .outputOverflow (dirty || v))) := by
  by_cases h7 : w.cnt = 7
  · rcases emit_cases cap (w.setBit v).acc (dirty || v) (w.setBit v) with ⟨h, e⟩ | ⟨h, e⟩
    · exact .inr (.inr ⟨h7, by simpa using h, by rw [writeBit, if_pos h7, e]⟩)
    · exact .inr (.inl ⟨h7, by simpa using h, by rw [writeBit, if_pos h7, e]⟩)
  · exact .inl ⟨h7, by rw [writeBit, if_neg h7]⟩

theorem bv3_ne7 {c : BitVec 3} (h : c ≠ 7) : c.toNat < 7 := by
  have h1 := c.isLt
  have h2 : c.toNat ≠ 7 := fun h3 => h (BitVec.eq_of_toNat_eq (by simpa using h3))
  omega

/-! ### A bit string -/

/-- A writer in order: no stray bits (R32), OBUF in canonical form. -/
structure Writer.Ready (w : Writer) : Prop where
  clean : w.Clean
  wf : Memory.wf w.obuf = true

theorem Writer.bitIn_cnt (w : Writer) (h : w.cnt ≠ 7) (v : Bool) :
    (w.bitIn v).cnt.toNat = w.cnt.toNat + 1 := by
  have := bv3_ne7 h
  rw [BitVec.toNat_add]; exact Nat.mod_eq_of_lt (by simp; omega)

theorem Writer.ready_bitIn (w : Writer) (hr : w.Ready) (h7 : w.cnt ≠ 7) (v : Bool) :
    (w.bitIn v).Ready :=
  ⟨by simpa only [Writer.Clean, Writer.setBit_acc] using (pending_setBit w.cnt v w.acc hr.clean h7).2,
    by simpa only [Writer.setBit_obuf] using hr.wf⟩

theorem Writer.ready_byteOut (w : Writer) (hr : w.Ready) (v : Bool) : (w.byteOut v).Ready :=
  ⟨rfl, by simpa using Memory.wf_set hr.wf _ _⟩

theorem Writer.appended_nil {w : Writer} (h : w.Clean) : w.Appended [] w := by
  have hlt : w.pendingBits.length < 8 := by rw [Writer.pendingBits_length]; exact w.cnt.isLt
  have hz : w.pendingBits.length / 8 = 0 := by omega
  refine ⟨?_, ?_, ?_, ?_⟩
  · rw [List.append_nil, Writer.pendingBits_length, Nat.mod_eq_of_lt w.cnt.isLt]
  · rw [List.append_nil, hz, streamByte_zero_of_length (by omega)]
    exact (packByte_pending w.acc w.cnt h).symm
  · rw [List.append_nil, hz]; rfl
  · intro a
    rw [List.append_nil, hz, if_neg (by omega)]

/-- One bit and then the rest. -/
theorem Writer.appended_cons {cap : Nat} (hcap : cap < 2 ^ 32) {w w1 w' : Writer} {v dirty : Bool}
    {vs : List Bool} (hr : w.Ready) (h1 : writeBit cap v dirty w = .ok w1)
    (h2 : w1.Appended vs w') : w1.Ready ∧ w.Appended (v :: vs) w' := by
  rcases writeBit_cases cap v dirty w with ⟨h7, e⟩ | ⟨h7, hlt, e⟩ | ⟨h7, -, e⟩
  · rw [e] at h1
    cases h1
    have hp := (pending_setBit w.cnt v w.acc hr.clean h7).1
    have hp' : (w.bitIn v).pendingBits = w.pendingBits ++ [v] := by
      simp only [Writer.pendingBits, Writer.setBit_acc]; exact hp
    refine ⟨w.ready_bitIn hr h7 v, ?_⟩
    have ha : w.pendingBits ++ v :: vs = (w.pendingBits ++ [v]) ++ vs := by simp
    simpa only [Writer.Appended, hp', ← ha, Writer.setBit_outLen, Writer.setBit_obuf] using h2
  · rw [e] at h1
    cases h1
    refine ⟨w.ready_byteOut hr v, ?_⟩
    have hlen : w.pendingBits.length = 7 := by rw [Writer.pendingBits_length, h7]; rfl
    have hb : (w.setBit v).acc = streamByte (w.pendingBits ++ v :: vs) 0 := by
      have ht : (w.pendingBits ++ v :: vs).take 8 = w.pendingBits ++ [v] := by
        rw [List.take_append, hlen, List.take_of_length_le (by omega)]; rfl
      have hcl : w.acc <<< 7 = 0 := by
        have h0 := hr.clean
        rw [Writer.Clean, h7] at h0; exact h0
      rw [streamByte, Nat.mul_zero, List.drop_zero, ht, Writer.setBit_acc, h7, pack_setBit_last v _ hcl,
        Writer.pendingBits, h7]
      rfl
    have hd : (w.pendingBits ++ v :: vs).drop 8 = vs := by
      rw [List.drop_append, hlen, List.drop_eq_nil_of_le (by omega)]; rfl
    have hn : (w.byteOut v).pendingBits = [] := rfl
    have hL : (w.pendingBits ++ v :: vs).length = vs.length + 8 := by
      rw [List.length_append, hlen, List.length_cons]; omega
    have hq : (vs.length + 8) / 8 = vs.length / 8 + 1 := by omega
    obtain ⟨c1, c2, c3, c4⟩ := h2
    rw [hn, List.nil_append] at c1 c2 c3 c4
    simp only [Writer.clearByte_outLen, Writer.push_outLen, Writer.setBit_outLen, Writer.clearByte_obuf,
      Writer.push_obuf, Writer.setBit_obuf, outLen_succ hcap hlt] at c3 c4
    refine ⟨?_, ?_, ?_, ?_⟩
    · rw [c1, hL]; omega
    · rw [c2, hL, hq, streamByte_succ, hd]
    · rw [c3, hL, hq]; omega
    · intro a
      rw [c4 a, hL, hq, Memory.get_set hr.wf]
      by_cases ha : a = w.outLen.toNat
      · subst ha
        rw [if_neg (by omega), if_pos rfl, if_pos (by omega), Nat.sub_self, hb]
      · by_cases hin : w.outLen.toNat + 1 ≤ a ∧ a < w.outLen.toNat + 1 + vs.length / 8
        · obtain ⟨d, hd'⟩ : ∃ d, a = w.outLen.toNat + (d + 1) :=
            ⟨a - w.outLen.toNat - 1, by omega⟩
          have e1 : a - (w.outLen.toNat + 1) = d := by omega
          have e2 : a - w.outLen.toNat = d + 1 := by omega
          rw [if_pos hin, if_pos (by omega), e1, e2, streamByte_succ, hd]
        · rw [if_neg hin, if_neg ha, if_neg (by omega)]
  · rw [e] at h1; cases h1

/-- A bit string that fits is written (R102, R103). -/
theorem writeBits_appended {cap : Nat} (hcap : cap < 2 ^ 32) (bits : List Bool) (dirty : Bool)
    (w : Writer) (hr : w.Ready)
    (hfit : w.outLen.toNat + (w.cnt.toNat + bits.length) / 8 ≤ cap) :
    ∃ w', writeBits cap bits dirty w = .ok w' ∧ w.Appended bits w' ∧ w'.Ready := by
  induction bits generalizing dirty w with
  | nil => exact ⟨w, rfl, Writer.appended_nil hr.clean, hr⟩
  | cons v vs ih =>
    rw [List.length_cons] at hfit
    have step : ∀ w1, writeBit cap v dirty w = .ok w1 → w1.Ready →
        w1.outLen.toNat + (w1.cnt.toNat + vs.length) / 8 ≤ cap →
        ∃ w', writeBits cap (v :: vs) dirty w = .ok w' ∧ w.Appended (v :: vs) w' ∧ w'.Ready := by
      intro w1 h1 hr1 hf
      obtain ⟨w', e, ha, hr'⟩ := ih true w1 hr1 hf
      exact ⟨w', by simp [writeBits, h1, e], (Writer.appended_cons hcap hr h1 ha).2, hr'⟩
    rcases writeBit_cases cap v dirty w with ⟨h7, e⟩ | ⟨h7, hlt, e⟩ | ⟨h7, hge, -⟩
    · refine step _ e (w.ready_bitIn hr h7 v) ?_
      rw [Writer.bitIn_cnt w h7, Writer.setBit_outLen]
      have : w.cnt.toNat + (vs.length + 1) = w.cnt.toNat + 1 + vs.length := by omega
      rwa [← this]
    · refine step _ e (w.ready_byteOut hr v) ?_
      have h7' : w.cnt.toNat = 7 := by rw [h7]; rfl
      have h0 : (w.byteOut v).cnt.toNat = 0 := rfl
      have h1 : (w.byteOut v).outLen.toNat = w.outLen.toNat + 1 := by
        simpa using outLen_succ hcap hlt
      omega
    · have h7' : w.cnt.toNat = 7 := by rw [h7]; rfl
      omega

/-- A bit string whose bytes fit, or that completes no byte, is written, whatever the writer holds. -/
theorem writeBits_completes {cap : Nat} (hcap : cap < 2 ^ 32) (bits : List Bool) (dirty : Bool)
    (w : Writer) (hfit : w.outLen.toNat + (w.cnt.toNat + bits.length) / 8 ≤ cap ∨
      w.cnt.toNat + bits.length < 8) :
    ∃ w', writeBits cap bits dirty w = .ok w' ∧
      w'.cnt.toNat = (w.cnt.toNat + bits.length) % 8 ∧
      w'.outLen.toNat = w.outLen.toNat + (w.cnt.toNat + bits.length) / 8 ∧
      (w.Ready → w.Appended bits w') := by
  induction bits generalizing dirty w with
  | nil =>
    have := w.cnt.isLt
    exact ⟨w, rfl, by simp; omega, by simp; omega, fun hr => Writer.appended_nil hr.clean⟩
  | cons v vs ih =>
    rw [List.length_cons] at hfit
    rcases writeBit_cases cap v dirty w with ⟨h7, e⟩ | ⟨h7, hlt, e⟩ | ⟨h7, hge, -⟩
    · have h1 := Writer.bitIn_cnt w h7 v
      have h2 : (w.bitIn v).outLen.toNat = w.outLen.toNat := by rw [Writer.setBit_outLen]
      obtain ⟨w', e', hc, ho, ha⟩ := ih true (w.bitIn v) (by
        rw [h1, h2, Nat.add_right_comm, Nat.add_assoc]; exact hfit)
      refine ⟨w', by simp only [writeBits, e, e'], ?_, ?_, fun hr =>
        (Writer.appended_cons hcap hr e (ha (w.ready_bitIn hr h7 v))).2⟩
      · rw [hc, h1, List.length_cons, Nat.add_right_comm, Nat.add_assoc]
      · rw [ho, h1, h2, List.length_cons, Nat.add_right_comm, Nat.add_assoc]
    · have h7' : w.cnt.toNat = 7 := by rw [h7]; rfl
      have h0 : (w.byteOut v).cnt.toNat = 0 := rfl
      have h1 : (w.byteOut v).outLen.toNat = w.outLen.toNat + 1 := by
        simpa using outLen_succ hcap hlt
      obtain ⟨w', e', hc, ho, ha⟩ := ih true (w.byteOut v) (by omega)
      refine ⟨w', by simp only [writeBits, e, e'], ?_, ?_, fun hr =>
        (Writer.appended_cons hcap hr e (ha (w.ready_byteOut hr v))).2⟩
      · rw [hc, List.length_cons]; omega
      · rw [ho, List.length_cons]; omega
    · have h7' : w.cnt.toNat = 7 := by rw [h7]; rfl
      omega

/-- A bit string that does not fit overflows (R101). -/
theorem writeBits_overflow {cap : Nat} (hcap : cap < 2 ^ 32) (bits : List Bool) (dirty : Bool)
    (w : Writer) (hfit : cap < w.outLen.toNat + (w.cnt.toNat + bits.length) / 8)
    (hlen : 8 ≤ w.cnt.toNat + bits.length) :
    ∃ d, writeBits cap bits dirty w = .error (.raise .outputOverflow d) := by
  induction bits generalizing dirty w with
  | nil => have := w.cnt.isLt; simp at hlen; omega
  | cons v vs ih =>
    rw [List.length_cons] at hfit hlen
    rcases writeBit_cases cap v dirty w with ⟨h7, e⟩ | ⟨h7, hlt, e⟩ | ⟨h7, hge, e⟩
    · have h1 := Writer.bitIn_cnt w h7 v
      have h2 : (w.bitIn v).outLen = w.outLen := Writer.setBit_outLen w v
      have h3 : w.cnt.toNat + (vs.length + 1) = w.cnt.toNat + 1 + vs.length := by omega
      obtain ⟨d, hd⟩ := ih true (w.bitIn v) (by rw [h1, h2, ← h3]; exact hfit) (by omega)
      exact ⟨d, by simp only [writeBits, e, hd]⟩
    · have h7' : w.cnt.toNat = 7 := by rw [h7]; rfl
      have h0 : (w.byteOut v).cnt.toNat = 0 := rfl
      have h1 : (w.byteOut v).outLen.toNat = w.outLen.toNat + 1 := by
        simpa using outLen_succ hcap hlt
      obtain ⟨d, hd⟩ := ih true (w.byteOut v) (by omega) (by omega)
      exact ⟨d, by simp only [writeBits, e, hd]⟩
    · exact ⟨dirty || v, by simp only [writeBits, e]⟩

/-- write_bit over two bit strings in turn. -/
theorem writeBits_append (cap : Nat) (xs ys : List Bool) (w : Writer) :
    writeBits cap (xs ++ ys) true w =
      match writeBits cap xs true w with
      | .error e => .error e
      | .ok w' => writeBits cap ys true w' := by
  induction xs generalizing w with
  | nil => rfl
  | cons v vs ih =>
    simp only [List.cons_append, writeBits]
    cases writeBit cap v true w with
    | error e => rfl
    | ok w1 => exact ih w1

/-! ### Bytes -/

theorem Writer.appendedBytes_nil (w : Writer) : w.AppendedBytes [] w :=
  ⟨rfl, rfl, rfl, fun a => by simp⟩

/-- Bytes that fit are emitted (R101). -/
theorem emitAll_appended {cap : Nat} (hcap : cap < 2 ^ 32) (bytes : List Byte) (dirty : Bool)
    (w : Writer) (hw : Memory.wf w.obuf = true) (hfit : w.outLen.toNat + bytes.length ≤ cap) :
    ∃ w', emitAll cap bytes dirty w = .ok w' ∧ w.AppendedBytes bytes w' ∧
      Memory.wf w'.obuf = true := by
  induction bytes generalizing dirty w with
  | nil => exact ⟨w, rfl, w.appendedBytes_nil, hw⟩
  | cons b bs ih =>
    rw [List.length_cons] at hfit
    have hlt : w.outLen.toNat < cap := by omega
    obtain ⟨w', e, ⟨a1, a2, a3, a4⟩, hw'⟩ :=
      ih true (w.push b) (Memory.wf_set hw _ _)
        (by simp only [Writer.push_outLen, outLen_succ hcap hlt]; omega)
    simp only [Writer.push_outLen, Writer.push_obuf, outLen_succ hcap hlt] at a3 a4
    refine ⟨w', by simp [emitAll, emit_of_lt hlt, e], ⟨a1, a2, ?_, ?_⟩, hw'⟩
    · rw [a3, List.length_cons]; omega
    · intro a
      rw [a4 a, Memory.get_set hw]
      by_cases h1 : a = w.outLen.toNat
      · subst h1; simp
      · by_cases h2 : w.outLen.toNat + 1 ≤ a
        · obtain ⟨d, rfl⟩ : ∃ d, a = w.outLen.toNat + (d + 1) :=
            ⟨a - w.outLen.toNat - 1, by omega⟩
          have e1 : w.outLen.toNat + (d + 1) - (w.outLen.toNat + 1) = d := by omega
          have e2 : w.outLen.toNat + (d + 1) - w.outLen.toNat = d + 1 := by omega
          rw [if_pos h2, if_neg h1, if_pos (by omega), e1, e2, List.getElem?_cons_succ]
        · rw [if_neg h2, if_neg h1, if_neg (by omega)]

/-- Bytes that do not fit overflow (R101). -/
theorem emitAll_overflow {cap : Nat} (hcap : cap < 2 ^ 32) (bytes : List Byte) (dirty : Bool)
    (w : Writer) (hfit : cap < w.outLen.toNat + bytes.length) (hne : bytes ≠ []) :
    ∃ d, emitAll cap bytes dirty w = .error (.raise .outputOverflow d) := by
  induction bytes generalizing dirty w with
  | nil => exact absurd rfl hne
  | cons b bs ih =>
    rcases emit_cases cap b dirty w with ⟨h, e⟩ | ⟨h, e⟩
    · exact ⟨dirty, by simp [emitAll, e]⟩
    · rw [List.length_cons] at hfit
      have hbs : bs ≠ [] := by rintro rfl; simp at hfit; omega
      obtain ⟨d, hd⟩ := ih true (w.push b)
        (by simp only [Writer.push_outLen, outLen_succ hcap h]; omega) hbs
      exact ⟨d, by simp [emitAll, e, hd]⟩

end Sys2Proof.Machine
end

