-- ==== Sys2Proof/Laws/Format.lean ====
section
/-! SUPPORT. The compressed format as the writer makes it (R71 to R77): the header with its two fields
filled in afterwards, and the payload with its padded last byte. -/

namespace Sys2Proof.Machine

/-! ### Errors after a first write -/

theorem emitAll_error_dirty {cap : Nat} {bytes : List Byte} {w : Writer} {stop : Stop}
    (h : emitAll cap bytes true w = .error stop) : stop = .raise .outputOverflow true := by
  induction bytes generalizing w with
  | nil => cases h
  | cons b bs ih =>
    rcases emit_cases cap b true w with ⟨-, e⟩ | ⟨-, e⟩
    · simp only [emitAll, e] at h; cases h; rfl
    · simp only [emitAll, e] at h; exact ih h

/-- What `emit` of several bytes raises as a command's first write: the first byte finds OBUF full, or a
later one does, after a write. -/
theorem emitAll_error {cap : Nat} {bytes : List Byte} {w : Writer} {stop : Stop}
    (h : emitAll cap bytes false w = .error stop) :
    stop = .raise .outputOverflow (decide (w.outLen.toNat < cap)) := by
  cases bytes with
  | nil => cases h
  | cons b bs =>
    rcases emit_cases cap b false w with ⟨hc, e⟩ | ⟨hc, e⟩
    · simp only [emitAll, e] at h; cases h; simp [Nat.not_lt.2 hc]
    · simp only [emitAll, e] at h; rw [emitAll_error_dirty h]; simp [hc]

theorem writeBits_error_dirty {cap : Nat} {bits : List Bool} {w : Writer} {stop : Stop}
    (h : writeBits cap bits true w = .error stop) : stop = .raise .outputOverflow true := by
  induction bits generalizing w with
  | nil => cases h
  | cons v vs ih =>
    rcases writeBit_cases cap v true w with ⟨-, e⟩ | ⟨-, -, e⟩ | ⟨-, -, e⟩
    · simp only [writeBits, e] at h; exact ih h
    · simp only [writeBits, e] at h; exact ih h
    · simp only [writeBits, e] at h; cases h; rfl

/-- `write_bit` fails at the eighth bit of a byte that finds OBUF full, with BW_ACC assigned where the
bit is 1. -/
theorem writeBit_error {cap : Nat} {v dirty : Bool} {w : Writer} {stop : Stop}
    (h : writeBit cap v dirty w = .error stop) :
    w.cnt = 7 ∧ cap ≤ w.outLen.toNat ∧ stop = .raise .outputOverflow (dirty || v) := by
  rcases writeBit_cases cap v dirty w with ⟨-, e⟩ | ⟨-, -, e⟩ | ⟨h7, hc, e⟩
  · rw [e] at h; cases h
  · rw [e] at h; cases h
  · rw [e] at h; cases h; exact ⟨h7, hc, rfl⟩

/-- What a bit string raises as a command's first write: nothing is written before it only where its
first bit is a 0 that finds OBUF full. -/
theorem writeBits_error {cap : Nat} {bits : List Bool} {w : Writer} {stop : Stop}
    (h : writeBits cap bits false w = .error stop) :
    bits ≠ [] ∧ ∃ d, stop = .raise .outputOverflow d ∧
      (d = false ↔ w.cnt = 7 ∧ bits.head? = some false ∧ cap ≤ w.outLen.toNat) := by
  cases bits with
  | nil => cases h
  | cons v vs =>
    simp only [writeBits] at h
    split at h
    · rename_i e he
      cases h
      obtain ⟨h7, hc, rfl⟩ := writeBit_error he
      exact ⟨by simp, v, rfl, by simp [h7, hc]⟩
    · rename_i w' he
      refine ⟨by simp, true, writeBits_error_dirty h, ?_⟩
      simp only [Bool.true_eq_false, List.head?_cons, Option.some.injEq, false_iff, not_and]
      rintro h7 rfl hc
      rcases writeBit_cases cap false false w with ⟨h, -⟩ | ⟨-, h, -⟩ | ⟨-, -, e⟩
      · exact h h7
      · omega
      · rw [e] at he; cases he

theorem leadingBits_head {value : Word} {n : Nat} (h : leadingBits value n ≠ []) :
    (leadingBits value n).head? = some value.msb := by
  cases n with
  | zero => exact absurd rfl h
  | succ n => rw [leadingBits, List.range_succ_eq_map, List.map_cons, List.head?_cons]; rfl

/-- Everything the body of BW_FINISH can answer (R107). -/
theorem flushByte_cases (cap : Nat) (dirty : Bool) (w : Writer) :
    (w.cnt = 0 ∧ flushByte cap dirty w = .ok w.clearByte) ∨
    (w.cnt ≠ 0 ∧ w.outLen.toNat < cap ∧ flushByte cap dirty w = .ok (w.push w.acc).clearByte) ∨
    (w.cnt ≠ 0 ∧ cap ≤ w.outLen.toNat ∧
      flushByte cap dirty w = .error (.raise .outputOverflow dirty)) := by
  by_cases h : w.cnt = 0
  · exact .inl ⟨h, if_pos h⟩
  · rcases emit_cases cap w.acc dirty w with ⟨hc, e⟩ | ⟨hc, e⟩
    · exact .inr (.inr ⟨h, hc, by simp only [flushByte, h, if_false, e]⟩)
    · exact .inr (.inl ⟨h, hc, by simp only [flushByte, h, if_false, e]⟩)

/-! ### The header -/

@[simp] theorem le32Bytes_length (w : Word) : (le32Bytes w).length = 4 := rfl

theorem headerBytes_length (orig : Word) (t : HTree) :
    (headerBytes orig t).length = 8 + t.serialize.length := by
  simp only [headerBytes, List.length_append, le32Bytes_length]

/-- WRITE_HEADER on a buffer with room (R98). -/
theorem writeHeader_ok {cap : Nat} (hcap : cap < 2 ^ 32) (orig : Word) (t : HTree) (w : Writer)
    (hw : Memory.wf w.obuf = true) (hfit : 8 + t.serialize.length ≤ cap) :
    ∃ w', writeHeader cap orig t w = .ok w' ∧ w'.cnt = 0 ∧ w'.acc = 0 ∧
      w'.outLen = BitVec.ofNat 32 (8 + t.serialize.length) ∧ Memory.wf w'.obuf = true ∧
      ∀ a, w'.obuf.get a = ((headerBytes orig t)[a]?).or (w.obuf.get a) := by
  have hlen : (List.replicate 8 (0x00 : Byte) ++ t.serialize).length = 8 + t.serialize.length := by
    rw [List.length_append, List.length_replicate]
  obtain ⟨w0, hw0, h00, h01, h02, h03⟩ : ∃ w0 : Writer, w0 = { w.clearByte with outLen := 0 } ∧
      w0.outLen.toNat = 0 ∧ w0.cnt = 0 ∧ w0.acc = 0 ∧ w0.obuf = w.obuf := ⟨_, rfl, rfl, rfl, rfl, rfl⟩
  obtain ⟨w1, e, ⟨h1, h2, h3, h4⟩, hw1⟩ := emitAll_appended hcap (List.replicate 8 0x00 ++ t.serialize)
    true w0 (by rw [h03]; exact hw) (by rw [h00, hlen]; omega)
  rw [h01] at h1
  rw [h02] at h2
  rw [h00, hlen, Nat.zero_add] at h3
  rw [h00, h03] at h4
  have h3' : w1.outLen = BitVec.ofNat 32 (8 + t.serialize.length) := by
    apply BitVec.eq_of_toNat_eq
    rw [h3, BitVec.toNat_ofNat, Nat.mod_eq_of_lt (by omega)]
  refine ⟨{ w1 with obuf := (w1.obuf.setRange 0 (le32Bytes w1.outLen)).setRange 4 (le32Bytes orig) },
    by rw [writeHeader, ← hw0, e], h1, h2, h3',
    Memory.wf_setRange (Memory.wf_setRange hw1 _ _) _ _, ?_⟩
  intro a
  have l1 : (le32Bytes w1.outLen).length = 4 := rfl
  have l2 : (le32Bytes orig).length = 4 := rfl
  simp only [Memory.get_setRange (Memory.wf_setRange hw1 _ _), Memory.get_setRange hw1]
  have hb : headerBytes orig t = le32Bytes w1.outLen ++ (le32Bytes orig ++ t.serialize) := by
    rw [h3', headerBytes, List.append_assoc]
  have hsome : ∀ (l : List Byte) (k : Nat) (o : Option Byte), k < l.length → (l[k]?).or o = l[k]? := by
    intro l k o hk
    rw [List.getElem?_eq_getElem hk]; rfl
  by_cases ha : a < 8
  · have hl : a < (headerBytes orig t).length := by rw [headerBytes_length]; omega
    rw [hsome _ _ _ hl, hb]
    by_cases ha4 : a < 4
    · rw [if_neg (by omega), if_pos (by omega), List.getElem?_append_left (by simpa using ha4)]
      rfl
    · rw [if_pos (by omega), List.getElem?_append_right (by simp; omega),
        List.getElem?_append_left (by simp; omega)]
      rfl
  · rw [if_neg (by omega), if_neg (by omega), h4 a, if_pos (Nat.zero_le _), hb]
    rw [Nat.sub_zero, List.getElem?_append_right (by simp; omega),
      List.getElem?_append_right (by simp; omega), List.getElem?_append_right (by simp; omega)]
    simp only [List.length_replicate, le32Bytes_length, Nat.sub_sub]

/-- WRITE_HEADER on a buffer without room (R98). -/
theorem writeHeader_overflow {cap : Nat} (hcap : cap < 2 ^ 32) (orig : Word) (t : HTree) (w : Writer)
    (hfit : cap < 8 + t.serialize.length) :
    writeHeader cap orig t w = .error (.raise .outputOverflow true) := by
  obtain ⟨d, hd⟩ := emitAll_overflow hcap (List.replicate 8 0x00 ++ t.serialize) true
    { w.clearByte with outLen := 0 } (by
      rw [List.length_append, List.length_replicate]
      show cap < 0 + _
      omega) (by simp)
  have := emitAll_error_dirty hd
  simp only [writeHeader, hd, this]

theorem writeHeader_error {cap : Nat} {orig : Word} {t : HTree} {w : Writer} {stop : Stop}
    (h : writeHeader cap orig t w = .error stop) : stop = .raise .outputOverflow true := by
  unfold writeHeader at h
  split at h
  · rename_i e he
    cases h; exact emitAll_error_dirty he
  · cases h

/-! ### The payload -/

theorem payloadBytes_length (bits : List Bool) : (payloadBytes bits).length = (bits.length + 7) / 8 := by
  simp [payloadBytes]

theorem payloadBytes_getElem? (bits : List Bool) (j : Nat) :
    (payloadBytes bits)[j]? = if j < (bits.length + 7) / 8 then some (streamByte bits j) else none := by
  by_cases h : j < (bits.length + 7) / 8
  · rw [if_pos h, List.getElem?_eq_getElem (by rw [payloadBytes_length]; exact h)]
    simp [payloadBytes]
  · rw [if_neg h, List.getElem?_eq_none (by rw [payloadBytes_length]; omega)]

/-- A byte-aligned writer given a bit string and finished (R76, R77, R107). -/
theorem payload_written {cap : Nat} (hcap : cap < 2 ^ 32) (bits : List Bool) (w : Writer)
    (hcnt : w.cnt = 0) (hacc : w.acc = 0) (hw : Memory.wf w.obuf = true)
    (hfit : w.outLen.toNat + (bits.length + 7) / 8 ≤ cap) :
    ∃ w1 w2, writeBits cap bits true w = .ok w1 ∧ flushByte cap true w1 = .ok w2 ∧
      w.AppendedBytes (payloadBytes bits) w2 ∧ Memory.wf w2.obuf = true := by
  have h0 : w.cnt.toNat = 0 := by rw [hcnt]; rfl
  have hr : w.Ready := ⟨by rw [Writer.Clean, hacc, h0]; rfl, hw⟩
  obtain ⟨w1, e1, ⟨c1, a1, o1, g1⟩, hr1⟩ := writeBits_appended hcap bits true w hr (by omega)
  have hpend : w.pendingBits = [] := by simp [Writer.pendingBits, h0]
  rw [hpend, List.nil_append] at c1 a1 o1 g1
  have hlen := payloadBytes_length bits
  have hgoal : ∀ w2 : Writer, w2.cnt = 0 → w2.acc = 0 →
      w2.outLen.toNat = w.outLen.toNat + (bits.length + 7) / 8 →
      (∀ a, w2.obuf.get a = if w.outLen.toNat ≤ a ∧ a < w.outLen.toNat + (bits.length + 7) / 8 then
        some (streamByte bits (a - w.outLen.toNat)) else w.obuf.get a) →
      w.AppendedBytes (payloadBytes bits) w2 := by
    intro w2 h1 h2 h3 h4
    refine ⟨by rw [h1, hcnt], by rw [h2, hacc], by rw [h3, hlen], ?_⟩
    intro a
    rw [h4 a, payloadBytes_getElem?]
    by_cases ha : w.outLen.toNat ≤ a
    · by_cases hb : a < w.outLen.toNat + (bits.length + 7) / 8
      · rw [if_pos ⟨ha, hb⟩, if_pos ha, if_pos (by omega)]; rfl
      · rw [if_neg (by omega), if_pos ha, if_neg (by omega)]; rfl
    · rw [if_neg (by omega), if_neg ha]
  rcases flushByte_cases cap true w1 with ⟨hc, e2⟩ | ⟨hc, hlt, e2⟩ | ⟨hc, hge, e2⟩
  · have hc0 : w1.cnt.toNat = 0 := by rw [hc]; rfl
    refine ⟨w1, _, e1, e2, hgoal _ rfl rfl ?_ ?_, hr1.wf⟩
    · rw [Writer.clearByte_outLen, o1]; omega
    · intro a
      have hd : bits.length / 8 = (bits.length + 7) / 8 := by omega
      rw [Writer.clearByte_obuf, g1 a, hd]
  · have hc0 : w1.cnt.toNat ≠ 0 := fun h => hc (BitVec.eq_of_toNat_eq (by simpa using h))
    have hd : bits.length / 8 + 1 = (bits.length + 7) / 8 := by omega
    refine ⟨w1, _, e1, e2, hgoal _ rfl rfl ?_ ?_, ?_⟩
    · rw [Writer.clearByte_outLen, Writer.push_outLen, outLen_succ hcap hlt, o1]; omega
    · intro a
      rw [Writer.clearByte_obuf, Writer.push_obuf, Memory.get_set hr1.wf, g1 a, o1]
      by_cases ha : a = w.outLen.toNat + bits.length / 8
      · rw [if_pos ha, if_pos (by omega), a1, ha, Nat.add_sub_cancel_left]
      · rw [if_neg ha]
        by_cases hb : w.outLen.toNat ≤ a ∧ a < w.outLen.toNat + bits.length / 8
        · rw [if_pos hb, if_pos (by omega)]
        · rw [if_neg hb, if_neg (by omega)]
    · exact Memory.wf_set hr1.wf _ _
  · exfalso
    have hc0 : w1.cnt.toNat ≠ 0 := fun h => hc (BitVec.eq_of_toNat_eq (by simpa using h))
    omega

/-- A payload without room ends with OUTPUT_OVERFLOW, in its bits or in the last, padded byte. -/
theorem payload_overflow {cap : Nat} (hcap : cap < 2 ^ 32) (bits : List Bool) (w : Writer)
    (hcnt : w.cnt = 0) (hacc : w.acc = 0) (hw : Memory.wf w.obuf = true) (ho : w.outLen.toNat ≤ cap)
    (hfit : cap < w.outLen.toNat + (bits.length + 7) / 8) :
    writeBits cap bits true w = .error (.raise .outputOverflow true) ∨
    ∃ w1, writeBits cap bits true w = .ok w1 ∧
      flushByte cap true w1 = .error (.raise .outputOverflow true) := by
  have h0 : w.cnt.toNat = 0 := by rw [hcnt]; rfl
  by_cases hb : cap < w.outLen.toNat + bits.length / 8
  · obtain ⟨d, e⟩ := writeBits_overflow hcap bits true w (by rw [h0, Nat.zero_add]; exact hb) (by omega)
    exact .inl (e.trans (congrArg _ (writeBits_error_dirty e)))
  · have hr : w.Ready := ⟨by rw [Writer.Clean, hacc, h0]; rfl, hw⟩
    obtain ⟨w1, e1, ⟨c1, -, o1, -⟩, -⟩ := writeBits_appended hcap bits true w hr (by omega)
    have hpend : w.pendingBits = [] := by simp [Writer.pendingBits, h0]
    rw [hpend, List.nil_append] at c1 o1
    refine .inr ⟨w1, e1, ?_⟩
    rcases flushByte_cases cap true w1 with ⟨hc, -⟩ | ⟨-, hlt, -⟩ | ⟨-, -, e2⟩
    · have hc0 : w1.cnt.toNat = 0 := by rw [hc]; rfl
      omega
    · omega
    · exact e2

end Sys2Proof.Machine
end

