-- ==== Sys2Proof/Laws/Reader.lean ====
section
/-! SUPPORT. The bit-stream reader: what read_bit answers, said once, and reading a whole bit string
(R108, R109). -/

namespace Sys2Proof.Machine

/-- Everything read_bit can answer (R109). -/
theorem readBit_cases (ibuf : Memory) (dirty : Bool) (r : Reader) :
    (r.limit.toNat ≤ r.pos.toNat ∧ readBit ibuf dirty r = .error (.raise .endOfStream dirty)) ∨
    (r.pos.toNat < r.limit.toNat ∧ ibuf.get r.pos.toNat = none ∧
      readBit ibuf dirty r = .error (.fault (.ibufUnwritten r.pos.toNat))) ∨
    (r.pos.toNat < r.limit.toNat ∧ ∃ b, ibuf.get r.pos.toNat = some b ∧
      readBit ibuf dirty r = .ok (streamBit b r.bit, r.advance)) := by
  by_cases h : r.limit.toNat ≤ r.pos.toNat
  · exact .inl ⟨h, if_pos h⟩
  · cases hg : ibuf.get r.pos.toNat with
    | none =>
      refine .inr (.inl ⟨by omega, rfl, ?_⟩)
      simp only [readBit, h, if_false, memRead, hg]
    | some b =>
      refine .inr (.inr ⟨by omega, b, rfl, ?_⟩)
      simp only [readBit, h, if_false, memRead, hg]

/-- The stream position p of a byte is its p-th bit from the top (R13). -/
theorem streamBit_eq : ∀ (b : Byte) (p : BitVec 3), streamBit b p = b.getMsbD p.toNat := by
  decide +kernel

@[simp] theorem Reader.advance_limit (r : Reader) : r.advance.limit = r.limit := by
  unfold Reader.advance; split <;> rfl

/-- A bit moves the cursors on by one, where BR_POS has room (R109). -/
theorem Reader.advance_movedBy {r : Reader} (h : r.pos.toNat < r.limit.toNat) :
    r.MovedBy 1 r.advance := by
  have hl := r.limit.isLt
  have hb := r.bit.isLt
  refine ⟨r.advance_limit, ?_⟩
  by_cases h7 : r.bit = 7
  · have h7' : r.bit.toNat = 7 := by rw [h7]; rfl
    have hp : (r.pos + 1).toNat = r.pos.toNat + 1 := by
      rw [BitVec.toNat_add]; exact Nat.mod_eq_of_lt (by simp; omega)
    simp only [Reader.advance, h7, if_true, hp]
    exact ⟨rfl, rfl⟩
  · have h7' : r.bit.toNat ≠ 7 := fun e => h7 (BitVec.eq_of_toNat_eq (by simpa using e))
    have hp : (r.bit + 1).toNat = r.bit.toNat + 1 := by
      rw [BitVec.toNat_add]; exact Nat.mod_eq_of_lt (by simp; omega)
    simp only [Reader.advance, h7, if_false, hp]
    omega

theorem Reader.movedBy_zero (r : Reader) : r.MovedBy 0 r := by
  have hb := r.bit.isLt
  refine ⟨rfl, ?_⟩
  omega

theorem Reader.MovedBy.trans {r r1 r2 : Reader} {m n : Nat} (h1 : r.MovedBy m r1)
    (h2 : r1.MovedBy n r2) : r.MovedBy (m + n) r2 := by
  obtain ⟨l1, b1, p1⟩ := h1
  obtain ⟨l2, b2, p2⟩ := h2
  refine ⟨by rw [l2, l1], ?_, ?_⟩
  · rw [b2, b1]; omega
  · rw [p2, p1, b1]; omega

/-- A move of m + n bits whose first m are r1's goes on from r1. -/
theorem Reader.MovedBy.rest {r r1 r2 : Reader} {m n : Nat} (h1 : r.MovedBy m r1)
    (h2 : r.MovedBy (m + n) r2) : r1.MovedBy n r2 := by
  obtain ⟨l1, b1, p1⟩ := h1
  obtain ⟨l2, b2, p2⟩ := h2
  exact ⟨l2.trans l1.symm, by omega, by omega⟩

theorem Reader.MovedBy.eq {r r1 r2 : Reader} {n : Nat} (h1 : r.MovedBy n r1) (h2 : r.MovedBy n r2) :
    r1 = r2 := by
  obtain ⟨l1, b1, p1⟩ := h1
  obtain ⟨l2, b2, p2⟩ := h2
  cases r1; cases r2
  simp only at *
  rw [l1, l2, BitVec.eq_of_toNat_eq (b1.trans b2.symm), BitVec.eq_of_toNat_eq (p1.trans p2.symm)]

/-- After n bits the reader gives what came after them. -/
theorem Reader.Gives.drop {r r1 : Reader} {ibuf : Memory} {xs ys : List Bool}
    (h : r.Gives ibuf (xs ++ ys)) (hm : r.MovedBy xs.length r1) : r1.Gives ibuf ys := by
  intro j hj
  obtain ⟨l1, b1, p1⟩ := hm
  have := h (xs.length + j) (by simp only [List.length_append]; omega)
  rw [List.getElem_append_right (by omega)] at this
  simp only [Nat.add_sub_cancel_left] at this
  have e1 : r1.pos.toNat + (r1.bit.toNat + j) / 8 = r.pos.toNat + (r.bit.toNat + (xs.length + j)) / 8 := by
    rw [p1, b1]; omega
  have e2 : (r1.bit.toNat + j) % 8 = (r.bit.toNat + (xs.length + j)) % 8 := by rw [b1]; omega
  rw [e1, e2, l1]; exact this

theorem Reader.Gives.take {r : Reader} {ibuf : Memory} {xs ys : List Bool}
    (h : r.Gives ibuf (xs ++ ys)) : r.Gives ibuf xs := by
  intro j hj
  have := h j (by simp only [List.length_append]; omega)
  rwa [List.getElem_append_left hj] at this

/-- Reading the first bit of what the reader gives. -/
theorem readBit_gives {ibuf : Memory} {dirty : Bool} {r : Reader} {b : Bool} {bs : List Bool}
    (h : r.Gives ibuf (b :: bs)) :
    readBit ibuf dirty r = .ok (b, r.advance) ∧ r.MovedBy 1 r.advance ∧ r.advance.Gives ibuf bs := by
  have hb := r.bit.isLt
  have h0 := h 0 (by simp)
  rw [Nat.add_zero, Nat.div_eq_of_lt hb, Nat.mod_eq_of_lt hb, Nat.add_zero,
    List.getElem_cons_zero] at h0
  obtain ⟨hlt, byte, hg, hbit⟩ := h0
  have hm := Reader.advance_movedBy hlt
  refine ⟨?_, hm, Reader.Gives.drop (xs := [b]) h hm⟩
  rcases readBit_cases ibuf dirty r with ⟨hle, -⟩ | ⟨-, hn, -⟩ | ⟨-, b', hg', e⟩
  · omega
  · rw [hn] at hg; cases hg
  · rw [hg'] at hg; cases hg
    rw [e, streamBit_eq, hbit]

/-- The bits of a packed byte are those it was packed from. -/
theorem packByte_getMsbD (bits : List Bool) (k : Nat) (hk : k < bits.length) (hk8 : k < 8) :
    (packByte bits).getMsbD k = bits[k] := by
  induction bits generalizing k with
  | nil => simp at hk
  | cons x xs ih =>
    cases k with
    | zero => cases x <;> simp [packByte, BitVec.getMsbD_or, BitVec.getMsbD_ushiftRight]
    | succ k =>
      have hx : ∀ (x : Bool) (k : Fin 7),
          (if x then (0x80 : Byte) else 0).getMsbD (k.val + 1) = false := by decide
      have ih := ih k (by simpa using hk) (by omega)
      have hlt : ¬k + 1 < 1 := by omega
      rw [packByte, BitVec.getMsbD_or, hx x ⟨k, by omega⟩, BitVec.getMsbD_ushiftRight]
      simp [hlt, hk8, ih]

/-- A reader at the start of a byte gives the bits of the bytes it stands on, as far as its extent
reaches. -/
theorem Reader.gives_of_bytes {r : Reader} {ibuf : Memory} {bits : List Bool} (hbit : r.bit = 0)
    (hb : HoldsBytes ibuf r.pos.toNat (payloadBytes bits))
    (hl : r.pos.toNat + (bits.length + 7) / 8 ≤ r.limit.toNat) : r.Gives ibuf bits := by
  intro j hj
  have h0 : r.bit.toNat = 0 := by rw [hbit]; rfl
  have hlen : (payloadBytes bits).length = (bits.length + 7) / 8 := by simp [payloadBytes]
  rw [h0, Nat.zero_add]
  refine ⟨by omega, streamByte bits (j / 8), ?_, ?_⟩
  · have := hb (j / 8) (by omega)
    rw [this]
    simp [payloadBytes]
  · have hk : j % 8 < ((bits.drop (8 * (j / 8))).take 8).length := by
      simp only [List.length_take, List.length_drop]; omega
    rw [streamByte, packByte_getMsbD _ _ hk (Nat.mod_lt _ (by decide))]
    simp only [List.getElem_take, List.getElem_drop]
    congr 1; omega

end Sys2Proof.Machine
end

