-- ==== Sys2Proof/Laws/Walk.lean ====
section
/-! SUPPORT. The decoder's walk follows the path of a leaf (R116), and the walk of a sequence of
symbols follows their codes one after another (R118, R120). -/

namespace Sys2Proof.Machine

/-! ### Paths -/

theorem HTree.paths_acc (t : HTree) (c : List Bool) :
    t.paths c = (t.paths []).map (fun e => (e.1, c ++ e.2)) := by
  induction t generalizing c with
  | leaf s => simp [HTree.paths]
  | node l r ihl ihr =>
    simp only [HTree.paths, List.nil_append, List.map_append]
    rw [ihl (c ++ [false]), ihr (c ++ [true]), ihl [false], ihr [true]]
    simp [Function.comp_def]

theorem HTree.mem_paths_leaf {s x : Byte} {p : List Bool} :
    (s, p) ∈ (HTree.leaf x).paths [] ↔ s = x ∧ p = [] := by
  simp [HTree.paths]

/-- A path of an Internal node starts with the bit of a child (R87). -/
theorem HTree.mem_paths_node {l r : HTree} {s : Byte} {p : List Bool} :
    (s, p) ∈ (HTree.node l r).paths [] ↔
      ∃ v p', p = v :: p' ∧ (s, p') ∈ HTree.paths (if v then r else l) [] := by
  have hmem : ∀ (t : HTree) (v : Bool), (s, p) ∈ t.paths [v] ↔ ∃ p', p = v :: p' ∧ (s, p') ∈ t.paths [] := by
    intro t v
    rw [HTree.paths_acc]
    simp only [List.mem_map, Prod.mk.injEq]
    constructor
    · rintro ⟨⟨s', p'⟩, hm, rfl, rfl⟩
      exact ⟨p', rfl, hm⟩
    · rintro ⟨p', rfl, hm⟩
      exact ⟨(s, p'), hm, rfl, rfl⟩
  simp only [HTree.paths, List.nil_append, List.mem_append, hmem]
  constructor
  · rintro (⟨p', rfl, h⟩ | ⟨p', rfl, h⟩)
    · exact ⟨false, p', rfl, h⟩
    · exact ⟨true, p', rfl, h⟩
  · rintro ⟨v, p', rfl, h⟩
    cases v
    · exact .inl ⟨p', rfl, h⟩
    · exact .inr ⟨p', rfl, h⟩

/-- A path is at most as long as the tree is deep, and some leaf has a path of that length. -/
theorem HTree.paths_length_le {t : HTree} {s : Byte} {p : List Bool} (h : (s, p) ∈ t.paths []) :
    p.length ≤ t.depth := by
  induction t generalizing p with
  | leaf x => obtain ⟨-, rfl⟩ := HTree.mem_paths_leaf.1 h; simp [HTree.depth]
  | node l r ihl ihr =>
    obtain ⟨v, p', rfl, h'⟩ := HTree.mem_paths_node.1 h
    cases v
    · have := ihl h'
      simp only [List.length_cons, HTree.depth]; omega
    · have := ihr h'
      simp only [List.length_cons, HTree.depth]; omega

theorem HTree.exists_deepest (t : HTree) : ∃ s p, (s, p) ∈ t.paths [] ∧ p.length = t.depth := by
  induction t with
  | leaf x => exact ⟨x, [], by simp [HTree.paths], rfl⟩
  | node l r ihl ihr =>
    obtain ⟨sl, pl, hl, el⟩ := ihl
    obtain ⟨sr, pr, hr, er⟩ := ihr
    by_cases h : l.depth ≤ r.depth
    · refine ⟨sr, true :: pr, HTree.mem_paths_node.2 ⟨true, pr, rfl, hr⟩, ?_⟩
      simp only [List.length_cons, HTree.depth]; omega
    · refine ⟨sl, false :: pl, HTree.mem_paths_node.2 ⟨false, pl, rfl, hl⟩, ?_⟩
      simp only [List.length_cons, HTree.depth]; omega

/-- The leaves of a tree are the symbols of its paths, in the same order. -/
theorem HTree.paths_symbols (t : HTree) (c : List Bool) : (t.paths c).map Prod.fst = t.leaves := by
  induction t generalizing c with
  | leaf s => rfl
  | node l r ihl ihr => simp only [HTree.paths, List.map_append, ihl, ihr, HTree.leaves]

/-- No path is a prefix of another (R89). -/
theorem HTree.paths_prefix_free {t : HTree} {s s' : Byte} {p p' : List Bool}
    (h : (s, p) ∈ t.paths []) (h' : (s', p') ∈ t.paths []) (hp : p <+: p') : p = p' ∧ s = s' := by
  induction t generalizing p p' with
  | leaf x =>
    obtain ⟨rfl, rfl⟩ := HTree.mem_paths_leaf.1 h
    obtain ⟨rfl, rfl⟩ := HTree.mem_paths_leaf.1 h'
    exact ⟨rfl, rfl⟩
  | node l r ihl ihr =>
    obtain ⟨v, q, rfl, hq⟩ := HTree.mem_paths_node.1 h
    obtain ⟨v', q', rfl, hq'⟩ := HTree.mem_paths_node.1 h'
    obtain ⟨rfl, hpre⟩ := List.cons_prefix_cons.1 hp
    cases v
    · obtain ⟨rfl, rfl⟩ := ihl hq hq' hpre; exact ⟨rfl, rfl⟩
    · obtain ⟨rfl, rfl⟩ := ihr hq hq' hpre; exact ⟨rfl, rfl⟩

/-! ### The walk -/

variable {nodes : Vector Node nodeMax} {ibuf : Memory}

/-- What an index holds, as a walk sees it. -/
theorem Holds.nodeAt_leaf {i : NodeIdx} {x : Byte} {L : List Nat}
    (h : Holds nodes i.toNat (.leaf x) L) :
    ∃ n, nodeAt nodes i = some n ∧ n.isLeaf = true ∧ n.symbol = x := by
  generalize hi : i.toNat = k at h
  generalize ht : HTree.leaf x = t at h
  cases h with
  | leaf entry hl => cases ht; exact ⟨_, by rw [nodeAt, hi]; exact entry, hl, rfl⟩
  | node => cases ht

theorem Holds.nodeAt_node {i : NodeIdx} {l r : HTree} {L : List Nat}
    (h : Holds nodes i.toNat (.node l r) L) :
    ∃ n Ll Lr, nodeAt nodes i = some n ∧ n.isLeaf = false ∧ Holds nodes n.left.toNat l Ll ∧
      Holds nodes n.right.toNat r Lr ∧ L = i.toNat :: (Ll ++ Lr) := by
  generalize hi : i.toNat = k at h
  generalize ht : HTree.node l r = t at h
  cases h with
  | leaf => cases ht
  | node entry hn hl hr => cases ht; exact ⟨_, _, _, by rw [nodeAt, hi]; exact entry, hn, hl, hr, rfl⟩

/-- One bit at a Leaf (the root of a one-leaf tree): its symbol, whatever the bit (R116). -/
theorem walkBit_leaf {i : NodeIdx} {x : Byte} {L : List Nat}
    (h : Holds nodes i.toNat (.leaf x) L) (v : Bool) : walkBit nodes i v = .ok (.inr x) := by
  obtain ⟨n, hn, hl, rfl⟩ := h.nodeAt_leaf
  simp [walkBit, hn, hl]

/-- One bit at an Internal node: the child it names (R116). -/
theorem walkBit_node {i : NodeIdx} {l r : HTree} {L : List Nat}
    (h : Holds nodes i.toNat (.node l r) L) (v : Bool) :
    ∃ (c : NodeIdx) (Lc : List Nat), Lc ⊆ L ∧ Holds nodes c.toNat (if v then r else l) Lc ∧
      walkBit nodes i v =
        match (if v then r else l) with
        | .leaf x => .ok (.inr x)
        | .node _ _ => .ok (.inl c) := by
  obtain ⟨n, Ll, Lr, hn, hl, h1, h2, hL⟩ := h.nodeAt_node
  have key : ∀ (c : NodeIdx) (t : HTree) (Lc : List Nat), Holds nodes c.toNat t Lc →
      (if v then n.right else n.left) = c →
      walkBit nodes i v = match t with | .leaf x => .ok (.inr x) | .node _ _ => .ok (.inl c) := by
    intro c t Lc hc he
    cases t with
    | leaf x =>
      obtain ⟨m, hm, hml, rfl⟩ := hc.nodeAt_leaf
      simp [walkBit, hn, hl, he, hm, hml]
    | node a b =>
      obtain ⟨m, _, _, hm, hml, -⟩ := hc.nodeAt_node
      simp [walkBit, hn, hl, he, hm, hml]
  cases v
  · exact ⟨n.left, Ll, by rw [hL]; intro x hx; simp [hx], h1, key _ _ _ h1 rfl⟩
  · exact ⟨n.right, Lr, by rw [hL]; intro x hx; simp [hx], h2, key _ _ _ h2 rfl⟩

/-- The walk follows a leaf's path (R116). -/
theorem walkLoop_path {t : HTree} {i : NodeIdx} {L : List Nat} (h : Holds nodes i.toNat t L)
    {s : Byte} {v : Bool} {p : List Bool} (hp : (s, v :: p) ∈ t.paths []) {fuel : Nat}
    (hf : p.length < fuel) (dirty : Bool) {r : Reader} (hg : r.Gives ibuf (v :: p)) :
    ∃ r', r.MovedBy (p.length + 1) r' ∧ walkLoop nodes ibuf fuel i dirty r = .ok (s, r') := by
  induction p generalizing t i L v fuel dirty r with
  | nil =>
    obtain ⟨f, rfl⟩ : ∃ f, fuel = f + 1 := ⟨fuel - 1, by omega⟩
    obtain ⟨e, hm, -⟩ := readBit_gives (dirty := dirty) hg
    cases t with
    | leaf x => simp [HTree.paths] at hp
    | node a b =>
      obtain ⟨v', p', he, hp'⟩ := HTree.mem_paths_node.1 hp
      cases he
      obtain ⟨c, Lc, -, hc, hw⟩ := walkBit_node h v
      refine ⟨r.advance, hm, ?_⟩
      simp only [walkLoop, e, hw]
      cases hx : (if v then b else a) with
      | leaf x =>
        rw [hx] at hp'
        obtain ⟨rfl, -⟩ := HTree.mem_paths_leaf.1 hp'
        rfl
      | node a' b' =>
        rw [hx] at hp'
        obtain ⟨_, _, hq, -⟩ := HTree.mem_paths_node.1 hp'
        cases hq
  | cons v2 p ih =>
    obtain ⟨f, rfl⟩ : ∃ f, fuel = f + 1 := ⟨fuel - 1, by omega⟩
    obtain ⟨e, hm, hg'⟩ := readBit_gives (dirty := dirty) hg
    cases t with
    | leaf x => simp [HTree.paths] at hp
    | node a b =>
      obtain ⟨v', p', he, hp'⟩ := HTree.mem_paths_node.1 hp
      cases he
      obtain ⟨c, Lc, -, hc, hw⟩ := walkBit_node h v
      obtain ⟨r', hm', e'⟩ := ih hc hp' (fuel := f) (by simp at hf; omega) true hg'
      refine ⟨r', ?_, ?_⟩
      · have := hm.trans hm'
        rwa [show 1 + (p.length + 1) = (v2 :: p).length + 1 by simp; omega] at this
      · cases hx : (if v then b else a) with
        | leaf x =>
          rw [hx] at hp'
          obtain ⟨-, hq⟩ := HTree.mem_paths_leaf.1 hp'
          cases hq
        | node a' b' =>
          rw [hx] at hw
          simp only [walkLoop, e, hw, e']

/-- What a reader gives lies within the bits it has left. -/
theorem Reader.Gives.length_le {r : Reader} {bits : List Bool} (h : r.Gives ibuf bits) :
    bits.length ≤ r.bitsLeft := by
  by_cases h0 : bits.length = 0
  · omega
  · have := (h (bits.length - 1) (by omega)).1
    unfold Reader.bitsLeft
    omega

/-- `decode_sym` on the code of a symbol: the symbol, and the reader after its code (R116). -/
theorem decodeSym_code {a : Arena} {t : HTree} {L : List Nat} (h : Holds a.nodes a.root.toNat t L)
    {s : Byte} {p : List Bool} (hp : (s, p) ∈ t.codes) (dirty : Bool) {r : Reader}
    (hg : r.Gives ibuf p) :
    ∃ r', r.MovedBy p.length r' ∧ decodeSym a ibuf dirty r = .ok (s, r') := by
  cases t with
  | leaf x =>
    simp only [HTree.codes, List.mem_singleton, Prod.mk.injEq] at hp
    obtain ⟨rfl, rfl⟩ := hp
    obtain ⟨e, hm, -⟩ := readBit_gives (dirty := dirty) hg
    refine ⟨r.advance, hm, ?_⟩
    simp only [decodeSym, walkLoop, e, walkBit_leaf h]
  | node l r' =>
    have hp : (s, p) ∈ (HTree.node l r').paths [] := hp
    obtain ⟨v, q, rfl, -⟩ := HTree.mem_paths_node.1 hp
    have hlen := hg.length_le
    exact walkLoop_path h hp (by simp at hlen; omega) dirty hg

/-- A walk whose bits run out before its leaf stops with END_OF_STREAM, and what a command had drawn
stays drawn (R109, R116). -/
theorem walkLoop_stops {t : HTree} {i : NodeIdx} {L : List Nat} (h : Holds nodes i.toNat t L)
    {s : Byte} {p q : List Bool} (hp : (s, p ++ q) ∈ t.paths []) (hq : q ≠ []) (fuel : Nat)
    (dirty : Bool) {r r' : Reader} (hg : r.Gives ibuf p) (hm' : r.MovedBy p.length r')
    (hend : r'.limit.toNat ≤ r'.pos.toNat) :
    ∃ d, (dirty = true → d = true) ∧
      walkLoop nodes ibuf fuel i dirty r = .error (.raise .endOfStream d) := by
  induction p generalizing t i L fuel dirty r with
  | nil =>
    cases fuel with
    | zero => exact ⟨dirty, id, rfl⟩
    | succ f =>
      obtain ⟨h1, -, h3⟩ := hm'
      have hb := r.bit.isLt
      simp only [List.length_nil, Nat.add_zero, Nat.div_eq_of_lt hb] at h3
      rw [h1, h3] at hend
      exact ⟨dirty, id, by simp only [walkLoop, readBit, hend, if_true]⟩
  | cons v p ih =>
    cases fuel with
    | zero => exact ⟨dirty, id, rfl⟩
    | succ f =>
      obtain ⟨e, hm, hg'⟩ := readBit_gives (dirty := dirty) hg
      cases t with
      | leaf x => simp [HTree.paths] at hp
      | node a b =>
        obtain ⟨v', p', he, hp'⟩ := HTree.mem_paths_node.1 hp
        cases he
        obtain ⟨c, Lc, -, hc, hw⟩ := walkBit_node h v
        have hm2 : r.advance.MovedBy p.length r' := hm.rest (by rwa [Nat.add_comm])
        obtain ⟨d, hd, e'⟩ := ih hc hp' f true hg' hm2
        refine ⟨d, fun _ => hd rfl, ?_⟩
        cases hx : (if v then b else a) with
        | leaf x =>
          rw [hx] at hp'
          obtain ⟨-, hn⟩ := HTree.mem_paths_leaf.1 hp'
          simp [hq] at hn
        | node a' b' =>
          rw [hx] at hw
          simp only [walkLoop, e, hw, e']

/-- `decode_sym` with too few bits for the code of a symbol (R116). -/
theorem decodeSym_stops {a : Arena} {t : HTree} {L : List Nat} (h : Holds a.nodes a.root.toNat t L)
    {s : Byte} {p q : List Bool} (hp : (s, p ++ q) ∈ t.codes) (hq : q ≠ []) (dirty : Bool)
    {r r' : Reader} (hg : r.Gives ibuf p) (hm : r.MovedBy p.length r')
    (hend : r'.limit.toNat ≤ r'.pos.toNat) :
    ∃ d, (dirty = true → d = true) ∧
      decodeSym a ibuf dirty r = .error (.raise .endOfStream d) := by
  cases t with
  | leaf x =>
    simp only [HTree.codes, List.mem_singleton, Prod.mk.injEq] at hp
    obtain ⟨-, hpq⟩ := hp
    have hp0 : p = [] := by
      cases p with
      | nil => rfl
      | cons v p => simp [hq] at hpq
    subst hp0
    obtain ⟨h1, -, h3⟩ := hm
    have hb := r.bit.isLt
    simp only [List.length_nil, Nat.add_zero, Nat.div_eq_of_lt hb] at h3
    rw [h1, h3] at hend
    exact ⟨dirty, id, by simp only [decodeSym, walkLoop, readBit, hend, if_true]⟩
  | node l r2 => exact walkLoop_stops h hp hq _ dirty hg hm hend

/-! ### A sequence of symbols -/

/-- Symbols pushed one after another (R118). -/
theorem decodeMany_codes {a : Arena} {t : HTree} {L : List Nat}
    (h : Holds a.nodes a.root.toNat t L) (code : Byte → List Bool) (symbols : List Byte)
    (hc : ∀ s ∈ symbols, (s, code s) ∈ t.codes) (r : Reader)
    (hg : r.Gives ibuf (codeStream code symbols)) (w : Writer) :
    ∃ r', r.MovedBy (codeStream code symbols).length r' ∧
      decodeMany a ibuf symbols.length r w = .ok (r', symbols.foldl Writer.push w) := by
  induction symbols generalizing r w with
  | nil => exact ⟨r, r.movedBy_zero, rfl⟩
  | cons s ss ih =>
    have hg : r.Gives ibuf (code s ++ codeStream code ss) := hg
    obtain ⟨r1, hm1, e1⟩ := decodeSym_code h (hc s (by simp)) true hg.take
    obtain ⟨r2, hm2, e2⟩ := ih (fun x hx => hc x (by simp [hx])) r1 (hg.drop hm1) (w.push s)
    refine ⟨r2, ?_, ?_⟩
    · have := hm1.trans hm2
      rwa [← List.length_append] at this
    · simp only [List.length_cons, decodeMany, e1, e2, List.foldl_cons]

/-- Where more symbols are wanted than the bits give, the decoder stops with END_OF_STREAM (R118). -/
theorem decodeMany_stops {a : Arena} {t : HTree} {L : List Nat}
    (h : Holds a.nodes a.root.toNat t L) (code : Byte → List Bool) (symbols : List Byte)
    (hc : ∀ s ∈ symbols, (s, code s) ∈ t.codes) {x : Byte} {p q : List Bool}
    (hp : (x, p ++ q) ∈ t.codes) (hq : q ≠ []) {n : Nat} (hn : symbols.length < n) {r r' : Reader}
    (hg : r.Gives ibuf (codeStream code symbols ++ p))
    (hm : r.MovedBy (codeStream code symbols ++ p).length r')
    (hend : r'.limit.toNat ≤ r'.pos.toNat) (w : Writer) :
    decodeMany a ibuf n r w = .error (.raise .endOfStream true) := by
  obtain ⟨m, rfl⟩ : ∃ m, n = m + 1 := ⟨n - 1, by omega⟩
  induction symbols generalizing m r w with
  | nil =>
    obtain ⟨d, hd, e⟩ := decodeSym_stops h hp hq true hg hm hend
    obtain rfl := hd rfl
    simp only [decodeMany, e]
  | cons s ss ih =>
    have hg : r.Gives ibuf (code s ++ (codeStream code ss ++ p)) := by
      rw [← List.append_assoc]; exact hg
    have hm : r.MovedBy ((code s).length + (codeStream code ss ++ p).length) r' := by
      rw [← List.length_append, ← List.append_assoc]; exact hm
    obtain ⟨r1, hm1, e1⟩ := decodeSym_code h (hc s (by simp)) true hg.take
    simp only [List.length_cons] at hn
    obtain ⟨k, rfl⟩ : ∃ k, m = k + 1 := ⟨m - 1, by omega⟩
    rw [decodeMany, e1]
    exact ih (fun y hy => hc y (by simp [hy])) (hg.drop hm1) (hm1.rest hm) (w.push s) k (by omega)

end Sys2Proof.Machine
end

