-- ==== Sys2Proof/Laws/Codes.lean ====
section
/-! SUPPORT. The code table (R87 to R90): the left-aligned form of a bit string, and what BUILD_CODES
puts in the table. -/

namespace Sys2Proof.Machine

/-! ### The left-aligned form (R16) -/

theorem leftAlign_top (v : Bool) (k : Nat) :
    (if v then (0x80000000 : Word) else 0).getMsbD k = (v && k == 0) := by
  cases v
  · simp
  · by_cases h : k < 32
    · have : ∀ k : Fin 32, (0x80000000 : Word).getMsbD k.val = (k.val == 0) := by decide
      simpa using this ⟨k, h⟩
    · have h0 : (k == 0) = false := by simp; omega
      simp only [if_true, h0, Bool.and_false]
      simp [BitVec.getMsbD]; omega

/-- Bit k from the top is bit k of the string, and 0 below its end (R16). -/
theorem leftAlign_getMsbD (bits : List Bool) (k : Nat) :
    (leftAlign bits).getMsbD k = (decide (k < 32) && bits.getD k false) := by
  induction bits generalizing k with
  | nil => simp [leftAlign]
  | cons b bs ih =>
    rw [leftAlign, BitVec.getMsbD_or, leftAlign_top, BitVec.getMsbD_ushiftRight]
    cases k with
    | zero => simp
    | succ k =>
      have hlt : ¬k + 1 < 1 := by omega
      simp only [hlt, decide_false, Nat.add_sub_cancel, ih, List.getD_cons_succ]
      by_cases h : k + 1 < 32
      · have h' : k < 32 := by omega
        simp [h, h']
      · simp [h]

/-- The first bits of the left-aligned form are the string (R16). -/
theorem leadingBits_leftAlign {bits : List Bool} (h : bits.length ≤ 32) :
    leadingBits (leftAlign bits) bits.length = bits := by
  refine List.ext_getElem (by simp [leadingBits]) ?_
  intro k h1 h2
  have hk : k < 32 := by omega
  simp [leadingBits, leftAlign_getMsbD, hk, h2]

/-- Below the last bit of the string the left-aligned form is 0 (R16). -/
theorem leftAlign_shiftLeft {bits : List Bool} : leftAlign bits <<< bits.length = 0 := by
  refine BitVec.eq_of_getMsbD_eq ?_
  intro k hk
  rw [BitVec.getMsbD_shiftLeft, leftAlign_getMsbD]
  simp

/-! ### The table -/

theorem CodeTable.entry_empty (s : Byte) : CodeTable.empty.entry s = (0, 0) := by
  simp [CodeTable.entry, CodeTable.empty]

theorem CodeTable.entry_put (c : CodeTable) (x : Byte) (bits : List Bool) (s : Byte) :
    (c.put x bits).entry s = if s = x then (leftAlign bits, BitVec.ofNat 6 bits.length) else c.entry s := by
  by_cases h : s = x
  · subst h
    simp [CodeTable.entry, CodeTable.put]
  · have h' : x.toNat ≠ s.toNat := fun e => h (BitVec.eq_of_toNat_eq e.symm)
    simp [CodeTable.entry, CodeTable.put, h', h]

@[simp] theorem CodeTable.put_valid (c : CodeTable) (x : Byte) (bits : List Bool) :
    (c.put x bits).valid = c.valid := rfl

/-- Putting a list of codes into a table. -/
abbrev CodeTable.putAll (c : CodeTable) (l : List (Byte × List Bool)) : CodeTable :=
  l.foldl (fun c e => c.put e.1 e.2) c

theorem CodeTable.putAll_valid (c : CodeTable) (l : List (Byte × List Bool)) :
    (c.putAll l).valid = c.valid := by
  induction l generalizing c with
  | nil => rfl
  | cons e l ih => exact ih (c.put e.1 e.2)

theorem CodeTable.putAll_other (c : CodeTable) {l : List (Byte × List Bool)} {s : Byte}
    (h : s ∉ l.map Prod.fst) : (c.putAll l).entry s = c.entry s := by
  induction l generalizing c with
  | nil => rfl
  | cons e l ih =>
    simp only [List.map_cons, List.mem_cons, not_or] at h
    rw [CodeTable.putAll, List.foldl_cons]
    exact (ih (c.put e.1 e.2) h.2).trans (by rw [CodeTable.entry_put, if_neg h.1])

/-- The later of two codes of one symbol wins (R88). -/
theorem CodeTable.putAll_last (c : CodeTable) {l pre post : List (Byte × List Bool)} {s : Byte}
    {bits : List Bool} (hl : l = pre ++ (s, bits) :: post) (h : s ∉ post.map Prod.fst) :
    (c.putAll l).entry s = (leftAlign bits, BitVec.ofNat 6 bits.length) := by
  subst hl
  rw [CodeTable.putAll, List.foldl_append, List.foldl_cons]
  exact (CodeTable.putAll_other _ h).trans (by rw [CodeTable.entry_put, if_pos rfl])

/-! ### buildCodes -/

/-- Everything BUILD_CODES can answer for a tree (R88). -/
theorem buildCodes_cases (t : HTree) :
    ((∀ e ∈ t.codes, e.2.length ≤ 32) ∧ buildCodes t = .ok (CodeTable.empty.putAll t.codes)) ∨
    ((∃ e ∈ t.codes, 32 < e.2.length) ∧ buildCodes t = .error (.raise .codeTooLong true)) := by
  by_cases h : ∃ e ∈ t.codes, 32 < e.2.length
  · refine .inr ⟨h, if_pos ?_⟩
    simpa [List.any_eq_true, maxCodeLen] using h
  · refine .inl ⟨fun e he => Nat.le_of_not_lt (fun hlt => h ⟨e, he, hlt⟩), if_neg ?_⟩
    simpa [List.any_eq_true, maxCodeLen] using h

/-- A tree with an Internal root has the depth of its longest code; a Leaf's code has length 1. -/
theorem HTree.codes_length_le_iff (t : HTree) (n : Nat) (hn : 1 ≤ n) :
    (∀ e ∈ t.codes, e.2.length ≤ n) ↔ t.depth ≤ n := by
  cases t with
  | leaf s => simp [HTree.codes, HTree.depth, hn]
  | node l r =>
    constructor
    · intro h
      obtain ⟨s, p, hm, hl⟩ := (HTree.node l r).exists_deepest
      rw [← hl]; exact h _ hm
    · intro h e he
      exact Nat.le_trans (HTree.paths_length_le (t := HTree.node l r) he) h

theorem buildCodes_ok_iff (t : HTree) :
    (∃ c, buildCodes t = .ok c) ↔ t.depth ≤ 32 := by
  rw [← t.codes_length_le_iff 32 (by decide)]
  rcases buildCodes_cases t with ⟨h, e⟩ | ⟨⟨x, hx, hlt⟩, e⟩
  · exact ⟨fun _ => h, fun _ => ⟨_, e⟩⟩
  · refine ⟨?_, fun h => ?_⟩
    · rintro ⟨c, hc⟩; rw [e] at hc; cases hc
    · exact absurd (h x hx) (by omega)

/-- The symbols that have codes are those of the leaves, in the same order. -/
theorem HTree.codes_symbols (t : HTree) : t.codes.map Prod.fst = t.leaves := by
  cases t with
  | leaf s => rfl
  | node l r => exact (HTree.node l r).paths_symbols []

theorem HTree.codes_pos {t : HTree} {e : Byte × List Bool} (h : e ∈ t.codes) : 0 < e.2.length := by
  cases t with
  | leaf s => simp [HTree.codes] at h; subst h; simp
  | node l r =>
    obtain ⟨v, q, hq, -⟩ := HTree.mem_paths_node.1 (show (e.1, e.2) ∈ (HTree.node l r).paths [] from h)
    rw [hq]; simp

/-- A code put in the table reads back as its bits (R113). -/
theorem CodeTable.bits_of_entry {c : CodeTable} {s : Byte} {bits : List Bool} (h32 : bits.length ≤ 32)
    (h : c.entry s = (leftAlign bits, BitVec.ofNat 6 bits.length)) :
    c.bits s = bits ∧ (c.len[s.toNat]'s.isLt).toNat = bits.length := by
  simp only [CodeTable.entry, Prod.mk.injEq] at h
  have hl : (BitVec.ofNat 6 bits.length).toNat = bits.length := by
    rw [BitVec.toNat_ofNat]; exact Nat.mod_eq_of_lt (by omega)
  refine ⟨?_, by rw [h.2, hl]⟩
  rw [CodeTable.bits, h.1, h.2, hl, leadingBits_leftAlign h32]

/-- What BUILD_CODES puts in the table (R88): the last code of every symbol, and none where the tree
has no leaf of it. -/
theorem buildCodes_entry {t : HTree} {c : CodeTable} (h : buildCodes t = .ok c) :
    c.valid = true ∧
    (∀ s ∉ t.leaves, c.entry s = (0, 0)) ∧
    (∀ pre s bits post, t.codes = pre ++ (s, bits) :: post → s ∉ post.map Prod.fst →
      bits.length ≤ 32 ∧ c.entry s = (leftAlign bits, BitVec.ofNat 6 bits.length)) := by
  rcases buildCodes_cases t with ⟨h32, e⟩ | ⟨-, e⟩
  · rw [e] at h; cases h
    refine ⟨CodeTable.putAll_valid _ _, ?_, ?_⟩
    · intro s hs
      rw [CodeTable.putAll_other _ (by rw [t.codes_symbols]; exact hs), CodeTable.entry_empty]
    · intro pre s bits post hl hn
      exact ⟨h32 (s, bits) (by rw [hl]; simp), CodeTable.putAll_last _ hl hn⟩
  · rw [e] at h; cases h

/-- Every symbol has its last code. -/
theorem exists_last {l : List (Byte × List Bool)} {s : Byte} (h : s ∈ l.map Prod.fst) :
    ∃ pre bits post, l = pre ++ (s, bits) :: post ∧ s ∉ post.map Prod.fst := by
  induction l with
  | nil => simp at h
  | cons e l ih =>
    by_cases hs : s ∈ l.map Prod.fst
    · obtain ⟨pre, bits, post, rfl, hn⟩ := ih hs
      exact ⟨e :: pre, bits, post, rfl, hn⟩
    · rw [List.map_cons, List.mem_cons] at h
      rcases h with rfl | h
      · exact ⟨[], e.2, l, rfl, hs⟩
      · exact absurd h hs

/-- The table BUILD_CODES leaves is well formed (R37, R38). -/
theorem buildCodes_wellFormed {t : HTree} {c : CodeTable} (h : buildCodes t = .ok c) :
    c.WellFormed := by
  obtain ⟨-, hno, hlast⟩ := buildCodes_entry h
  intro s
  have hsplit : (c.val[s.toNat]'s.isLt, c.len[s.toNat]'s.isLt) = c.entry s := rfl
  by_cases hs : s ∈ t.leaves
  · rw [← t.codes_symbols] at hs
    obtain ⟨pre, bits, post, hl, hn⟩ := exists_last hs
    obtain ⟨h32, he⟩ := hlast pre s bits post hl hn
    have hpos : 0 < bits.length := HTree.codes_pos (t := t) (e := (s, bits)) (by rw [hl]; simp)
    rw [he, Prod.mk.injEq] at hsplit
    have hl : (BitVec.ofNat 6 bits.length).toNat = bits.length := by
      rw [BitVec.toNat_ofNat]; exact Nat.mod_eq_of_lt (by omega)
    rw [hsplit.1, hsplit.2, hl]
    refine ⟨h32, leftAlign_shiftLeft, fun h0 => ?_⟩
    rw [← BitVec.toNat_inj, hl] at h0
    simp at h0; subst h0; simp at hpos
  · have he := hno s hs
    rw [he, Prod.mk.injEq] at hsplit
    rw [hsplit.1, hsplit.2]
    simp

/-- With distinct symbols every leaf's code is in the table, as its path (R87, R89). -/
theorem buildCodes_bits {t : HTree} {c : CodeTable} (h : buildCodes t = .ok c)
    (hd : t.leaves.Nodup) {s : Byte} {bits : List Bool} (hm : (s, bits) ∈ t.codes) :
    c.bits s = bits ∧ (c.len[s.toNat]'s.isLt).toNat = bits.length := by
  obtain ⟨-, -, hlast⟩ := buildCodes_entry h
  obtain ⟨pre, post, hl⟩ := List.append_of_mem hm
  rw [← t.codes_symbols, hl, List.map_append, List.map_cons, List.nodup_append] at hd
  obtain ⟨h32, he⟩ := hlast pre s bits post hl (List.nodup_cons.1 hd.2.1).1
  exact CodeTable.bits_of_entry h32 he

end Sys2Proof.Machine
end

