-- ==== Sys2Proof/Laws/Kraft.lean ====
section
/-! SUPPORT. The exchange argument behind Huffman coding (R78): the two least weights may take the two
longest of any lengths that meet Kraft's inequality, and may then be merged. -/

namespace Sys2Proof.Machine

/-- Σ w·l over weights with lengths. -/
abbrev lengthCost (P : List (Nat × Nat)) : Nat := (P.map (fun p => p.1 * p.2)).sum

/-- Σ 2^(M − l) over lengths. -/
abbrev kraftSum (M : Nat) (ls : List Nat) : Nat := (ls.map (fun l => 2 ^ (M - l))).sum

/-- Lengths of at most M that meet Kraft's inequality Σ 2^(−l) ≤ 1. -/
def Kraft (M : Nat) (ls : List Nat) : Prop := (∀ l ∈ ls, l ≤ M) ∧ kraftSum M ls ≤ 2 ^ M

theorem Kraft.perm {M : Nat} {ls ls' : List Nat} (h : Kraft M ls) (hp : ls'.Perm ls) : Kraft M ls' :=
  ⟨fun l hl => h.1 l (hp.mem_iff.1 hl), by
    have := (hp.map (fun l => 2 ^ (M - l))).sum_eq
    unfold kraftSum; rw [this]; exact h.2⟩

/-- A least weight may take the longest length. -/
theorem take_longest (w l : Nat) (P : List (Nat × Nat)) (hw : ∀ p ∈ P, w ≤ p.1) :
    ∃ l' P', P'.map Prod.fst = P.map Prod.fst ∧ (l' :: P'.map Prod.snd).Perm (l :: P.map Prod.snd) ∧
      (∀ p ∈ P', p.2 ≤ l') ∧ w * l' + lengthCost P' ≤ w * l + lengthCost P := by
  induction P with
  | nil => exact ⟨l, [], rfl, .refl _, by simp, Nat.le_refl _⟩
  | cons p P ih =>
    obtain ⟨w1, l1⟩ := p
    obtain ⟨l', P', h1, h2, h3, h4⟩ := ih (fun p hp => hw p (by simp [hp]))
    have hw1 : w ≤ w1 := hw (w1, l1) (by simp)
    simp only [lengthCost, List.map_cons, List.sum_cons] at h4 ⊢
    by_cases hl : l1 ≤ l'
    · refine ⟨l', (w1, l1) :: P', by simp [h1], ?_, ?_, ?_⟩
      · simp only [List.map_cons]
        exact (List.Perm.swap _ _ _).trans (((List.perm_cons l1).2 h2).trans (List.Perm.swap _ _ _))
      · intro p hp
        rcases List.mem_cons.1 hp with rfl | hp
        · exact hl
        · exact h3 p hp
      · simp only [List.map_cons, List.sum_cons]; omega
    · refine ⟨l1, (w1, l') :: P', by simp [h1], ?_, ?_, ?_⟩
      · simp only [List.map_cons]
        exact ((List.perm_cons l1).2 h2).trans (List.Perm.swap _ _ _)
      · intro p hp
        rcases List.mem_cons.1 hp with rfl | hp
        · simp only; omega
        · have := h3 p hp; omega
      · simp only [List.map_cons, List.sum_cons]
        have hx : w * l1 + w1 * l' ≤ w * l' + w1 * l1 := by
          obtain ⟨d, rfl⟩ : ∃ d, l1 = l' + d := ⟨l1 - l', by omega⟩
          have := Nat.mul_le_mul_right d hw1
          simp only [Nat.mul_add]; omega
        omega

theorem pow_dvd_kraftSum {M b : Nat} {ls : List Nat} (h : ∀ l ∈ ls, l ≤ b) :
    2 ^ (M - b) ∣ kraftSum M ls := by
  refine List.dvd_sum ?_
  intro x hx
  obtain ⟨l, hl, rfl⟩ := List.mem_map.1 hx
  exact Nat.pow_dvd_pow 2 (by have := h l hl; omega)

/-- The two longest lengths become equal without breaking Kraft's inequality, and merge. -/
theorem kraft_merge_lengths {M a b : Nat} {ls : List Nat} (h : Kraft M (a :: b :: ls)) (hab : b ≤ a)
    (hb : ∀ l ∈ ls, l ≤ b) : 1 ≤ b ∧ Kraft M ((b - 1) :: ls) := by
  obtain ⟨hM, hK⟩ := h
  have hbM : b ≤ M := hM b (by simp)
  simp only [kraftSum, List.map_cons, List.sum_cons] at hK
  have hpos : 0 < 2 ^ (M - a) := Nat.pos_of_ne_zero (by simp)
  obtain ⟨q, hq⟩ := pow_dvd_kraftSum (M := M) hb
  obtain ⟨r, hr⟩ : 2 ^ (M - b) ∣ 2 ^ M := Nat.pow_dvd_pow 2 (by omega)
  have hS : (ls.map (fun l => 2 ^ (M - l))).sum = 2 ^ (M - b) * q := hq
  have hDpos : 0 < 2 ^ (M - b) := Nat.pos_of_ne_zero (by simp)
  have hlt : 2 ^ (M - b) * (1 + q) < 2 ^ (M - b) * r := by
    rw [← hr, Nat.mul_add, Nat.mul_one, ← hS]; omega
  have hle : 2 ^ (M - b) * (2 + q) ≤ 2 ^ M := by
    rw [hr]
    have := Nat.lt_of_mul_lt_mul_left hlt
    exact Nat.mul_le_mul_left _ (by omega)
  rw [Nat.mul_add] at hle
  have hb1 : 1 ≤ b := by
    rcases Nat.eq_zero_or_pos b with rfl | h
    · rw [Nat.sub_zero] at hle; omega
    · exact h
  refine ⟨hb1, ?_, ?_⟩
  · intro l hl
    rcases List.mem_cons.1 hl with rfl | hl
    · omega
    · exact hM l (by simp [hl])
  · simp only [kraftSum, List.map_cons, List.sum_cons, hS]
    have : 2 ^ (M - (b - 1)) = 2 ^ (M - b) * 2 := by
      rw [← Nat.pow_succ]; congr 1; omega
    omega

/-- The two least weights merged: some lengths for the merged weights still meet Kraft's inequality
and cost less by the merged weight. -/
theorem kraft_merge {M w0 w1 l0 l1 : Nat} {P : List (Nat × Nat)}
    (h : Kraft M (l0 :: l1 :: P.map Prod.snd)) (h01 : w0 ≤ w1) (h1 : ∀ p ∈ P, w1 ≤ p.1) :
    ∃ l P', P'.map Prod.fst = P.map Prod.fst ∧ Kraft M (l :: P'.map Prod.snd) ∧
      (w0 + w1) * (l + 1) + lengthCost P' ≤ w0 * l0 + w1 * l1 + lengthCost P := by
  obtain ⟨a, Q, q1, q2, q3, q4⟩ := take_longest w0 l0 ((w1, l1) :: P) (by
    intro p hp
    rcases List.mem_cons.1 hp with rfl | hp
    · exact h01
    · exact Nat.le_trans h01 (h1 p hp))
  obtain ⟨⟨w1', b'⟩, P1, rfl⟩ : ∃ p P1, Q = p :: P1 := by
    cases Q with
    | nil => simp at q1
    | cons p P1 => exact ⟨p, P1, rfl⟩
  simp only [List.map_cons, List.cons.injEq] at q1
  obtain ⟨rfl, q1⟩ := q1
  have hP1 : ∀ p ∈ P1, w1' ≤ p.1 := by
    intro p hp
    have : p.1 ∈ P.map Prod.fst := by rw [← q1]; exact List.mem_map_of_mem hp
    obtain ⟨p', hp', e⟩ := List.mem_map.1 this
    rw [← e]; exact h1 p' hp'
  obtain ⟨b, P2, r1, r2, r3, r4⟩ := take_longest w1' b' P1 hP1
  have hba : b ≤ a := by
    have : b ∈ b' :: P1.map Prod.snd := r2.mem_iff.1 (by simp)
    rcases List.mem_cons.1 this with rfl | hm
    · exact q3 (w1', b) (by simp)
    · obtain ⟨p, hp, rfl⟩ := List.mem_map.1 hm
      exact q3 p (by simp [hp])
  have hK : Kraft M (a :: b :: P2.map Prod.snd) := by
    refine h.perm (((List.perm_cons a).2 r2).trans ?_)
    simpa using q2
  obtain ⟨hb1, hK'⟩ := kraft_merge_lengths hK hba (by
    intro l hl
    obtain ⟨p, hp, rfl⟩ := List.mem_map.1 hl
    exact r3 p hp)
  refine ⟨b - 1, P2, by rw [r1, q1], hK', ?_⟩
  simp only [lengthCost, List.map_cons, List.sum_cons] at q4 r4 ⊢
  have e : b - 1 + 1 = b := by omega
  rw [e, Nat.add_mul]
  have := Nat.mul_le_mul_left w0 hba
  omega

/-- A list whose images are a permutation of a list with a head has an element for that head. -/
theorem exists_of_map_perm_cons {α β : Type} {g : α → β} {P : List α} {a : β} {l : List β}
    (h : (P.map g).Perm (a :: l)) : ∃ p P', P.Perm (p :: P') ∧ g p = a ∧ (P'.map g).Perm l := by
  have hm : a ∈ P.map g := h.mem_iff.2 (by simp)
  obtain ⟨p, hp, rfl⟩ := List.mem_map.1 hm
  obtain ⟨s, t, rfl⟩ := List.append_of_mem hp
  refine ⟨p, s ++ t, List.perm_middle, rfl, ?_⟩
  have : ((p :: (s ++ t)).map g).Perm (g p :: l) := (List.perm_middle.symm.map g).trans h
  simpa using this

end Sys2Proof.Machine
end

