-- ==== Sys2Proof/Laws/Huffman.lean ====
section
/-! SUPPORT. The merge loop of the tree builder (R84 to R86): what every merge keeps, and that the tree
it ends with costs no more than any lengths that meet Kraft's inequality (R78). -/

namespace Sys2Proof.Machine

/-- The tree an entry of PQ stands for, with the arena indices of its nodes. -/
structure Item where
  entry : Entry
  tree : HTree
  indices : List Nat

/-- The builder between two merges. -/
structure Forest (ps : List (Byte × Nat)) (f : Byte → Nat) (W : Nat → Nat) (b : Build)
    (items : List Item) : Prop where
  pq : items.map Item.entry = b.pq
  sorted : b.pq.Pairwise (fun a b => a.before b = true)
  count : b.n + b.pq.length = 2 * ps.length
  small : ps.length ≤ 256
  enough : ps.length ≤ b.n
  holds : ∀ x ∈ items, Holds b.nodes x.entry.2 x.tree x.indices
  indices : (items.flatMap Item.indices).Perm (List.range b.n)
  leaves : (items.flatMap (fun x => x.tree.leaves)).Perm (ps.map Prod.fst)
  weights : ∀ e ∈ b.pq, e.1 = W e.2
  treeWeights : ∀ x ∈ items, x.entry.1 = x.tree.weight f
  waiting : ∀ i, i ∈ b.pq.map Prod.snd ↔ Waiting b.nodes ps.length b.n i
  seeded : ∀ i (h : i < ps.length), b.nodes[i]? = some (Node.ofSymbol (ps[i]'h).1) ∧ W i = (ps[i]'h).2
  merged : ∀ j, ps.length ≤ j → j < b.n → MergesLeast b.nodes ps.length W j

theorem Waiting.congr {nodes nodes' : Vector Node nodeMax} {k j i : Nat}
    (h : ∀ j' < j, nodes'[j']? = nodes[j']?) :
    Waiting nodes' k j i ↔ Waiting nodes k j i := by
  unfold Waiting
  constructor
  · rintro ⟨h1, h2⟩
    exact ⟨h1, fun j' n hk hj hn => h2 j' n hk hj (by rw [h j' hj]; exact hn)⟩
  · rintro ⟨h1, h2⟩
    exact ⟨h1, fun j' n hk hj hn => h2 j' n hk hj (by rw [← h j' hj]; exact hn)⟩

theorem MergesLeast.congr {nodes nodes' : Vector Node nodeMax} {k j : Nat} {W W' : Nat → Nat}
    (h : ∀ j' ≤ j, nodes'[j']? = nodes[j']?) (hW : ∀ i ≤ j, W' i = W i)
    (hm : MergesLeast nodes k W j) : MergesLeast nodes' k W' j := by
  obtain ⟨l, r, hn, hw, hl, hr, hb, hi⟩ := hm
  have hc : ∀ i, Waiting nodes' k j i ↔ Waiting nodes k j i :=
    fun i => Waiting.congr (fun j' hj => h j' (by omega))
  have h1 := hl.1
  have h2 := hr.1
  refine ⟨l, r, by rw [h j (by omega)]; exact hn, ?_, (hc _).2 hl, (hc _).2 hr, ?_, ?_⟩
  · rw [hW _ (by omega), hW _ (by omega), hW _ (by omega)]; exact hw
  · unfold Before at *
    rw [hW _ (by omega), hW _ (by omega)]; exact hb
  · intro i hwi
    have hwi := (hc i).1 hwi
    have h3 := hwi.1
    rcases hi i hwi with h | h | h
    · exact .inl h
    · exact .inr (.inl h)
    · refine .inr (.inr ?_)
      unfold Before at *
      rw [hW _ (by omega), hW _ (by omega)]; exact h

/-- The item a merge makes. -/
def Item.merge (x y : Item) (n : Nat) : Item :=
  { entry := (x.entry.1 + y.entry.1, n), tree := .node x.tree y.tree
    indices := n :: (x.indices ++ y.indices) }

/-- The builder after a merge of its two first entries (R86). -/
def Build.merge (b : Build) (x y : Entry) (rest : List Entry) : Build :=
  b.add (Node.ofChildren (BitVec.ofNat 9 x.2) (BitVec.ofNat 9 y.2)) (x.1 + y.1) rest

/-- One merge keeps everything the builder knows. -/
theorem Forest.step {ps : List (Byte × Nat)} {f : Byte → Nat} {W : Nat → Nat} {b : Build}
    {x y : Item} {rest : List Item} (h : Forest ps f W b (x :: y :: rest)) :
    ∃ W' items, items.Perm (x.merge y b.n :: rest) ∧
      Forest ps f W' (b.merge x.entry y.entry (rest.map Item.entry)) items := by
  have hpq : b.pq = x.entry :: y.entry :: rest.map Item.entry := by rw [← h.pq]; rfl
  have hcnt := h.count
  have hsm := h.small
  have hkn := h.enough
  rw [hpq, List.length_cons, List.length_cons] at hcnt
  have hn : b.n < nodeMax := by simp only [nodeMax]; omega
  have hidx : ∀ e ∈ b.pq, e.2 < b.n := by
    intro e he
    exact ((h.waiting e.2).1 (List.mem_map_of_mem he)).1
  have hx : x.entry.2 < b.n := hidx _ (by rw [hpq]; simp)
  have hy : y.entry.2 < b.n := hidx _ (by rw [hpq]; simp)
  have hnm : nodeMax = 511 := rfl
  have ex : (BitVec.ofNat 9 x.entry.2).toNat = x.entry.2 := idx_toNat (by omega)
  have ey : (BitVec.ofNat 9 y.entry.2).toNat = y.entry.2 := idx_toNat (by omega)
  have hso := h.sorted
  rw [hpq] at hso
  obtain ⟨hs1, hso1⟩ := List.pairwise_cons.1 hso
  obtain ⟨hs2, hso2⟩ := List.pairwise_cons.1 hso1
  obtain ⟨items, hperm, hmap⟩ := insertEntry_map Item.entry (x.merge y b.n) rest
  set node := Node.ofChildren (BitVec.ofNat 9 x.entry.2) (BitVec.ofNat 9 y.entry.2) with hnode
  set W' := Function.update W b.n (x.entry.1 + y.entry.1) with hW'
  have hWlt : ∀ i, i ≠ b.n → W' i = W i := fun i hi => Function.update_of_ne hi _ _
  have hother : ∀ j, j ≠ b.n → (b.nodes.setIfInBounds b.n node)[j]? = b.nodes[j]? :=
    fun j hj => nodes_set_other hj _
  have hself : (b.nodes.setIfInBounds b.n node)[b.n]? = some node := nodes_set_self hn _
  have hpq' : (b.merge x.entry y.entry (rest.map Item.entry)).pq =
      insertEntry (x.entry.1 + y.entry.1, b.n) (rest.map Item.entry) := rfl
  have hnodes' : (b.merge x.entry y.entry (rest.map Item.entry)).nodes =
      b.nodes.setIfInBounds b.n node := rfl
  have hn' : (b.merge x.entry y.entry (rest.map Item.entry)).n = b.n + 1 := rfl
  have hindx : ∀ z ∈ x :: y :: rest, b.n ∉ z.indices := by
    intro z hz hm
    have : b.n ∈ List.range b.n :=
      h.indices.mem_iff.1 (List.mem_flatMap.2 ⟨z, hz, hm⟩)
    simp at this
  have hbef : ∀ (a c : Entry), a ∈ b.pq → c ∈ b.pq → a.before c = true →
      Before W a.2 c.2 ∧ a.2 ≠ c.2 := by
    intro a c ha hc hb
    have h1 := h.weights a ha
    have h2 := h.weights c hc
    simp only [Entry.before, Bool.or_eq_true, decide_eq_true_eq, Bool.and_eq_true, beq_iff_eq,
      h1, h2] at hb
    refine ⟨hb, fun e => ?_⟩
    rw [e] at hb; omega
  have hxm : x.entry ∈ b.pq := by rw [hpq]; simp
  have hym : y.entry ∈ b.pq := by rw [hpq]; simp
  have hrm : ∀ e ∈ rest.map Item.entry, e ∈ b.pq := by
    intro e he; rw [hpq]; simp only [List.mem_cons]; exact .inr (.inr he)
  refine ⟨W', items, hperm, ?_⟩
  constructor
  · rw [hmap]; rfl
  · rw [hpq']
    exact insertEntry_sorted hso2 (fun e he => Nat.ne_of_lt (hidx e (hrm e he)))
  · rw [hpq', (insertEntry_perm _ _).length_eq, List.length_cons, hn']; omega
  · exact hsm
  · rw [hn']; omega
  · intro z hz
    rw [hnodes']
    rcases List.mem_cons.1 (hperm.mem_iff.1 hz) with rfl | hz
    · refine .node hself rfl ?_ ?_
      · rw [hnode]; simp only [Node.ofChildren, ex]
        exact (h.holds x (by simp)).set (hindx x (by simp)) _
      · rw [hnode]; simp only [Node.ofChildren, ey]
        exact (h.holds y (by simp)).set (hindx y (by simp)) _
    · exact (h.holds z (by simp [hz])).set (hindx z (by simp [hz])) _
  · rw [hn']
    refine (hperm.flatMap_right _).trans ?_
    have := h.indices
    simp only [List.flatMap_cons, Item.merge] at this ⊢
    rw [List.cons_append]
    refine perm_range_succ ?_
    rwa [List.append_assoc]
  · refine (hperm.flatMap_right _).trans ?_
    have := h.leaves
    simp only [List.flatMap_cons, Item.merge, HTree.leaves] at this ⊢
    rwa [List.append_assoc]
  · intro e he
    rw [hpq'] at he
    rcases List.mem_cons.1 ((insertEntry_perm _ _).mem_iff.1 he) with rfl | he
    · simp [hW']
    · rw [hWlt _ (Nat.ne_of_lt (hidx e (hrm e he)))]
      exact h.weights e (hrm e he)
  · intro z hz
    rcases List.mem_cons.1 (hperm.mem_iff.1 hz) with rfl | hz
    · simp only [Item.merge, HTree.weight, ← h.treeWeights x (by simp), ← h.treeWeights y (by simp)]
    · exact h.treeWeights z (by simp [hz])
  · intro i
    rw [hpq', ((insertEntry_perm _ _).map Prod.snd).mem_iff, List.map_cons, List.mem_cons, hnodes', hn']
    have hw := h.waiting i
    rw [hpq, List.map_cons, List.map_cons, List.mem_cons, List.mem_cons] at hw
    constructor
    · rintro (rfl | hi)
      · refine ⟨by omega, fun j' n hk hj hnn => ?_⟩
        by_cases hj' : j' = b.n
        · subst hj'
          rw [hself] at hnn; cases hnn
          simp only [hnode, Node.ofChildren, ex, ey]; omega
        · rw [hother _ hj'] at hnn
          obtain ⟨l, r, hn1, -, hl, hr, -⟩ := h.merged j' hk (by omega)
          rw [hn1] at hnn; cases hnn
          have := hl.1
          have := hr.1
          simp only [Node.ofChildren]; omega
      · have hwi := hw.1 (.inr (.inr hi))
        refine ⟨by have := hwi.1; omega, fun j' n hk hj hnn => ?_⟩
        by_cases hj' : j' = b.n
        · subst hj'
          rw [hself] at hnn; cases hnn
          obtain ⟨e, he, rfl⟩ := List.mem_map.1 hi
          simp only [hnode, Node.ofChildren, ex, ey]
          exact ⟨Ne.symm (hbef _ _ hxm (hrm e he) (hs1 e (by simp only [List.mem_cons]; exact .inr he))).2,
            Ne.symm (hbef _ _ hym (hrm e he) (hs2 e he)).2⟩
        · rw [hother _ hj'] at hnn
          exact hwi.2 j' n hk (by omega) hnn
    · rintro ⟨hlt, hc⟩
      by_cases hi : i = b.n
      · exact .inl hi
      · right
        have hwi : Waiting b.nodes ps.length b.n i :=
          ⟨by omega, fun j' n hk hj hnn => hc j' n hk (by omega) (by rw [hother _ (by omega)]; exact hnn)⟩
        have hne := hc b.n node hkn (by omega) hself
        simp only [hnode, Node.ofChildren, ex, ey] at hne
        rcases hw.2 hwi with h1 | h1 | h1
        · exact absurd h1 hne.1
        · exact absurd h1 hne.2
        · exact h1
  · intro i hi
    obtain ⟨h1, h2⟩ := h.seeded i hi
    have hne : i ≠ b.n := by omega
    exact ⟨by rw [hnodes', hother i hne]; exact h1, by rw [hWlt i hne]; exact h2⟩
  · intro j hk hj
    rw [hnodes']
    rw [hn'] at hj
    by_cases hj' : j = b.n
    · subst hj'
      refine ⟨_, _, hself, ?_, ?_⟩
      · rw [ex, ey, hWlt x.entry.2 (by omega), hWlt y.entry.2 (by omega), ← h.weights _ hxm, ← h.weights _ hym]
        simp [hW']
      · have hc : ∀ i, Waiting (b.nodes.setIfInBounds b.n node) ps.length b.n i ↔
            i ∈ b.pq.map Prod.snd := fun i =>
          (Waiting.congr (fun j' hj'' => hother j' (by omega))).trans (h.waiting i).symm
        have hB : ∀ i j, i < b.n → j < b.n → Before W i j → Before W' i j := by
          intro i j hi hj hb
          unfold Before at *
          rw [hWlt i (by omega), hWlt j (by omega)]; exact hb
        rw [ex, ey]
        refine ⟨(hc _).2 (List.mem_map_of_mem hxm), (hc _).2 (List.mem_map_of_mem hym),
          hB _ _ hx hy (hbef _ _ hxm hym (hs1 _ (by simp))).1, ?_⟩
        intro i hwi
        have := (hc i).1 hwi
        rw [hpq, List.map_cons, List.map_cons, List.mem_cons, List.mem_cons] at this
        rcases this with h1 | h1 | h1
        · exact .inl h1
        · exact .inr (.inl h1)
        · obtain ⟨e, he, rfl⟩ := List.mem_map.1 h1
          exact .inr (.inr (hB _ _ hy (hidx e (hrm e he)) (hbef _ _ hym (hrm e he) (hs2 e he)).1))
    · exact (h.merged j hk (by omega)).congr (fun j' h1 => hother j' (by omega))
        (fun i h1 => hWlt i (by omega))

theorem HTree.cost_node (f : Byte → Nat) (l r : HTree) :
    (HTree.node l r).cost f = l.cost f + r.cost f + (l.weight f + r.weight f) := rfl

/-! ### Depth and weight -/

/-- The heavier child's weight; 0 at a Leaf. -/
def HTree.childWeight (f : Byte → Nat) : HTree → Nat
  | .leaf _ => 0
  | .node l r => max (l.weight f) (r.weight f)

/-- A tree as heavy as its depth demands (R115): it has at least Fibonacci weight, and so has its
heavier child. -/
def HTree.FibWeight (f : Byte → Nat) (t : HTree) : Prop :=
  Nat.fib (t.depth + 2) ≤ t.weight f ∧ (t.depth = 0 ∨ Nat.fib (t.depth + 1) ≤ t.childWeight f)

/-- What makes the trees of PQ as heavy as that: no child outweighs a tree that still waits. -/
def FibForest (f : Byte → Nat) (ts : List HTree) : Prop :=
  ∀ t ∈ ts, t.FibWeight f ∧ ∀ u ∈ ts, t.childWeight f ≤ u.weight f

/-- Merging two trees neither of which has a child heavier than the other. -/
theorem HTree.FibWeight.merge {f : Byte → Nat} {a b : HTree} (ha : a.FibWeight f) (hb : b.FibWeight f)
    (hab : a.childWeight f ≤ b.weight f) (hba : b.childWeight f ≤ a.weight f) :
    (HTree.node a b).FibWeight f := by
  obtain ⟨a1, a2⟩ := ha
  obtain ⟨b1, b2⟩ := hb
  have pos : ∀ n, 1 ≤ Nat.fib (n + 2) := fun n => Nat.fib_pos.2 (by omega)
  have key : ∀ c d : HTree, d.depth ≤ c.depth → Nat.fib (c.depth + 2) ≤ c.weight f →
      (c.depth = 0 ∨ Nat.fib (c.depth + 1) ≤ c.childWeight f) → c.childWeight f ≤ d.weight f →
      Nat.fib (d.depth + 2) ≤ d.weight f →
      Nat.fib (1 + c.depth + 2) ≤ c.weight f + d.weight f := by
    intro c d hd c1 c2 hcd d1
    have hadd : Nat.fib (1 + c.depth + 2) = Nat.fib (c.depth + 1) + Nat.fib (c.depth + 2) := by
      rw [show 1 + c.depth + 2 = (c.depth + 1) + 2 by omega, Nat.fib_add_two]
    have hd1 : Nat.fib (c.depth + 1) ≤ d.weight f := by
      rcases c2 with h0 | h
      · rw [h0]
        exact Nat.le_trans (pos d.depth) d1
      · exact Nat.le_trans h hcd
    omega
  rcases Nat.le_total b.depth a.depth with h | h
  · have := key a b h a1 a2 hab b1
    refine ⟨?_, .inr ?_⟩
    · simp only [HTree.depth, HTree.weight, Nat.max_eq_left h]; exact this
    · simp only [HTree.depth, HTree.childWeight, Nat.max_eq_left h]
      rw [Nat.add_comm 1]
      exact Nat.le_trans a1 (Nat.le_max_left _ _)
  · have := key b a h b1 b2 hba a1
    refine ⟨?_, .inr ?_⟩
    · simp only [HTree.depth, HTree.weight, Nat.max_eq_right h, Nat.add_comm (a.weight f)]; exact this
    · simp only [HTree.depth, HTree.childWeight, Nat.max_eq_right h]
      rw [Nat.add_comm 1]
      exact Nat.le_trans b1 (Nat.le_max_right _ _)

/-- A merge of the two least trees keeps it. -/
theorem FibForest.merge {f : Byte → Nat} {a b : HTree} {ts : List HTree}
    (h : FibForest f (a :: b :: ts)) (hab : a.weight f ≤ b.weight f)
    (hb : ∀ t ∈ ts, b.weight f ≤ t.weight f) : FibForest f (.node a b :: ts) := by
  have ha' := h a (by simp)
  have hb' := h b (by simp)
  intro t ht
  rcases List.mem_cons.1 ht with rfl | ht
  · refine ⟨ha'.1.merge hb'.1 (ha'.2 b (by simp)) (hb'.2 a (by simp)), ?_⟩
    intro u hu
    rcases List.mem_cons.1 hu with rfl | hu
    · simp only [HTree.childWeight, HTree.weight]; omega
    · have := hb u hu
      simp only [HTree.childWeight]; omega
  · refine ⟨(h t (by simp [ht])).1, ?_⟩
    intro u hu
    rcases List.mem_cons.1 hu with rfl | hu
    · have := (h t (by simp [ht])).2 a (by simp)
      simp only [HTree.weight]; omega
    · exact (h t (by simp [ht])).2 u (by simp [hu])

theorem FibForest.perm {f : Byte → Nat} {ts us : List HTree} (h : FibForest f ts) (hp : us.Perm ts) :
    FibForest f us :=
  fun t ht => ⟨(h t (hp.mem_iff.1 ht)).1, fun u hu => (h t (hp.mem_iff.1 ht)).2 u (hp.mem_iff.1 hu)⟩

/-- What the trees in PQ cost with the lengths P above them. -/
abbrev forestCost (f : Byte → Nat) (items : List Item) : Nat :=
  (items.map (fun x => x.tree.cost f)).sum

/-- The merge loop ends with one tree, and that tree costs no more than any lengths that meet Kraft's
inequality (R86, R78), and is as heavy as its depth demands (R115). -/
theorem mergeAll_spec {ps : List (Byte × Nat)} {f : Byte → Nat} (fuel : Nat) {W : Nat → Nat}
    {b : Build} {items : List Item} (h : Forest ps f W b items) (hf : items.length = fuel + 1) :
    ∃ W' x, Forest ps f W' (mergeAll fuel b) [x] ∧
      (∀ M (P : List (Nat × Nat)), (P.map Prod.fst).Perm (items.map (fun x => x.entry.1)) →
        Kraft M (P.map Prod.snd) → x.tree.cost f ≤ forestCost f items + lengthCost P) ∧
      (FibForest f (items.map Item.tree) → x.tree.FibWeight f) := by
  induction fuel generalizing W b items with
  | zero =>
    obtain ⟨x, rfl⟩ := List.length_eq_one_iff.1 hf
    exact ⟨W, x, h, fun M P _ _ => by simp [forestCost], fun hF => (hF x.tree (by simp)).1⟩
  | succ fuel ih =>
    obtain ⟨x, y, rest, rfl⟩ : ∃ x y rest, items = x :: y :: rest := by
      match items, hf with
      | x :: y :: rest, _ => exact ⟨x, y, rest, rfl⟩
    obtain ⟨W1, items1, hperm, hF⟩ := h.step
    have hlen : items1.length = fuel + 1 := by
      have := hperm.length_eq
      simp only [List.length_cons] at this hf; omega
    obtain ⟨W2, z, hz, hcost, hfib⟩ := ih hF hlen
    have hpq : b.pq = x.entry :: y.entry :: rest.map Item.entry := by rw [← h.pq]; rfl
    have hstep : mergeAll (fuel + 1) b =
        mergeAll fuel (b.merge x.entry y.entry (rest.map Item.entry)) := by
      simp only [mergeAll, hpq, Build.merge]
    have hle : ∀ a c : Entry, a.before c = true → a.1 ≤ c.1 := by
      intro a c hb
      simp only [Entry.before, Bool.or_eq_true, decide_eq_true_eq, Bool.and_eq_true,
        beq_iff_eq] at hb
      omega
    have hso := h.sorted
    rw [hpq] at hso
    obtain ⟨hs1, hso1⟩ := List.pairwise_cons.1 hso
    obtain ⟨hs2, -⟩ := List.pairwise_cons.1 hso1
    have h7 := h.treeWeights x (by simp)
    have h8 := h.treeWeights y (by simp)
    refine ⟨W2, z, by rw [hstep]; exact hz, ?_, ?_⟩
    rotate_left
    · intro hfo
      refine hfib ((FibForest.merge hfo ?_ ?_).perm (hperm.map Item.tree))
      · rw [← h7, ← h8]; exact hle _ _ (hs1 _ (by simp))
      · intro t ht
        obtain ⟨z', hz', rfl⟩ := List.mem_map.1 ht
        rw [← h8, ← h.treeWeights z' (by simp [hz'])]
        exact hle _ _ (hs2 _ (List.mem_map_of_mem hz'))
    intro M P hP hK
    simp only [List.map_cons] at hP
    obtain ⟨⟨w0, l0⟩, P1, p1, rfl, p1'⟩ := exists_of_map_perm_cons hP
    obtain ⟨⟨w1, l1⟩, P2, p2, rfl, p2'⟩ := exists_of_map_perm_cons p1'
    have hPp : P.Perm ((x.entry.1, l0) :: (y.entry.1, l1) :: P2) :=
      p1.trans ((List.perm_cons _).2 p2)
    obtain ⟨l, P3, e3, hK3, hc3⟩ := kraft_merge (M := M) (w0 := x.entry.1) (w1 := y.entry.1)
      (l0 := l0) (l1 := l1) (P := P2) (hK.perm (hPp.map Prod.snd).symm) (hle _ _ (hs1 _ (by simp)))
      (by
        intro p hp
        have : p.1 ∈ rest.map (fun x => x.entry.1) := p2'.mem_iff.1 (List.mem_map_of_mem hp)
        obtain ⟨z, hz, e⟩ := List.mem_map.1 this
        rw [← e]
        exact hle _ _ (hs2 _ (List.mem_map_of_mem hz)))
    have h4 := hcost M ((x.entry.1 + y.entry.1, l) :: P3) (by
      refine List.Perm.trans ?_ (hperm.map _).symm
      simp only [List.map_cons, Item.merge]
      refine (List.perm_cons _).2 ?_
      rw [e3]; exact p2') hK3
    have h5 : forestCost f items1 = (x.merge y b.n).tree.cost f + forestCost f rest := by
      have := (hperm.map (fun x : Item => x.tree.cost f)).sum_eq
      simpa only [forestCost, List.map_cons, List.sum_cons] using this
    have h6 : lengthCost P = x.entry.1 * l0 + (y.entry.1 * l1 + lengthCost P2) := by
      have := (hPp.map (fun p : Nat × Nat => p.1 * p.2)).sum_eq
      simpa only [lengthCost, List.map_cons, List.sum_cons] using this
    simp only [Item.merge, HTree.cost_node, ← h7, ← h8] at h5
    simp only [lengthCost, forestCost, List.map_cons, List.sum_cons, Nat.mul_add, Nat.mul_one] at *
    omega

/-! ### BUILD_TREE as a whole -/

/-- The builder after its leaves, as a forest of one-leaf trees. -/
theorem Seeded.forest {ps : List (Byte × Nat)} {b : Build} (h : Seeded ps b) (hs : ps.length ≤ 256)
    {f : Byte → Nat} (hf : ∀ x ∈ ps, x.2 = f x.1) (h0 : ∀ x ∈ ps, x.2 ≠ 0) :
    ∃ W items, Forest ps f W b items ∧ items.length = ps.length ∧ forestCost f items = 0 ∧
      (items.map (fun x => x.entry.1)).Perm (ps.map Prod.snd) ∧
      FibForest f (items.map Item.tree) := by
  obtain ⟨hn, hl, he, hso⟩ := h
  let sym : Nat → Byte := fun i => (ps[i]?.map Prod.fst).getD 0
  let W : Nat → Nat := fun i => (ps[i]?.map Prod.snd).getD 0
  let mk : Entry → Item := fun e => { entry := e, tree := .leaf (sym e.2), indices := [e.2] }
  have hmem : ∀ e ∈ b.pq, ∃ h : e.2 < ps.length, e.1 = ps[e.2].2 := by
    intro e hm
    obtain ⟨⟨x, i⟩, hx, rfl⟩ := List.mem_map.1 (he.mem_iff.1 hm)
    have hx := List.mem_zipIdx_iff_getElem?.1 hx
    obtain ⟨hi, hx⟩ := List.getElem?_eq_some_iff.1 hx
    exact ⟨hi, by simp only at hx ⊢; rw [hx]⟩
  have hsnd : (b.pq.map Prod.snd).Perm (List.range ps.length) := by
    refine (he.map Prod.snd).trans ?_
    rw [List.map_map]
    have : (Prod.snd ∘ fun x : (Byte × Nat) × Nat => (x.1.2, x.2)) = Prod.snd := rfl
    rw [this, List.zipIdx_map_snd, List.range_eq_range']
  have hwaiting : ∀ i, Waiting b.nodes ps.length b.n i ↔ i < ps.length := by
    intro i
    constructor
    · rintro ⟨h1, -⟩; omega
    · intro hi
      exact ⟨by omega, fun j' n hk hj _ => by omega⟩
  refine ⟨W, b.pq.map mk, ?_, ?_, ?_, ?_, ?_⟩
  · constructor
    · rw [List.map_map]; exact List.map_id' b.pq
    · exact hso
    · have := he.length_eq
      simp only [List.length_map, List.length_zipIdx] at this
      omega
    · exact hs
    · omega
    · intro z hz
      obtain ⟨e, hm, rfl⟩ := List.mem_map.1 hz
      obtain ⟨hi, -⟩ := hmem e hm
      have : sym e.2 = ps[e.2].1 := by simp [sym, hi]
      simp only [mk, this]
      exact .leaf (n := Node.ofSymbol ps[e.2].1) (hl e.2 hi) rfl
    · rw [hn, List.flatMap_map]
      simp only [mk]
      have : (b.pq.flatMap fun e => [e.2]) = b.pq.map Prod.snd := by
        induction b.pq with
        | nil => rfl
        | cons e l ih => simp [ih]
      rw [this]; exact hsnd
    · rw [List.flatMap_map]
      have : (b.pq.flatMap fun e => (mk e).tree.leaves) = (b.pq.map Prod.snd).map sym := by
        induction b.pq with
        | nil => rfl
        | cons e l ih =>
          rw [List.flatMap_cons, ih]; rfl
      rw [this]
      refine (hsnd.map sym).trans ?_
      refine List.Perm.of_eq (List.ext_getElem (by simp) ?_)
      intro i h1 h2
      simp at h1
      simp [sym, h1]
    · intro e hm
      obtain ⟨hi, hw⟩ := hmem e hm
      simp [W, hi, hw]
    · intro z hz
      obtain ⟨e, hm, rfl⟩ := List.mem_map.1 hz
      obtain ⟨hi, hw⟩ := hmem e hm
      simp only [mk, HTree.weight, sym]
      simp [hi, hw, hf ps[e.2] (List.getElem_mem hi)]
    · intro i
      rw [hwaiting, hsnd.mem_iff, List.mem_range]
    · intro i hi
      exact ⟨hl i hi, by simp [W, hi]⟩
    · intro j hk hj
      omega
  · have := he.length_eq
    simpa using this
  · unfold forestCost
    rw [List.map_map]
    induction b.pq with
    | nil => rfl
    | cons e l ih =>
      rw [List.map_cons, List.sum_cons, ih]; rfl
  · rw [List.map_map]
    have h1 : (Prod.fst ∘ fun x : (Byte × Nat) × Nat => (x.1.2, x.2)) = (fun x => x.1.2) := rfl
    have := he.map Prod.fst
    rw [List.map_map, h1] at this
    refine this.trans (List.Perm.of_eq ?_)
    have h2 : ps.map Prod.snd = (ps.zipIdx.map Prod.fst).map Prod.snd := by
      rw [List.zipIdx_map_fst]
    rw [h2, List.map_map]; rfl
  · have hleaf : ∀ t ∈ (b.pq.map mk).map Item.tree, ∃ x, t = .leaf x ∧ 0 < f x := by
      intro t ht
      rw [List.map_map] at ht
      obtain ⟨e, hm, rfl⟩ := List.mem_map.1 ht
      obtain ⟨hi, -⟩ := hmem e hm
      have h1 := h0 _ (List.getElem_mem hi)
      have h2 := hf _ (List.getElem_mem hi)
      refine ⟨ps[e.2].1, by simp [mk, sym, hi], ?_⟩
      rw [← h2]; exact Nat.pos_of_ne_zero h1
    intro t ht
    obtain ⟨x, rfl, hx⟩ := hleaf t ht
    refine ⟨⟨hx, .inl rfl⟩, fun u _ => Nat.zero_le _⟩

/-- What BUILD_TREE leaves of a table with a positive entry (R84 to R86). -/
theorem buildTree_spec (freq : Vector Word 256) (t : Arena) (hne : presentSymbols freq ≠ []) :
    ∃ tree L W, Holds (buildTree freq t).nodes (buildTree freq t).root.toNat tree L ∧
      L.Perm (List.range (2 * (presentSymbols freq).length - 1)) ∧
      tree.leaves.Perm ((presentSymbols freq).map Prod.fst) ∧
      (buildTree freq t).valid = true ∧
      (buildTree freq t).count.toNat = 2 * (presentSymbols freq).length - 1 ∧
      (buildTree freq t).root.toNat =
        (if (presentSymbols freq).length = 1 then 0 else 2 * (presentSymbols freq).length - 2) ∧
      (buildTree freq t).Greedy (presentSymbols freq) W ∧
      (∀ M (P : List (Nat × Nat)), (P.map Prod.fst).Perm ((presentSymbols freq).map Prod.snd) →
        Kraft M (P.map Prod.snd) → tree.cost (freqOf freq) ≤ lengthCost P) ∧
      Nat.fib (tree.depth + 2) ≤ tree.weight (freqOf freq) := by
  have h256 := presentSymbols_length freq
  have hmemf : ∀ x ∈ presentSymbols freq, x.2 = freqOf freq x.1 :=
    fun x hx => (mem_presentSymbols.1 (show (x.1, x.2) ∈ _ from hx)).1
  have hmem0 : ∀ x ∈ presentSymbols freq, x.2 ≠ 0 :=
    fun x hx => (mem_presentSymbols.1 (show (x.1, x.2) ∈ _ from hx)).2
  have hseed : Seeded (presentSymbols freq) (seedLeaves freq t.nodes) :=
    seeded_of_foldl (presentSymbols freq) t.nodes (by simp only [nodeMax]; omega)
  generalize hps : presentSymbols freq = ps at *
  have hpos : 0 < ps.length := List.length_pos_iff.2 hne
  obtain ⟨W0, items, hF, hlen, hzero, hperm, hfo⟩ := hseed.forest h256 hmemf hmem0
  have hpqlen : (seedLeaves freq t.nodes).pq.length = ps.length := by
    rw [← hF.pq, List.length_map, hlen]
  obtain ⟨W, x, hx, hcost, hfib⟩ := mergeAll_spec (ps.length - 1) hF (by omega)
  rw [← hpqlen] at hx
  have hpq := hx.pq
  have hcount := hx.count
  rw [← hpq] at hcount
  simp only [List.map_cons, List.map_nil, List.length_singleton] at hpq hcount
  have hbt : buildTree freq t =
      { nodes := (mergeAll ((seedLeaves freq t.nodes).pq.length - 1) (seedLeaves freq t.nodes)).nodes
        count := BitVec.ofNat 10
          (mergeAll ((seedLeaves freq t.nodes).pq.length - 1) (seedLeaves freq t.nodes)).n
        root := BitVec.ofNat 9 x.entry.2, valid := true } := by
    simp only [buildTree, ← hpq]
  have hroot : x.entry.2 < (mergeAll ((seedLeaves freq t.nodes).pq.length - 1) (seedLeaves freq t.nodes)).n := by
    refine ((hx.waiting x.entry.2).1 ?_).1
    rw [← hpq]; simp
  have hwait := hx.waiting
  generalize mergeAll ((seedLeaves freq t.nodes).pq.length - 1) (seedLeaves freq t.nodes) = b' at *
  have hidx : (BitVec.ofNat 9 x.entry.2).toNat = x.entry.2 := idx_toNat (by omega)
  have hh := hx.holds x (by simp)
  have hind := hx.indices
  have hlv := hx.leaves
  simp only [List.flatMap_cons, List.flatMap_nil, List.append_nil] at hind hlv
  have hb'n : b'.n = 2 * ps.length - 1 := by omega
  refine ⟨x.tree, x.indices, W, ?_, ?_, hlv, ?_, ?_, ?_, ?_, ?_, (hfib hfo).1⟩
  · rw [hbt]; simp only [hidx]; exact hh
  · rw [← hb'n]; exact hind
  · rw [hbt]
  · rw [hbt]; simp only [BitVec.toNat_ofNat]
    rw [hb'n]; exact Nat.mod_eq_of_lt (by omega)
  · rw [hbt]; simp only [hidx]
    have hlast : b'.n - 1 ∈ b'.pq.map Prod.snd := by
      refine (hwait _).2 ⟨by omega, ?_⟩
      intro j' n hk hj hnn
      obtain ⟨l, r, hn1, -, hl, hr, -⟩ := hx.merged j' hk hj
      rw [hn1] at hnn; cases hnn
      have := hl.1
      have := hr.1
      simp only [Node.ofChildren]; omega
    rw [← hpq] at hlast
    simp only [List.map_cons, List.map_nil, List.mem_singleton] at hlast
    split <;> omega
  · rw [hbt]
    exact ⟨hx.seeded, fun j hk hj => hx.merged j hk (by omega)⟩
  · intro M P hP hK
    have := hcost M P (hP.trans hperm.symm) hK
    omega

end Sys2Proof.Machine
end

