-- ==== Sys2Proof/Laws/Payload.lean ====
section
/-! SUPPORT. How long a payload is (R77, R78): T = Σ f·L over the leaves, and T ≤ 8n for the tree that
BUILD_TREE makes of the input's counts. -/

namespace Sys2Proof.Machine

/-! ### BUILD_TREE leaves a well-formed arena -/

/-- R40 holds of the arena BUILD_TREE leaves with a tree in it. -/
theorem buildTree_wellFormed {freq : Vector Word 256} {t : Arena}
    (h : (buildTree freq t).valid = true) : (buildTree freq t).WellFormed := by
  by_cases hne : presentSymbols freq = []
  · exfalso
    simp [buildTree, seedLeaves, hne, mergeAll] at h
  · obtain ⟨tree, L, W, hh, hp, hl, -, hc, -⟩ := buildTree_spec freq t hne
    refine ⟨tree, L, hh, by rw [hc]; exact hp, ?_⟩
    have := hl.length_eq
    have := presentSymbols_length freq
    simp only [List.length_map] at *
    omega

/-- Without a positive entry there is no tree (R86). -/
theorem buildTree_empty {freq : Vector Word 256} (t : Arena) (h : presentSymbols freq = []) :
    buildTree freq t = { t with valid := false, count := 0, root := 0 } := by
  simp [buildTree, seedLeaves, h, mergeAll]

/-- The positive entries of FREQ, as one list (R85). -/
theorem present_presentSymbols (freq : Vector Word 256) : Present freq (presentSymbols freq) :=
  ⟨presentSymbols_sorted freq, fun _ _ => mem_presentSymbols⟩

theorem present_unique {freq : Vector Word 256} {ps : List (Byte × Nat)} (h : Present freq ps) :
    ps = presentSymbols freq := by
  have hnd : ∀ {l : List (Byte × Nat)}, l.Pairwise (fun a b => a.1.toNat < b.1.toNat) → l.Nodup :=
    fun h => h.imp (fun hab e => by rw [e] at hab; exact Nat.lt_irrefl _ hab)
  have hp : ps.Perm (presentSymbols freq) := by
    refine (List.perm_ext_iff_of_nodup (hnd h.1) (hnd (presentSymbols_sorted freq))).2 ?_
    rintro ⟨x, f⟩
    rw [h.2, mem_presentSymbols]
  exact hp.eq_of_pairwise (le := fun a b => a.1.toNat < b.1.toNat)
    (fun a b _ _ h1 h2 => absurd h1 (Nat.lt_asymm h2)) h.1 (presentSymbols_sorted freq)

theorem presentSymbols_eq_nil {freq : Vector Word 256} :
    presentSymbols freq = [] ↔ ∀ s : Byte, freq[s.toNat]'s.isLt = 0 := by
  constructor
  · intro h s
    by_contra hne
    have : (s, (freq[s.toNat]'s.isLt).toNat) ∈ presentSymbols freq :=
      mem_presentSymbols.2 ⟨rfl, fun h0 => hne (BitVec.eq_of_toNat_eq (by simpa using h0))⟩
    rw [h] at this; cases this
  · intro h
    rw [List.eq_nil_iff_forall_not_mem]
    rintro ⟨s, f⟩ hm
    obtain ⟨rfl, hne⟩ := mem_presentSymbols.1 hm
    rw [h s] at hne; exact hne rfl

/-! ### Σ f·L -/

/-- The cost of a tree is Σ f·L over its leaves (R77). -/
theorem HTree.cost_eq (f : Byte → Nat) (t : HTree) (c : List Bool) :
    ((t.paths c).map (fun e => f e.1 * e.2.length)).sum = t.cost f + t.weight f * c.length := by
  induction t generalizing c with
  | leaf s => simp [HTree.paths, HTree.cost, HTree.weight]
  | node l r ihl ihr =>
    simp only [HTree.paths, List.map_append, List.sum_append, ihl, ihr, HTree.cost_node, HTree.weight,
      List.length_append, List.length_singleton, Nat.mul_add, Nat.add_mul, Nat.mul_one]
    omega

/-- The length of a sequence of codes, symbol by symbol (R77). -/
theorem codeStream_length {code : Byte → List Bool} {l : List (Byte × List Bool)}
    (hd : (l.map Prod.fst).Nodup) (hc : ∀ e ∈ l, code e.1 = e.2) (symbols : List Byte)
    (hs : ∀ s ∈ symbols, s ∈ l.map Prod.fst) :
    (codeStream code symbols).length = (l.map (fun e => symbols.count e.1 * e.2.length)).sum := by
  induction symbols with
  | nil => simp [codeStream]
  | cons x xs ih =>
    have ih := ih (fun s hm => hs s (by simp [hm]))
    have hx : x ∈ l.map Prod.fst := hs x (by simp)
    obtain ⟨⟨x', p⟩, hm, rfl⟩ := List.mem_map.1 hx
    have hstep : ∀ l : List (Byte × List Bool), (l.map Prod.fst).Nodup → (x', p) ∈ l →
        (l.map (fun e => (x' :: xs).count e.1 * e.2.length)).sum =
          (l.map (fun e => xs.count e.1 * e.2.length)).sum + p.length := by
      intro l
      induction l with
      | nil => intro _ h; cases h
      | cons e l ihl =>
        intro hd hm
        rw [List.map_cons, List.nodup_cons] at hd
        simp only [List.map_cons, List.sum_cons]
        by_cases he : e.1 = x'
        · have hep : e = (x', p) := by
            rcases List.mem_cons.1 hm with h | h
            · exact h.symm
            · exact absurd (by rw [he]; exact List.mem_map_of_mem h) hd.1
          have hrest : l.map (fun e => (x' :: xs).count e.1 * e.2.length) =
              l.map (fun e => xs.count e.1 * e.2.length) := by
            refine List.map_congr_left ?_
            intro y hy
            have hne : x' ≠ y.1 := by
              intro h; exact hd.1 (by rw [he, h]; exact List.mem_map_of_mem hy)
            rw [List.count_cons_of_ne hne]
          rw [hrest, hep]
          simp only [List.count_cons_self, Nat.add_mul, Nat.one_mul]; omega
        · have hm' : (x', p) ∈ l := by
            rcases List.mem_cons.1 hm with h | h
            · exact absurd (by rw [← h]) he
            · exact h
          rw [ihl hd.2 hm', List.count_cons_of_ne (Ne.symm he)]; omega
    rw [hstep l hd hm, ← ih, codeStream, List.flatMap_cons, List.length_append, hc _ hm]
    simp only [codeStream]; omega

/-! ### The bound of R78 -/

/-- The symbols that COUNT_FREQ of an input finds are those of the input. -/
theorem mem_presentSymbols_countFreq {input : List Byte} (hl : input.length < 2 ^ 32) {s : Byte} :
    s ∈ (presentSymbols (countFreq input)).map Prod.fst ↔ s ∈ input := by
  have hc := countFreq_get input s hl
  simp only [List.mem_map, Prod.exists, exists_and_right, exists_eq_right]
  constructor
  · rintro ⟨f, hm⟩
    obtain ⟨rfl, hne⟩ := mem_presentSymbols.1 hm
    rw [hc] at hne
    exact List.count_pos_iff.1 (Nat.pos_of_ne_zero hne)
  · intro hm
    refine ⟨_, mem_presentSymbols.2 ⟨rfl, ?_⟩⟩
    rw [hc]
    have := List.count_pos_iff.2 hm
    omega

/-- The counts add up to the length of the input. -/
theorem presentSymbols_sum {input : List Byte} (hl : input.length < 2 ^ 32) :
    ((presentSymbols (countFreq input)).map Prod.snd).sum = input.length := by
  have h := codeStream_length (code := fun _ => [true])
    (l := (presentSymbols (countFreq input)).map (fun x => (x.1, [true])))
    (by
      rw [List.map_map]
      exact presentSymbols_nodup _)
    (by
      intro e he
      obtain ⟨x, -, rfl⟩ := List.mem_map.1 he
      rfl) input
    (by
      intro s hs
      rw [List.map_map]
      exact (mem_presentSymbols_countFreq hl).2 hs)
  have h1 : (codeStream (fun _ => [true]) input).length = input.length := by
    simp [codeStream]
  rw [h1, List.map_map] at h
  rw [h]
  congr 1
  refine List.map_congr_left ?_
  intro x hx
  have := (mem_presentSymbols.1 (show (x.1, x.2) ∈ _ from hx)).1
  rw [countFreq_get input x.1 hl] at this
  simp [this]

/-- T ≤ 8n (R78): the codes of the tree that BUILD_TREE makes of an input's counts need at most eight
bits for each of its bytes. -/
theorem payload_le {input : List Byte} (hl : input.length < 2 ^ 32) {tree : HTree}
    (hp : tree.leaves.Perm ((presentSymbols (countFreq input)).map Prod.fst))
    (hcost : ∀ M (P : List (Nat × Nat)),
      (P.map Prod.fst).Perm ((presentSymbols (countFreq input)).map Prod.snd) →
      Kraft M (P.map Prod.snd) → tree.cost (freqOf (countFreq input)) ≤ lengthCost P)
    {code : Byte → List Bool} (hcode : ∀ e ∈ tree.codes, code e.1 = e.2) :
    (codeStream code input).length ≤ 8 * input.length := by
  have hd : (tree.codes.map Prod.fst).Nodup := by
    rw [tree.codes_symbols]
    exact hp.nodup_iff.2 (presentSymbols_nodup _)
  have hlen := codeStream_length hd hcode input (by
    intro s hs
    rw [tree.codes_symbols]
    exact hp.mem_iff.2 ((mem_presentSymbols_countFreq hl).2 hs))
  have hsum := presentSymbols_sum hl
  cases tree with
  | leaf s =>
    rw [hlen]
    simp only [HTree.codes, List.map_cons, List.map_nil, List.sum_cons, List.sum_nil,
      List.length_singleton, Nat.mul_one, Nat.add_zero]
    have := List.count_le_length (a := s) (l := input)
    omega
  | node l r =>
    have hT : ((HTree.node l r).codes.map (fun e => input.count e.1 * e.2.length)).sum =
        (HTree.node l r).cost (freqOf (countFreq input)) := by
      have := (HTree.node l r).cost_eq (freqOf (countFreq input)) []
      rw [List.length_nil, Nat.mul_zero, Nat.add_zero] at this
      rw [← this]
      congr 1
      refine List.map_congr_left ?_
      intro e _
      rw [freqOf, countFreq_get input e.1 hl]
    rw [hlen, hT]
    refine Nat.le_trans (hcost 8 ((presentSymbols (countFreq input)).map (fun x => (x.2, 8))) ?_ ?_) ?_
    · rw [List.map_map]; exact .refl _
    · have h256 := presentSymbols_length (countFreq input)
      refine ⟨?_, ?_⟩
      · intro x hx
        rw [List.map_map] at hx
        obtain ⟨_, -, rfl⟩ := List.mem_map.1 hx
        exact Nat.le_refl _
      · have : ∀ l : List (Byte × Nat),
            kraftSum 8 ((l.map (fun x => (x.2, 8))).map Prod.snd) = l.length := by
          intro l
          induction l with
          | nil => rfl
          | cons x l ih =>
            simp only [kraftSum, List.map_cons, List.sum_cons] at ih ⊢
            rw [ih, List.length_cons]; omega
        rw [this]; omega
    · have : ∀ l : List (Byte × Nat), lengthCost (l.map (fun x => (x.2, 8))) = 8 * (l.map Prod.snd).sum := by
        intro l
        induction l with
        | nil => rfl
        | cons x l ih => simp only [lengthCost, List.map_cons, List.sum_cons] at *; omega
      rw [this, hsum]

theorem HTree.weight_eq (f : Byte → Nat) (t : HTree) : t.weight f = (t.leaves.map f).sum := by
  induction t with
  | leaf s => simp [HTree.weight, HTree.leaves]
  | node l r ihl ihr => simp only [HTree.weight, HTree.leaves, List.map_append, List.sum_append, ihl, ihr]

/-- Only inputs of at least F(35) bytes have a code longer than 32 bits (R115). -/
theorem depth_le_of_length {input : List Byte} (hl : input.length < 9227465) {tree : HTree}
    (hp : tree.leaves.Perm ((presentSymbols (countFreq input)).map Prod.fst))
    (hfib : Nat.fib (tree.depth + 2) ≤ tree.weight (freqOf (countFreq input))) : tree.depth ≤ 32 := by
  have hw : tree.weight (freqOf (countFreq input)) = input.length := by
    rw [HTree.weight_eq, (hp.map _).sum_eq, List.map_map, ← presentSymbols_sum (by omega)]
    congr 1
    refine List.map_congr_left ?_
    intro x hx
    exact ((mem_presentSymbols.1 (show (x.1, x.2) ∈ _ from hx)).1).symm
  by_contra hd
  have h35 : Nat.fib 35 = 9227465 := by decide +kernel
  have := Nat.fib_mono (show 35 ≤ tree.depth + 2 by omega)
  omega

end Sys2Proof.Machine
end

