-- ==== Sys2Proof/Laws/Codec.lean ====
section
/-! SUPPORT. COMPRESS and DECOMPRESS as wholes (R114, R118, R120): what the encoder leaves for an
input, what the decoder leaves for a compressed buffer, and that the second undoes the first. -/

namespace Sys2Proof.Machine

/-! ### Reading the input -/

theorem memReadRange_holds {m : Memory} {a : Nat} {bytes : List Byte} (h : HoldsBytes m a bytes) :
    memReadRange m a bytes.length = .ok bytes := by
  induction bytes generalizing a with
  | nil => rfl
  | cons b bs ih =>
    simp only [List.length_cons, memReadRange, memRead, h.head, ih h.tail]

/-- A range that reads holds what it reads. -/
theorem memReadRange_ok {m : Memory} {a n : Nat} {bytes : List Byte}
    (h : memReadRange m a n = .ok bytes) : bytes.length = n ∧ HoldsBytes m a bytes := by
  induction n generalizing a bytes with
  | zero => cases h; exact ⟨rfl, fun j hj => by simp at hj⟩
  | succ n ih =>
    simp only [memReadRange, memRead] at h
    cases hg : m.get a with
    | none => rw [hg] at h; cases h
    | some b =>
      rw [hg] at h
      simp only at h
      split at h
      · cases h
      · rename_i bs hbs
        cases h
        obtain ⟨h1, h2⟩ := ih hbs
        refine ⟨by rw [List.length_cons, h1], ?_⟩
        intro j hj
        cases j with
        | zero => simp only [Nat.add_zero, List.getElem_cons_zero]; exact hg
        | succ j =>
          have := h2 j (by simpa using hj)
          rw [List.getElem_cons_succ, ← this]; congr 1; omega

theorem memReadRange_error {m : Memory} {a n : Nat} {stop : Stop}
    (h : memReadRange m a n = .error stop) :
    ∃ j, a ≤ j ∧ j < a + n ∧ m.get j = none ∧ stop = .fault (.ibufUnwritten j) := by
  induction n generalizing a with
  | zero => cases h
  | succ n ih =>
    simp only [memReadRange, memRead] at h
    cases hg : m.get a with
    | none => rw [hg] at h; cases h; exact ⟨a, Nat.le_refl _, by omega, hg, rfl⟩
    | some b =>
      rw [hg] at h
      simp only at h
      split at h
      · rename_i e he
        cases h
        obtain ⟨j, h1, h2, h3, h4⟩ := ih he
        exact ⟨j, by omega, by omega, h3, h4⟩
      · cases h

theorem readInput_holds {s : State} {input : List Byte} (hb : HoldsBytes s.ibuf 0 input)
    (hl : input.length = s.inLen.toNat) (hi : s.inLen.toNat ≤ s.cfg.ibufBytes.toNat) :
    readInput s = .ok input := by
  have : s.inLenTooBig = false := by simp [State.inLenTooBig]; omega
  simp only [readInput, this, Bool.false_eq_true, if_false, ← hl]
  exact memReadRange_holds hb

/-! ### The encoder -/

/-- What is known of the tree COMPRESS builds (R86, R78, R115). -/
structure InputTree (input : List Byte) (a : Arena) (tree : HTree) : Prop where
  valid : a.valid = true
  wellFormed : a.WellFormed
  read : readTree a = .ok tree
  leaves : tree.leaves.Perm ((presentSymbols (countFreq input)).map Prod.fst)
  payload : ∀ code : Byte → List Bool, (∀ e ∈ tree.codes, code e.1 = e.2) →
    (codeStream code input).length ≤ 8 * input.length
  depth : input.length < 9227465 → tree.depth ≤ 32

theorem inputTree (input : List Byte) (a : Arena) (hne : input ≠ []) (hl : input.length < 2 ^ 32) :
    ∃ tree, InputTree input (buildTree (countFreq input) a) tree := by
  have hps : presentSymbols (countFreq input) ≠ [] := by
    obtain ⟨b, bs, rfl⟩ := List.exists_cons_of_ne_nil hne
    intro h
    have := (mem_presentSymbols_countFreq hl).2 (show b ∈ b :: bs by simp)
    rw [h] at this; cases this
  obtain ⟨tree, L, W, hh, -, hlv, hv, -, -, -, hcost, hfib⟩ := buildTree_spec (countFreq input) a hps
  have hwf := buildTree_wellFormed hv
  obtain ⟨t', L', hh', -, hr, -⟩ := hwf.tree
  obtain ⟨rfl, -⟩ := hh.unique hh'
  exact ⟨tree, hv, hwf, hr, hlv, fun code hc => payload_le hl hlv hcost hc,
    fun h => depth_le_of_length h hlv hfib⟩

theorem InputTree.nodup {input : List Byte} {a : Arena} {tree : HTree} (h : InputTree input a tree) :
    tree.leaves.Nodup := h.leaves.nodup_iff.2 (presentSymbols_nodup _)

/-- Every byte of the input has its code in the table. -/
theorem InputTree.code_mem {input : List Byte} (hl : input.length < 2 ^ 32) {a : Arena} {tree : HTree}
    (h : InputTree input a tree) {codes : CodeTable} (hc : buildCodes tree = .ok codes) {s : Byte}
    (hs : s ∈ input) : (s, codes.bits s) ∈ tree.codes := by
  have : s ∈ tree.codes.map Prod.fst := by
    rw [tree.codes_symbols]
    exact h.leaves.mem_iff.2 ((mem_presentSymbols_countFreq hl).2 hs)
  obtain ⟨⟨s', p⟩, hm, rfl⟩ := List.mem_map.1 this
  rw [(buildCodes_bits hc h.nodup hm).1]; exact hm

/-- What COMPRESS computes of a non-empty input that fits (R114). -/
theorem compressInput_ok {s : State} {input : List Byte}
    (hl : input.length = s.inLen.toNat) (hw : Memory.wf s.writer.obuf = true) {tree : HTree}
    (ht : InputTree input (buildTree (countFreq input) s.tree) tree) {codes : CodeTable}
    (hc : buildCodes tree = .ok codes) (hfit : (compressedBytes input tree codes).length ≤ s.obufCap) :
    ∃ w, compressInput s input =
        .ok { freq := countFreq input, tree := buildTree (countFreq input) s.tree, codes := codes
              hdrSize := BitVec.ofNat 32 (8 + tree.serialize.length), writer := w } ∧
      w.cnt = 0 ∧ w.acc = 0 ∧ w.outLen.toNat = (compressedBytes input tree codes).length ∧
      Memory.wf w.obuf = true ∧
      ∀ a, w.obuf.get a = ((compressedBytes input tree codes)[a]?).or (s.writer.obuf.get a) := by
  have hcap : s.obufCap < 2 ^ 32 := s.cfg.obufBytes.isLt
  have horig : BitVec.ofNat 32 input.length = s.inLen := by rw [hl]; simp
  rw [compressedBytes, List.length_append, headerBytes_length, payloadBytes_length] at hfit
  obtain ⟨w1, e1, c1, a1, o1, f1, g1⟩ := writeHeader_ok hcap s.inLen tree s.writer hw (by omega)
  have o1' : w1.outLen.toNat = 8 + tree.serialize.length := by
    rw [o1, BitVec.toNat_ofNat]; exact Nat.mod_eq_of_lt (by omega)
  obtain ⟨w2, w3, e2, e3, ⟨c3, a3, o3, g3⟩, f3⟩ :=
    payload_written hcap (codeStream codes.bits input) w1 c1 a1 f1 (by omega)
  refine ⟨w3, ?_, by rw [c3, c1], by rw [a3, a1], ?_, f3, ?_⟩
  · simp only [compressInput, ht.read, hc, e1, o1]
    have e2' : writeBits s.obufCap (input.flatMap codes.bits) true w1 = .ok w2 := e2
    simp only [e2', e3]
  · rw [o3, o1', compressedBytes, List.length_append, headerBytes_length]
  · intro a
    rw [g3, g1, o1', compressedBytes, horig]
    by_cases ha : 8 + tree.serialize.length ≤ a
    · rw [if_pos ha, List.getElem?_append_right (by rw [headerBytes_length]; exact ha),
        headerBytes_length, List.getElem?_eq_none (l := headerBytes s.inLen tree)
          (by rw [headerBytes_length]; exact ha)]
      rfl
    · rw [if_neg ha, List.getElem?_append_left (by rw [headerBytes_length]; omega)]

/-- Where the compressed buffer does not fit, COMPRESS ends with OUTPUT_OVERFLOW (R114). -/
theorem compressInput_overflow {s : State} {input : List Byte} (hw : Memory.wf s.writer.obuf = true)
    {tree : HTree} (ht : InputTree input (buildTree (countFreq input) s.tree) tree) {codes : CodeTable}
    (hc : buildCodes tree = .ok codes) (hfit : s.obufCap < (compressedBytes input tree codes).length) :
    compressInput s input = .error (.raise .outputOverflow true) := by
  have hcap : s.obufCap < 2 ^ 32 := s.cfg.obufBytes.isLt
  rw [compressedBytes, List.length_append, headerBytes_length, payloadBytes_length] at hfit
  by_cases hh : 8 + tree.serialize.length ≤ s.obufCap
  · obtain ⟨w1, e1, c1, a1, o1, f1, -⟩ := writeHeader_ok hcap s.inLen tree s.writer hw hh
    have o1' : w1.outLen.toNat = 8 + tree.serialize.length := by
      rw [o1, BitVec.toNat_ofNat]; exact Nat.mod_eq_of_lt (by omega)
    have hp := payload_overflow hcap (codeStream codes.bits input) w1 c1 a1 f1 (by omega) (by omega)
    rw [codeStream] at hp
    rcases hp with e2 | ⟨w2, e2, e3⟩
    · simp only [compressInput, ht.read, hc, e1, e2]
    · simp only [compressInput, ht.read, hc, e1, e2, e3]
  · simp only [compressInput, ht.read, hc,
      writeHeader_overflow hcap s.inLen tree s.writer (Nat.lt_of_not_le hh)]

/-- Where an input has too long a code, COMPRESS ends with CODE_TOO_LONG (R114). -/
theorem compressInput_tooLong {s : State} {input : List Byte} {tree : HTree}
    (ht : InputTree input (buildTree (countFreq input) s.tree) tree) (hd : 32 < tree.depth) :
    compressInput s input = .error (.raise .codeTooLong true) := by
  rcases buildCodes_cases tree with ⟨h, -⟩ | ⟨-, e⟩
  · have := (tree.codes_length_le_iff 32 (by decide)).1 h
    omega
  · simp only [compressInput, ht.read, e]

/-- The compressed buffer of n bytes has at most n + 775 bytes (R75, R78). -/
theorem compressedBytes_length_le {input : List Byte} {a : Arena} {tree : HTree}
    (ht : InputTree input a tree) {codes : CodeTable} (hc : buildCodes tree = .ok codes) :
    (compressedBytes input tree codes).length ≤ input.length + 775 := by
  have hp := ht.payload codes.bits (fun e he => (buildCodes_bits hc ht.nodup he).1)
  have h1 := tree.serialize_length
  have h2 := ht.leaves.length_eq
  have h3 := presentSymbols_length (countFreq input)
  rw [compressedBytes, List.length_append, headerBytes_length, payloadBytes_length]
  simp only [List.length_map] at h2
  omega

/-! ### The header, read back -/

theorem le32_le32Bytes (w : Word) :
    le32 (wordByte w 0) (wordByte w 1) (wordByte w 2) (wordByte w 3) = w := by
  simp only [le32, wordByte]
  ext i hi
  simp only [BitVec.getElem_append, BitVec.getElem_extractLsb']
  have key : ∀ k, k = i → w.getLsbD k = w[i] := by rintro k rfl; exact BitVec.getLsbD_eq_getElem _
  split_ifs
  · exact key _ (by omega)
  · exact key _ (by omega)
  · exact key _ (by omega)
  · exact key _ (by omega)

/-- The two fields of a header, read back (R99). -/
theorem readHeaderFields_ok {ibuf : Memory} {inLen h o : Word}
    (hb : HoldsBytes ibuf 0 (le32Bytes h ++ le32Bytes o)) (h8 : 8 ≤ inLen.toNat)
    (hh : h.toNat ≤ inLen.toNat) : readHeaderFields ibuf inLen = .ok (h, o) := by
  have e : memReadRange ibuf 0 8 = .ok (le32Bytes h ++ le32Bytes o) := memReadRange_holds hb
  have h1 : ¬inLen.toNat < 8 := by omega
  have h2 : ¬inLen.toNat < h.toNat := by omega
  simp only [readHeaderFields, h1, if_false, e, le32Bytes, List.cons_append, List.nil_append,
    le32_le32Bytes, h2]

/-- The arena `des_tree` leaves for a tree (R93). -/
abbrev arenaFor (nodes : Vector Node nodeMax) (t : HTree) : Arena :=
  { nodes := nodes, count := BitVec.ofNat 10 t.size, root := 0, valid := true }

/-- READ_HEADER on a header it accepts (R99). -/
theorem readHeader_ok {ibuf : Memory} {inLen h o : Word} {t : HTree} (nodes : Vector Node nodeMax)
    (hin : HeaderIn ibuf inLen h o t) :
    ∃ nodes', Holds nodes' 0 t (List.range t.size) ∧
      readHeader ibuf inLen nodes =
        .ok { hdrSize := h, origSize := o, tree := arenaFor nodes' t
              after := BitVec.ofNat 32 (8 + t.serialize.length) } := by
  obtain ⟨hb, hl, hh, hk⟩ := hin
  obtain ⟨hb1, hb2⟩ := HoldsBytes.append.1 hb
  obtain ⟨nodes', hn, e⟩ := desTree_serialize t 8 h.toNat nodes (by simpa using hb2) hl hk
  refine ⟨nodes', hn, ?_⟩
  have hf := readHeaderFields_ok hb1 (inLen := inLen) (by omega) hh
  simp only [readHeader, hf, e]

/-- The header WRITE_HEADER makes is one that READ_HEADER accepts (R98, R99). -/
theorem HeaderIn.of_headerBytes {ibuf : Memory} {inLen o : Word} {t : HTree}
    (hb : HoldsBytes ibuf 0 (headerBytes o t)) (hl : 8 + t.serialize.length ≤ inLen.toNat)
    (hk : t.leaves.length ≤ 256) :
    HeaderIn ibuf inLen (BitVec.ofNat 32 (8 + t.serialize.length)) o t := by
  have hlt := inLen.isLt
  have hh : (BitVec.ofNat 32 (8 + t.serialize.length)).toNat = 8 + t.serialize.length := by
    rw [BitVec.toNat_ofNat]; exact Nat.mod_eq_of_lt (by omega)
  exact ⟨hb, Nat.le_of_eq hh.symm, by rw [hh]; exact hl, hk⟩

/-! ### The decoder -/

/-- Symbols pushed one after another stand in OBUF in that order (R118). -/
theorem foldl_push {cap : Nat} (hcap : cap < 2 ^ 32) (symbols : List Byte) (w : Writer)
    (hw : Memory.wf w.obuf = true) (hfit : w.outLen.toNat + symbols.length ≤ cap) :
    w.AppendedBytes symbols (symbols.foldl Writer.push w) ∧
      Memory.wf (symbols.foldl Writer.push w).obuf = true := by
  obtain ⟨w', e, h1, h2⟩ := emitAll_appended hcap symbols true w hw hfit
  have key : ∀ (symbols : List Byte) (d : Bool) (w w' : Writer), emitAll cap symbols d w = .ok w' →
      w' = symbols.foldl Writer.push w := by
    intro symbols
    induction symbols with
    | nil => intro d w w' h; cases h; rfl
    | cons b bs ih =>
      intro d w w' h
      rcases emit_cases cap b d w with ⟨-, e⟩ | ⟨-, e⟩
      · simp only [emitAll, e] at h; cases h
      · simp only [emitAll, e] at h; exact ih _ _ _ h
  rw [← key _ _ _ _ e]; exact ⟨h1, h2⟩

/-- DECOMPRESS behind a header that READ_HEADER accepts (R118): the check of original_size, then the
decoder over the payload. -/
theorem decompressInput_eq {s : State} {h o : Word} {t : HTree}
    (hin : HeaderIn s.ibuf s.inLen h o t) :
    ∃ nodes', Holds nodes' 0 t (List.range t.size) ∧
      decompressInput s =
        if s.obufCap < o.toNat then .error (.raise .outputOverflow true)
        else
          match decodeMany (arenaFor nodes' t) s.ibuf o.toNat (payloadReader h o s.inLen)
              { s.writer with outLen := 0 } with
          | .error e => .error e
          | .ok (r, w) => .ok {
              header := { hdrSize := h, origSize := o, tree := arenaFor nodes' t
                          after := BitVec.ofNat 32 (8 + t.serialize.length) }
              reader := r, writer := w } := by
  obtain ⟨nodes', hn, e⟩ := readHeader_ok s.tree.nodes hin
  exact ⟨nodes', hn, by simp only [decompressInput, e] <;> rfl⟩

/-- The end of the payload reader's extent (R118): h + min(o, IN_LEN − h), which does not wrap. -/
theorem payloadReader_limit {h o inLen : Word} (hh : h.toNat ≤ inLen.toNat) :
    (payloadReader h o inLen).limit.toNat = h.toNat + min o.toNat (inLen.toNat - h.toNat) := by
  have := inLen.isLt
  simp only [payloadReader, BitVec.toNat_ofNat]
  exact Nat.mod_eq_of_lt (by omega)

/-- The payload reader is the one reader with its three fields. -/
theorem eq_payloadReader {h o inLen : Word} {r : Reader} (hh : h.toNat ≤ inLen.toNat) (hp : r.pos = h)
    (hb : r.bit = 0) (hl : r.limit.toNat = h.toNat + min o.toNat (inLen.toNat - h.toNat)) :
    r = payloadReader h o inLen := by
  obtain ⟨pos, bit, limit⟩ := r
  subst hp hb
  have : limit = (payloadReader pos o inLen).limit :=
    BitVec.eq_of_toNat_eq (hl.trans (payloadReader_limit hh).symm)
  rw [this]; rfl

/-- What DECOMPRESS computes of a buffer in the compressed format (R71, R118): a header, and the codes
of as many symbols as it says, within the extent. -/
theorem decompressInput_ok {s : State} {h o : Word} {t : HTree} {code : Byte → List Bool}
    {symbols : List Byte} (hin : HeaderIn s.ibuf s.inLen h o t)
    (hcode : ∀ x ∈ symbols, (x, code x) ∈ t.codes) (ho : symbols.length = o.toNat)
    (hg : (payloadReader h o s.inLen).Gives s.ibuf (codeStream code symbols))
    (hcap : symbols.length ≤ s.obufCap) (hw : Memory.wf s.writer.obuf = true) :
    ∃ nodes' r w, Holds nodes' 0 t (List.range t.size) ∧
      (payloadReader h o s.inLen).MovedBy (codeStream code symbols).length r ∧
      decompressInput s = .ok
        { header := { hdrSize := h, origSize := o, tree := arenaFor nodes' t
                      after := BitVec.ofNat 32 (8 + t.serialize.length) }
          reader := r, writer := w } ∧
      w.cnt = s.writer.cnt ∧ w.acc = s.writer.acc ∧ w.outLen.toNat = symbols.length ∧
      Memory.wf w.obuf = true ∧
      ∀ a, w.obuf.get a = (symbols[a]?).or (s.writer.obuf.get a) := by
  have hclt : s.obufCap < 2 ^ 32 := s.cfg.obufBytes.isLt
  obtain ⟨nodes', hn, e⟩ := decompressInput_eq hin
  obtain ⟨r, hm, e1⟩ := decodeMany_codes (a := arenaFor nodes' t) hn code symbols hcode _ hg
    { s.writer with outLen := 0 }
  obtain ⟨⟨p1, p2, p3, p4⟩, hwf⟩ := foldl_push hclt symbols { s.writer with outLen := 0 } hw
    (by show 0 + _ ≤ _; omega)
  refine ⟨nodes', r, _, hn, hm, ?_, p1, p2, ?_, hwf, ?_⟩
  · have hc : ¬s.obufCap < symbols.length := by omega
    rw [e, ← ho, if_neg hc, e1]
  · rw [p3]; show 0 + _ = _; omega
  · intro a
    exact (p4 a).trans (if_pos (Nat.zero_le a))

/-- An original_size that OBUF cannot hold (R118). -/
theorem decompressInput_overflow {s : State} {h o : Word} {t : HTree}
    (hin : HeaderIn s.ibuf s.inLen h o t) (ho : s.obufCap < o.toNat) :
    decompressInput s = .error (.raise .outputOverflow true) := by
  obtain ⟨nodes', -, e⟩ := decompressInput_eq hin
  rw [e, if_pos ho]

/-- An extent that ends before original_size symbols (R118). -/
theorem decompressInput_stops {s : State} {h o : Word} {t : HTree} {code : Byte → List Bool}
    {symbols : List Byte} (hin : HeaderIn s.ibuf s.inLen h o t) (ho : o.toNat ≤ s.obufCap)
    (hcode : ∀ x ∈ symbols, (x, code x) ∈ t.codes) (hlen : symbols.length < o.toNat)
    {x : Byte} {p q : List Bool} (hp : (x, p ++ q) ∈ t.codes) (hq : q ≠ []) {r : Reader}
    (hg : (payloadReader h o s.inLen).Gives s.ibuf (codeStream code symbols ++ p))
    (hm : (payloadReader h o s.inLen).MovedBy (codeStream code symbols ++ p).length r)
    (hend : r.limit.toNat ≤ r.pos.toNat) :
    decompressInput s = .error (.raise .endOfStream true) := by
  obtain ⟨nodes', hn, e⟩ := decompressInput_eq hin
  rw [e, if_neg (by omega), decodeMany_stops (a := arenaFor nodes' t) hn code symbols hcode hp hq hlen
    hg hm hend]

end Sys2Proof.Machine
end

