-- ==== Sys2Proof/Laws/Errors.lean ====
section
/-! SUPPORT. How each command's pseudocode can stop: with which errors (R124, R127), whether before any
write (R125), and with which faults (R51). -/

namespace Sys2Proof.Machine

/-- The fault of a core read of an IBUF byte that nothing has written (R51). -/
def Unwritten (m : Memory) (stop : Stop) : Prop := ∃ a, stop = .fault (.ibufUnwritten a) ∧ m.get a = none

theorem memRead_error {m : Memory} {a : Nat} {stop : Stop} (h : memRead m a = .error stop) :
    Unwritten m stop := by
  unfold memRead at h
  split at h
  · cases h
  · rename_i hn; cases h; exact ⟨a, rfl, hn⟩

theorem readInput_error {s : State} {stop : Stop} (h : readInput s = .error stop) :
    stop = .raise .badOperand false ∨ Unwritten s.ibuf stop := by
  unfold readInput at h
  split at h
  · cases h; exact .inl rfl
  · obtain ⟨j, -, -, hj, rfl⟩ := memReadRange_error h
    exact .inr ⟨j, rfl, hj⟩

theorem readWithin_error {m : Memory} {limit p : Nat} {stop : Stop}
    (h : readWithin m limit p = .error stop) :
    stop = .raise .truncatedOrCorrupt true ∨ Unwritten m stop := by
  unfold readWithin at h
  split at h
  · cases h; exact .inl rfl
  · exact .inr (memRead_error h)

theorem fetchToken_error {m : Memory} {d : Des} {stop : Stop} (h : fetchToken m d = .error stop) :
    stop = .raise .truncatedOrCorrupt true ∨ Unwritten m stop := by
  unfold fetchToken at h
  split at h
  · rename_i e he; cases h; exact readWithin_error he
  · split at h
    · cases h
    · split at h
      · rename_i e he; cases h; exact readWithin_error he
      · split at h
        · cases h
        · cases h; exact .inl rfl
    · cases h; exact .inl rfl

theorem desToken_error {i : Instr} {d : Des} {nodes : Vector Node nodeMax} {stop : Stop}
    (h : desToken i d nodes = .error stop) : stop = .raise .truncatedOrCorrupt true := by
  cases i <;> simp only [desToken, desLeaf, desInternal, corrupt] at h
  all_goals first
    | (cases h; rfl)
    | (split at h <;> cases h; rfl)

theorem desLoop_error {m : Memory} {fuel : Nat} {d : Des} {nodes : Vector Node nodeMax} {stop : Stop}
    (h : desLoop m fuel d nodes = .error stop) :
    stop = .raise .truncatedOrCorrupt true ∨ Unwritten m stop := by
  induction fuel generalizing d nodes with
  | zero => cases h; exact .inl rfl
  | succ fuel ih =>
    unfold desLoop at h
    split at h
    · rename_i e he; cases h; exact fetchToken_error he
    · split at h
      · rename_i e he; cases h; exact .inl (desToken_error he)
      · cases h
      · exact ih h

theorem desTree_error {m : Memory} {p0 limit : Nat} {nodes : Vector Node nodeMax} {stop : Stop}
    (h : desTree m p0 limit nodes = .error stop) :
    stop = .raise .truncatedOrCorrupt true ∨ Unwritten m stop := by
  unfold desTree at h
  split at h
  · rename_i e he; cases h; exact desLoop_error he
  · cases h

/-- What the deserializer reads lies between its cursor and its bound (R92). -/
theorem readWithin_unwritten {m : Memory} {limit p : Nat} {f : Fault}
    (h : readWithin m limit p = .error (.fault f)) : p < limit ∧ m.get p = none := by
  unfold readWithin at h
  split at h
  · cases h
  · rename_i hl
    unfold memRead at h
    split at h
    · cases h
    · rename_i hn; exact ⟨Nat.lt_of_not_le hl, hn⟩

theorem fetchToken_unwritten {m : Memory} {d : Des} {f : Fault}
    (h : fetchToken m d = .error (.fault f)) : ∃ a, d.pos ≤ a ∧ a < d.limit ∧ m.get a = none := by
  unfold fetchToken at h
  split at h
  · rename_i e he
    cases h
    obtain ⟨hl, hn⟩ := readWithin_unwritten he
    exact ⟨_, Nat.le_refl _, hl, hn⟩
  · split at h
    · cases h
    · split at h
      · rename_i e he
        cases h
        obtain ⟨hl, hn⟩ := readWithin_unwritten he
        exact ⟨_, Nat.le_succ _, hl, hn⟩
      · split at h <;> cases h
    · cases h

/-- A token moves neither the cursor nor the bound: fetching it did. -/
theorem desToken_cursor {i : Instr} {d d' : Des} {nodes nodes' : Vector Node nodeMax}
    {ro : Option NodeIdx} (h : desToken i d nodes = .ok (d', nodes', ro)) :
    d'.pos = d.pos ∧ d'.limit = d.limit := by
  cases i <;> simp only [desToken, desLeaf, desInternal, corrupt] at h
  all_goals first
    | cases h
    | (split at h <;> cases h; exact ⟨rfl, rfl⟩)

theorem fetchToken_pos {m : Memory} {d d' : Des} {i : Instr} (h : fetchToken m d = .ok (i, d')) :
    d.pos ≤ d'.pos := by
  rcases fetchToken_cases h with ⟨-, -, -, rfl⟩ | ⟨s, -, -, -, -, rfl⟩
  · exact Nat.le_succ _
  · exact Nat.le_add_right _ 2

theorem desLoop_unwritten {m : Memory} {fuel : Nat} {d : Des} {nodes : Vector Node nodeMax} {f : Fault}
    (h : desLoop m fuel d nodes = .error (.fault f)) :
    ∃ a, d.pos ≤ a ∧ a < d.limit ∧ m.get a = none := by
  induction fuel generalizing d nodes with
  | zero => cases h
  | succ fuel ih =>
    unfold desLoop at h
    split at h
    · rename_i e he; cases h; exact fetchToken_unwritten he
    · rename_i i d1 hf
      split at h
      · rename_i e he; cases h; cases desToken_error he
      · cases h
      · rename_i d2 nodes2 ht
        obtain ⟨h1, h2⟩ := desToken_cursor ht
        obtain ⟨a, ha, hl, hn⟩ := ih h
        have := fetchToken_pos hf
        exact ⟨a, by omega, by rw [h2, (fetchToken_des hf).1] at hl; exact hl, hn⟩

/-- Bytes that hold no tree (R92, R97, R99): `des_tree` raises TRUNCATED_OR_CORRUPT. -/
theorem desTree_corrupt {m : Memory} {p0 limit : Nat} {nodes : Vector Node nodeMax}
    (hn : HoldsNoTree m p0 limit) : desTree m p0 limit nodes = corrupt := by
  cases h : desTree m p0 limit nodes with
  | ok r =>
    obtain ⟨t, h1, h2, h3⟩ := desTree_sound h
    have := hn.noTree t h1 h2
    omega
  | error stop =>
    rcases desTree_error h with rfl | ⟨a, rfl, -⟩
    · rfl
    · unfold desTree at h
      split at h
      · rename_i e he
        cases h
        obtain ⟨a, h1, h2, h3⟩ := desLoop_unwritten he
        exact absurd h3 (hn.written a h1 h2)
      · cases h

theorem readHeaderFields_error {m : Memory} {inLen : Word} {stop : Stop}
    (h : readHeaderFields m inLen = .error stop) :
    stop = .raise .truncatedOrCorrupt true ∨ Unwritten m stop := by
  unfold readHeaderFields at h
  split at h
  · cases h; exact .inl rfl
  · split at h
    · split at h <;> cases h; exact .inl rfl
    · cases h; exact .inl rfl
    · rename_i e he
      cases h
      obtain ⟨j, -, -, hj, rfl⟩ := memReadRange_error he
      exact .inr ⟨j, rfl, hj⟩

theorem readHeader_error {m : Memory} {inLen : Word} {nodes : Vector Node nodeMax} {stop : Stop}
    (h : readHeader m inLen nodes = .error stop) :
    stop = .raise .truncatedOrCorrupt true ∨ Unwritten m stop := by
  unfold readHeader at h
  split at h
  · rename_i e he; cases h; exact readHeaderFields_error he
  · split at h
    · rename_i e he; cases h; exact desTree_error he
    · cases h

theorem readBit_error {m : Memory} {dirty : Bool} {r : Reader} {stop : Stop}
    (h : readBit m dirty r = .error stop) :
    stop = .raise .endOfStream dirty ∨ Unwritten m stop := by
  rcases readBit_cases m dirty r with ⟨-, e⟩ | ⟨-, hn, e⟩ | ⟨-, b, -, e⟩ <;> rw [e] at h <;> cases h
  · exact .inl rfl
  · exact .inr ⟨_, rfl, hn⟩

theorem walkBit_error {nodes : Vector Node nodeMax} {cur : NodeIdx} {v : Bool} {stop : Stop}
    (h : walkBit nodes cur v = .error stop) : stop = .fault .arenaBroken := by
  unfold walkBit at h
  split at h
  · cases h; rfl
  · split at h
    · cases h
    · split at h
      · cases h; rfl
      · split at h <;> cases h

theorem walkLoop_error {nodes : Vector Node nodeMax} {m : Memory} {fuel : Nat} {cur : NodeIdx}
    {dirty : Bool} {r : Reader} {stop : Stop} (h : walkLoop nodes m fuel cur dirty r = .error stop) :
    (∃ d, (dirty = true → d = true) ∧ stop = .raise .endOfStream d) ∨ Unwritten m stop ∨
      stop = .fault .arenaBroken := by
  induction fuel generalizing cur dirty r with
  | zero => cases h; exact .inl ⟨_, id, rfl⟩
  | succ fuel ih =>
    unfold walkLoop at h
    split at h
    · rename_i e he
      cases h
      rcases readBit_error he with rfl | hu
      · exact .inl ⟨_, id, rfl⟩
      · exact .inr (.inl hu)
    · split at h
      · rename_i e he; cases h; exact .inr (.inr (walkBit_error he))
      · cases h
      · rcases ih h with ⟨d, hd, rfl⟩ | hu
        · exact .inl ⟨d, fun _ => hd rfl, rfl⟩
        · exact .inr hu

/-- A walk over a tree in the arena never finds it broken. -/
theorem walkLoop_sound {nodes : Vector Node nodeMax} {m : Memory} {fuel : Nat} {cur : NodeIdx}
    {t : HTree} {L : List Nat} (ht : Holds nodes cur.toNat t L) {dirty : Bool} {r : Reader} :
    walkLoop nodes m fuel cur dirty r ≠ .error (.fault .arenaBroken) := by
  induction fuel generalizing cur dirty r t L with
  | zero => simp [walkLoop]
  | succ fuel ih =>
    intro h
    unfold walkLoop at h
    split at h
    · rename_i e he
      cases h
      rcases readBit_error he with h | ⟨a, h, -⟩ <;> cases h
    · rename_i v r' _
      cases t with
      | leaf x => rw [walkBit_leaf ht] at h; cases h
      | node a b =>
        obtain ⟨c, Lc, -, hc, hw⟩ := walkBit_node ht v
        rw [hw] at h
        cases hv : (if v then b else a) with
        | leaf x => rw [hv] at h; cases h
        | node a' b' => rw [hv] at h hc; exact ih hc h

theorem decodeSym_error {a : Arena} {m : Memory} {dirty : Bool} {r : Reader} {stop : Stop}
    (h : decodeSym a m dirty r = .error stop) :
    (∃ d, (dirty = true → d = true) ∧ stop = .raise .endOfStream d) ∨ Unwritten m stop ∨
      stop = .fault .arenaBroken := walkLoop_error h

/-- `decode_sym` as a command's first write: its error leaves the cursors where they are when there is
not one bit, and comes after a bit otherwise. -/
theorem decodeSym_error_start {a : Arena} {m : Memory} {r : Reader} {stop : Stop}
    (h : decodeSym a m false r = .error stop) :
    stop = .raise .endOfStream (decide (r.pos.toNat < r.limit.toNat)) ∨ Unwritten m stop ∨
      stop = .fault .arenaBroken := by
  simp only [decodeSym, walkLoop] at h
  rcases readBit_cases m false r with ⟨hl, e⟩ | ⟨-, hn, e⟩ | ⟨hl, b, -, e⟩
  · simp only [e] at h; cases h; simp [Nat.not_lt.2 hl]
  · simp only [e] at h; cases h; exact .inr (.inl ⟨_, rfl, hn⟩)
  · simp only [e] at h
    split at h
    · rename_i e' he; cases h; exact .inr (.inr (walkBit_error he))
    · cases h
    · rcases walkLoop_error h with ⟨d, hd, rfl⟩ | hu
      · exact .inl (by rw [hd rfl]; simp [hl])
      · exact .inr hu

theorem decodeMany_error {a : Arena} {m : Memory} {n : Nat} {r : Reader} {w : Writer} {stop : Stop}
    (h : decodeMany a m n r w = .error stop) :
    stop = .raise .endOfStream true ∨ Unwritten m stop ∨ stop = .fault .arenaBroken := by
  induction n generalizing r w with
  | zero => cases h
  | succ n ih =>
    unfold decodeMany at h
    split at h
    · rename_i e he
      cases h
      rcases decodeSym_error he with ⟨d, hd, rfl⟩ | hu
      · rw [hd rfl]; exact .inl rfl
      · exact .inr hu
    · exact ih h

theorem decodeMany_sound {a : Arena} {m : Memory} {n : Nat} {r : Reader} {w : Writer} {t : HTree}
    {L : List Nat} (ht : Holds a.nodes a.root.toNat t L) :
    decodeMany a m n r w ≠ .error (.fault .arenaBroken) := by
  induction n generalizing r w with
  | zero => simp [decodeMany]
  | succ n ih =>
    intro h
    unfold decodeMany at h
    split at h
    · rename_i e he; cases h; exact walkLoop_sound ht he
    · exact ih h

theorem readTree_error {a : Arena} {stop : Stop} (h : readTree a = .error stop) :
    stop = .fault .arenaBroken := by
  unfold readTree at h
  split at h <;> cases h; rfl

theorem buildCodes_error {t : HTree} {stop : Stop} (h : buildCodes t = .error stop) :
    stop = .raise .codeTooLong true := by
  unfold buildCodes at h
  split at h <;> cases h; rfl

theorem flushByte_error {cap : Nat} {dirty : Bool} {w : Writer} {stop : Stop}
    (h : flushByte cap dirty w = .error stop) : stop = .raise .outputOverflow dirty := by
  rcases flushByte_cases cap dirty w with ⟨-, e⟩ | ⟨-, -, e⟩ | ⟨-, -, e⟩ <;> rw [e] at h <;> cases h
  rfl

/-- COMPRESS after COUNT_FREQ: its errors all leave draws, and its arena is never broken. -/
theorem compressInput_error {s : State} {input : List Byte} {stop : Stop}
    (h : compressInput s input = .error stop) :
    stop = .raise .codeTooLong true ∨ stop = .raise .outputOverflow true ∨
      stop = .fault .arenaBroken := by
  unfold compressInput at h
  simp only at h
  split at h
  · rename_i e he; cases h; exact .inr (.inr (readTree_error he))
  · split at h
    · rename_i e he; cases h; exact .inl (buildCodes_error he)
    · split at h
      · rename_i e he; cases h; exact .inr (.inl (writeHeader_error he))
      · split at h
        · rename_i e he; cases h; exact .inr (.inl (writeBits_error_dirty he))
        · split at h
          · rename_i e he; cases h; exact .inr (.inl (flushByte_error he))
          · cases h

theorem decompressInput_error {s : State} {stop : Stop} (h : decompressInput s = .error stop) :
    stop = .raise .truncatedOrCorrupt true ∨ stop = .raise .outputOverflow true ∨
      stop = .raise .endOfStream true ∨ Unwritten s.ibuf stop := by
  unfold decompressInput at h
  split at h
  · rename_i e he
    cases h
    rcases readHeader_error he with rfl | hu
    · exact .inl rfl
    · exact .inr (.inr (.inr hu))
  · rename_i header hh
    split at h
    · cases h; exact .inr (.inl rfl)
    · split at h
      · rename_i e he
        cases h
        rcases decodeMany_error he with rfl | hu | rfl
        · exact .inr (.inr (.inl rfl))
        · exact .inr (.inr (.inr hu))
        · exfalso
          unfold readHeader at hh
          split at hh
          · cases hh
          · split at hh
            · cases hh
            · rename_i hd
              cases hh
              obtain ⟨t, L, ht, -⟩ := (desTree_wellFormed hd).1.tree
              exact decodeMany_sound ht he
      · cases h

end Sys2Proof.Machine
end

