-- ==== Sys2Proof/Laws/Commands.lean ====
section
/-! SUPPORT. Everything a command can do (R125, R139): it completes without error with what its
pseudocode writes, or with an error before any write, or with an error and draws in its write set. -/

namespace Sys2Proof.Machine

/-- What an error leaves of a command's write set (R69, R125). -/
def drawOf : Instr → State → State
  | .compress => drawCompress
  | .decompress => drawDecompress
  | .buildCodes => State.drawCodes
  | .serializeTree => drawSerialize
  | .deserializeTree => drawDeserialize
  | .writeHeader => drawWriteHeader
  | .readHeader => drawReadHeader
  | .writeBit | .writeCode | .bwFinish | .encodeByte => drawWriter
  | .readBit | .decodeSymbol => drawReadBit
  | .nop | .countFreq | .buildTree | .bwReset | .brInit => id
  | .treeInternal | .treeLeaf _ | .payloadBitLeft | .payloadBitRight => id

/-- What a command's pseudocode writes when it returns, before the command completes. -/
def Returns (i : Instr) (s u : State) : Prop :=
  match i with
  | .nop => u = s
  | .compress =>
    (s.inLen = 0 ∧ u = s.compressEmpty) ∨
    ∃ input c, readInput s = .ok input ∧ s.inLen ≠ 0 ∧ compressInput s input = .ok c ∧
      u = { s with
        freq := c.freq, tree := c.tree, codes := c.codes
        hdrSize := c.hdrSize, origSize := s.inLen, writer := c.writer }
  | .decompress =>
    (s.inLen = 0 ∧ u = s.decompressEmpty) ∨
    ∃ r, s.inLen ≠ 0 ∧ s.inLenTooBig = false ∧ decompressInput s = .ok r ∧
      u = { s.withHeader r.header with reader := r.reader, writer := r.writer }
  | .countFreq => ∃ input, readInput s = .ok input ∧ u = { s with freq := countFreq input }
  | .buildTree =>
    u = { s with tree := buildTree s.freq s.tree, codes := { s.codes with valid := false } }
  | .buildCodes =>
    ∃ t c, s.tree.valid = true ∧ readTree s.tree = .ok t ∧ buildCodes t = .ok c ∧
      u = { s with codes := c }
  | .serializeTree =>
    ∃ t w, s.tree.valid = true ∧ s.writer.cnt = 0 ∧ readTree s.tree = .ok t ∧
      emitAll s.obufCap t.serialize false s.writer = .ok w ∧
      u = { s with writer := w, result := w.outLen - s.writer.outLen }
  | .deserializeTree =>
    ∃ a p, s.inLenTooBig = false ∧ desTree s.ibuf s.arg0.toNat s.desLimit s.tree.nodes = .ok (a, p) ∧
      u = { s with tree := a, codes := { s.codes with valid := false }, result := p }
  | .writeHeader =>
    ∃ t w, s.tree.valid = true ∧ readTree s.tree = .ok t ∧
      writeHeader s.obufCap s.arg0 t s.writer = .ok w ∧
      u = { s with writer := w, hdrSize := w.outLen, origSize := s.arg0 }
  | .readHeader =>
    ∃ r, s.inLenTooBig = false ∧ readHeader s.ibuf s.inLen s.tree.nodes = .ok r ∧
      u = { s.withHeader r with result := r.after }
  | .bwReset => u = { s with writer := s.writer.clearByte }
  | .writeBit =>
    ∃ w, writeBit s.obufCap (bitArg s.arg0) false s.writer = .ok w ∧ u = { s with writer := w }
  | .writeCode =>
    ∃ w, s.arg1.toNat ≤ 32 ∧
      writeBits s.obufCap (leadingBits s.arg0 s.arg1.toNat) false s.writer = .ok w ∧
      u = { s with writer := w }
  | .bwFinish => ∃ w, flushByte s.obufCap false s.writer = .ok w ∧ u = { s with writer := w }
  | .encodeByte =>
    ∃ w, s.codes.valid = true ∧
      writeBits s.obufCap (s.codes.bits (symbolArg s.arg0)) false s.writer = .ok w ∧
      u = { s with writer := w }
  | .brInit => s.inLenTooBig = false ∧ u = { s with reader := readerAt s.arg0 s.arg1 s.inLen }
  | .readBit =>
    ∃ v r, readBit s.ibuf false s.reader = .ok (v, r) ∧
      u = { s with reader := r, result := (BitVec.ofBool v).setWidth 32 }
  | .decodeSymbol =>
    ∃ x r, s.tree.valid = true ∧ decodeSym s.tree s.ibuf false s.reader = .ok (x, r) ∧
      u = { s with reader := r, result := x.setWidth 32 }
  | .treeInternal | .treeLeaf _ | .payloadBitLeft | .payloadBitRight => False

/-- A command's pseudocode may raise e, with or without a write before it (R125, R127). -/
structure Raises (i : Instr) (s : State) (e : Err) (dirty : Bool) : Prop where
  mem : e ∈ errorsOf i
  wrote : dirty = true ↔ e ≠ .badOperand ∧ e ≠ .badState ∧ s.WroteBefore i

/-- The three ways a command ends. -/
inductive Ends (i : Instr) (s : State) : State → Prop
  | returns {u : State} (h : Returns i s u) : Ends i s (u.complete .none)
  | clean {e : Err} (h : Raises i s e false) : Ends i s (s.complete e)
  | drawn {e : Err} (h : Raises i s e true) : Ends i s ((drawOf i s).complete e)

/-- One pseudocode that ends by `finish`. -/
theorem ends_of_finish {α : Type} {i : Instr} {s t : State} {r : Except Stop α} {write : α → State}
    (h : finish (drawOf i) s r write = .next t)
    (hok : ∀ a, r = .ok a → Returns i s (write a))
    (herr : ∀ e d, r = .error (.raise e d) → Raises i s e d) : Ends i s t := by
  rcases finish_next h with ⟨a, hr, rfl⟩ | ⟨e, hr, rfl⟩ | ⟨e, hr, rfl⟩
  · exact .returns (hok a hr)
  · exact .clean (herr e _ hr)
  · exact .drawn (herr e _ hr)

theorem Raises.ne_none {i : Instr} {s : State} {e : Err} {d : Bool} (h : Raises i s e d) : e ≠ .none := by
  rintro rfl
  have := h.mem
  cases i <;> simp [errorsOf] at this

theorem raises_of_not {i : Instr} {s : State} {e : Err} {d : Bool} (he : e ∈ errorsOf i)
    (h1 : e ≠ .badOperand) (h2 : e ≠ .badState) (h : d = false ↔ ¬s.WroteBefore i) : Raises i s e d :=
  ⟨he, by cases d <;> simp_all⟩

theorem Unwritten.not_raise {m : Memory} {e : Err} {d : Bool} (h : Unwritten m (.raise e d)) : False := by
  obtain ⟨a, h, -⟩ := h; cases h

/-- The command inversion: whatever a command's step answers is one of its ends. -/
theorem exec_ends {i : Instr} {s t : State} (hi : i.format = .cmd) (h : exec i s = .next t) :
    Ends i s t := by
  cases i with
  | nop => cases h; exact .returns rfl
  | bwReset => cases h; exact .returns rfl
  | buildTree => cases h; exact .returns rfl
  | compress =>
    simp only [exec, execCompress] at h
    split at h
    · rename_i stop hr
      rcases readInput_error hr with rfl | ⟨a, rfl, -⟩
      · cases h; exact .clean ⟨by simp [errorsOf], by simp⟩
      · cases h
    · rename_i input hr
      split at h
      · rename_i h0; cases h; exact .returns (.inl ⟨h0, rfl⟩)
      · rename_i h0
        refine ends_of_finish (i := .compress) h ?_ ?_
        · intro c hc; exact .inr ⟨input, c, hr, h0, hc, rfl⟩
        · intro e d he
          rcases compressInput_error he with h | h | h <;> cases h <;> constructor <;> simp [errorsOf, State.WroteBefore]
  | decompress =>
    simp only [exec, execDecompress] at h
    split at h
    · cases h; exact .clean ⟨by simp [errorsOf], by simp⟩
    · rename_i hb
      split at h
      · rename_i h0; cases h; exact .returns (.inl ⟨h0, rfl⟩)
      · rename_i h0
        refine ends_of_finish (i := .decompress) h ?_ ?_
        · intro r hr; exact .inr ⟨r, h0, by simpa using hb, hr, rfl⟩
        · intro e d he
          rcases decompressInput_error he with h | h | h | h
          · cases h; constructor <;> simp [errorsOf, State.WroteBefore]
          · cases h; constructor <;> simp [errorsOf, State.WroteBefore]
          · cases h; constructor <;> simp [errorsOf, State.WroteBefore]
          · exact h.not_raise.elim
  | countFreq =>
    refine ends_of_finish (i := .countFreq) h ?_ ?_
    · intro input hr; exact ⟨input, hr, rfl⟩
    · intro e d he
      rcases readInput_error he with h | h
      · cases h; constructor <;> simp [errorsOf, State.WroteBefore]
      · exact h.not_raise.elim
  | buildCodes =>
    refine ends_of_finish (i := .buildCodes) h ?_ ?_
    · intro c hr
      split at hr
      · rename_i hv
        split at hr
        · cases hr
        · rename_i t ht; exact ⟨t, c, hv, ht, hr, rfl⟩
      · cases hr
    · intro e d he
      split at he
      · split at he
        · rename_i e' ht; cases he; cases readTree_error ht
        · cases buildCodes_error he; constructor <;> simp [errorsOf, State.WroteBefore]
      · cases he; constructor <;> simp [errorsOf, State.WroteBefore]
  | serializeTree =>
    refine ends_of_finish (i := .serializeTree) h ?_ ?_
    · intro w hr
      split at hr
      · rename_i hv
        simp only [Bool.and_eq_true, beq_iff_eq] at hv
        split at hr
        · cases hr
        · rename_i t ht; exact ⟨t, w, hv.1, hv.2, ht, hr, rfl⟩
      · cases hr
    · intro e d he
      split at he
      · split at he
        · rename_i e' ht; cases he; cases readTree_error ht
        · cases emitAll_error he
          exact ⟨by simp [errorsOf], decide_eq_true_iff.trans (by simp [State.WroteBefore, State.obufCap])⟩
      · cases he; constructor <;> simp [errorsOf, State.WroteBefore]
  | deserializeTree =>
    refine ends_of_finish (i := .deserializeTree) h ?_ ?_
    · intro r hr
      split at hr
      · cases hr
      · rename_i hb; exact ⟨r.1, r.2, by simpa using hb, hr, rfl⟩
    · intro e d he
      split at he
      · cases he; constructor <;> simp [errorsOf, State.WroteBefore]
      · rcases desTree_error he with h | h
        · cases h; constructor <;> simp [errorsOf, State.WroteBefore]
        · exact h.not_raise.elim
  | writeHeader =>
    refine ends_of_finish (i := .writeHeader) h ?_ ?_
    · intro w hr
      split at hr
      · rename_i hv
        split at hr
        · cases hr
        · rename_i t ht; exact ⟨t, w, hv, ht, hr, rfl⟩
      · cases hr
    · intro e d he
      split at he
      · split at he
        · rename_i e' ht; cases he; cases readTree_error ht
        · cases writeHeader_error he; constructor <;> simp [errorsOf, State.WroteBefore]
      · cases he; constructor <;> simp [errorsOf, State.WroteBefore]
  | readHeader =>
    refine ends_of_finish (i := .readHeader) h ?_ ?_
    · intro r hr
      split at hr
      · cases hr
      · rename_i hb; exact ⟨r, by simpa using hb, hr, rfl⟩
    · intro e d he
      split at he
      · cases he; constructor <;> simp [errorsOf, State.WroteBefore]
      · rcases readHeader_error he with h | h
        · cases h; constructor <;> simp [errorsOf, State.WroteBefore]
        · exact h.not_raise.elim
  | writeBit =>
    refine ends_of_finish (i := .writeBit) h ?_ ?_
    · intro w hr; exact ⟨w, hr, rfl⟩
    · intro e d he
      obtain ⟨-, -, hd⟩ := writeBit_error he; cases hd; constructor <;> simp [errorsOf, State.WroteBefore]
  | writeCode =>
    refine ends_of_finish (i := .writeCode) h ?_ ?_
    · intro w hr
      split at hr
      · cases hr
      · rename_i h32; exact ⟨w, by simpa using h32, hr, rfl⟩
    · intro e d he
      split at he
      · cases he; constructor <;> simp [errorsOf, State.WroteBefore]
      · obtain ⟨hb, d', hd, hw⟩ := writeBits_error he
        cases hd
        rw [leadingBits_head hb] at hw
        exact raises_of_not (by simp [errorsOf]) (by decide) (by decide)
          (hw.trans (by simp [State.WroteBefore, State.obufCap]))
  | bwFinish =>
    refine ends_of_finish (i := .bwFinish) h ?_ ?_
    · intro w hr; exact ⟨w, hr, rfl⟩
    · intro e d he; cases flushByte_error he; constructor <;> simp [errorsOf, State.WroteBefore]
  | encodeByte =>
    refine ends_of_finish (i := .encodeByte) h ?_ ?_
    · intro w hr
      split at hr
      · rename_i hv
        simp only [Bool.and_eq_true] at hv
        exact ⟨w, hv.1, hr, rfl⟩
      · cases hr
    · intro e d he
      split at he
      · obtain ⟨hb, d', hd, hw⟩ := writeBits_error he
        cases hd
        rw [CodeTable.bits, leadingBits_head hb] at hw
        exact raises_of_not (by simp [errorsOf]) (by decide) (by decide)
          (hw.trans (by simp [State.WroteBefore, State.obufCap, CodeTable.entry]))
      · cases he; constructor <;> simp [errorsOf, State.WroteBefore]
  | brInit =>
    refine ends_of_finish (i := .brInit) h ?_ ?_
    · intro r hr
      split at hr
      · cases hr
      · rename_i hb; cases hr; exact ⟨by simpa using hb, rfl⟩
    · intro e d he
      split at he <;> cases he; constructor <;> simp [errorsOf, State.WroteBefore]
  | readBit =>
    refine ends_of_finish (i := .readBit) h ?_ ?_
    · intro r hr; exact ⟨r.1, r.2, hr, rfl⟩
    · intro e d he
      rcases readBit_error he with h | h
      · cases h; constructor <;> simp [errorsOf, State.WroteBefore]
      · exact h.not_raise.elim
  | decodeSymbol =>
    refine ends_of_finish (i := .decodeSymbol) h ?_ ?_
    · intro r hr
      split at hr
      · rename_i hv; exact ⟨r.1, r.2, hv, hr, rfl⟩
      · cases hr
    · intro e d he
      split at he
      · rcases decodeSym_error_start he with h | h | h
        · cases h; constructor <;> simp [errorsOf, State.WroteBefore]
        · exact h.not_raise.elim
        · cases h
      · cases he; constructor <;> simp [errorsOf, State.WroteBefore]
  | treeInternal => cases hi
  | treeLeaf x => cases hi
  | payloadBitLeft => cases hi
  | payloadBitRight => cases hi

end Sys2Proof.Machine
end

