-- ==== Sys2Proof/Laws/Decode.lean ====
section
/-! SUPPORT. The decoder: a command word is its opcode's one word, and which opcodes decode (R67 to
R70). -/

namespace Sys2Proof

/-- A word with RSVD = 0 is the command word of its OPCODE. -/
theorem cmdWord_extract {w : Word} (h : cmdWordRsvdZero w = true) : cmdWord (w.extractLsb' 0 8) = w := by
  simp only [cmdWordRsvdZero, beq_iff_eq] at h
  have h1 := congrArg BitVec.toNat h
  have hw := w.isLt
  simp only [BitVec.extractLsb'_toNat, Nat.shiftRight_eq_div_pow, BitVec.ofNat_eq_ofNat,
    BitVec.toNat_ofNat] at h1
  apply BitVec.eq_of_toNat_eq
  simp only [cmdWord, BitVec.toNat_setWidth, BitVec.extractLsb'_toNat, Nat.shiftRight_zero]
  omega

theorem cmdWord_rsvd : ∀ op : Byte, cmdWordRsvdZero (cmdWord op) = true ∧
    (cmdWord op).extractLsb' 0 8 = op := by decide +kernel

theorem opcode_of_decodeOpcode {op : Byte} {i : Instr} (h : decodeOpcode op = .ok i) :
    i.opcode? = some op := by
  have key : ∀ op : Byte, (match decodeOpcode op with
      | .ok i => decide (i.opcode? = some op)
      | .error _ => true) = true := by decide +kernel
  have := key op
  rw [h] at this
  simpa using this

theorem decodeOpcode_of_opcode {op : Byte} {i : Instr} (h : i.opcode? = some op) :
    decodeOpcode op = .ok i := by
  cases i <;> simp only [Instr.opcode?, Option.some.injEq, reduceCtorEq] at h <;> subst h <;> rfl

/-- Only commands come out of a command word. -/
theorem opcode_of_decodeCmd {w : Word} {i : Instr} (h : decodeCmd w = .ok i) :
    ∃ op, i.opcode? = some op ∧ w = cmdWord op := by
  unfold decodeCmd at h
  split at h
  · rename_i hr
    exact ⟨_, opcode_of_decodeOpcode h, (cmdWord_extract hr).symm⟩
  · cases h

theorem decodeCmd_cmdWord {op : Byte} {i : Instr} (h : i.opcode? = some op) :
    decodeCmd (cmdWord op) = .ok i := by
  rw [decodeCmd, if_pos (cmdWord_rsvd op).1, (cmdWord_rsvd op).2, decodeOpcode_of_opcode h]

theorem format_of_opcode {i : Instr} {op : Byte} (h : i.opcode? = some op) : i.format = .cmd := by
  cases i <;> first | rfl | cases h

end Sys2Proof
end

