-- ==== Sys2Proof/Laws/HostPort.lean ====
section
/-! SUPPORT. The host port: where each register stands (R23), and that every value a register reads as
lies within its fields (R23, R56). -/

namespace Sys2Proof.Machine

/-- Only offset 0x004 is CMD. -/
theorem offset_of_regAt_cmd {off : Word} (h : regAt off = some .cmd) : off = 0x004 := by
  unfold regAt at h
  simp only at h
  split at h
  · cases h
  · split at h
    · rename_i h4 hlt
      have key : ∀ w, controlRegs[w]? = some Reg.cmd → w = 1 := by
        intro w hw
        by_cases h17 : w < 17
        · have : ∀ w : Fin 17, controlRegs[w.val]? = some Reg.cmd → w.val = 1 := by decide
          exact this ⟨w, h17⟩ hw
        · rw [List.getElem?_eq_none (by simpa [controlRegs] using h17)] at hw
          cases hw
      have := key _ h
      apply BitVec.eq_of_toNat_eq
      simp; omega
    · repeat' (split at h)
      all_goals cases h

/-- Nothing stands at a misaligned or an unmapped offset (R55, R56). -/
theorem regAt_unmapped {off : Word} (h : off.toNat % 4 ≠ 0 ∨ (0x044 ≤ off.toNat ∧ off.toNat ≤ 0x3FC) ∨
    (0x17FC ≤ off.toNat ∧ off.toNat ≤ 0x1FFC) ∨ 0x2000 ≤ off.toNat) : regAt off = none := by
  unfold regAt
  simp only [nodeMax]
  split
  · rfl
  · split
    · have : 17 ≤ off.toNat / 4 := by omega
      exact List.getElem?_eq_none (by simpa [controlRegs] using this)
    · split
      · omega
      · split
        · omega
        · split
          · omega
          · split
            · omega
            · rfl

theorem toNat_offset {base k : Nat} (h : base + 4 * k < 2 ^ 32) :
    (BitVec.ofNat 32 (base + 4 * k)).toNat = base + 4 * k := by
  rw [BitVec.toNat_ofNat]; exact Nat.mod_eq_of_lt h

theorem regAt_freq (b : Byte) : regAt (BitVec.ofNat 32 (0x400 + 4 * b.toNat)) = some (.freq b) := by
  have hb := b.isLt
  unfold regAt
  simp only [toNat_offset (show 0x400 + 4 * b.toNat < 2 ^ 32 by omega)]
  rw [if_neg (by omega), if_neg (by omega), if_pos (by omega)]
  have : (0x400 + 4 * b.toNat) / 4 - 0x100 = b.toNat := by omega
  rw [this, BitVec.ofNat_toNat, BitVec.setWidth_eq]

theorem regAt_codeVal (b : Byte) : regAt (BitVec.ofNat 32 (0x800 + 4 * b.toNat)) = some (.codeVal b) := by
  have hb := b.isLt
  unfold regAt
  simp only [toNat_offset (show 0x800 + 4 * b.toNat < 2 ^ 32 by omega)]
  rw [if_neg (by omega), if_neg (by omega), if_neg (by omega), if_pos (by omega)]
  have : (0x800 + 4 * b.toNat) / 4 - 0x200 = b.toNat := by omega
  rw [this, BitVec.ofNat_toNat, BitVec.setWidth_eq]

theorem regAt_codeLen (b : Byte) : regAt (BitVec.ofNat 32 (0xC00 + 4 * b.toNat)) = some (.codeLen b) := by
  have hb := b.isLt
  unfold regAt
  simp only [toNat_offset (show 0xC00 + 4 * b.toNat < 2 ^ 32 by omega)]
  rw [if_neg (by omega), if_neg (by omega), if_neg (by omega), if_neg (by omega), if_pos (by omega)]
  have : (0xC00 + 4 * b.toNat) / 4 - 0x300 = b.toNat := by omega
  rw [this, BitVec.ofNat_toNat, BitVec.setWidth_eq]

theorem regAt_node (i : Fin nodeMax) : regAt (BitVec.ofNat 32 (0x1000 + 4 * i.val)) = some (.node i) := by
  have hi : i.val < 511 := i.isLt
  unfold regAt
  simp only [toNat_offset (show 0x1000 + 4 * i.val < 2 ^ 32 by omega)]
  rw [if_neg (by omega), if_neg (by omega), if_neg (by omega), if_neg (by omega), if_neg (by omega)]
  have : (0x1000 + 4 * i.val) / 4 - 0x400 = i.val := by omega
  simp only [this]
  rw [dif_pos i.isLt]

/-- Everything a read of a register can return: its value, or a draw within its fields. -/
theorem State.regRead_cases {s : State} {off : Word} {r : Reg} (h : regAt off = some r) :
    s.regRead off = s.drawn r ∨ ∃ v, s.regValue r = some v ∧ s.regRead off = v := by
  unfold State.regRead
  rw [h]
  simp only
  split
  · exact .inl rfl
  · cases hv : s.regValue r with
    | none => exact .inl rfl
    | some v => exact .inr ⟨v, rfl, rfl⟩

/-- While BUSY = 0 a register reads its value (R23). -/
theorem State.regRead_idle {s : State} {off : Word} {r : Reg} {v : Word} (hb : s.busy = false)
    (h : regAt off = some r) (hv : s.regValue r = some v) : s.regRead off = v := by
  unfold State.regRead
  simp [h, hb, hv]

/-- A register that no command writes reads its value at any time (R58). -/
theorem State.regRead_stable {s : State} {off : Word} {r : Reg} {v : Word} (hr : r.stable = true)
    (h : regAt off = some r) (hv : s.regValue r = some v) : s.regRead off = v := by
  unfold State.regRead
  simp [h, hr, hv]

/-- The bits outside a register's fields read 0 where its value has none there. -/
theorem State.regRead_reserved {s : State} {off : Word} {r : Reg} {m : Word} (h : regAt off = some r)
    (hm : r.fieldMask &&& m = 0) (hv : ∀ v, s.regValue r = some v → v &&& m = 0) :
    s.regRead off &&& m = 0 := by
  rcases State.regRead_cases (s := s) h with e | ⟨v, hv', e⟩
  · rw [e, State.drawn, BitVec.and_assoc, hm]; exact BitVec.and_zero
  · rw [e]; exact hv v hv'

/-- A read depends neither on the order of moves to come nor on the port's last answer. -/
@[simp] theorem State.regRead_port (s : State) (l : List Move) (a : Option Answer) (off : Word) :
    { s with schedule := l, answer := a }.regRead off = s.regRead off := by
  unfold State.regRead
  cases regAt off with
  | none => rfl
  | some r => cases r <;> rfl

/-- Nor does a read of IBUF. -/
@[simp] theorem State.ibufRead_port (s : State) (l : List Move) (v : Option Answer) (a : Word) :
    { s with schedule := l, answer := v }.ibufRead a = s.ibufRead a := rfl

/-- Nor does a read of OBUF. -/
@[simp] theorem State.obufRead_port (s : State) (l : List Move) (v : Option Answer) (a : Word) :
    { s with schedule := l, answer := v }.obufRead a = s.obufRead a := rfl

/-- A byte written since is what an OBUF address holds. -/
@[simp] theorem State.obufByte_written {s : State} {a : Nat} {b : Byte}
    (h : s.writer.obuf.get a = some b) : s.obufByte a = some b := by
  simp [State.obufByte, h]

/-- What an OBUF address holds depends on OBUF and on the draws in it alone. -/
theorem State.obufByte_congr {s t : State} {a : Nat} (h : t.writer.obuf.get a = s.writer.obuf.get a)
    (hd : t.obufDraws = s.obufDraws) : t.obufByte a = s.obufByte a := by
  simp only [State.obufByte, h, hd]

/-- After an error that draws OBUF from address a up, every byte from there up holds the draw, and every
other one what it held (R125). -/
theorem State.obufByte_drawn {s t : State} (hw : Memory.wf s.writer.obuf = true) {a : Nat}
    (h : t.writer.obuf = s.writer.obuf.below a) (hd : t.obufDraws = holdDraw s.obufDraws a s.draws)
    (c : Nat) :
    t.obufByte c = if a ≤ c then some (Config.freeObuf s.draws c) else s.obufByte c := by
  simp only [State.obufByte, h, hd, Memory.get_below hw, drawAt_holdDraw]
  by_cases hc : a ≤ c
  · simp [hc, Nat.not_lt.2 hc]
  · simp [hc, Nat.not_le.1 hc]

/-- A host write does not depend on the order of moves to come, and leaves it. -/
theorem State.regStore_schedule (s : State) (l : List Move) (r : Reg) (v : Word) :
    { s with schedule := l }.regStore r v = { s.regStore r v with schedule := l } := by
  cases r <;> rfl

/-- While BUSY = 0 an answered read changes the answer and nothing else (R57). -/
theorem State.answerWith_idle {s : State} (h : s.busy = false) (v : Answer) :
    s.answerWith v = { s with answer := some v } := by
  simp [State.answerWith, h]

/-! ### Register words and their fields (R26, R32, R34, R39) -/
theorem extract_high {w v : Nat} (x : BitVec w) (y : BitVec v) (k m n : Nat) (hk : v + k = m) :
    (x ++ y).extractLsb' m n = x.extractLsb' k n := by
  subst hk
  ext i hi
  rw [BitVec.getElem_extractLsb', BitVec.getElem_extractLsb', BitVec.getLsbD_append,
    if_neg (by omega)]
  congr 1; omega

theorem extract_low {w v : Nat} (x : BitVec w) (y : BitVec v) (k n : Nat) (h : k + n ≤ v) :
    (x ++ y).extractLsb' k n = y.extractLsb' k n := by
  ext i hi
  rw [BitVec.getElem_extractLsb', BitVec.getElem_extractLsb', BitVec.getLsbD_append,
    if_pos (by omega)]

theorem extract_all {w : Nat} (x : BitVec w) : x.extractLsb' 0 w = x := by
  ext i hi
  rw [BitVec.getElem_extractLsb', Nat.zero_add, BitVec.getLsbD_eq_getElem]

theorem getLsbD_high {w v : Nat} (x : BitVec w) (y : BitVec v) (k m : Nat) (hk : v + k = m) :
    (x ++ y).getLsbD m = x.getLsbD k := by
  subst hk
  rw [BitVec.getLsbD_append, if_neg (by omega)]
  congr 1; omega

theorem treeInfo_count (t : Arena) (c : Bool) : (treeInfoWord t c).extractLsb' 8 10 = t.count := by
  unfold treeInfoWord
  rw [extract_high _ _ 7 _ _ rfl, extract_high _ _ 6 _ _ rfl, extract_high _ _ 0 _ _ rfl,
    extract_low _ _ _ _ (by decide), extract_all]

theorem treeInfo_root (t : Arena) (c : Bool) : (treeInfoWord t c).extractLsb' 20 9 = t.root := by
  unfold treeInfoWord
  rw [extract_high _ _ 19 _ _ rfl, extract_high _ _ 18 _ _ rfl, extract_high _ _ 12 _ _ rfl,
    extract_high _ _ 2 _ _ rfl, extract_high _ _ 0 _ _ rfl, extract_low _ _ _ _ (by decide), extract_all]

theorem treeInfo_reserved (t : Arena) (c : Bool) : (treeInfoWord t c).extractLsb' 2 6 = 0 ∧
    (treeInfoWord t c).extractLsb' 18 2 = 0 ∧ (treeInfoWord t c).extractLsb' 29 3 = 0 := by
  unfold treeInfoWord
  refine ⟨?_, ?_, ?_⟩
  · rw [extract_high _ _ 1 _ _ rfl, extract_high _ _ 0 _ _ rfl, extract_low _ _ _ _ (by decide), extract_all]
  · rw [extract_high _ _ 17 _ _ rfl, extract_high _ _ 16 _ _ rfl, extract_high _ _ 10 _ _ rfl,
      extract_high _ _ 0 _ _ rfl, extract_low _ _ _ _ (by decide), extract_all]
  · rw [extract_high _ _ 28 _ _ rfl, extract_high _ _ 27 _ _ rfl, extract_high _ _ 21 _ _ rfl,
      extract_high _ _ 11 _ _ rfl, extract_high _ _ 9 _ _ rfl, extract_high _ _ 0 _ _ rfl, extract_all]

theorem treeInfo_flags (t : Arena) (c : Bool) :
    (treeInfoWord t c).getLsbD 0 = t.valid ∧ (treeInfoWord t c).getLsbD 1 = c := by
  unfold treeInfoWord
  refine ⟨?_, ?_⟩
  · rw [BitVec.getLsbD_append, if_pos (by decide)]
    cases t.valid <;> rfl
  · rw [getLsbD_high _ _ 0 _ rfl, BitVec.getLsbD_append, if_pos (by decide)]
    cases c <;> rfl

theorem Node.word_symbol (n : Node) : n.word.extractLsb' 0 8 = n.symbol := by
  unfold Node.word
  rw [extract_low _ _ _ _ (by decide), extract_all]

theorem Node.word_left (n : Node) : n.word.extractLsb' 8 9 = n.left := by
  unfold Node.word
  rw [extract_high _ _ 0 _ _ rfl, extract_low _ _ _ _ (by decide), extract_all]

theorem Node.word_right (n : Node) : n.word.extractLsb' 17 9 = n.right := by
  unfold Node.word
  rw [extract_high _ _ 9 _ _ rfl, extract_high _ _ 0 _ _ rfl, extract_low _ _ _ _ (by decide), extract_all]

theorem Node.word_reserved (n : Node) : n.word.extractLsb' 26 5 = 0 := by
  unfold Node.word
  rw [extract_high _ _ 18 _ _ rfl, extract_high _ _ 9 _ _ rfl, extract_high _ _ 0 _ _ rfl,
    extract_low _ _ _ _ (by decide), extract_all]

theorem Node.word_isLeaf (n : Node) : n.word.getLsbD 31 = n.isLeaf := by
  unfold Node.word
  rw [getLsbD_high _ _ 23 _ rfl, getLsbD_high _ _ 14 _ rfl, getLsbD_high _ _ 5 _ rfl,
    getLsbD_high _ _ 0 _ rfl]
  cases n.isLeaf <;> rfl

theorem Writer.word_fields (w : Writer) :
    w.word.extractLsb' 0 8 = w.acc ∧ w.word.extractLsb' 8 3 = w.cnt ∧ w.word.extractLsb' 11 21 = 0 := by
  unfold Writer.word
  refine ⟨?_, ?_, ?_⟩
  · rw [extract_low _ _ _ _ (by decide), extract_all]
  · rw [extract_high _ _ 0 _ _ rfl, extract_low _ _ _ _ (by decide), extract_all]
  · rw [extract_high _ _ 3 _ _ rfl, extract_high _ _ 0 _ _ rfl, extract_all]

/-- The bits of a field that is 0. -/
theorem getLsbD_of_field {w : Word} {a n : Nat} (h : w.extractLsb' a n = 0) {i : Nat} (h1 : a ≤ i) (h2 : i < a + n) :
    w.getLsbD i = false := by
  have := congrArg (fun b => b.getLsbD (i - a)) h
  simp only [BitVec.getLsbD_extractLsb', BitVec.ofNat_eq_ofNat, BitVec.getLsbD_zero] at this
  rw [show a + (i - a) = i by omega, decide_eq_true (by omega : i - a < n), Bool.true_and] at this
  exact this

theorem and_eq_zero_of_fields {w m : Word} (fields : List (Nat × Nat))
    (h : ∀ f ∈ fields, w.extractLsb' f.1 f.2 = 0)
    (hm : ∀ i : Fin 32, m.getLsbD i.val = true → ∃ f ∈ fields, f.1 ≤ i.val ∧ i.val < f.1 + f.2) :
    w &&& m = 0 := by
  apply BitVec.eq_of_getLsbD_eq
  intro i hi
  rw [BitVec.getLsbD_and]
  cases hb : m.getLsbD i with
  | false => simp
  | true =>
    obtain ⟨f, hf, h1, h2⟩ := hm ⟨i, hi⟩ hb
    rw [getLsbD_of_field (h f hf) h1 h2]; simp

theorem Writer.word_reserved (w : Writer) : w.word &&& 0xFFFFF800 = 0 :=
  and_eq_zero_of_fields [(11, 21)] (by simpa using w.word_fields.2.2) (by decide)
theorem treeInfo_word_reserved (t : Arena) (c : Bool) : treeInfoWord t c &&& 0xE00C00FC = 0 :=
  and_eq_zero_of_fields [(2, 6), (18, 2), (29, 3)] (by simpa using treeInfo_reserved t c) (by decide)
theorem Node.word_and_reserved (n : Node) : n.word &&& 0x7C000000 = 0 :=
  and_eq_zero_of_fields [(26, 5)] (by simpa using n.word_reserved) (by decide)
theorem brBit_reserved : ∀ x : BitVec 3, x.setWidth 32 &&& (0xFFFFFFF8 : Word) = 0 := by decide
theorem codeLen_reserved : ∀ x : BitVec 6, x.setWidth 32 &&& (0xFFFFFFC0 : Word) = 0 := by decide
theorem State.statusWord_reserved (s : State) : s.statusWord &&& 0xFFFFF0F8 = 0 := by
  unfold State.statusWord
  cases s.busy <;> cases s.done <;> cases s.dropped <;> cases s.err <;> decide
theorem State.statusWord_fields (s : State) : s.statusWord.getLsbD 0 = s.busy ∧ s.statusWord.getLsbD 1 = s.done ∧
   s.statusWord.getLsbD 2 = s.dropped ∧ s.statusWord.extractLsb' 8 4 = s.err.code := by
  unfold State.statusWord
  cases s.busy <;> cases s.done <;> cases s.dropped <;> cases s.err <;> decide

end Sys2Proof.Machine
end

