-- ==== Sys2Proof/Laws/Frames.lean ====
section
/-! SUPPORT. The frames: what no command changes, and that a command changes nothing outside its
write set (R69, R125). -/

namespace Sys2Proof.Machine

theorem SameInputs.trans {s t u : State} (h : SameInputs s t) (h' : SameInputs t u) : SameInputs s u := by
  obtain ⟨h1, h2, h3, h4, h5, h6, h7, h8, h9⟩ := h
  obtain ⟨g1, g2, g3, g4, g5, g6, g7, g8, g9⟩ := h'
  exact ⟨g1.trans h1, g2.trans h2, g3.trans h3, g4.trans h4, g5.trans h5, g6.trans h6, g7.trans h7,
    g8.trans h8, g9.trans h9⟩

theorem sameInputs_drawResult (s : State) : SameInputs s s.drawResult :=
  ⟨rfl, rfl, rfl, rfl, rfl, rfl, rfl, rfl, rfl⟩

theorem sameInputs_drawHeader (s : State) : SameInputs s s.drawHeader :=
  ⟨rfl, rfl, rfl, rfl, rfl, rfl, rfl, rfl, rfl⟩

theorem sameInputs_drawBwState (s : State) : SameInputs s s.drawBwState :=
  ⟨rfl, rfl, rfl, rfl, rfl, rfl, rfl, rfl, rfl⟩

theorem sameInputs_drawObuf (s : State) : SameInputs s s.drawObuf :=
  ⟨rfl, rfl, rfl, rfl, rfl, rfl, rfl, rfl, rfl⟩

theorem sameInputs_drawCursor (s : State) : SameInputs s s.drawCursor :=
  ⟨rfl, rfl, rfl, rfl, rfl, rfl, rfl, rfl, rfl⟩

theorem sameInputs_drawExtent (s : State) : SameInputs s s.drawExtent :=
  ⟨rfl, rfl, rfl, rfl, rfl, rfl, rfl, rfl, rfl⟩

theorem sameInputs_drawTree (s : State) : SameInputs s s.drawTree :=
  ⟨rfl, rfl, rfl, rfl, rfl, rfl, rfl, rfl, rfl⟩

theorem sameInputs_drawCodes (s : State) : SameInputs s s.drawCodes :=
  ⟨rfl, rfl, rfl, rfl, rfl, rfl, rfl, rfl, rfl⟩

theorem sameInputs_drawFreq (s : State) : SameInputs s s.drawFreq :=
  ⟨rfl, rfl, rfl, rfl, rfl, rfl, rfl, rfl, rfl⟩

theorem sameInputs_drawOutput (s : State) (a : Nat) : SameInputs s (s.drawOutput a) :=
  ⟨rfl, rfl, rfl, rfl, rfl, rfl, rfl, rfl, rfl⟩

/-- The draws of an error change nothing that no command writes. -/
theorem sameInputs_drawOf (i : Instr) (s : State) : SameInputs s (drawOf i s) := by
  cases i with
  | compress =>
    exact (((((sameInputs_drawFreq _).trans (sameInputs_drawTree _)).trans
      (sameInputs_drawCodes _)).trans (sameInputs_drawHeader _)).trans
      (sameInputs_drawObuf _)).trans (sameInputs_drawBwState _)
  | decompress =>
    exact ((((sameInputs_drawTree _).trans (sameInputs_drawHeader _)).trans
      (sameInputs_drawCursor _)).trans (sameInputs_drawExtent _)).trans (sameInputs_drawObuf _)
  | buildCodes => exact sameInputs_drawCodes _
  | serializeTree => exact (sameInputs_drawOutput _ _).trans (sameInputs_drawResult _)
  | deserializeTree => exact (sameInputs_drawTree _).trans (sameInputs_drawResult _)
  | writeHeader =>
    exact ((sameInputs_drawOutput _ _).trans (sameInputs_drawHeader _)).trans (sameInputs_drawBwState _)
  | readHeader =>
    exact ((sameInputs_drawHeader _).trans (sameInputs_drawTree _)).trans (sameInputs_drawResult _)
  | writeBit | writeCode | bwFinish | encodeByte =>
    exact (sameInputs_drawOutput _ _).trans (sameInputs_drawBwState _)
  | readBit | decodeSymbol => exact (sameInputs_drawCursor _).trans (sameInputs_drawResult _)
  | nop | countFreq | buildTree | bwReset | brInit => exact ⟨rfl, rfl, rfl, rfl, rfl, rfl, rfl, rfl, rfl⟩
  | treeInternal | treeLeaf x | payloadBitLeft | payloadBitRight => exact ⟨rfl, rfl, rfl, rfl, rfl, rfl, rfl, rfl, rfl⟩

theorem sameInputs_complete {s t : State} (h : SameInputs s t) (e : Err) :
    SameInputs s (t.complete e) := h

/-- A command that returns changes nothing that no command writes. -/
theorem sameInputs_returns {i : Instr} {s u : State} (h : Returns i s u) : SameInputs s u := by
  cases i with
  | nop => cases h; exact ⟨rfl, rfl, rfl, rfl, rfl, rfl, rfl, rfl, rfl⟩
  | bwReset => cases h; exact ⟨rfl, rfl, rfl, rfl, rfl, rfl, rfl, rfl, rfl⟩
  | buildTree => cases h; exact ⟨rfl, rfl, rfl, rfl, rfl, rfl, rfl, rfl, rfl⟩
  | compress =>
    rcases h with ⟨-, rfl⟩ | ⟨_, _, _, _, _, rfl⟩ <;> exact ⟨rfl, rfl, rfl, rfl, rfl, rfl, rfl, rfl, rfl⟩
  | decompress =>
    rcases h with ⟨-, rfl⟩ | ⟨_, _, _, _, rfl⟩ <;> exact ⟨rfl, rfl, rfl, rfl, rfl, rfl, rfl, rfl, rfl⟩
  | countFreq => obtain ⟨_, _, rfl⟩ := h; exact ⟨rfl, rfl, rfl, rfl, rfl, rfl, rfl, rfl, rfl⟩
  | buildCodes => obtain ⟨_, _, _, _, _, rfl⟩ := h; exact ⟨rfl, rfl, rfl, rfl, rfl, rfl, rfl, rfl, rfl⟩
  | serializeTree => obtain ⟨_, _, _, _, _, _, rfl⟩ := h; exact ⟨rfl, rfl, rfl, rfl, rfl, rfl, rfl, rfl, rfl⟩
  | deserializeTree => obtain ⟨_, _, _, _, rfl⟩ := h; exact ⟨rfl, rfl, rfl, rfl, rfl, rfl, rfl, rfl, rfl⟩
  | writeHeader => obtain ⟨_, _, _, _, _, rfl⟩ := h; exact ⟨rfl, rfl, rfl, rfl, rfl, rfl, rfl, rfl, rfl⟩
  | readHeader => obtain ⟨_, _, _, rfl⟩ := h; exact ⟨rfl, rfl, rfl, rfl, rfl, rfl, rfl, rfl, rfl⟩
  | writeBit => obtain ⟨_, _, rfl⟩ := h; exact ⟨rfl, rfl, rfl, rfl, rfl, rfl, rfl, rfl, rfl⟩
  | writeCode => obtain ⟨_, _, _, rfl⟩ := h; exact ⟨rfl, rfl, rfl, rfl, rfl, rfl, rfl, rfl, rfl⟩
  | bwFinish => obtain ⟨_, _, rfl⟩ := h; exact ⟨rfl, rfl, rfl, rfl, rfl, rfl, rfl, rfl, rfl⟩
  | encodeByte => obtain ⟨_, _, _, rfl⟩ := h; exact ⟨rfl, rfl, rfl, rfl, rfl, rfl, rfl, rfl, rfl⟩
  | brInit => obtain ⟨_, rfl⟩ := h; exact ⟨rfl, rfl, rfl, rfl, rfl, rfl, rfl, rfl, rfl⟩
  | readBit => obtain ⟨_, _, _, rfl⟩ := h; exact ⟨rfl, rfl, rfl, rfl, rfl, rfl, rfl, rfl, rfl⟩
  | decodeSymbol => obtain ⟨_, _, _, _, rfl⟩ := h; exact ⟨rfl, rfl, rfl, rfl, rfl, rfl, rfl, rfl, rfl⟩
  | treeInternal => cases h
  | treeLeaf => cases h
  | payloadBitLeft => cases h
  | payloadBitRight => cases h

/-- A command that returns leaves the draws of earlier errors in OBUF (R61): what it writes is listed. -/
theorem obufDraws_returns {i : Instr} {s u : State} (h : Returns i s u) : u.obufDraws = s.obufDraws := by
  cases i with
  | nop => cases h; rfl
  | bwReset => cases h; rfl
  | buildTree => cases h; rfl
  | compress =>
    rcases h with ⟨-, rfl⟩ | ⟨_, _, _, _, _, rfl⟩ <;> rfl
  | decompress =>
    rcases h with ⟨-, rfl⟩ | ⟨_, _, _, _, rfl⟩ <;> rfl
  | countFreq => obtain ⟨_, _, rfl⟩ := h; rfl
  | buildCodes => obtain ⟨_, _, _, _, _, rfl⟩ := h; rfl
  | serializeTree => obtain ⟨_, _, _, _, _, _, rfl⟩ := h; rfl
  | deserializeTree => obtain ⟨_, _, _, _, rfl⟩ := h; rfl
  | writeHeader => obtain ⟨_, _, _, _, _, rfl⟩ := h; rfl
  | readHeader => obtain ⟨_, _, _, rfl⟩ := h; rfl
  | writeBit => obtain ⟨_, _, rfl⟩ := h; rfl
  | writeCode => obtain ⟨_, _, _, rfl⟩ := h; rfl
  | bwFinish => obtain ⟨_, _, rfl⟩ := h; rfl
  | encodeByte => obtain ⟨_, _, _, rfl⟩ := h; rfl
  | brInit => obtain ⟨_, rfl⟩ := h; rfl
  | readBit => obtain ⟨_, _, _, rfl⟩ := h; rfl
  | decodeSymbol => obtain ⟨_, _, _, _, rfl⟩ := h; rfl
  | treeInternal => cases h
  | treeLeaf => cases h
  | payloadBitLeft => cases h
  | payloadBitRight => cases h

theorem Part.Same.trans {p : Part} {s t u : State} (h : p.Same s t) (h' : p.Same t u) : p.Same s u := by
  cases p <;> simp_all [Part.Same]

theorem drawResult_same {p : Part} (h : p ≠ .result) (s : State) : p.Same s s.drawResult := by
  cases p <;> simp [Part.Same] at h ⊢

theorem drawHeader_same {p : Part} (h : p ≠ .hdrSize) (h' : p ≠ .origSize) (s : State) :
    p.Same s s.drawHeader := by
  cases p <;> simp [Part.Same] at h h' ⊢

theorem drawBwState_same {p : Part} (h : p ≠ .bwState) (s : State) : p.Same s s.drawBwState := by
  cases p <;> simp [Part.Same] at h ⊢

theorem drawOutput_same {p : Part} (h : p ≠ .outLen) (h' : p ≠ .obuf) (s : State) (a : Nat) :
    p.Same s (s.drawOutput a) := by
  cases p <;> simp [Part.Same] at h h' ⊢

theorem drawObuf_same {p : Part} (h : p ≠ .outLen) (h' : p ≠ .obuf) (s : State) :
    p.Same s s.drawObuf := by
  cases p <;> simp [Part.Same] at h h' ⊢

theorem drawCursor_same {p : Part} (h : p ≠ .brPos) (h' : p ≠ .brBit) (s : State) :
    p.Same s s.drawCursor := by
  cases p <;> simp [Part.Same] at h h' ⊢

theorem drawExtent_same {p : Part} (h : p ≠ .brEnd) (s : State) : p.Same s s.drawExtent := by
  cases p <;> simp [Part.Same] at h ⊢

theorem drawTree_same {p : Part} (h : p ≠ .node) (h1 : p ≠ .treeInfo) (h2 : p ≠ .codesValid)
    (s : State) : p.Same s s.drawTree := by
  cases p <;> simp [Part.Same] at h h1 h2 ⊢

theorem drawCodes_same {p : Part} (h : p ≠ .codeTable) (h2 : p ≠ .codesValid) (s : State) :
    p.Same s s.drawCodes := by
  cases p <;> simp [Part.Same] at h h2 ⊢

theorem drawFreq_same {p : Part} (h : p ≠ .freq) (s : State) : p.Same s s.drawFreq := by
  cases p <;> simp [Part.Same] at h ⊢

theorem Part.same_rfl (p : Part) (s : State) : p.Same s s := by
  cases p <;> simp [Part.Same]

/-- The draws of an error stay in the write set (R125, case 3). -/
theorem parts_drawOf (i : Instr) (s : State) (p : Part) (hp : p ∉ writesOf i) :
    p.Same s (drawOf i s) := by
  cases i <;> simp only [writesOf, List.mem_cons, List.not_mem_nil, or_false, not_or] at hp
  case compress =>
    obtain ⟨h1, h2, h3, h4, h5, h6, h7, h8, h9, h10⟩ := hp
    exact (((((drawFreq_same h1 _).trans (drawTree_same h2 h4 h5 _)).trans
      (drawCodes_same h3 h5 _)).trans (drawHeader_same h6 h7 _)).trans
      (drawObuf_same h9 h10 _)).trans (drawBwState_same h8 _)
  case decompress =>
    obtain ⟨h1, h2, h3, h4, h5, h6, h7, h8, h9, h10⟩ := hp
    exact ((((drawTree_same h1 h2 h3 _).trans (drawHeader_same h4 h5 _)).trans
      (drawCursor_same h6 h7 _)).trans (drawExtent_same h8 _)).trans (drawObuf_same h9 h10 _)
  case buildCodes => exact drawCodes_same hp.1 hp.2 _
  case serializeTree => exact (drawOutput_same hp.1 hp.2.1 _ _).trans (drawResult_same hp.2.2 _)
  case deserializeTree =>
    exact (drawTree_same hp.1 hp.2.1 hp.2.2.1 _).trans (drawResult_same hp.2.2.2 _)
  case writeHeader =>
    obtain ⟨h1, h2, h3, h4, h5⟩ := hp
    exact ((drawOutput_same h1 h2 _ _).trans (drawHeader_same h3 h4 _)).trans (drawBwState_same h5 _)
  case readHeader =>
    obtain ⟨h1, h2, h3, h4, h5, h6⟩ := hp
    exact ((drawHeader_same h1 h2 _).trans (drawTree_same h3 h4 h5 _)).trans (drawResult_same h6 _)
  case writeBit => exact (drawOutput_same hp.2.1 hp.2.2 _ _).trans (drawBwState_same hp.1 _)
  case writeCode => exact (drawOutput_same hp.2.1 hp.2.2 _ _).trans (drawBwState_same hp.1 _)
  case bwFinish => exact (drawOutput_same hp.2.1 hp.2.2 _ _).trans (drawBwState_same hp.1 _)
  case encodeByte => exact (drawOutput_same hp.2.1 hp.2.2 _ _).trans (drawBwState_same hp.1 _)
  case readBit => exact (drawCursor_same hp.1 hp.2.1 _).trans (drawResult_same hp.2.2 _)
  case decodeSymbol => exact (drawCursor_same hp.1 hp.2.1 _).trans (drawResult_same hp.2.2 _)
  all_goals exact p.same_rfl s

/-- Where a failing command that writes OBUF draws it (R125): every address, or from the starting OUT_LEN
up. -/
theorem obuf_drawOf {i : Instr} (s : State) (h : Part.obuf ∈ writesOf i) :
    let start := if i ∈ [Instr.writeHeader, .compress, .decompress] then 0 else s.writer.outLen.toNat
    (drawOf i s).writer.obuf = s.writer.obuf.below start ∧
      (drawOf i s).obufDraws = holdDraw s.obufDraws start s.draws := by
  cases i <;> simp [writesOf] at h
  all_goals
    simp -implicitDefEqProofs only [drawOf, drawCompress, drawDecompress, drawSerialize,
      drawWriteHeader, drawWriter]
    simp -implicitDefEqProofs [Memory.below_zero]

/-! The draws of a failing command, which all come from the same count. -/

theorem State.drawn_congr {s u : State} (h : u.draws = s.draws) (r : Reg) : u.drawn r = s.drawn r := by
  simp only [State.drawn, h]

theorem State.drawnNodes_get {s u : State} (h : u.draws = s.draws) (j : Fin nodeMax) :
    u.drawnNodes[j] = Node.ofWord (s.drawn (.node j)) := by
  rw [← State.drawn_congr h]
  unfold State.drawnNodes
  exact Vector.getElem_ofFn _

theorem State.drawnCodeVals_get (s : State) (b : Nat) (h : b < 256) :
    s.drawnCodeVals[b]'h = s.drawn (.codeVal (BitVec.ofNat 8 b)) := by
  unfold State.drawnCodeVals
  exact Vector.getElem_ofFn _

theorem State.drawnCodeLens_get (s : State) (b : Nat) (h : b < 256) :
    s.drawnCodeLens[b]'h = (s.drawn (.codeLen (BitVec.ofNat 8 b))).setWidth 6 := by
  unfold State.drawnCodeLens
  exact Vector.getElem_ofFn _

theorem State.drawnCodes_entry {s u : State} (h : u.draws = s.draws) (b : Byte) :
    (u.drawnCodeVals[b.toNat]'b.isLt, u.drawnCodeLens[b.toNat]'b.isLt) =
      (s.drawn (.codeVal b), (s.drawn (.codeLen b)).setWidth 6) := by
  have hv := u.drawnCodeVals_get b.toNat b.isLt
  have hl := u.drawnCodeLens_get b.toNat b.isLt
  rw [BitVec.ofNat_toNat, BitVec.setWidth_eq, State.drawn_congr h] at hv hl
  rw [hv, hl]

theorem State.drawnFreqs_get (s : State) (b : Nat) (h : b < 256) :
    s.drawnFreqs[b]'h = s.drawn (.freq (BitVec.ofNat 8 b)) := by
  unfold State.drawnFreqs
  exact Vector.getElem_ofFn _

theorem State.drawnFreqs_byte (s : State) (b : Byte) :
    s.drawnFreqs[b.toNat]'b.isLt = s.drawn (.freq b) := by
  have h := s.drawnFreqs_get b.toNat b.isLt
  rw [BitVec.ofNat_toNat, BitVec.setWidth_eq] at h
  exact h

/-- The commands that can fail after a write, and what each draws of the tables (R69, R125). -/
theorem drawn_tables {i : Instr} {s : State} (hw : s.WroteBefore i) (e : Err) {p : Part}
    (hp : p ∈ writesOf i) (hm : p ∈ [Part.node, .treeInfo, .codesValid, .codeTable, .freq]) :
    p.Drawn i s ((drawOf i s).complete e) := by
  cases i <;> first
    | exact hw.elim
    | (simp only [writesOf, List.mem_cons, List.not_mem_nil, or_false] at hp hm
       rcases hm with rfl | rfl | rfl | rfl | rfl <;> first
        | exact absurd hp (by decide)
        | exact ⟨State.drawnNodes_get rfl, rfl⟩
        | exact ⟨rfl, congrArg (BitVec.extractLsb' 8 10) (State.drawn_congr rfl _),
            congrArg (BitVec.extractLsb' 20 9) (State.drawn_congr rfl _)⟩
        | exact ⟨State.drawnCodes_entry rfl, rfl⟩
        | exact s.drawnFreqs_byte
        | rfl)

theorem drawn_outLen {i : Instr} {s : State} (hw : s.WroteBefore i) (e : Err)
    (hp : Part.outLen ∈ writesOf i) : Part.outLen.Drawn i s ((drawOf i s).complete e) := by
  cases i <;> first
    | exact hw.elim
    | exact absurd hp (by decide)
    | exact (if_pos (by decide)).symm
    | exact (State.drawn_congr rfl _).trans (if_neg (by decide)).symm

theorem drawn_registers {i : Instr} {s : State} (hw : s.WroteBefore i) (e : Err) {p : Part}
    (hp : p ∈ writesOf i)
    (hm : p ∈ [Part.result, .hdrSize, .origSize, .bwState, .brPos, .brBit, .brEnd]) :
    p.Drawn i s ((drawOf i s).complete e) := by
  cases i <;> first
    | exact hw.elim
    | (simp only [writesOf, List.mem_cons, List.not_mem_nil, or_false] at hp hm
       rcases hm with rfl | rfl | rfl | rfl | rfl | rfl | rfl <;> first
        | exact absurd hp (by decide)
        | (simp -implicitDefEqProofs only [Part.Drawn, drawOf, drawCompress, drawDecompress,
            drawSerialize, drawDeserialize, drawWriteHeader, drawReadHeader, drawWriter, drawReadBit]
           simp -implicitDefEqProofs [State.drawn]))

/-- A command that fails after a write leaves draws in its whole write set (R125, case 2). -/
theorem drawn_drawOf {i : Instr} {s : State} (hw : s.WroteBefore i) (e : Err) {p : Part}
    (hp : p ∈ writesOf i) (hb : p = .obuf → Memory.wf s.writer.obuf = true) :
    p.Drawn i s ((drawOf i s).complete e) := by
  cases p
  case obuf =>
    intro a
    obtain ⟨k1, k2⟩ := obuf_drawOf s hp
    refine (State.obufByte_drawn (t := (drawOf i s).complete e) (hb rfl) k1 k2 a).trans ?_
    by_cases hm : i ∈ [Instr.writeHeader, .compress, .decompress]
    · simp only [hm, if_true, Nat.zero_le, true_or]
    · simp only [hm, if_false, false_or]
  case outLen => exact drawn_outLen hw e hp
  case node | treeInfo | codesValid | codeTable | freq => exact drawn_tables hw e hp (by decide)
  all_goals exact drawn_registers hw e hp (by decide)

theorem Part.same_complete {p : Part} {s t : State} (h : p.Same s t) (e : Err) :
    p.Same s (t.complete e) := by
  cases p <;> exact h

/-- `emit` leaves the byte under construction alone. -/
theorem emitAll_byte {cap : Nat} {bytes : List Byte} {dirty : Bool} {w w' : Writer}
    (h : emitAll cap bytes dirty w = .ok w') : w'.acc = w.acc ∧ w'.cnt = w.cnt := by
  induction bytes generalizing w dirty with
  | nil => cases h; exact ⟨rfl, rfl⟩
  | cons b bs ih =>
    simp only [emitAll] at h
    rcases emit_cases cap b dirty w with ⟨-, e⟩ | ⟨-, e⟩ <;> rw [e] at h
    · cases h
    · exact ih (w := w.push b) h

/-- DECOMPRESS's symbols leave the byte under construction alone. -/
theorem decodeMany_byte {a : Arena} {m : Memory} {n : Nat} {r r' : Reader} {w w' : Writer}
    (h : decodeMany a m n r w = .ok (r', w')) : w'.acc = w.acc ∧ w'.cnt = w.cnt := by
  induction n generalizing r w with
  | zero => cases h; exact ⟨rfl, rfl⟩
  | succ n ih =>
    unfold decodeMany at h
    split at h
    · cases h
    · rename_i x _ _; exact ih (w := w.push x) h

/-- A bit read leaves BR_END alone. -/
theorem readBit_limit {m : Memory} {dirty v : Bool} {r r' : Reader}
    (h : readBit m dirty r = .ok (v, r')) : r'.limit = r.limit := by
  rcases readBit_cases m dirty r with ⟨-, e⟩ | ⟨-, -, e⟩ | ⟨hl, b, -, e⟩ <;> rw [e] at h <;> cases h
  exact (Reader.advance_movedBy hl).1

/-- A walk leaves BR_END alone. -/
theorem walkLoop_limit {nodes : Vector Node nodeMax} {m : Memory} {fuel : Nat} {cur : NodeIdx}
    {dirty : Bool} {r r' : Reader} {x : Byte} (h : walkLoop nodes m fuel cur dirty r = .ok (x, r')) :
    r'.limit = r.limit := by
  induction fuel generalizing cur dirty r with
  | zero => cases h
  | succ fuel ih =>
    unfold walkLoop at h
    split at h
    · cases h
    · rename_i v r1 hr
      rw [← readBit_limit hr]
      split at h
      · cases h
      · cases h; rfl
      · exact ih h

/-- A command that returns changes nothing outside its write set (R69). -/
theorem parts_returns {i : Instr} {s u : State} (h : Returns i s u) (p : Part)
    (hp : p ∉ writesOf i) : p.Same s u := by
  cases i with
  | nop => cases h; cases p <;> simp [Part.Same]
  | bwReset => cases h; cases p <;> simp [writesOf, Part.Same, Writer.clearByte] at hp ⊢
  | buildTree => cases h; cases p <;> simp [writesOf, Part.Same] at hp ⊢
  | compress =>
    rcases h with ⟨-, rfl⟩ | ⟨_, _, _, _, _, rfl⟩ <;> cases p <;>
      simp [writesOf, Part.Same, State.compressEmpty, State.noTree] at hp ⊢
  | decompress =>
    rcases h with ⟨-, rfl⟩ | ⟨r, _, _, hr, rfl⟩
    · cases p <;> simp [writesOf, Part.Same, State.decompressEmpty, State.noTree] at hp ⊢
    · have hb : r.writer.acc = s.writer.acc ∧ r.writer.cnt = s.writer.cnt := by
        unfold decompressInput at hr
        split at hr
        · cases hr
        · split at hr
          · cases hr
          · split at hr
            · cases hr
            · rename_i hd; cases hr; exact decodeMany_byte (w := { s.writer with outLen := 0 }) hd
      cases p <;> simp [writesOf, Part.Same, State.withHeader] at hp ⊢
      exact hb
  | countFreq => obtain ⟨_, _, rfl⟩ := h; cases p <;> simp [writesOf, Part.Same] at hp ⊢
  | buildCodes => obtain ⟨_, _, _, _, _, rfl⟩ := h; cases p <;> simp [writesOf, Part.Same] at hp ⊢
  | serializeTree =>
    obtain ⟨_, _, _, _, _, he, rfl⟩ := h
    have hb := emitAll_byte he
    cases p <;> simp [writesOf, Part.Same] at hp ⊢
    exact hb
  | deserializeTree => obtain ⟨_, _, _, _, rfl⟩ := h; cases p <;> simp [writesOf, Part.Same] at hp ⊢
  | writeHeader => obtain ⟨_, _, _, _, _, rfl⟩ := h; cases p <;> simp [writesOf, Part.Same] at hp ⊢
  | readHeader =>
    obtain ⟨_, _, _, rfl⟩ := h
    cases p <;> simp [writesOf, Part.Same, State.withHeader] at hp ⊢
  | writeBit => obtain ⟨_, _, rfl⟩ := h; cases p <;> simp [writesOf, Part.Same] at hp ⊢
  | writeCode => obtain ⟨_, _, _, rfl⟩ := h; cases p <;> simp [writesOf, Part.Same] at hp ⊢
  | bwFinish => obtain ⟨_, _, rfl⟩ := h; cases p <;> simp [writesOf, Part.Same] at hp ⊢
  | encodeByte => obtain ⟨_, _, _, rfl⟩ := h; cases p <;> simp [writesOf, Part.Same] at hp ⊢
  | brInit => obtain ⟨_, rfl⟩ := h; cases p <;> simp [writesOf, Part.Same] at hp ⊢
  | readBit =>
    obtain ⟨_, _, hr, rfl⟩ := h
    have hl := readBit_limit hr
    cases p <;> simp [writesOf, Part.Same] at hp ⊢
    exact hl
  | decodeSymbol =>
    obtain ⟨_, _, _, hr, rfl⟩ := h
    have hl := walkLoop_limit hr
    cases p <;> simp [writesOf, Part.Same] at hp ⊢
    exact hl
  | treeInternal => cases h
  | treeLeaf => cases h
  | payloadBitLeft => cases h
  | payloadBitRight => cases h

end Sys2Proof.Machine
end

