-- ==== Sys2Proof/Laws/Output.lean ====
section
/-! SUPPORT. What the writers of OBUF leave of it: its canonical form, no byte beyond the capacity
(R50), and no byte outside the one range from the OUT_LEN they start at to the OUT_LEN they end at
(R150); and that they leave no stray bits in BW_ACC (R32). -/

namespace Sys2Proof.Machine

theorem Memory.get_of_mem {m : Memory} (h : Memory.wf m = true) {cell : Host.Cell} (hc : cell ∈ m) :
    m.get cell.1 = some cell.2 := by
  induction m with
  | nil => cases hc
  | cons c m ih =>
    obtain ⟨k, v⟩ := c
    obtain ⟨hab, hwm⟩ := (Memory.wf_cons k v m).1 h
    rcases List.mem_cons.1 hc with rfl | hc
    · simp [Memory.get]
    · have := hab cell hc
      simp only [Memory.get]
      rw [if_neg (by omega), if_neg (by omega)]
      exact ih hwm hc

theorem Memory.mem_of_get {m : Memory} {a : Nat} {b : Byte} (h : m.get a = some b) : (a, b) ∈ m := by
  induction m with
  | nil => cases h
  | cons c m ih =>
    obtain ⟨k, v⟩ := c
    simp only [Memory.get] at h
    split at h
    · rename_i hk; cases h; subst hk; simp
    · split at h
      · cases h
      · exact List.mem_cons_of_mem _ (ih h)

/-- Every listed address is below a bound exactly when nothing can be read from the bound up. -/
theorem Memory.bounded_iff {m : Memory} (h : Memory.wf m = true) (n : Nat) :
    (∀ cell ∈ m, cell.1 < n) ↔ ∀ a, n ≤ a → m.get a = none := by
  constructor
  · intro hb a ha
    cases hg : m.get a with
    | none => rfl
    | some b => exact absurd (hb _ (Memory.mem_of_get hg)) (by simpa using ha)
  · intro hg cell hc
    by_contra hn
    have := Memory.get_of_mem h hc
    rw [hg _ (by omega)] at this
    cases this

/-- w' continues w's output: OUT_LEN does not fall, OBUF keeps its form and its capacity, and changes
only between the two OUT_LENs. -/
structure Writer.Grows (cap : Nat) (w w' : Writer) : Prop where
  le : w.outLen.toNat ≤ w'.outLen.toNat
  wf : Memory.wf w.obuf = true → Memory.wf w'.obuf = true
  bounded : (∀ cell ∈ w.obuf, cell.1 < cap) → ∀ cell ∈ w'.obuf, cell.1 < cap
  frame : Memory.wf w.obuf = true → ∀ a, a < w.outLen.toNat ∨ w'.outLen.toNat ≤ a →
    w'.obuf.get a = w.obuf.get a

theorem Writer.Grows.refl {cap : Nat} {w w' : Writer} (h1 : w'.outLen = w.outLen)
    (h2 : w'.obuf = w.obuf) : w.Grows cap w' :=
  ⟨by rw [h1], by rw [h2]; exact id, by rw [h2]; exact id, fun _ _ _ => by rw [h2]⟩

theorem Writer.Grows.trans {cap : Nat} {w1 w2 w3 : Writer} (h : w1.Grows cap w2)
    (h' : w2.Grows cap w3) : w1.Grows cap w3 where
  le := Nat.le_trans h.le h'.le
  wf := fun hw => h'.wf (h.wf hw)
  bounded := fun hb => h'.bounded (h.bounded hb)
  frame := fun hw a ha => by
    have := h.le
    have := h'.le
    rw [h'.frame (h.wf hw) a (by omega), h.frame hw a (by omega)]

theorem Writer.grows_push {cap : Nat} (hcap : cap < 2 ^ 32) {w : Writer} (h : w.outLen.toNat < cap)
    (b : Byte) : w.Grows cap (w.push b) where
  le := by rw [Writer.push_outLen, outLen_succ hcap h]; omega
  wf := fun hw => Memory.wf_set hw _ _
  bounded := fun hb cell hc => by
    rcases Memory.mem_set hc with rfl | hc
    · exact h
    · exact hb _ hc
  frame := fun hw a ha => by
    rw [Writer.push_outLen, outLen_succ hcap h] at ha
    rw [Writer.push_obuf, Memory.get_set_other hw]
    omega

theorem emitAll_grows {cap : Nat} (hcap : cap < 2 ^ 32) {bytes : List Byte} {dirty : Bool}
    {w w' : Writer} (h : emitAll cap bytes dirty w = .ok w') : w.Grows cap w' := by
  induction bytes generalizing w dirty with
  | nil => cases h; exact .refl rfl rfl
  | cons b bs ih =>
    simp only [emitAll] at h
    rcases emit_cases cap b dirty w with ⟨-, e⟩ | ⟨hlt, e⟩ <;> rw [e] at h
    · cases h
    · exact (Writer.grows_push hcap hlt b).trans (ih (w := w.push b) h)

theorem writeBit_grows {cap : Nat} (hcap : cap < 2 ^ 32) {v dirty : Bool} {w w' : Writer}
    (h : writeBit cap v dirty w = .ok w') : w.Grows cap w' := by
  rcases writeBit_cases cap v dirty w with ⟨-, e⟩ | ⟨-, hlt, e⟩ | ⟨-, -, e⟩ <;> rw [e] at h <;> cases h
  · exact .refl (by simp) (by simp)
  · have h1 : w.Grows cap (w.setBit v) := .refl (by simp) (by simp)
    have h2 := Writer.grows_push hcap (w := w.setBit v) (by simpa using hlt) (w.setBit v).acc
    exact (h1.trans h2).trans (.refl rfl rfl)

theorem writeBits_grows {cap : Nat} (hcap : cap < 2 ^ 32) {bits : List Bool} {dirty : Bool}
    {w w' : Writer} (h : writeBits cap bits dirty w = .ok w') : w.Grows cap w' := by
  induction bits generalizing w dirty with
  | nil => cases h; exact .refl rfl rfl
  | cons v vs ih =>
    simp only [writeBits] at h
    split at h
    · cases h
    · rename_i w1 h1; exact (writeBit_grows hcap h1).trans (ih h)

theorem flushByte_grows {cap : Nat} (hcap : cap < 2 ^ 32) {dirty : Bool} {w w' : Writer}
    (h : flushByte cap dirty w = .ok w') : w.Grows cap w' := by
  rcases flushByte_cases cap dirty w with ⟨-, e⟩ | ⟨-, hlt, e⟩ | ⟨-, -, e⟩ <;> rw [e] at h <;> cases h
  · exact .refl rfl rfl
  · exact (Writer.grows_push hcap hlt w.acc).trans (.refl rfl rfl)

theorem foldl_push_grows {cap : Nat} (hcap : cap < 2 ^ 32) (symbols : List Byte) {w : Writer}
    (hfit : w.outLen.toNat + symbols.length ≤ cap) : w.Grows cap (symbols.foldl Writer.push w) := by
  induction symbols generalizing w with
  | nil => exact .refl rfl rfl
  | cons x xs ih =>
    simp only [List.length_cons] at hfit
    have hlt : w.outLen.toNat < cap := by omega
    refine (Writer.grows_push hcap hlt x).trans (ih (w := w.push x) ?_)
    rw [Writer.push_outLen, outLen_succ hcap hlt]; omega

/-- WRITE_HEADER's output starts at OBUF[0] (R98, R150). -/
theorem writeHeader_grows {cap : Nat} (hcap : cap < 2 ^ 32) {orig : Word} {t : HTree} {w w' : Writer}
    (hw : Memory.wf w.obuf = true) (h : writeHeader cap orig t w = .ok w') :
    { w with outLen := 0 }.Grows cap w' := by
  by_cases hfit : 8 + t.serialize.length ≤ cap
  · obtain ⟨w1, e, h1, h2, h3, h4, h5⟩ := writeHeader_ok hcap orig t w hw hfit
    rw [e] at h
    injection h with h
    subst h
    have hl : w1.outLen.toNat = (headerBytes orig t).length := by
      rw [h3, headerBytes_length, BitVec.toNat_ofNat, Nat.mod_eq_of_lt (by omega)]
    have hout : ∀ a, w1.outLen.toNat ≤ a → w1.obuf.get a = w.obuf.get a := by
      intro a ha
      rw [h5 a, List.getElem?_eq_none (by omega)]; rfl
    refine ⟨Nat.zero_le _, fun _ => h4, ?_, ?_⟩
    · intro hb
      rw [Memory.bounded_iff h4]
      intro a ha
      rw [hout a (by rw [hl, headerBytes_length]; omega)]
      exact (Memory.bounded_iff hw cap).1 hb a ha
    · rintro - a (ha | ha)
      · exact absurd ha (Nat.not_lt_zero a)
      · exact hout a ha
  · rw [writeHeader_overflow hcap orig t w (by omega)] at h
    cases h

/-! ### No stray bits (R32) -/

theorem writeBit_clean {cap : Nat} {v dirty : Bool} {w w' : Writer} (hc : w.Clean)
    (h : writeBit cap v dirty w = .ok w') : w'.Clean := by
  rcases writeBit_cases cap v dirty w with ⟨h7, e⟩ | ⟨-, -, e⟩ | ⟨-, -, e⟩ <;> rw [e] at h <;> cases h
  · simpa only [Writer.Clean, Writer.setBit_acc] using (pending_setBit w.cnt v w.acc hc h7).2
  · rfl

theorem writeBits_clean {cap : Nat} {bits : List Bool} {dirty : Bool} {w w' : Writer} (hc : w.Clean)
    (h : writeBits cap bits dirty w = .ok w') : w'.Clean := by
  induction bits generalizing w dirty with
  | nil => cases h; exact hc
  | cons v vs ih =>
    simp only [writeBits] at h
    split at h
    · cases h
    · rename_i w1 h1; exact ih (writeBit_clean hc h1) h

theorem flushByte_byte {cap : Nat} {dirty : Bool} {w w' : Writer}
    (h : flushByte cap dirty w = .ok w') : w'.acc = 0 ∧ w'.cnt = 0 := by
  rcases flushByte_cases cap dirty w with ⟨-, e⟩ | ⟨-, -, e⟩ | ⟨-, -, e⟩ <;> rw [e] at h <;> cases h <;>
    exact ⟨rfl, rfl⟩

theorem Writer.clean_of_empty {w : Writer} (h : w.acc = 0) : w.Clean := by
  simp [Writer.Clean, h]

/-- Same byte under construction, same cleanness. -/
theorem Writer.clean_congr {w w' : Writer} (h1 : w'.acc = w.acc) (h2 : w'.cnt = w.cnt) (h : w.Clean) :
    w'.Clean := by
  simpa only [Writer.Clean, h1, h2] using h

/-- WRITE_HEADER empties the byte under construction (R98). -/
theorem writeHeader_byte {cap : Nat} {orig : Word} {t : HTree} {w w' : Writer}
    (h : writeHeader cap orig t w = .ok w') : w'.acc = 0 ∧ w'.cnt = 0 := by
  unfold writeHeader at h
  split at h
  · cases h
  · rename_i w1 h1; cases h; exact emitAll_byte h1

/-- A COMPRESS that returns empties the byte under construction (R114). -/
theorem compressInput_byte {s : State} {input : List Byte} {c : Compressed}
    (h : compressInput s input = .ok c) : c.writer.acc = 0 ∧ c.writer.cnt = 0 := by
  unfold compressInput at h
  simp only at h
  repeat' (split at h)
  all_goals cases h
  rename_i hf
  exact flushByte_byte hf

/-! ### Whole commands -/

/-- The writer of a COMPRESS that returns. -/
theorem compressInput_writer {s : State} {input : List Byte} {c : Compressed}
    (hw : Memory.wf s.writer.obuf = true) (h : compressInput s input = .ok c) :
    { s.writer with outLen := 0 }.Grows s.obufCap c.writer := by
  have hcap : s.obufCap < 2 ^ 32 := s.cfg.obufBytes.isLt
  unfold compressInput at h
  simp only at h
  split at h
  · cases h
  · split at h
    · cases h
    · split at h
      · cases h
      · rename_i header hh
        split at h
        · cases h
        · rename_i payload hp
          split at h
          · cases h
          · rename_i w hf
            cases h
            exact ((writeHeader_grows hcap hw hh).trans (writeBits_grows hcap hp)).trans
              (flushByte_grows hcap hf)

/-- A run of decoded symbols is a run of pushes. -/
theorem decodeMany_pushes {a : Arena} {m : Memory} {n : Nat} {r r' : Reader} {w w' : Writer}
    (h : decodeMany a m n r w = .ok (r', w')) :
    ∃ symbols : List Byte, symbols.length = n ∧ w' = symbols.foldl Writer.push w := by
  induction n generalizing r w with
  | zero => cases h; exact ⟨[], rfl, rfl⟩
  | succ n ih =>
    unfold decodeMany at h
    split at h
    · cases h
    · rename_i x _ _
      obtain ⟨xs, hl, rfl⟩ := ih h
      exact ⟨x :: xs, by simp [hl], rfl⟩

/-- The writer of a DECOMPRESS that returns. -/
theorem decompressInput_writer {s : State} {r : Decompressed} (h : decompressInput s = .ok r) :
    { s.writer with outLen := 0 }.Grows s.obufCap r.writer ∧ r.writer.acc = s.writer.acc ∧
      r.writer.cnt = s.writer.cnt ∧ r.header.origSize.toNat ≤ s.obufCap := by
  have hcap : s.obufCap < 2 ^ 32 := s.cfg.obufBytes.isLt
  unfold decompressInput at h
  split at h
  · cases h
  · rename_i header hh
    split at h
    · cases h
    · rename_i hle
      split at h
      · cases h
      · rename_i r1 w1 hd
        cases h
        obtain ⟨xs, hl, e⟩ := decodeMany_pushes hd
        have hb := decodeMany_byte hd
        refine ⟨?_, hb.1, hb.2, Nat.le_of_not_lt hle⟩
        rw [e]
        refine foldl_push_grows hcap xs ?_
        have : xs.length ≤ s.obufCap := by rw [hl]; exact Nat.le_of_not_lt hle
        simpa using this

/-- What the final writer of a command that returns has to do with the one it started from. -/
theorem writer_returns {i : Instr} {s u : State} (hw : Memory.wf s.writer.obuf = true)
    (h : Returns i s u) :
    s.writer.Grows s.obufCap u.writer ∨
      (i ∈ [Instr.writeHeader, .compress, .decompress] ∧
        { s.writer with outLen := 0 }.Grows s.obufCap u.writer) := by
  have hcap : s.obufCap < 2 ^ 32 := s.cfg.obufBytes.isLt
  cases i with
  | nop => cases h; exact .inl (.refl rfl rfl)
  | bwReset => cases h; exact .inl (.refl rfl rfl)
  | buildTree => cases h; exact .inl (.refl rfl rfl)
  | compress =>
    rcases h with ⟨-, rfl⟩ | ⟨_, c, _, _, hc, rfl⟩
    · exact .inr ⟨by simp, .refl rfl rfl⟩
    · exact .inr ⟨by simp, compressInput_writer hw hc⟩
  | decompress =>
    rcases h with ⟨-, rfl⟩ | ⟨r, _, _, hr, rfl⟩
    · exact .inr ⟨by simp, .refl rfl rfl⟩
    · exact .inr ⟨by simp, (decompressInput_writer hr).1⟩
  | countFreq => obtain ⟨_, _, rfl⟩ := h; exact .inl (.refl rfl rfl)
  | buildCodes => obtain ⟨_, _, _, _, _, rfl⟩ := h; exact .inl (.refl rfl rfl)
  | serializeTree => obtain ⟨_, _, _, _, _, he, rfl⟩ := h; exact .inl (emitAll_grows hcap he)
  | deserializeTree => obtain ⟨_, _, _, _, rfl⟩ := h; exact .inl (.refl rfl rfl)
  | writeHeader =>
    obtain ⟨_, _, _, _, hh, rfl⟩ := h
    exact .inr ⟨by simp, writeHeader_grows hcap hw hh⟩
  | readHeader => obtain ⟨_, _, _, rfl⟩ := h; exact .inl (.refl rfl rfl)
  | writeBit => obtain ⟨_, hb, rfl⟩ := h; exact .inl (writeBit_grows hcap hb)
  | writeCode => obtain ⟨_, _, hb, rfl⟩ := h; exact .inl (writeBits_grows hcap hb)
  | bwFinish => obtain ⟨_, hb, rfl⟩ := h; exact .inl (flushByte_grows hcap hb)
  | encodeByte => obtain ⟨_, _, hb, rfl⟩ := h; exact .inl (writeBits_grows hcap hb)
  | brInit => obtain ⟨_, rfl⟩ := h; exact .inl (.refl rfl rfl)
  | readBit => obtain ⟨_, _, _, rfl⟩ := h; exact .inl (.refl rfl rfl)
  | decodeSymbol => obtain ⟨_, _, _, _, rfl⟩ := h; exact .inl (.refl rfl rfl)
  | treeInternal => cases h
  | treeLeaf => cases h
  | payloadBitLeft => cases h
  | payloadBitRight => cases h

/-- A command that returns leaves no stray bits where there were none. -/
theorem clean_returns {i : Instr} {s u : State} (hc : s.writer.Clean)
    (h : Returns i s u) : u.writer.Clean := by
  cases i with
  | nop => cases h; exact hc
  | bwReset => cases h; rfl
  | buildTree => cases h; exact hc
  | compress =>
    rcases h with ⟨-, rfl⟩ | ⟨_, c, _, _, hi, rfl⟩
    · rfl
    · exact Writer.clean_of_empty (compressInput_byte hi).1
  | decompress =>
    rcases h with ⟨-, rfl⟩ | ⟨r, _, _, hr, rfl⟩
    · exact hc
    · obtain ⟨-, h1, h2, -⟩ := decompressInput_writer hr
      exact Writer.clean_congr h1 h2 hc
  | countFreq => obtain ⟨_, _, rfl⟩ := h; exact hc
  | buildCodes => obtain ⟨_, _, _, _, _, rfl⟩ := h; exact hc
  | serializeTree =>
    obtain ⟨_, _, _, _, _, he, rfl⟩ := h
    obtain ⟨h1, h2⟩ := emitAll_byte he
    exact Writer.clean_congr h1 h2 hc
  | deserializeTree => obtain ⟨_, _, _, _, rfl⟩ := h; exact hc
  | writeHeader =>
    obtain ⟨_, _, _, _, hh, rfl⟩ := h
    exact Writer.clean_of_empty (writeHeader_byte hh).1
  | readHeader => obtain ⟨_, _, _, rfl⟩ := h; exact hc
  | writeBit => obtain ⟨_, hb, rfl⟩ := h; exact writeBit_clean hc hb
  | writeCode => obtain ⟨_, _, hb, rfl⟩ := h; exact writeBits_clean hc hb
  | bwFinish => obtain ⟨_, hb, rfl⟩ := h; exact Writer.clean_of_empty (flushByte_byte hb).1
  | encodeByte => obtain ⟨_, _, hb, rfl⟩ := h; exact writeBits_clean hc hb
  | brInit => obtain ⟨_, rfl⟩ := h; exact hc
  | readBit => obtain ⟨_, _, _, rfl⟩ := h; exact hc
  | decodeSymbol => obtain ⟨_, _, _, _, rfl⟩ := h; exact hc
  | treeInternal => cases h
  | treeLeaf => cases h
  | payloadBitLeft => cases h
  | payloadBitRight => cases h

end Sys2Proof.Machine
end

