-- ==== Sys2Proof/Laws/Steps.lean ====
section
/-! SUPPORT. The step inversion: everything one step can do. A command as a whole is Laws/Commands's
business; here are the moves between the tokens and the bits (R42), the host's and the reset's. -/

namespace Sys2Proof.Machine

/-- The rest of the command once `des_tree` has returned address p (R97, R99, R118). -/
inductive TreeEnds : DesUse → Nat → State → State → Prop
  | result {use : DesUse} {p : Nat} {s : State} (h : use ≠ .decompress) :
      TreeEnds use p s ({ s with result := BitVec.ofNat 32 p }.complete .none)
  | overflow {p : Nat} {s : State} (h : s.obufCap < s.origSize.toNat) :
      TreeEnds .decompress p s ((drawDecompress s).complete .outputOverflow)
  | nothing {p : Nat} {s : State} (h : s.origSize = 0) :
      TreeEnds .decompress p s ({ s with
        reader := payloadReader s.hdrSize s.origSize s.inLen
        writer := { s.writer with outLen := 0 } }.complete .none)
  | payload {p : Nat} {s : State} (h : s.origSize.toNat ≤ s.obufCap) (h0 : s.origSize ≠ 0) :
      TreeEnds .decompress p s ({ s with
        reader := payloadReader s.hdrSize s.origSize s.inLen
        writer := { s.writer with outLen := 0 } }.walking .decompress
          { cur := s.tree.root, emitted := 0, dirty := true })

theorem treeEnds_of_afterTree {use : DesUse} {p : Nat} {s t : State} (h : afterTree use p s = .next t) :
    TreeEnds use p s t := by
  cases use with
  | deserializeTree => cases h; exact .result (by simp)
  | readHeader => cases h; exact .result (by simp)
  | decompress =>
    simp only [afterTree, startPayload] at h
    split at h
    · rename_i ho; cases h; exact .overflow ho
    · rename_i ho
      split at h
      · rename_i h0; cases h; exact .nothing h0
      · rename_i h0; cases h; exact .payload (Nat.le_of_not_lt ho) h0

/-- What one token does, the cursor standing after it (R92). -/
inductive TokenStep (i : Instr) (d : Des) (use : DesUse) (s : State) : State → Prop
  | corrupt : TokenStep i d use s ((use.draw s).complete .truncatedOrCorrupt)
  | more {d' : Des} {nodes : Vector Node nodeMax}
      (h : desToken i d s.tree.nodes = .ok (d', nodes, none)) :
      TokenStep i d use s { s with
        tree := { s.tree with nodes := nodes }, activity := some (.deserialize d' use) }
  | root {d' : Des} {nodes : Vector Node nodeMax} {root : NodeIdx} {t : State}
      (h : desToken i d s.tree.nodes = .ok (d', nodes, some root))
      (ht : TreeEnds use d'.pos { s with tree := d'.arena nodes root } t) : TokenStep i d use s t

theorem tokenStep_of_outcome {i : Instr} {d : Des} {use : DesUse} {s t : State}
    (h : tokenOutcome use s (desToken i d s.tree.nodes) = .next t) : TokenStep i d use s t := by
  unfold tokenOutcome at h
  split at h
  · rename_i stop he
    rw [desToken_error he] at h
    cases h; exact .corrupt
  · rename_i d' nodes he; cases h; exact .more he
  · rename_i d' nodes root he; exact .root he (treeEnds_of_afterTree h)

/-- What one payload bit does, the reader standing after it (R116). -/
inductive BitStep (v : Bool) (w : Walk) (use : WalkUse) (s : State) : State → Prop
  | down {next : NodeIdx} (h : walkBit s.tree.nodes w.cur v = .ok (.inl next)) :
      BitStep v w use s (s.walking use { w with cur := next, dirty := true })
  | symbol {x : Byte} (h : walkBit s.tree.nodes w.cur v = .ok (.inr x)) (hu : use = .decodeSymbol) :
      BitStep v w use s ({ s with result := x.setWidth 32 }.complete .none)
  | again {x : Byte} (h : walkBit s.tree.nodes w.cur v = .ok (.inr x)) (hu : use = .decompress)
      (hm : w.emitted + 1 < s.origSize.toNat) :
      BitStep v w use s ({ s with writer := s.writer.push x }.walking .decompress
        { cur := s.tree.root, emitted := w.emitted + 1, dirty := true })
  | last {x : Byte} (h : walkBit s.tree.nodes w.cur v = .ok (.inr x)) (hu : use = .decompress)
      (hm : s.origSize.toNat ≤ w.emitted + 1) :
      BitStep v w use s ({ s with writer := s.writer.push x }.complete .none)

theorem bitStep_of_outcome {v : Bool} {w : Walk} {use : WalkUse} {s t : State}
    (ha : s.activity = some (.walk w use)) (h : walkOutcome v s = .next t) : BitStep v w use s t := by
  unfold walkOutcome at h
  rw [ha] at h
  simp only at h
  split at h
  · rename_i stop he; rw [walkBit_error he] at h; cases h
  · rename_i next he; cases h; exact .down he
  · rename_i x he
    cases use with
    | decodeSymbol => cases h; exact .symbol he rfl
    | decompress =>
      simp only [afterSymbol] at h
      split at h
      · rename_i hm; cases h; exact .again he rfl hm
      · rename_i hm; cases h; exact .last he rfl (Nat.le_of_not_lt hm)

/-- A token or a bit, given to exec (what it answers is one of these or a stop). -/
theorem exec_token {i : Instr} {s t : State} (hi : i.format ≠ .cmd) (h : exec i s = .next t) :
    (∃ d use, s.activity = some (.deserialize d use) ∧ TokenStep i d use s t) ∨
    (∃ w use v, s.activity = some (.walk w use) ∧ i = decodeBit v ∧ BitStep v w use s t) := by
  cases i with
  | treeInternal =>
    simp only [exec, execTreeInternal] at h
    split at h
    · rename_i d use ha; exact .inl ⟨d, use, ha, tokenStep_of_outcome h⟩
    · cases h
  | treeLeaf x =>
    simp only [exec, execTreeLeaf] at h
    split at h
    · rename_i d use ha; exact .inl ⟨d, use, ha, tokenStep_of_outcome h⟩
    · cases h
  | payloadBitLeft =>
    cases ha : s.activity with
    | none => simp [exec, execPayloadBitLeft, walkOutcome, ha] at h
    | some a =>
      cases a with
      | deserialize d use => simp [exec, execPayloadBitLeft, walkOutcome, ha] at h
      | walk w use => exact .inr ⟨w, use, false, rfl, rfl, bitStep_of_outcome ha h⟩
  | payloadBitRight =>
    cases ha : s.activity with
    | none => simp [exec, execPayloadBitRight, walkOutcome, ha] at h
    | some a =>
      cases a with
      | deserialize d use => simp [exec, execPayloadBitRight, walkOutcome, ha] at h
      | walk w use => exact .inr ⟨w, use, true, rfl, rfl, bitStep_of_outcome ha h⟩
  | _ => exact absurd rfl hi

/-- Everything a move of a busy core can do. -/
inductive CoreStep (s : State) : State → Prop
  | command {i : Instr} {t : State} (ha : s.activity = none) (hi : i.format = .cmd)
      (h : exec i s = .next t) : CoreStep s t
  | badCommand (ha : s.activity = none) : CoreStep s (s.complete .badCommand)
  | beginTree (ha : s.activity = none) :
      CoreStep s (s.deserializing .deserializeTree s.arg0.toNat s.desLimit)
  | beginHeader {use : DesUse} {h o : Word} (ha : s.activity = none)
      (hh : readHeaderFields s.ibuf s.inLen = .ok (h, o)) (hu : use ≠ .deserializeTree) :
      CoreStep s ({ s with hdrSize := h, origSize := o }.deserializing use 8 h.toNat)
  | badHeader {use : DesUse} (ha : s.activity = none) :
      CoreStep s ((use.draw s).complete .truncatedOrCorrupt)
  | beginWalk (ha : s.activity = none) (hv : s.tree.valid = true) :
      CoreStep s (s.walking .decodeSymbol { cur := s.tree.root, emitted := 0, dirty := false })
  | badToken {d : Des} {use : DesUse} (ha : s.activity = some (.deserialize d use)) :
      CoreStep s ((use.draw s).complete .truncatedOrCorrupt)
  | token {d d' : Des} {use : DesUse} {i : Instr} {t : State}
      (ha : s.activity = some (.deserialize d use)) (hf : fetchToken s.ibuf d = .ok (i, d'))
      (h : TokenStep i d' use { s with activity := some (.deserialize d' use) } t) : CoreStep s t
  | noBit {w : Walk} {use : WalkUse} (ha : s.activity = some (.walk w use)) :
      CoreStep s (s.raise .endOfStream w.dirty use.draw)
  | bit {w : Walk} {use : WalkUse} {v : Bool} {r : Reader} {t : State}
      (ha : s.activity = some (.walk w use)) (hr : readBit s.ibuf w.dirty s.reader = .ok (v, r))
      (h : BitStep v w use { s with reader := r } t) : CoreStep s t

theorem fetchToken_format {m : Memory} {d d' : Des} {i : Instr} (h : fetchToken m d = .ok (i, d')) :
    i.format = .treeToken := by
  have key : ∀ bytes i rest, decodeToken bytes = .ok (i, rest) → i.format = .treeToken := by
    intro bytes i rest h
    unfold decodeToken at h
    repeat' (split at h)
    all_goals cases h
    all_goals rfl
  unfold fetchToken at h
  split at h
  · cases h
  · split at h
    · rename_i hd; cases h; exact key _ _ _ hd
    · split at h
      · cases h
      · split at h
        · rename_i hd; cases h; exact key _ _ _ hd
        · cases h
    · cases h

theorem coreStep_of_coreMove {s t : State} (hb : s.busy = true) (h : coreMove s = .next t) :
    CoreStep s t := by
  unfold coreMove at h
  rw [if_pos hb] at h
  split at h
  · rename_i ha
    unfold runCommand at h
    split at h
    · rename_i i hd
      obtain ⟨op, ho, -⟩ := opcode_of_decodeCmd hd
      exact .command ha (format_of_opcode ho) h
    · cases h; exact .badCommand ha
  · rename_i d use ha
    unfold resumeDeserialize at h
    split at h
    · rename_i stop he
      rcases fetchToken_error he with rfl | ⟨a, rfl, -⟩
      · cases h; exact .badToken ha
      · cases h
    · rename_i i d' hf
      rcases exec_token (by rw [fetchToken_format hf]; simp) h with
        ⟨d1, use1, ha1, ht⟩ | ⟨w1, use1, v, ha1, -, -⟩
      · cases ha1; exact .token ha hf ht
      · cases ha1
  · rename_i w use ha
    unfold resumeWalk at h
    split at h
    · rename_i stop he
      rcases readBit_error he with rfl | ⟨a, rfl, -⟩
      · cases h; exact .noBit ha
      · cases h
    · rename_i v r hr
      have hv : walkOutcome v { s with reader := r } = .next t := by
        cases v <;> exact h
      exact .bit ha hr (bitStep_of_outcome ha hv)

theorem coreStep_of_beginHeader {use : DesUse} {s t : State} (ha : s.activity = none)
    (hu : use ≠ .deserializeTree) (h : beginHeader use s = .next t) : CoreStep s t := by
  unfold beginHeader at h
  split at h
  · rename_i stop he
    rcases readHeaderFields_error he with rfl | ⟨a, rfl, -⟩
    · cases h; exact .badHeader (use := use) ha
    · cases h
  · rename_i hh; cases h; exact .beginHeader ha hh hu

theorem coreStep_of_beginCommand {i : Instr} {s t : State} (ha : s.activity = none)
    (hi : i.format = .cmd) (h : beginCommand i s = .next t) : CoreStep s t := by
  cases i with
  | deserializeTree =>
    simp only [beginCommand] at h
    split at h
    · exact .command ha hi h
    · cases h; exact .beginTree ha
  | readHeader =>
    simp only [beginCommand] at h
    split at h
    · exact .command ha hi h
    · exact coreStep_of_beginHeader ha (by simp) h
  | decompress =>
    simp only [beginCommand] at h
    split at h
    · exact .command ha hi h
    · split at h
      · exact .command ha hi h
      · exact coreStep_of_beginHeader ha (by simp) h
  | decodeSymbol =>
    simp only [beginCommand] at h
    split at h
    · rename_i hv; cases h; exact .beginWalk ha hv
    · exact .command ha hi h
  | _ => exact .command ha hi h

theorem coreStep_of_beginMove {s t : State} (hb : s.busy = true) (h : beginMove s = .next t) :
    CoreStep s t := by
  unfold beginMove at h
  split at h
  · rename_i hc
    simp only [Bool.and_eq_true, Option.isNone_iff_eq_none] at hc
    split at h
    · rename_i i hd
      obtain ⟨op, ho, -⟩ := opcode_of_decodeCmd hd
      exact coreStep_of_beginCommand hc.2 (format_of_opcode ho) h
    · exact coreStep_of_coreMove hb h
  · exact coreStep_of_coreMove hb h

/-- A move of the core: nothing while it is idle (R137). -/
theorem coreMove_cases {s t : State} (h : coreMove s = .next t) :
    t = s ∨ (s.busy = true ∧ CoreStep s t) := by
  cases hb : s.busy with
  | true => exact .inr ⟨rfl, coreStep_of_coreMove hb h⟩
  | false =>
    unfold coreMove at h
    rw [hb, if_neg Bool.false_ne_true] at h
    cases h; exact .inl rfl

theorem beginMove_cases {s t : State} (h : beginMove s = .next t) :
    t = s ∨ (s.busy = true ∧ CoreStep s t) := by
  cases hb : s.busy with
  | true => exact .inr ⟨rfl, coreStep_of_beginMove hb h⟩
  | false =>
    unfold beginMove at h
    rw [hb, Bool.false_and, if_neg Bool.false_ne_true] at h
    rcases coreMove_cases h with h | h
    · exact .inl h
    · exact absurd h.1 (by simp [hb])

/-- Everything one step can do: s0 is the state with the event taken from the schedule. -/
theorem step_cases {s t : State} (h : step s = .next t) :
    ∃ rest, let s0 := { s with schedule := rest }
      (∃ op, t = s0.hostOp op) ∨ t = s0.resetInput ∨ t = s0 ∨ (s0.busy = true ∧ CoreStep s0 t) := by
  unfold step at h
  split at h
  · exact ⟨s.schedule, .inr (.inr (coreMove_cases h))⟩
  · rename_i m rest hs
    refine ⟨rest, ?_⟩
    cases m with
    | host op => cases h; exact .inl ⟨op, rfl⟩
    | reset => cases h; exact .inr (.inl rfl)
    | core => exact .inr (.inr (coreMove_cases h))
    | coreBegin => exact .inr (.inr (beginMove_cases h))

/-- Package of every invariant's proof: it holds after a step if the event's taking, the host, the reset
and the core keep it. -/
theorem step_kept {P : State → Prop} {s t : State}
    (hs : ∀ (s : State) l, P s → P { s with schedule := l })
    (hh : ∀ s op, P s → P (s.hostOp op)) (hr : ∀ s, P s → P s.resetInput)
    (hc : ∀ s t, P s → s.busy = true → CoreStep s t → P t)
    (hp : P s) (h : step s = .next t) : P t := by
  obtain ⟨rest, h⟩ := step_cases h
  rcases h with ⟨op, rfl⟩ | rfl | rfl | ⟨hb, h⟩
  · exact hh _ _ (hs _ _ hp)
  · exact hr _ (hs _ _ hp)
  · exact hs _ _ hp
  · exact hc _ _ (hs _ _ hp) hb h

end Sys2Proof.Machine
end

