-- ==== Sys2Proof/Laws/Micro.lean ====
section
/-! SUPPORT. A command token by token and bit by bit (R42): how many steps of the core give what the
command's pseudocode gives in one. -/

namespace Sys2Proof.Machine

/-! ### Running -/

theorem runCore_succ (M : Host.Core) (n : Nat) (s : M.State) :
    M.run (n + 1) s = match M.step s with
      | .next t => M.run n t
      | .fault r => .fault r
      | .refused r => .refused r := rfl

theorem runCore_next (M : Host.Core) (n : Nat) {s t : M.State} (h : M.step s = .next t) :
    M.run (n + 1) s = M.run n t := by rw [runCore_succ, h]

theorem runCore_one (M : Host.Core) (s : M.State) : M.run 1 s = M.step s := by
  rw [runCore_succ]
  cases h : M.step s <;> rfl

theorem runCore_add (M : Host.Core) (a b : Nat) {s t : M.State} (h : M.run a s = .next t) :
    M.run (a + b) s = M.run b t := by
  induction a generalizing s with
  | zero => cases h; rw [Nat.zero_add]
  | succ a ih =>
    rw [show a + 1 + b = a + b + 1 by omega]
    rw [runCore_succ] at h ⊢
    cases h1 : M.step s with
    | next s' => rw [h1] at h; exact ih h
    | fault f => rw [h1] at h; cases h
    | refused f => rw [h1] at h; cases h

theorem run_succ {s t : State} (n : Nat) (h : step s = .next t) :
    Sys2Proof.core.run (n + 1) s = Sys2Proof.core.run n t := runCore_next Sys2Proof.core n h

theorem run_one (s : State) : Sys2Proof.core.run 1 s = step s := runCore_one Sys2Proof.core s

theorem run_add {s t : State} (a b : Nat) (h : Sys2Proof.core.run a s = .next t) :
    Sys2Proof.core.run (a + b) s = Sys2Proof.core.run b t := runCore_add Sys2Proof.core a b h

/-- One step with no event to come is the core's. -/
theorem step_core {s : State} (hs : s.schedule = []) : step s = coreMove s := by rw [step, hs]

/-! ### What an error leaves does not depend on how far the command came -/

theorem State.eq_of_fields {s t : State} (h0 : s.cfg = t.cfg) (h1 : s.cmd = t.cmd) (h2 : s.busy =
    t.busy) (h3 : s.done = t.done) (h4 : s.dropped = t.dropped) (h5 : s.err = t.err) (h6 : s.inLen
    = t.inLen) (h7 : s.arg0 = t.arg0) (h8 : s.arg1 = t.arg1) (h9 : s.result = t.result) (h10 :
    s.hdrSize = t.hdrSize) (h11 : s.origSize = t.origSize) (h12 : s.writer = t.writer) (h13 :
    s.reader = t.reader) (h14 : s.tree = t.tree) (h15 : s.codes = t.codes) (h16 : s.freq = t.freq)
    (h17 : s.ibuf = t.ibuf) (h18 : s.activity = t.activity) (h19 : s.obufDraws = t.obufDraws)
    (h20 : s.schedule = t.schedule) (h21 : s.answer = t.answer) (h22 : s.draws = t.draws) : s = t := by
  cases s; cases t
  simp only [State.mk.injEq]
  exact ⟨h0, h1, h2, h3, h4, h5, h6, h7, h8, h9, h10, h11, h12, h13, h14, h15, h16, h17, h18, h19, h20,
    h21, h22⟩

theorem drawnNodes_congr {s t : State} (h : s.draws = t.draws) : s.drawnNodes = t.drawnNodes := by
  unfold State.drawnNodes State.drawn
  rw [h]

/-- NODE is the one part whose draws do not compute by themselves. -/
theorem desUse_draw_nodes (use : DesUse) (s : State) :
    (use.draw s).tree = (s.drawTree).tree := by
  cases use with
  | deserializeTree => rfl
  | decompress => rfl
  | readHeader =>
    show (s.drawHeader).drawTree.tree = s.drawTree.tree
    rw [State.drawTree_tree, State.drawTree_tree, drawnNodes_congr (s := s.drawHeader) (t := s) rfl]
    rfl

/-- The draws of `des_tree`'s commands overwrite the arena. -/
theorem desUse_draw_tree (use : DesUse) (s : State) (tree : Arena) (a : Option Activity) (e : Err) :
    (use.draw { s with tree := tree, activity := a }).complete e = (use.draw s).complete e := by
  have ht : (use.draw { s with tree := tree, activity := a }).tree = (use.draw s).tree := by
    rw [desUse_draw_nodes, desUse_draw_nodes, State.drawTree_tree, State.drawTree_tree,
      drawnNodes_congr (s := { s with tree := tree, activity := a }) (t := s) rfl]
    rfl
  cases use <;> exact State.eq_of_fields rfl rfl rfl rfl rfl rfl rfl rfl rfl rfl rfl rfl rfl rfl ht
    rfl rfl rfl rfl rfl rfl rfl rfl

/-- What `des_tree`'s error leaves is the same however far it came. -/
theorem des_outcome {stop : Stop} (h : ∀ e, stop ≠ .raise e false) (use : DesUse) (s : State)
    (tree : Arena) (a : Option Activity) :
    stop.outcome use.draw { s with tree := tree, activity := a } = stop.outcome use.draw s := by
  cases stop with
  | fault f => rfl
  | raise e d =>
    cases d with
    | false => exact absurd rfl (h e)
    | true =>
      rw [Stop.outcome_raise, Stop.outcome_raise, State.raise, State.raise, if_pos rfl, if_pos rfl,
        desUse_draw_tree]

/-- Nor does it depend on what the start of the command has written. -/
theorem begin_outcome {stop : Stop} (h : ∀ e, stop ≠ .raise e false) (use : DesUse) (s : State)
    (hs os : Word) (p0 limit : Nat) (hu : use = .deserializeTree → hs = s.hdrSize ∧ os = s.origSize) :
    stop.outcome use.draw ({ s with hdrSize := hs, origSize := os }.deserializing use p0 limit) =
      stop.outcome use.draw s := by
  cases stop with
  | fault f => rfl
  | raise e d =>
    cases d with
    | false => exact absurd rfl (h e)
    | true =>
      rw [Stop.outcome_raise, Stop.outcome_raise, State.raise, State.raise, if_pos rfl, if_pos rfl]
      have ht : (use.draw ({ s with hdrSize := hs, origSize := os }.deserializing use p0 limit)).tree =
          (use.draw s).tree := by
        have hn : ({ s with hdrSize := hs, origSize := os }.deserializing use p0 limit).drawnNodes =
            s.drawnNodes := drawnNodes_congr rfl
        rw [desUse_draw_nodes, desUse_draw_nodes, State.drawTree_tree, State.drawTree_tree, hn]
        rfl
      refine congrArg _ ?_
      cases use with
      | deserializeTree =>
        obtain ⟨rfl, rfl⟩ := hu rfl
        exact State.eq_of_fields rfl rfl rfl rfl rfl rfl rfl rfl rfl rfl rfl rfl rfl rfl ht
          rfl rfl rfl rfl rfl rfl rfl rfl
      | readHeader =>
        exact State.eq_of_fields rfl rfl rfl rfl rfl rfl rfl rfl rfl rfl rfl rfl rfl rfl ht
          rfl rfl rfl rfl rfl rfl rfl rfl
      | decompress =>
        exact State.eq_of_fields rfl rfl rfl rfl rfl rfl rfl rfl rfl rfl rfl rfl rfl rfl ht
          rfl rfl rfl rfl rfl rfl rfl rfl

/-- The draws of `decode_sym`'s commands overwrite the cursors. -/
theorem walkUse_draw_reader (use : WalkUse) (s : State) (r : Reader) (a : Option Activity) (e : Err)
    (hr : r.limit = s.reader.limit) :
    (use.draw { s with reader := r, activity := a }).complete e = (use.draw s).complete e := by
  have ht : (use.draw { s with reader := r, activity := a }).tree = (use.draw s).tree := by
    cases use with
    | decodeSymbol => rfl
    | decompress =>
      show (State.drawTree { s with reader := r, activity := a }).tree = s.drawTree.tree
      rw [State.drawTree_tree, State.drawTree_tree,
        drawnNodes_congr (s := { s with reader := r, activity := a }) (t := s) rfl]
      rfl
  have hl : (use.draw { s with reader := r, activity := a }).reader = (use.draw s).reader := by
    cases use with
    | decompress => rfl
    | decodeSymbol =>
      show { r with pos := _, bit := _ } = ({ s.reader with pos := _, bit := _ } : Reader)
      rw [hr]; rfl
  cases use <;> exact State.eq_of_fields rfl rfl rfl rfl rfl rfl rfl rfl rfl rfl rfl rfl rfl hl ht
    rfl rfl rfl rfl rfl rfl rfl rfl

theorem walk_outcome {stop : Stop} (h : ∀ e, stop ≠ .raise e false) (use : WalkUse) (s : State)
    (r : Reader) (a : Option Activity) (hr : r.limit = s.reader.limit) :
    stop.outcome use.draw { s with reader := r, activity := a } = stop.outcome use.draw s := by
  cases stop with
  | fault f => rfl
  | raise e d =>
    cases d with
    | false => exact absurd rfl (h e)
    | true =>
      rw [Stop.outcome_raise, Stop.outcome_raise, State.raise, State.raise, if_pos rfl, if_pos rfl,
        walkUse_draw_reader use s r a e hr]

theorem afterTree_activity (use : DesUse) (p : Nat) (s : State) (tree : Arena) (a : Option Activity) :
    afterTree use p { s with activity := a, tree := tree } = afterTree use p { s with tree := tree } := by
  cases use with
  | deserializeTree => rfl
  | readHeader => rfl
  | decompress =>
    have h1 := desUse_draw_tree .decompress s tree a .outputOverflow
    have h2 := desUse_draw_tree .decompress s tree s.activity .outputOverflow
    have hd : (drawDecompress { s with activity := a, tree := tree }).complete .outputOverflow =
        (drawDecompress { s with tree := tree }).complete .outputOverflow := h1.trans h2.symm
    simp only [afterTree, startPayload, State.raise, if_true, hd]
    rfl

/-! ### `des_tree`, token by token -/

theorem unwritten_not_clean {m : Memory} {stop : Stop} (h : stop = .raise .truncatedOrCorrupt true ∨ Unwritten m stop) :
    ∀ e, stop ≠ .raise e false := by
  rintro e rfl
  rcases h with h | h
  · cases h
  · exact h.not_raise

/-- A token's cursor does not touch the count of nodes, and a token adds one. -/
theorem desToken_cnt {i : Instr} {d d' : Des} {nodes nodes' : Vector Node nodeMax} {ro : Option NodeIdx}
    (h : desToken i d nodes = .ok (d', nodes', ro)) : d.cnt < nodeMax ∧ d'.cnt = d.cnt + 1 := by
  cases i <;> simp only [desToken, desLeaf, desInternal, corrupt] at h <;> try cases h
  all_goals
    by_cases hc : nodeMax ≤ d.cnt
    · simp only [hc, if_true] at h; cases h
    · simp only [hc, if_false] at h; cases h
      exact ⟨Nat.lt_of_not_le hc, rfl⟩

theorem exec_of_token {i : Instr} {s : State} {d : Des} {use : DesUse} (hi : i.format = .treeToken)
    (ha : s.activity = some (.deserialize d use)) :
    exec i s = tokenOutcome use s (desToken i d s.tree.nodes) := by
  cases i with
  | treeInternal => simp only [exec, execTreeInternal, ha, desToken]
  | treeLeaf x => simp only [exec, execTreeLeaf, ha, desToken]
  | _ => cases hi

/-- From inside `des_tree` some steps lead to where the whole of it leads. -/
theorem run_desLoop (fuel : Nat) (s : State) (d : Des) (use : DesUse) (hb : s.busy = true)
    (hs : s.schedule = []) (ha : s.activity = some (.deserialize d use)) (hc : d.cnt ≤ nodeMax)
    (hf : nodeMax < fuel + d.cnt) :
    ∃ n, Sys2Proof.core.run (n + 1) s =
      match desLoop s.ibuf fuel d s.tree.nodes with
      | .error stop => stop.outcome use.draw s
      | .ok (d', nodes, root) => afterTree use d'.pos { s with tree := d'.arena nodes root } := by
  induction fuel generalizing s d with
  | zero => omega
  | succ fuel ih =>
    have hstep : step s = resumeDeserialize s d use := by
      rw [step_core hs]; simp only [coreMove, hb, if_true, ha]
    rw [desLoop]
    unfold resumeDeserialize at hstep
    cases hft : fetchToken s.ibuf d with
    | error stop =>
      rw [hft] at hstep
      exact ⟨0, by rw [run_one, hstep]⟩
    | ok p =>
      obtain ⟨i, d'⟩ := p
      obtain ⟨hlim, hcnt, hst⟩ := fetchToken_des hft
      rw [hft] at hstep
      have hx := exec_of_token (s := { s with activity := some (.deserialize d' use) })
        (fetchToken_format hft) rfl
      simp only at hstep
      rw [hx] at hstep
      cases hdt : desToken i d' s.tree.nodes with
      | error stop =>
        refine ⟨0, ?_⟩
        rw [run_one, hstep]
        simp only [hdt, tokenOutcome]
        have := des_outcome (unwritten_not_clean (m := s.ibuf) (.inl (desToken_error hdt))) use s s.tree
          (some (.deserialize d' use))
        exact this
      | ok q =>
        obtain ⟨d'', nodes', ro⟩ := q
        obtain ⟨hlt, hcnt'⟩ := desToken_cnt hdt
        simp only [hdt, tokenOutcome] at hstep
        cases ro with
        | some root =>
          refine ⟨0, ?_⟩
          rw [run_one, hstep]
          simp only [hdt]
          exact afterTree_activity use d''.pos s (d''.arena nodes' root) _
        | none =>
          simp only at hstep
          obtain ⟨n, hn⟩ := ih { s with
            tree := { s.tree with nodes := nodes' }, activity := some (.deserialize d'' use) } d'' hb hs rfl
            (by omega) (by omega)
          refine ⟨n + 1, ?_⟩
          rw [run_succ _ hstep, hn]
          simp only [hdt]
          cases hdl : desLoop s.ibuf fuel d'' nodes' with
          | error stop =>
            exact des_outcome (unwritten_not_clean (desLoop_error hdl)) use s { s.tree with nodes := nodes' } _
          | ok q =>
            obtain ⟨d3, nodes3, root3⟩ := q
            exact afterTree_activity use d3.pos s (d3.arena nodes3 root3) _

/-! ### `decode_sym`, bit by bit -/

theorem exec_decodeBit (v : Bool) (s : State) : exec (decodeBit v) s = walkOutcome v s := by
  cases v <;> rfl

/-- From inside `decode_sym` some steps lead to where the whole of it leads. -/
theorem run_walkLoop (fuel : Nat) (s : State) (w : Walk) (use : WalkUse) (hb : s.busy = true)
    (hs : s.schedule = []) (ha : s.activity = some (.walk w use))
    (hf : 8 * (s.reader.limit.toNat - s.reader.pos.toNat) - s.reader.bit.toNat < fuel) :
    ∃ n, Sys2Proof.core.run (n + 1) s =
      match walkLoop s.tree.nodes s.ibuf fuel w.cur w.dirty s.reader with
      | .error stop => stop.outcome use.draw s
      | .ok (x, r) => afterSymbol use w x { s with reader := r } := by
  induction fuel generalizing s w with
  | zero => omega
  | succ fuel ih =>
    have hstep : step s = resumeWalk s w use := by
      rw [step_core hs]; simp only [coreMove, hb, if_true, ha]
    rw [walkLoop]
    unfold resumeWalk at hstep
    rcases readBit_cases s.ibuf w.dirty s.reader with ⟨-, e⟩ | ⟨-, -, e⟩ | ⟨hl, b, -, e⟩
    · rw [e] at hstep ⊢
      exact ⟨0, by rw [run_one, hstep]⟩
    · rw [e] at hstep ⊢
      exact ⟨0, by rw [run_one, hstep]⟩
    · rw [e] at hstep ⊢
      simp only [exec_decodeBit, walkOutcome, ha] at hstep
      simp only
      have hlim := s.reader.advance_limit
      cases hw : walkBit s.tree.nodes w.cur (streamBit b s.reader.bit) with
      | error stop =>
        refine ⟨0, ?_⟩
        rw [run_one, hstep, hw]
        have := walkBit_error hw
        subst this
        rfl
      | ok q =>
        cases q with
        | inr x =>
          refine ⟨0, ?_⟩
          rw [run_one, hstep]
          simp only [hw]
          rcases use with _ | _ <;> rw [← ha]
        | inl next =>
          simp only [hw] at hstep
          have hm : 8 * (s.reader.advance.limit.toNat - s.reader.advance.pos.toNat) -
              s.reader.advance.bit.toNat < fuel := by
            obtain ⟨m1, m2, m3⟩ := Reader.advance_movedBy hl
            have := s.reader.bit.isLt
            rw [m1, m2, m3]
            omega
          obtain ⟨n, hn⟩ := ih (State.walking { s with reader := s.reader.advance } use
            { w with cur := next, dirty := true }) { w with cur := next, dirty := true } hb hs rfl hm
          refine ⟨n + 1, ?_⟩
          refine (run_succ (n + 1) hstep).trans (Eq.trans hn ?_)
          simp only [State.walking]
          cases hwl : walkLoop s.tree.nodes s.ibuf fuel next true s.reader.advance with
          | error stop =>
            refine walk_outcome ?_ use s s.reader.advance _ hlim
            rintro e' rfl
            rcases walkLoop_error hwl with ⟨d, hd, h⟩ | h | h
            · cases h; exact absurd (hd rfl) (by simp)
            · exact h.not_raise
            · cases h
          | ok q =>
            obtain ⟨x, r⟩ := q
            cases use <;> simp only [afterSymbol, State.walking] <;> rfl

/-- The draws of DECOMPRESS overwrite the reader and the output. -/
theorem decompress_draw_output (s : State) (r : Reader) (w : Writer) (a : Option Activity) (e : Err)
    (h1 : w.acc = s.writer.acc) (h2 : w.cnt = s.writer.cnt) :
    (drawDecompress { s with reader := r, writer := w, activity := a }).complete e =
      (drawDecompress s).complete e := by
  have ht : (drawDecompress { s with reader := r, writer := w, activity := a }).tree =
      (drawDecompress s).tree := by
    show (State.drawTree { s with reader := r, writer := w, activity := a }).tree = s.drawTree.tree
    rw [State.drawTree_tree, State.drawTree_tree,
      drawnNodes_congr (s := { s with reader := r, writer := w, activity := a }) (t := s) rfl]
    rfl
  have hw : (drawDecompress { s with reader := r, writer := w, activity := a }).writer =
      (drawDecompress s).writer := by
    show { w with outLen := 0, obuf := [] } = ({ s.writer with outLen := 0, obuf := [] } : Writer)
    rw [h1, h2]
  exact State.eq_of_fields rfl rfl rfl rfl rfl rfl rfl rfl rfl rfl rfl rfl hw rfl ht
    rfl rfl rfl rfl rfl rfl rfl rfl

/-- From the start of a symbol inside DECOMPRESS some steps lead to the end of the command. -/
theorem run_decodeMany (k : Nat) (s : State) (w : Walk) (hb : s.busy = true) (hs : s.schedule = [])
    (ha : s.activity = some (.walk w .decompress)) (hcur : w.cur = s.tree.root) (hd : w.dirty = true)
    (hk : s.origSize.toNat = w.emitted + (k + 1)) :
    ∃ n, Sys2Proof.core.run (n + 1) s =
      match decodeMany s.tree s.ibuf (k + 1) s.reader s.writer with
      | .error stop => stop.outcome drawDecompress s
      | .ok (r, w') => .next ({ s with reader := r, writer := w' }.complete .none) := by
  induction k generalizing s w with
  | zero =>
    obtain ⟨n, hn⟩ := run_walkLoop (s.reader.bitsLeft + 1) s w .decompress hb hs ha
      (by unfold Reader.bitsLeft; omega)
    refine ⟨n, ?_⟩
    rw [hn, hcur, hd]
    simp only [decodeMany, decodeSym]
    cases hwl : walkLoop s.tree.nodes s.ibuf (s.reader.bitsLeft + 1) s.tree.root true s.reader with
    | error stop => rfl
    | ok q =>
      obtain ⟨x, r⟩ := q
      simp only [afterSymbol]
      rw [if_neg (by omega)]
      rfl
  | succ k ih =>
    obtain ⟨n, hn⟩ := run_walkLoop (s.reader.bitsLeft + 1) s w .decompress hb hs ha
      (by unfold Reader.bitsLeft; omega)
    rw [hcur, hd] at hn
    rw [decodeMany]
    simp only [decodeSym]
    cases hwl : walkLoop s.tree.nodes s.ibuf (s.reader.bitsLeft + 1) s.tree.root true s.reader with
    | error stop =>
      rw [hwl] at hn
      exact ⟨n, hn⟩
    | ok q =>
      obtain ⟨x, r⟩ := q
      rw [hwl] at hn
      simp only [afterSymbol] at hn
      rw [if_pos (by omega)] at hn
      have hlim := walkLoop_limit hwl
      obtain ⟨m, hm⟩ := ih (State.walking { s with reader := r, writer := s.writer.push x } .decompress
        { cur := s.tree.root, emitted := w.emitted + 1, dirty := true })
        { cur := s.tree.root, emitted := w.emitted + 1, dirty := true } hb hs rfl rfl rfl
        (by simp only [State.walking]; omega)
      refine ⟨n + 1 + m, ?_⟩
      rw [show n + 1 + m + 1 = (n + 1) + (m + 1) by omega, run_add _ _ hn, hm]
      simp only [State.walking]
      cases hdm : decodeMany s.tree s.ibuf (k + 1) r (s.writer.push x) with
      | error stop =>
        have h1 : ∀ e, stop ≠ .raise e false := by
          rintro e rfl
          rcases decodeMany_error hdm with h | h | h
          · cases h
          · exact h.not_raise
          · cases h
        simp only
        cases stop with
        | fault f => rfl
        | raise e d =>
          cases d with
          | false => exact absurd rfl (h1 e)
          | true =>
            rw [Stop.outcome_raise, Stop.outcome_raise, State.raise, State.raise, if_pos rfl, if_pos rfl]
            exact congrArg _ (decompress_draw_output s r (s.writer.push x) _ e rfl rfl)
      | ok q => rfl

end Sys2Proof.Machine
end

