-- ==== Sys2Proof/Laws/PerInstr.lean ====
section
/-! SUPPORT. Statements about every instruction as syntax, one lemma per constructor. -/

namespace Sys2Proof.Laws.EncodingForm

open Sys2Proof

/-- An instruction is encoded in its own format, and in no other: a command as the command word of its
opcode, with RSVD = 0 (R67); a tree token as bytes that begin with its flag (R72); a payload bit as one
bit (R116). -/
def Statement (i : Instr) : Prop :=
  i.wf = true ∧
  (i.format = .cmd → ∃ op, i.opcode? = some op ∧ encode i = .cmd (cmdWord op)) ∧
  (i.format = .treeToken → i.opcode? = none ∧
    (encode i = .token [0x00] ∨ ∃ symbol, encode i = .token [0x01, symbol])) ∧
  (i.format = .payloadBit → i.opcode? = none ∧ ∃ b, encode i = .bit b)

/-- A command's form. -/
theorem of_opcode {i : Instr} {op : Byte} (h : i.opcode? = some op) : Statement i := by
  have hf := format_of_opcode h
  refine ⟨rfl, fun _ => ⟨op, h, by unfold encode; rw [h]⟩, fun hx => ?_, fun hx => ?_⟩
  · rw [hf] at hx; cases hx
  · rw [hf] at hx; cases hx

theorem nop : Statement .nop := of_opcode rfl
theorem compress : Statement .compress := of_opcode rfl
theorem decompress : Statement .decompress := of_opcode rfl
theorem countFreq : Statement .countFreq := of_opcode rfl
theorem buildTree : Statement .buildTree := of_opcode rfl
theorem buildCodes : Statement .buildCodes := of_opcode rfl
theorem serializeTree : Statement .serializeTree := of_opcode rfl
theorem deserializeTree : Statement .deserializeTree := of_opcode rfl
theorem writeHeader : Statement .writeHeader := of_opcode rfl
theorem readHeader : Statement .readHeader := of_opcode rfl
theorem bwReset : Statement .bwReset := of_opcode rfl
theorem writeBit : Statement .writeBit := of_opcode rfl
theorem writeCode : Statement .writeCode := of_opcode rfl
theorem bwFinish : Statement .bwFinish := of_opcode rfl
theorem encodeByte : Statement .encodeByte := of_opcode rfl
theorem brInit : Statement .brInit := of_opcode rfl
theorem readBit : Statement .readBit := of_opcode rfl
theorem decodeSymbol : Statement .decodeSymbol := of_opcode rfl

theorem treeInternal : Statement .treeInternal :=
  ⟨rfl, fun h => (by cases h), fun _ => ⟨rfl, .inl rfl⟩, fun h => (by cases h)⟩

theorem treeLeaf (symbol : Byte) : Statement (.treeLeaf symbol) :=
  ⟨rfl, fun h => (by cases h), fun _ => ⟨rfl, .inr ⟨symbol, rfl⟩⟩, fun h => (by cases h)⟩

theorem payloadBitLeft : Statement .payloadBitLeft :=
  ⟨rfl, fun h => (by cases h), fun h => (by cases h), fun _ => ⟨rfl, false, rfl⟩⟩

theorem payloadBitRight : Statement .payloadBitRight :=
  ⟨rfl, fun h => (by cases h), fun h => (by cases h), fun _ => ⟨rfl, true, rfl⟩⟩

end Sys2Proof.Laws.EncodingForm
end

