-- ==== Sys2Proof/Laws/Tables.lean ====
section
/-! SUPPORT. What a step needs to keep the arena and the code table well formed (R34, R37 to R40). -/

namespace Sys2Proof.Machine

/-- The tables of a COMPRESS that returns (R114). -/
theorem compressInput_codes {s : State} {input : List Byte} {c : Compressed}
    (h : compressInput s input = .ok c) :
    ∃ t, buildCodes t = .ok c.codes ∧ c.tree = buildTree (countFreq input) s.tree ∧
      readTree c.tree = .ok t := by
  unfold compressInput at h
  simp only at h
  split at h
  · cases h
  · rename_i t ht
    split at h
    · cases h
    · rename_i c' hc
      split at h
      · cases h
      · split at h
        · cases h
        · split at h
          · cases h
          · cases h; exact ⟨t, hc, rfl, ht⟩

/-- What an error leaves of the arena and the code table: untouched or invalid. -/
theorem drawOf_tables (i : Instr) (s : State) :
    ((drawOf i s).tree = s.tree ∨ (drawOf i s).tree.valid = false) ∧
    ((drawOf i s).codes = s.codes ∨ (drawOf i s).codes.valid = false) ∧
    ((drawOf i s).tree.valid = false → (drawOf i s).tree = s.tree ∨
      (drawOf i s).codes.valid = false) := by
  cases i with
  | compress | decompress | deserializeTree | readHeader => exact ⟨.inr rfl, .inr rfl, fun _ => .inr rfl⟩
  | buildCodes => exact ⟨.inl rfl, .inr rfl, fun _ => .inl rfl⟩
  | _ => exact ⟨.inl rfl, .inl rfl, fun _ => .inl rfl⟩

/-- The host writes neither the arena nor the code table (R23). -/
theorem host_tables (s : State) (op : HostOp) :
    (s.hostOp op).tree = s.tree ∧ (s.hostOp op).codes = s.codes ∧
      ((s.hostOp op).activity = s.activity ∨ (s.hostOp op).activity = none) := by
  cases op with
  | regRead off => exact ⟨rfl, rfl, .inl rfl⟩
  | ibufRead a => exact ⟨rfl, rfl, .inl rfl⟩
  | obufRead a => exact ⟨rfl, rfl, .inl rfl⟩
  | obufWrite a b => exact ⟨rfl, rfl, .inl rfl⟩
  | ibufWrite a b =>
    simp only [State.hostOp, State.ibufWrite]
    split <;> exact ⟨rfl, rfl, .inl rfl⟩
  | regWrite off v =>
    simp only [State.hostOp, State.regWrite]
    split
    · exact ⟨rfl, rfl, .inl rfl⟩
    · unfold State.cmdWrite
      split
      · exact ⟨rfl, rfl, .inl rfl⟩
      · exact ⟨rfl, rfl, .inr rfl⟩
    · split
      · exact ⟨rfl, rfl, .inl rfl⟩
      · rename_i r _ _ _
        cases r <;> exact ⟨rfl, rfl, .inl rfl⟩

theorem desUse_draw (use : DesUse) : use.draw = drawOf use.command := by cases use <;> rfl

theorem walkUse_draw (use : WalkUse) : use.draw = drawOf use.command := by cases use <;> rfl

theorem readHeader_wellFormed {m : Memory} {n : Word} {nodes : Vector Node nodeMax} {r : HeaderRead}
    (h : readHeader m n nodes = .ok r) : r.tree.WellFormed ∧ r.tree.valid = true := by
  unfold readHeader at h
  split at h
  · cases h
  · split at h
    · cases h
    · rename_i hd; cases h; exact desTree_wellFormed hd

theorem decompressInput_header {s : State} {r : Decompressed} (h : decompressInput s = .ok r) :
    readHeader s.ibuf s.inLen s.tree.nodes = .ok r.header := by
  unfold decompressInput at h
  split at h
  · cases h
  · rename_i hh
    split at h
    · cases h
    · split at h <;> cases h; exact hh

theorem readInput_ok {s : State} {input : List Byte} (h : readInput s = .ok input) :
    input.length = s.inLen.toNat ∧ HoldsBytes s.ibuf 0 input ∧
      s.inLen.toNat ≤ s.cfg.ibufBytes.toNat := by
  unfold readInput at h
  split at h
  · cases h
  · rename_i hb
    obtain ⟨h1, h2⟩ := memReadRange_ok h
    refine ⟨h1, h2, ?_⟩
    simpa [State.inLenTooBig] using hb

theorem Arena.WellFormed.root_lt {a : Arena} (h : a.WellFormed) :
    a.root.toNat < a.count.toNat := by
  obtain ⟨t, L, hh, hp, -⟩ := h
  exact List.mem_range.1 (hp.mem_iff.1 hh.head_mem)

/-- Every index below NODE_COUNT is the root of a subtree (R40). -/
theorem Arena.WellFormed.subtree {a : Arena} (h : a.WellFormed) {i : Nat} (hi : i < a.count.toNat) :
    ∃ t L, Holds a.nodes i t L ∧ ∀ j ∈ L, j < a.count.toNat := by
  obtain ⟨t, L, hh, hp, -⟩ := h
  obtain ⟨t', L', h', hs⟩ := hh.sub i (hp.mem_iff.2 (List.mem_range.2 hi))
  exact ⟨t', L', h', fun j hj => List.mem_range.1 (hp.mem_iff.1 (hs hj))⟩

/-- A walk stays inside the arena (R116). -/
theorem walkBit_next {a : Arena} (h : a.WellFormed) {cur next : NodeIdx} {v : Bool}
    (hc : cur.toNat < a.count.toNat)
    (hw : walkBit a.nodes cur v = .ok (.inl next)) : next.toNat < a.count.toNat := by
  obtain ⟨t, L, ht, hL⟩ := Arena.WellFormed.subtree h hc
  cases t with
  | leaf x => rw [walkBit_leaf ht] at hw; cases hw
  | node l r =>
    obtain ⟨c, Lc, hs, hh, e⟩ := walkBit_node ht v
    rw [e] at hw
    split at hw
    · cases hw
    · cases hw; exact hL _ (hs hh.head_mem)

/-- COMPRESS never finds its own arena broken. -/
theorem compressInput_sound {s : State} {input : List Byte}
    (hi : readInput s = .ok input) (h0 : s.inLen ≠ 0) :
    compressInput s input ≠ .error (.fault .arenaBroken) := by
  intro h
  obtain ⟨hl, -, -⟩ := readInput_ok hi
  have hne : input ≠ [] := by
    rintro rfl
    exact h0 (BitVec.eq_of_toNat_eq hl.symm)
  obtain ⟨tree, hT⟩ := inputTree input s.tree hne (by rw [hl]; exact s.inLen.isLt)
  unfold compressInput at h
  simp only [hT.read] at h
  split at h
  · rename_i he; cases h; cases buildCodes_error he
  · split at h
    · rename_i he; cases h; cases writeHeader_error he
    · split at h
      · rename_i he; cases h; cases writeBits_error_dirty he
      · split at h
        · rename_i he; cases h; cases flushByte_error he
        · cases h

/-- What the host can do to the life of a command: nothing, or start it (R138). -/
theorem hostOp_status {s : State} (op : HostOp) :
    ((s.hostOp op).busy = s.busy ∧ (s.hostOp op).done = s.done ∧ (s.hostOp op).err = s.err ∧
      (s.hostOp op).activity = s.activity) ∨
    (s.busy = false ∧ (s.hostOp op).busy = true ∧ (s.hostOp op).done = false ∧
      (s.hostOp op).err = .none ∧ (s.hostOp op).activity = none) := by
  cases op with
  | regWrite off v =>
    simp only [State.hostOp, State.regWrite]
    split
    · exact .inl ⟨rfl, rfl, rfl, rfl⟩
    · unfold State.cmdWrite
      split
      · exact .inl ⟨rfl, rfl, rfl, rfl⟩
      · rename_i hb; exact .inr ⟨by simpa using hb, rfl, rfl, rfl, rfl⟩
    · split
      · exact .inl ⟨rfl, rfl, rfl, rfl⟩
      · rename_i r _ _ _
        cases r <;> exact .inl ⟨rfl, rfl, rfl, rfl⟩
  | ibufWrite a b =>
    simp only [State.hostOp, State.ibufWrite]
    split <;> exact .inl ⟨rfl, rfl, rfl, rfl⟩
  | regRead off => exact .inl ⟨rfl, rfl, rfl, rfl⟩
  | ibufRead a => exact .inl ⟨rfl, rfl, rfl, rfl⟩
  | obufRead a => exact .inl ⟨rfl, rfl, rfl, rfl⟩
  | obufWrite a b => exact .inl ⟨rfl, rfl, rfl, rfl⟩

/-! ### COMPRESS without error -/

theorem inLen_ne {s : State} {input : List Byte} (hl : input.length = s.inLen.toNat) (hne : input ≠ []) : s.inLen ≠ 0 := by
  intro h; rw [h] at hl; exact hne (List.eq_nil_of_length_eq_zero hl)

/-- Everything a COMPRESS of a non-empty input leaves that ends without error (R114). -/
theorem compress_leaves {s t : State} {input : List Byte} (hb : HoldsBytes s.ibuf 0 input) (hl : input.length = s.inLen.toNat)
    (hne : input ≠ []) (hw : Memory.wf s.writer.obuf = true) (h : exec .compress s = .next t) (he : t.err = .none) :
    ∃ tree codes w, InputTree input (buildTree (countFreq input) s.tree) tree ∧ buildCodes tree = .ok codes ∧
      (compressedBytes input tree codes).length ≤ s.obufCap ∧ w.outLen.toNat = (compressedBytes input tree codes).length ∧
      w.cnt = 0 ∧ w.acc = 0 ∧
      (∀ a, w.obuf.get a = ((compressedBytes input tree codes)[a]?).or (s.writer.obuf.get a)) ∧
      t = { s with
          freq := countFreq input, tree := buildTree (countFreq input) s.tree, codes := codes
          hdrSize := BitVec.ofNat 32 (8 + tree.serialize.length), origSize := s.inLen, writer := w }.complete .none := by
  have h0 := inLen_ne hl hne
  have hlt : input.length < 2 ^ 32 := by have := s.inLen.isLt; omega
  obtain ⟨tree, ht⟩ := inputTree input s.tree hne hlt
  cases exec_ends rfl h with
  | @clean e hm => exact absurd he hm.ne_none
  | @drawn e hm => exact absurd he hm.ne_none
  | returns hu =>
    rcases hu with ⟨h0', -⟩ | ⟨input', c, hr, -, hc, rfl⟩
    · exact absurd h0' h0
    · obtain ⟨hl', hb', hi⟩ := readInput_ok hr
      have : input' = input := by
        have h1 := readInput_holds hb hl hi
        exact Except.ok.inj (hr.symm.trans h1)
      subst this
      obtain ⟨cf, ct, codes, ch, cw⟩ := c
      obtain ⟨tr, hbc, htr, hrt⟩ := compressInput_codes hc
      simp only at hbc htr hrt
      rw [htr, ht.read] at hrt
      cases hrt
      by_cases hfit : (compressedBytes input' tree codes).length ≤ s.obufCap
      · obtain ⟨w, e, h1, h2, h3, -, h4⟩ := compressInput_ok hl hw ht hbc hfit
        rw [hc] at e
        cases e
        exact ⟨tree, _, cw, ht, hbc, hfit, h3, h1, h2, h4, rfl⟩
      · have := compressInput_overflow hw ht hbc (Nat.lt_of_not_le hfit)
        rw [hc] at this; cases this

end Sys2Proof.Machine
end

