-- ==== Sys2Proof/Laws/Pure.lean ====
section
/-! SUPPORT. What COMPRESS and DECOMPRESS do not depend on (R119): the arena's stale entries, and IBUF
from IN_LEN up. -/

namespace Sys2Proof.Machine

/-- Two arenas agree below an index. -/
def AgreeBelow (n : Nat) (nodes nodes' : Vector Node nodeMax) : Prop :=
  ∀ j < n, nodes'[j]? = nodes[j]?

theorem AgreeBelow.set {n : Nat} {nodes nodes' : Vector Node nodeMax} (h : AgreeBelow n nodes nodes')
    (i : Nat) (x : Node) : AgreeBelow n (nodes.setIfInBounds i x) (nodes'.setIfInBounds i x) := by
  intro j hj
  by_cases hji : j = i
  · subst hji
    by_cases hb : j < nodeMax
    · rw [nodes_set_self hb, nodes_set_self hb]
    · rw [Vector.getElem?_eq_none (by omega), Vector.getElem?_eq_none (by omega)]
  · rw [nodes_set_other hji, nodes_set_other hji]
    exact h j hj

/-- Writing the next entry extends the agreement. -/
theorem AgreeBelow.push {n : Nat} {nodes nodes' : Vector Node nodeMax} (h : AgreeBelow n nodes nodes')
    (x : Node) : AgreeBelow (n + 1) (nodes.setIfInBounds n x) (nodes'.setIfInBounds n x) := by
  intro j hj
  by_cases hji : j = n
  · subst hji
    by_cases hb : j < nodeMax
    · rw [nodes_set_self hb, nodes_set_self hb]
    · rw [Vector.getElem?_eq_none (by omega), Vector.getElem?_eq_none (by omega)]
  · exact h.set n x j (by omega)

/-! ### BUILD_TREE -/

/-- Two tree builders at the same point. -/
def Build.Agree (b b' : Build) : Prop :=
  b'.n = b.n ∧ b'.pq = b.pq ∧ AgreeBelow b.n b.nodes b'.nodes

theorem Build.Agree.add {b b' : Build} (h : b.Agree b') (node : Node) (weight : Nat) (pq : List Entry) :
    (b.add node weight pq).Agree (b'.add node weight pq) := by
  obtain ⟨h1, h2, h3⟩ := h
  refine ⟨by simp only [Build.add, h1], by simp only [Build.add, h1], ?_⟩
  simp only [Build.add, h1]
  exact h3.push node

theorem mergeAll_agree (fuel : Nat) {b b' : Build} (h : b.Agree b') :
    (mergeAll fuel b).Agree (mergeAll fuel b') := by
  induction fuel generalizing b b' with
  | zero => exact h
  | succ fuel ih =>
    rw [mergeAll, mergeAll, h.2.1]
    split
    · exact ih (h.add _ _ _)
    · exact h

theorem seedLeaves_agree (freq : Vector Word 256) (nodes nodes' : Vector Node nodeMax) :
    (seedLeaves freq nodes).Agree (seedLeaves freq nodes') := by
  unfold seedLeaves
  have : ∀ (ps : List (Byte × Nat)) (b b' : Build), b.Agree b' →
      (ps.foldl (fun b (s, f) => b.add (Node.ofSymbol s) f b.pq) b).Agree
        (ps.foldl (fun b (s, f) => b.add (Node.ofSymbol s) f b.pq) b') := by
    intro ps
    induction ps with
    | nil => intro b b' h; exact h
    | cons x xs ih =>
      intro b b' h
      rw [List.foldl_cons, List.foldl_cons]
      refine ih _ _ ?_
      have := h.add (Node.ofSymbol x.1) x.2 b.pq
      rw [← h.2.1] at this ⊢
      exact this
  exact this _ _ _ ⟨rfl, rfl, fun j hj => absurd hj (Nat.not_lt_zero j)⟩

/-- What BUILD_TREE leaves does not depend on the arena it found. -/
theorem buildTree_agree (freq : Vector Word 256) (a a' : Arena) :
    (buildTree freq a').valid = (buildTree freq a).valid ∧
      (buildTree freq a').count = (buildTree freq a).count ∧
      (buildTree freq a').root = (buildTree freq a).root ∧
      AgreeBelow (buildTree freq a).count.toNat (buildTree freq a).nodes (buildTree freq a').nodes := by
  have hs := seedLeaves_agree freq a.nodes a'.nodes
  have hm := mergeAll_agree ((seedLeaves freq a.nodes).pq.length - 1) hs
  obtain ⟨h1, h2, h3⟩ := hm
  unfold buildTree
  simp only [hs.2.1, h2]
  split
  · exact ⟨rfl, rfl, rfl, fun j hj => absurd hj (Nat.not_lt_zero j)⟩
  · refine ⟨rfl, by simp only [h1], rfl, ?_⟩
    intro j hj
    refine h3 j (Nat.lt_of_lt_of_le hj ?_)
    simp only [BitVec.toNat_ofNat]
    exact Nat.mod_le _ _

/-- Two well-formed arenas that agree below their count hold the same tree. -/
theorem readTree_agree {a a' : Arena} (h : a.WellFormed) (hc : a'.count = a.count) (hr : a'.root = a.root)
    (hn : AgreeBelow a.count.toNat a.nodes a'.nodes) : a'.WellFormed ∧ readTree a' = readTree a := by
  obtain ⟨t, L, hh, hp, hl⟩ := h
  have hh' : Holds a'.nodes a'.root.toNat t L := by
    rw [hr]
    exact hh.congr (fun j hj => hn j (List.mem_range.1 (hp.mem_iff.1 hj)))
  have hw : a'.WellFormed := ⟨t, L, hh', by rw [hc]; exact hp, hl⟩
  refine ⟨hw, ?_⟩
  obtain ⟨t1, L1, h1, -, e1, -⟩ := Arena.WellFormed.tree (a := a) ⟨t, L, hh, hp, hl⟩
  obtain ⟨t2, L2, h2, -, e2, -⟩ := hw.tree
  rw [e1, e2, (h1.unique hh).1, (h2.unique hh').1]

/-! ### Reading IBUF -/

/-- Two contents of IBUF agree below an address. -/
def SameBelow (n : Nat) (m m' : Memory) : Prop := ∀ a < n, m'.get a = m.get a

theorem memRead_same {n a : Nat} {m m' : Memory} (h : SameBelow n m m') (ha : a < n) :
    memRead m' a = memRead m a := by rw [memRead, memRead, h a ha]

theorem memReadRange_same {n a k : Nat} {m m' : Memory} (h : SameBelow n m m') (ha : a + k ≤ n) :
    memReadRange m' a k = memReadRange m a k := by
  induction k generalizing a with
  | zero => rfl
  | succ k ih => rw [memReadRange, memReadRange, memRead_same h (by omega), ih (by omega)]

theorem readWithin_same {n limit p : Nat} {m m' : Memory} (h : SameBelow n m m') (hl : limit ≤ n) :
    readWithin m' limit p = readWithin m limit p := by
  unfold readWithin
  split
  · rfl
  · exact memRead_same h (by omega)

theorem fetchToken_same {n : Nat} {d : Des} {m m' : Memory} (h : SameBelow n m m') (hl : d.limit ≤ n) :
    fetchToken m' d = fetchToken m d := by
  unfold fetchToken
  rw [readWithin_same h hl, readWithin_same h hl]

/-- The index of the Internal node that waits in a frame: its entry is not written yet (R92). -/
def Frame.index : Frame → Nat
  | .left i => i.toNat
  | .right i _ => i.toNat

/-- Two arenas agree below an index but for the nodes that wait. -/
def AgreeBut (n : Nat) (stack : List Frame) (nodes nodes' : Vector Node nodeMax) : Prop :=
  ∀ j < n, j ∉ stack.map Frame.index → nodes'[j]? = nodes[j]?

theorem AgreeBut.set {n : Nat} {f : Frame} {stack : List Frame} {nodes nodes' : Vector Node nodeMax}
    (h : AgreeBut n (f :: stack) nodes nodes') (x : Node) :
    AgreeBut n stack (nodes.setIfInBounds f.index x) (nodes'.setIfInBounds f.index x) := by
  intro j hj hm
  by_cases hji : j = f.index
  · subst hji
    by_cases hb : f.index < nodeMax
    · rw [nodes_set_self hb, nodes_set_self hb]
    · rw [Vector.getElem?_eq_none (by omega), Vector.getElem?_eq_none (by omega)]
  · rw [nodes_set_other hji, nodes_set_other hji]
    refine h j hj ?_
    rw [List.map_cons, List.mem_cons]
    exact fun hc => hc.elim hji hm

theorem deliver_agree {n : Nat} (v : NodeIdx) (stack : List Frame) {nodes nodes' : Vector Node nodeMax}
    (h : AgreeBut n stack nodes nodes') :
    (deliver nodes' v stack).2 = (deliver nodes v stack).2 ∧
      AgreeBut n (deliver nodes v stack).2.1 (deliver nodes v stack).1 (deliver nodes' v stack).1 := by
  induction stack generalizing v nodes nodes' with
  | nil => exact ⟨rfl, h⟩
  | cons f stack ih =>
    cases f with
    | left i => exact ⟨rfl, h⟩
    | right i l => exact ih i (h.set (Node.ofChildren l v))

/-- A token does not move the bound. -/
theorem desToken_limit {i : Instr} {d d' : Des} {nodes nodes' : Vector Node nodeMax} {ro : Option NodeIdx}
    (h : desToken i d nodes = .ok (d', nodes', ro)) : d'.limit = d.limit := by
  cases i <;> simp only [desToken, desLeaf, desInternal, corrupt] at h <;> try cases h
  all_goals
    by_cases hc : nodeMax ≤ d.cnt
    · simp only [hc, if_true] at h; cases h
    · simp only [hc, if_false] at h; cases h; rfl

theorem deliver_root {nodes : Vector Node nodeMax} {v root : NodeIdx} {stack : List Frame}
    (h : (deliver nodes v stack).2.2 = some root) : (deliver nodes v stack).2.1 = [] := by
  induction stack generalizing v nodes with
  | nil => rfl
  | cons f stack ih =>
    cases f with
    | left i => cases h
    | right i l => exact ih h

/-- The answers of a token, or of the loop, that agree. -/
def TokenAgree {α : Type} (r r' : Except Stop (Des × Vector Node nodeMax × α)) : Prop :=
  match r, r' with
  | .error e, .error e' => e' = e
  | .ok (d, nodes, root), .ok (d', nodes', root') =>
    d' = d ∧ root' = root ∧ AgreeBut d.cnt d.stack nodes nodes'
  | _, _ => False

theorem desToken_agree (i : Instr) (d : Des) {nodes nodes' : Vector Node nodeMax}
    (h : AgreeBut d.cnt d.stack nodes nodes') : TokenAgree (desToken i d nodes) (desToken i d nodes') := by
  cases i <;> simp only [desToken, desLeaf, desInternal, corrupt] <;> try exact rfl
  · split
    · exact rfl
    · rename_i hc
      refine ⟨rfl, rfl, ?_⟩
      intro j hj hm
      have hb : d.cnt < 512 := Nat.lt_of_lt_of_le (Nat.lt_of_not_le hc) (by decide)
      rw [List.map_cons, List.mem_cons, Frame.index, idx_toNat hb] at hm
      exact h j (by simp only at hj; omega) (fun hx => hm (.inr hx))
  · rename_i symbol
    split
    · exact rfl
    · rename_i hc
      have hb : d.cnt < 512 := Nat.lt_of_lt_of_le (Nat.lt_of_not_le hc) (by decide)
      have hp : AgreeBut (d.cnt + 1) d.stack (nodes.setIfInBounds d.cnt (Node.ofSymbol symbol))
          (nodes'.setIfInBounds d.cnt (Node.ofSymbol symbol)) := by
        have h' : AgreeBut (d.cnt + 1) (.left (BitVec.ofNat 9 d.cnt) :: d.stack) nodes nodes' := by
          intro j hj hm
          rw [List.map_cons, List.mem_cons, Frame.index, idx_toNat hb] at hm
          exact h j (by omega) (fun hx => hm (.inr hx))
        have := h'.set (Node.ofSymbol symbol)
        rwa [Frame.index, idx_toNat hb] at this
      obtain ⟨h1, h2⟩ := deliver_agree (BitVec.ofNat 9 d.cnt) d.stack hp
      exact ⟨by rw [h1], by rw [h1], h2⟩

theorem desLoop_agree {n : Nat} {m m' : Memory} (hm : SameBelow n m m') (fuel : Nat) (d : Des)
    {nodes nodes' : Vector Node nodeMax} (hl : d.limit ≤ n) (h : AgreeBut d.cnt d.stack nodes nodes') :
    TokenAgree (desLoop m fuel d nodes) (desLoop m' fuel d nodes') := by
  induction fuel generalizing d nodes nodes' with
  | zero => exact rfl
  | succ fuel ih =>
    rw [desLoop, desLoop, fetchToken_same hm hl]
    cases hf : fetchToken m d with
    | error e => exact rfl
    | ok p =>
      obtain ⟨i, d1⟩ := p
      obtain ⟨e1, e2, e3⟩ := fetchToken_des hf
      have ht := desToken_agree i d1 (nodes := nodes) (nodes' := nodes') (by rw [e2, e3]; exact h)
      simp only
      cases h1 : desToken i d1 nodes with
      | error e =>
        rw [h1] at ht
        cases h2 : desToken i d1 nodes' with
        | error e' => rw [h2] at ht; exact ht
        | ok q => rw [h2] at ht; exact ht.elim
      | ok q =>
        obtain ⟨d2, n2, ro⟩ := q
        rw [h1] at ht
        cases h2 : desToken i d1 nodes' with
        | error e' => rw [h2] at ht; exact ht.elim
        | ok q =>
          obtain ⟨d3, n3, ro'⟩ := q
          rw [h2] at ht
          obtain ⟨rfl, rfl, ha⟩ := ht
          cases ro' with
          | some root => exact ⟨rfl, rfl, ha⟩
          | none =>
            refine ih d3 ?_ ha
            rw [desToken_limit h1, e1]
            exact hl

theorem desToken_root {i : Instr} {d d' : Des} {nodes nodes' : Vector Node nodeMax} {root : NodeIdx}
    (h : desToken i d nodes = .ok (d', nodes', some root)) : d'.stack = [] := by
  cases i <;> simp only [desToken, desLeaf, desInternal, corrupt] at h <;> try cases h
  · split at h <;> cases h
  · split at h
    · cases h
    · rename_i symbol hc
      have h' := Except.ok.inj h
      have e3 := congrArg (fun q => q.2.2) h'
      have e1 := congrArg (fun q => q.1.stack) h'
      exact e1.symm.trans (deliver_root e3)

theorem desLoop_stack {m : Memory} {fuel : Nat} {d d' : Des} {nodes nodes' : Vector Node nodeMax}
    {root : NodeIdx} (h : desLoop m fuel d nodes = .ok (d', nodes', root)) : d'.stack = [] := by
  induction fuel generalizing d nodes with
  | zero => cases h
  | succ fuel ih =>
    rw [desLoop] at h
    split at h
    · cases h
    · split at h
      · cases h
      · rename_i ht; cases h; exact desToken_root ht
      · exact ih h

/-- Two arenas that show the same (R23, R39). -/
def Arena.Same (a a' : Arena) : Prop :=
  a'.valid = a.valid ∧ a'.count = a.count ∧ a'.root = a.root ∧ AgreeBelow a.count.toNat a.nodes a'.nodes

/-- Two answers of `des_tree` that show the same. -/
def TreeAgree {α : Type} (r r' : Except Stop (Arena × α)) : Prop :=
  match r, r' with
  | .error e, .error e' => e' = e
  | .ok (a, p), .ok (a', p') => p' = p ∧ a.Same a'
  | _, _ => False

/-- `des_tree` depends on nothing but the bytes below its bound (R92). -/
theorem desTree_agree {n : Nat} {m m' : Memory} (hm : SameBelow n m m') {p0 limit : Nat} (hl : limit ≤ n)
    (nodes nodes' : Vector Node nodeMax) :
    TreeAgree (desTree m p0 limit nodes) (desTree m' p0 limit nodes') := by
  have h := desLoop_agree hm (nodeMax + 1) (Des.start p0 limit) (nodes := nodes) (nodes' := nodes') hl
    (fun j hj => absurd hj (Nat.not_lt_zero j))
  unfold desTree
  cases h1 : desLoop m (nodeMax + 1) (Des.start p0 limit) nodes with
  | error e =>
    rw [h1] at h
    cases h2 : desLoop m' (nodeMax + 1) (Des.start p0 limit) nodes' with
    | error e' => rw [h2] at h; exact h
    | ok q => rw [h2] at h; exact h.elim
  | ok q =>
    obtain ⟨d, n1, root⟩ := q
    rw [h1] at h
    cases h2 : desLoop m' (nodeMax + 1) (Des.start p0 limit) nodes' with
    | error e' => rw [h2] at h; exact h.elim
    | ok q =>
      obtain ⟨d', n2, root'⟩ := q
      rw [h2] at h
      obtain ⟨rfl, rfl, ha⟩ := h
      refine ⟨rfl, rfl, rfl, rfl, ?_⟩
      intro j hj
      refine ha j (Nat.lt_of_lt_of_le hj ?_) (by rw [desLoop_stack h1]; simp)
      simp only [Des.arena, BitVec.toNat_ofNat]
      exact Nat.mod_le _ _

/-- Two answers of READ_HEADER's body that show the same. -/
def HeaderAgree (r r' : Except Stop HeaderRead) : Prop :=
  match r, r' with
  | .error e, .error e' => e' = e
  | .ok h, .ok h' =>
    h'.hdrSize = h.hdrSize ∧ h'.origSize = h.origSize ∧ h'.after = h.after ∧ h.tree.Same h'.tree
  | _, _ => False

theorem readHeaderFields_same {m m' : Memory} {inLen : Word} (hm : SameBelow inLen.toNat m m') :
    readHeaderFields m' inLen = readHeaderFields m inLen := by
  unfold readHeaderFields
  split
  · rfl
  · rw [memReadRange_same hm (by omega)]

theorem readHeaderFields_le {m : Memory} {inLen h o : Word} (hr : readHeaderFields m inLen = .ok (h, o)) :
    h.toNat ≤ inLen.toNat := by
  unfold readHeaderFields at hr
  split at hr
  · cases hr
  · split at hr
    · split at hr
      · cases hr
      · rename_i hle; cases hr; exact Nat.le_of_not_lt hle
    · cases hr
    · cases hr

theorem readHeader_agree {m m' : Memory} {inLen : Word} (hm : SameBelow inLen.toNat m m')
    (nodes nodes' : Vector Node nodeMax) :
    HeaderAgree (readHeader m inLen nodes) (readHeader m' inLen nodes') := by
  unfold readHeader
  rw [readHeaderFields_same hm]
  cases hf : readHeaderFields m inLen with
  | error e => exact rfl
  | ok q =>
    obtain ⟨h, o⟩ := q
    have ht := desTree_agree hm (p0 := 8) (readHeaderFields_le hf) nodes nodes'
    simp only
    cases h1 : desTree m 8 h.toNat nodes with
    | error e =>
      rw [h1] at ht
      cases h2 : desTree m' 8 h.toNat nodes' with
      | error e' => rw [h2] at ht; exact ht
      | ok q => rw [h2] at ht; exact ht.elim
    | ok q =>
      rw [h1] at ht
      cases h2 : desTree m' 8 h.toNat nodes' with
      | error e' => rw [h2] at ht; exact ht.elim
      | ok q' => rw [h2] at ht; exact ⟨rfl, rfl, ht.1, ht.2⟩

/-! ### Decoding -/

theorem readBit_same {n : Nat} {m m' : Memory} (hm : SameBelow n m m') {dirty : Bool} {r : Reader}
    (hl : r.limit.toNat ≤ n) : readBit m' dirty r = readBit m dirty r := by
  unfold readBit
  split
  · rfl
  · rw [memRead_same hm (by omega)]

theorem nodeAt_same {n : Nat} {nodes nodes' : Vector Node nodeMax} (h : AgreeBelow n nodes nodes')
    {i : NodeIdx} (hi : i.toNat < n) : nodeAt nodes' i = nodeAt nodes i := h _ hi

theorem walkBit_same {a a' : Arena} (hw : a.WellFormed) (hs : a.Same a') {cur : NodeIdx}
    (hc : cur.toNat < a.count.toNat) (v : Bool) : walkBit a'.nodes cur v = walkBit a.nodes cur v := by
  obtain ⟨t, L, hh, hL⟩ := hw.subtree hc
  have hh' := hh.congr (nodes' := a'.nodes) (fun j hj => hs.2.2.2 j (hL j hj))
  cases t with
  | leaf x => rw [walkBit_leaf hh, walkBit_leaf hh']
  | node l r =>
    obtain ⟨n, Ll, Lr, e, h1, h2, h3, rfl⟩ := hh.nodeAt_node
    have hsub : ∀ j, j ∈ Ll ∨ j ∈ Lr → j < a.count.toNat := fun j hj =>
      hL j (by simp only [List.mem_cons, List.mem_append]; exact .inr hj)
    have hl := nodeAt_same hs.2.2.2 (hsub _ (.inl h2.head_mem))
    have hr := nodeAt_same hs.2.2.2 (hsub _ (.inr h3.head_mem))
    unfold walkBit
    rw [nodeAt_same hs.2.2.2 hc, e]
    simp only [h1]
    cases v <;> simp only [Bool.false_eq_true, if_false, if_true, hl, hr]

theorem walkLoop_same {n : Nat} {m m' : Memory} (hm : SameBelow n m m') {a a' : Arena} (hw : a.WellFormed)
    (hs : a.Same a') (fuel : Nat) {cur : NodeIdx} (hc : cur.toNat < a.count.toNat) (dirty : Bool)
    {r : Reader} (hl : r.limit.toNat ≤ n) :
    walkLoop a'.nodes m' fuel cur dirty r = walkLoop a.nodes m fuel cur dirty r := by
  induction fuel generalizing cur dirty r with
  | zero => rfl
  | succ fuel ih =>
    rw [walkLoop, walkLoop, readBit_same hm hl]
    cases hr : readBit m dirty r with
    | error e => rfl
    | ok q =>
      obtain ⟨v, r'⟩ := q
      simp only
      rw [walkBit_same hw hs hc]
      cases hb : walkBit a.nodes cur v with
      | error e => rfl
      | ok q =>
        cases q with
        | inr x => rfl
        | inl next => exact ih (walkBit_next hw hc hb) true (by rw [readBit_limit hr]; exact hl)

/-- The decoder depends on nothing but the tree, the bytes of the payload and the cursors, and all it
does to the writer is to append the symbols. -/
theorem decodeMany_same {n : Nat} {m m' : Memory} (hm : SameBelow n m m') {a a' : Arena}
    (hw : a.WellFormed) (hs : a.Same a') (k : Nat) {r : Reader} (hl : r.limit.toNat ≤ n) (w w' : Writer) :
    (∃ e, decodeMany a m k r w = .error e ∧ decodeMany a' m' k r w' = .error e) ∨
    (∃ (r1 : Reader) (symbols : List Byte), symbols.length = k ∧
      decodeMany a m k r w = .ok (r1, symbols.foldl Writer.push w) ∧
      decodeMany a' m' k r w' = .ok (r1, symbols.foldl Writer.push w')) := by
  induction k generalizing r w w' with
  | zero => exact .inr ⟨r, [], rfl, rfl, rfl⟩
  | succ k ih =>
    have hd : decodeSym a' m' true r = decodeSym a m true r := by
      unfold decodeSym
      rw [hs.2.2.1]
      exact walkLoop_same hm hw hs _ hw.root_lt true hl
    rw [decodeMany, decodeMany, hd]
    cases hx : decodeSym a m true r with
    | error e => exact .inl ⟨e, rfl, rfl⟩
    | ok q =>
      obtain ⟨x, r1⟩ := q
      have hl1 : r1.limit.toNat ≤ n := by rw [walkLoop_limit hx]; exact hl
      rcases ih hl1 (w.push x) (w'.push x) with ⟨e, h1, h2⟩ | ⟨r2, xs, h0, h1, h2⟩
      · exact .inl ⟨e, h1, h2⟩
      · exact .inr ⟨r2, x :: xs, by rw [List.length_cons, h0], h1, h2⟩

end Sys2Proof.Machine
end

