-- ==== Sys2Proof/Tests/Slice0.lean ====
section
/-! SUPPORT. Tests: the well-formedness checks, the decoder on words written out from the spec's encodings,
one step of each instruction with results from spec/95_test_vectors.md, and for each obligation with
hypotheses a witness that they can be met. -/

namespace Sys2Proof.Tests

open Sys2Proof.Machine

set_option Elab.async false

/-! ### Well-formedness: what is ill formed is refused (R11, R67, R10, R16) -/

theorem test_wf_config : Config.reference.wf = true ∧
    Config.wf { ibufBytes := 0, obufBytes := 1 } = false ∧
    Config.wf { ibufBytes := 1, obufBytes := 0 } = false ∧
    Config.wf { ibufBytes := 1, obufBytes := 0xFFFFFFFF } = true := by decide

theorem test_wf_rsvd : cmdWordRsvdZero 0x000000FF = true ∧ cmdWordRsvdZero 0x00000101 = false ∧
    cmdWordRsvdZero 0x80000000 = false := by decide

theorem test_wf_code : codeWf 0x80000000 1 = true ∧ codeWf 0xFFFFFFFF 32 = true ∧
    codeWf 0x00000000 0 = false ∧ codeWf 0xFFFFFFFF 33 = false ∧ codeWf 0x80000001 31 = false := by decide

/-! ### Decoding: every row's word written out bit by bit (R67, R68, R72, R116) -/

/-- OPCODE[7:0] below RSVD[31:8]. -/
theorem test_decode_commands :
    decodeCmd 0b00000000000000000000000000000000 = .ok .nop ∧
    decodeCmd 0b00000000000000000000000000000001 = .ok .compress ∧
    decodeCmd 0b00000000000000000000000000000010 = .ok .decompress ∧
    decodeCmd 0b00000000000000000000000000010000 = .ok .countFreq ∧
    decodeCmd 0b00000000000000000000000000010001 = .ok .buildTree ∧
    decodeCmd 0b00000000000000000000000000010010 = .ok .buildCodes ∧
    decodeCmd 0b00000000000000000000000000011000 = .ok .serializeTree ∧
    decodeCmd 0b00000000000000000000000000011001 = .ok .deserializeTree ∧
    decodeCmd 0b00000000000000000000000000011010 = .ok .writeHeader ∧
    decodeCmd 0b00000000000000000000000000011011 = .ok .readHeader ∧
    decodeCmd 0b00000000000000000000000000100000 = .ok .bwReset ∧
    decodeCmd 0b00000000000000000000000000100001 = .ok .writeBit ∧
    decodeCmd 0b00000000000000000000000000100010 = .ok .writeCode ∧
    decodeCmd 0b00000000000000000000000000100011 = .ok .bwFinish ∧
    decodeCmd 0b00000000000000000000000000100100 = .ok .encodeByte ∧
    decodeCmd 0b00000000000000000000000000101000 = .ok .brInit ∧
    decodeCmd 0b00000000000000000000000000101001 = .ok .readBit ∧
    decodeCmd 0b00000000000000000000000000101010 = .ok .decodeSymbol := by decide

/-- R70 at the ends of each reserved range, and RSVD = 1. -/
theorem test_decode_reserved :
    (∀ op ∈ [0x03, 0x0F, 0x13, 0x17, 0x1C, 0x1F, 0x25, 0x27, 0x2B, 0xFF],
      decodeCmd (BitVec.ofNat 32 op) = .error .reservedOpcode) ∧
    decodeCmd 0b00000000000000000000000100000001 = .error .rsvdNonZero := by decide

/-- The flag byte 0x00 or 0x01, then the symbol byte of a Leaf; flag bytes from 0x02 up are illegal. -/
theorem test_decode_tokens :
    decodeToken [0b00000000] = .ok (.treeInternal, []) ∧
    decodeToken [0b00000001, 0b01000001] = .ok (.treeLeaf 0x41, []) ∧
    decodeToken [0b00000001] = .error .truncated ∧
    decodeToken [0b00000010, 0b01000001] = .error .illegalFlag ∧
    decodeToken [0b11111111] = .error .illegalFlag := by decide

theorem test_decode_bits : decodeBit false = .payloadBitLeft ∧ decodeBit true = .payloadBitRight := by
  decide

/-- The rows of the opcode table as the host numbers their bits. -/
theorem test_decode_table_rows :
    decodeTableWord 32 0x12 = some .buildCodes ∧ decodeTableWord 32 0x2B = none ∧
    decodeTableWord 32 0x101 = none ∧ decodeTableWord 8 0x00 = some .treeInternal ∧
    decodeTableWord 8 0x01 = some (.treeLeaf 0x00) ∧ decodeTableWord 16 0x4101 = some (.treeLeaf 0x41) ∧
    decodeTableWord 1 0 = some .payloadBitLeft ∧ decodeTableWord 1 1 = some .payloadBitRight := by decide

/-! ### Small states -/

/-- What a step leaves, if it goes on. -/
def stateOf : Host.Outcome State Fault Refusal → Option State
  | .next t => some t
  | _ => none

/-- Where a step goes on, its state is one. -/
theorem goes_on {o : Host.Outcome State Fault Refusal} {p : State → Bool}
    (h : (stateOf o).any p = true) : ∃ t, o = .next t ∧ p t = true := by
  cases o with
  | next t => exact ⟨t, rfl, h⟩
  | fault f => cases h
  | refused f => cases h

/-- IBUF holds these bytes, and IN_LEN is their number. -/
def holding (s : State) (bytes : List Byte) : State :=
  { s with ibuf := Memory.setRange [] 0 bytes, inLen := BitVec.ofNat 32 bytes.length }

/-- An arena of these nodes, TREE_VALID = 1. -/
def arenaOf (nodes : List Node) (root : NodeIdx) : Arena :=
  { nodes := nodes.zipIdx.foldl (fun v (n, i) => v.setIfInBounds i n) Arena.reset.nodes
    count := BitVec.ofNat 10 nodes.length, root := root, valid := true }

/-- The one-leaf tree of Scenario B. -/
def oneLeaf : State := { State.reset with tree := arenaOf [Node.ofSymbol 0x41] 0 }

/-- The tree of Scenario C, [0]L41 [1]L42 [2]I(1,0). -/
def twoLeaves : State :=
  { State.reset with tree := arenaOf [Node.ofSymbol 0x41, Node.ofSymbol 0x42, Node.ofChildren 1 0] 2 }

/-- The table of Scenario C: 0x41 = 0x80000000/1 and 0x42 = 0x00000000/1. -/
def twoCodes : State :=
  { twoLeaves with codes := ((CodeTable.empty.put 0x42 [false]).put 0x41 [true]) }

/-- The tree of vector 2.1-3. -/
def abraTree : Arena :=
  arenaOf ([Node.ofSymbol 0x41, Node.ofSymbol 0x42, Node.ofSymbol 0x43, Node.ofSymbol 0x44,
    Node.ofSymbol 0x52] ++ [Node.ofChildren 2 3, Node.ofChildren 1 4, Node.ofChildren 5 6,
    Node.ofChildren 0 7]) 8

/-- OBUF from address a, as far as it holds bytes. -/
def obufFrom (t : State) (a n : Nat) : List (Option Byte) := (List.range n).map (fun j => t.writer.obuf.get (a + j))

/-- TREE_INFO. -/
def info (t : State) : Word := treeInfoWord t.tree t.codes.valid

/-! ### One step of each instruction -/

/-- R112, vector 2.11-4: STATUS goes from an error to 0x00000002. -/
theorem test_nop : (stateOf (exec .nop { State.reset with done := true, err := .badState })).map State.statusWord
    = some 0x00000002 := by decide

/-- Vector C-1. -/
theorem test_compress_two_symbols :
    (stateOf (exec .compress (holding State.reset [0x42, 0x41, 0x41]))).map
      (fun t => (t.statusWord, t.writer.obuf.map Prod.snd, t.hdrSize, info t)) =
    some (0x00000002, [0x0D, 0x00, 0x00, 0x00, 0x03, 0x00, 0x00, 0x00, 0x00, 0x01, 0x42, 0x01, 0x41, 0x60],
      13, 0x00200303) := by decide +kernel

/-- Vector 2.9-4. -/
theorem test_compress_five_symbols :
    (stateOf (exec .compress (holding State.reset
      [0x41, 0x42, 0x52, 0x41, 0x43, 0x41, 0x44, 0x41, 0x42, 0x52, 0x41]))).map
      (fun t => (t.writer.obuf.map Prod.snd, t.writer.outLen, info t)) =
    some ([0x16, 0x00, 0x00, 0x00, 0x0B, 0x00, 0x00, 0x00, 0x00, 0x01, 0x41, 0x00, 0x00, 0x01, 0x43, 0x01,
      0x44, 0x00, 0x01, 0x42, 0x01, 0x52, 0x6E, 0x8A, 0xDC], 25, 0x00800903) := by decide +kernel

/-- Vector C-2. -/
theorem test_decompress_two_symbols :
    (stateOf (exec .decompress (holding State.reset
      [0x0D, 0x00, 0x00, 0x00, 0x03, 0x00, 0x00, 0x00, 0x00, 0x01, 0x42, 0x01, 0x41, 0x60]))).map
      (fun t => (t.err, t.writer.obuf.map Prod.snd, info t, t.reader)) =
    some (.none, [0x42, 0x41, 0x41], 0x00000301, { pos := 13, bit := 3, limit := 14 }) := by decide +kernel

/-- Vector D-1. -/
theorem test_decompress_bad_header :
    (stateOf (exec .decompress (holding State.reset
      [0xFF, 0x00, 0x00, 0x00, 0x03, 0x00, 0x00, 0x00, 0x00, 0x01, 0x42, 0x01, 0x41, 0x60]))).map
      (fun t => (t.statusWord, t.writer.outLen, t.tree.valid, t.codes.valid)) =
    some (0x00000102, 0, false, false) := by decide +kernel

/-- Vector 2.1-1. -/
theorem test_count_freq :
    (stateOf (exec .countFreq (holding State.reset
      [0x41, 0x42, 0x52, 0x41, 0x43, 0x41, 0x44, 0x41, 0x42, 0x52, 0x41]))).map
      (fun t => [0x41, 0x42, 0x43, 0x44, 0x52, 0x00, 0xFF].map (freqOf t.freq)) =
    some [5, 2, 1, 1, 2, 0, 0] := by decide +kernel

/-- Vector 2.1-13. -/
theorem test_count_freq_too_long :
    (stateOf (exec .countFreq { State.reset with inLen := 65537 })).map State.statusWord =
    some 0x00000902 := by decide +kernel

/-- FREQ[1] = FREQ[2] = 1 and FREQ[3] = 2 (vector 2.1-8). -/
def tieFreq : State :=
  { State.reset with freq := ((State.reset.freq.set 1 1).set 2 1).set 3 2 }

/-- Vector 2.1-8: at weight 2 the older node goes left. -/
theorem test_build_tree_tie :
    (stateOf (exec .buildTree tieFreq)).map
      (fun t => (info t, [3, 4].map (fun i => t.tree.nodes[i]?))) =
    some (0x00400501, [some (Node.ofChildren 0 1), some (Node.ofChildren 2 3)]) := by decide +kernel

/-- Vector 2.1-5: no symbols, no tree. -/
theorem test_build_tree_empty : (stateOf (exec .buildTree State.reset)).map info = some 0x00000000 := by
  decide +kernel

/-- Vector 2.1-4. -/
theorem test_build_codes :
    (stateOf (exec .buildCodes { State.reset with tree := abraTree })).map
      (fun t => (info t, [0x41, 0x43, 0x44, 0x42, 0x52, 0x45].map t.codes.entry)) =
    some (0x00800903, [(0x00000000, 1), (0x80000000, 3), (0xA0000000, 3), (0xC0000000, 3),
      (0xE0000000, 3), (0, 0)]) := by decide +kernel

/-- Vector 2.1-6. -/
theorem test_build_codes_without_tree :
    (stateOf (exec .buildCodes State.reset)).map State.statusWord = some 0x00000A02 := by decide +kernel

/-- Vector 2.2-2. -/
theorem test_serialize_tree :
    (stateOf (exec .serializeTree
      { State.reset with tree := abraTree, writer := { State.reset.writer with outLen := 5 } })).map
      (fun t => (t.writer.obuf, t.writer.outLen, t.result)) =
    some ([(5, 0x00), (6, 0x01), (7, 0x41), (8, 0x00), (9, 0x00), (10, 0x01), (11, 0x43), (12, 0x01),
      (13, 0x44), (14, 0x00), (15, 0x01), (16, 0x42), (17, 0x01), (18, 0x52)], 19, 14) := by
  decide +kernel

/-- Vector 2.2-5. -/
theorem test_serialize_tree_overflow :
    (stateOf (exec .serializeTree
      { State.reset with tree := abraTree, cfg := { Config.reference with obufBytes := 13 } })).map
      (fun t => t.err) = some .outputOverflow := by decide +kernel

/-- What vector 2.2-5 leaves. -/
def overflowed : Option State :=
  stateOf (exec .serializeTree
    { State.reset with tree := abraTree, cfg := { Config.reference with obufBytes := 13 } })

/-- R125, R61, R140: the error leaves OBUF[0 .. 12] a draw, which NOP does not change. -/
theorem test_error_draw_is_held :
    (overflowed.bind (fun t => stateOf (exec .nop t))).map
      (fun u => (u.obufDraws, [0, 12].map (drawAt u.obufDraws))) =
    some ([{ start := 0, number := 0 }], [some 0, some 0]) := by decide +kernel

/-- A later write gives the byte its value, and the bytes around it keep the draw. -/
theorem test_write_over_draw :
    (overflowed.bind (fun t => stateOf (exec .bwFinish
      { t with writer := { t.writer with acc := 0x40, cnt := 5, outLen := 3 } }))).map
      (fun u => (u.writer.obuf, u.obufDraws)) =
    some ([(3, 0x40)], [{ start := 0, number := 0 }]) := by decide +kernel

/-- Vector 2.3-1. -/
theorem test_deserialize_tree :
    (stateOf (exec .deserializeTree
      { holding State.reset [0x00, 0x01, 0x42, 0x01, 0x41] with arg1 := 5 })).map
      (fun t => (info t, t.result, [0, 1, 2].map (fun i => t.tree.nodes[i]?))) =
    some (0x00000301, 5, [some (Node.ofChildren 1 2), some (Node.ofSymbol 0x42),
      some (Node.ofSymbol 0x41)]) := by decide +kernel

/-- Vectors 2.3-2 and 2.3-4: the bound is ARG1 = 4, and the start ARG0 = 5 is at the bound. -/
theorem test_deserialize_tree_bound :
    [(0, 4), (5, 100)].map (fun (a0, a1) => (stateOf (exec .deserializeTree
      { holding State.reset [0x00, 0x01, 0x42, 0x01, 0x41] with arg0 := a0, arg1 := a1 })).map
        (fun t => (t.err, t.tree.valid))) =
    [some (.truncatedOrCorrupt, false), some (.truncatedOrCorrupt, false)] := by decide +kernel

/-- Vector 2.4-2. -/
theorem test_write_header :
    (stateOf (exec .writeHeader { State.reset with tree := abraTree, arg0 := 0x12345678 })).map
      (fun t => (t.writer.obuf.map Prod.snd, t.hdrSize, t.origSize)) =
    some ([0x16, 0x00, 0x00, 0x00, 0x78, 0x56, 0x34, 0x12, 0x00, 0x01, 0x41, 0x00, 0x00, 0x01, 0x43, 0x01,
      0x44, 0x00, 0x01, 0x42, 0x01, 0x52], 22, 0x12345678) := by decide +kernel

/-- Vector 2.4-3. -/
theorem test_write_header_without_tree :
    (stateOf (exec .writeHeader State.reset)).map State.statusWord = some 0x00000A02 := by decide +kernel

/-- Vector 2.4-8: the bytes between the tree and header_size are not checked. -/
theorem test_read_header :
    (stateOf (exec .readHeader (holding State.reset
      [0x0C, 0x00, 0x00, 0x00, 0x03, 0x00, 0x00, 0x00, 0x01, 0x41, 0x77, 0x77]))).map
      (fun t => (t.err, t.hdrSize, t.origSize, t.result, info t)) =
    some (.none, 12, 3, 10, 0x00000101) := by decide +kernel

/-- Vector 2.4-7: the symbol byte is at the bound. -/
theorem test_read_header_bound :
    (stateOf (exec .readHeader (holding State.reset
      [0x09, 0x00, 0x00, 0x00, 0x03, 0x00, 0x00, 0x00, 0x01, 0x41]))).map (fun t => t.err) =
    some .truncatedOrCorrupt := by decide +kernel

/-- The writer of vector 2.5-10, BW_STATE = 0x00000540. -/
def fiveBits : State := { State.reset with writer := { State.reset.writer with acc := 0x40, cnt := 5, outLen := 9 } }

/-- Vector 2.5-10. -/
theorem test_bw_reset :
    (stateOf (exec .bwReset fiveBits)).map (fun t => (t.writer.word, t.writer.outLen)) = some (0, 9) := by
  decide +kernel

/-- Vector 2.5-2: after the seven bits of 2.5-1 the eighth bit flushes. -/
theorem test_write_bit_flush :
    (stateOf (exec .writeBit
      { State.reset with arg0 := 1, writer := { State.reset.writer with acc := 0xB2, cnt := 7 } })).map
      (fun t => (t.writer.word, t.writer.outLen, t.writer.obuf)) = some (0, 1, [(0, 0xB3)]) := by
  decide +kernel

/-- Vector 2.5-3: of ARG0 = 2 only bit 0 counts. -/
theorem test_write_bit_operand :
    (stateOf (exec .writeBit { State.reset with arg0 := 2 })).map (fun t => t.writer.word) =
    some 0x00000100 := by decide +kernel

/-- Vector 2.5-6, its second command. -/
theorem test_write_code :
    (stateOf (exec .writeCode { State.reset with
      arg0 := 0x12345678, arg1 := 32, writer := { State.reset.writer with acc := 0xA0, cnt := 3 } })).map
      (fun t => (t.writer.word, t.writer.outLen, t.writer.obuf.map Prod.snd)) =
    some (0x00000300, 4, [0xA2, 0x46, 0x8A, 0xCF]) := by decide +kernel

/-- Vector 2.5-5. -/
theorem test_write_code_too_long :
    (stateOf (exec .writeCode { State.reset with arg0 := 0xFFFFFFFF, arg1 := 33 })).map
      (fun t => (t.statusWord, t.writer)) = some (0x00000902, State.reset.writer) := by decide +kernel

/-- Vector 2.5-7 and 2.5-8. -/
theorem test_bw_finish :
    (stateOf (exec .bwFinish fiveBits)).map (fun t => (t.writer.word, t.writer.outLen, t.writer.obuf)) =
      some (0, 10, [(9, 0x40)]) ∧
    (stateOf (exec .bwFinish State.reset)).map (fun t => t.writer.outLen) = some 0 := by decide +kernel

/-- Vector 2.5-12. -/
theorem test_bw_finish_overflow :
    (stateOf (exec .bwFinish { State.reset with
      cfg := { Config.reference with obufBytes := 1 }
      writer := { acc := 0x80, cnt := 1, outLen := 1, obuf := [] } })).map (fun t => t.err) =
    some .outputOverflow := by decide +kernel

/-- Vector 2.7-2: of ARG0 = 0x142 only the low byte counts; the code is 2.1-4's, `110`. -/
theorem test_encode_byte :
    (stateOf (exec .encodeByte { State.reset with
      arg0 := 0x142, codes := CodeTable.empty.put 0x42 [true, true, false] })).map
      (fun t => (t.writer.acc, t.writer.cnt)) = some (0xC0, 3) := by decide +kernel

/-- Vector 2.7-3. -/
theorem test_encode_byte_without_code :
    (stateOf (exec .encodeByte { twoCodes with arg0 := 0x45 })).map State.statusWord =
    some 0x00000A02 := by decide +kernel

/-- Vector 2.6-4: the sum ARG0 + ARG1 does not wrap. -/
theorem test_br_init :
    (stateOf (exec .brInit { holding State.reset [0xA5] with arg0 := 0xFFFFFFFF, arg1 := 2 })).map
      (fun t => t.reader) = some { pos := 0xFFFFFFFF, bit := 0, limit := 1 } := by decide +kernel

/-- Vector 2.6-2, its eighth bit: the byte 0x6E ends with 0 and BR_POS moves on. -/
theorem test_read_bit :
    (stateOf (exec .readBit { holding State.reset [0x6E, 0x8A] with
      result := 5, reader := { pos := 0, bit := 7, limit := 2 } })).map
      (fun t => (t.result, t.reader)) = some (0, { pos := 1, bit := 0, limit := 2 }) := by decide +kernel

/-- Vector 2.6-6. -/
theorem test_read_bit_end :
    (stateOf (exec .readBit State.reset)).map State.statusWord = some 0x00000202 := by decide +kernel

/-- Vector 2.8-2, its second command: `110` is B. -/
theorem test_decode_symbol :
    (stateOf (exec .decodeSymbol { State.reset with
      tree := abraTree, ibuf := [(22, 0x6E)], reader := { pos := 22, bit := 1, limit := 25 } })).map
      (fun t => (t.result, t.reader)) = some (0x42, { pos := 22, bit := 4, limit := 25 }) := by
  decide +kernel

/-- Vector 2.8-1. -/
theorem test_decode_symbol_without_tree :
    (stateOf (exec .decodeSymbol State.reset)).map State.statusWord = some 0x00000A02 := by decide +kernel

/-- R92: the flag byte 0x00 makes node 0 wait for its left subtree; a step fetches it from IBUF. -/
theorem test_tree_internal :
    (stateOf (step (State.reset.withFetchWord 8 0x00))).map (fun t => t.activity) =
    some (some (.deserialize { pos := 1, limit := 2, cnt := 1, stack := [.left 0] } .deserializeTree)) := by
  decide +kernel

/-- Vector 2.3-6: the tokens of 01 41. -/
theorem test_tree_leaf :
    (stateOf (step (State.reset.withFetchWord 16 0x4101))).map (fun t => (t.err, info t, t.result)) =
    some (.none, 0x00000101, 2) := by decide +kernel

/-- In the tree of C-1, bit 0 leads to B and bit 1 to A; a Leaf ends DECODE_SYMBOL. -/
def walkAtRoot : State :=
  twoLeaves.walking .decodeSymbol { cur := 2, emitted := 0, dirty := false }

theorem test_payload_bit_left :
    (stateOf (exec .payloadBitLeft walkAtRoot)).map (fun t => (t.result, t.done)) = some (0x42, true) := by
  decide +kernel

theorem test_payload_bit_right :
    (stateOf (exec .payloadBitRight walkAtRoot)).map (fun t => (t.result, t.done)) = some (0x41, true) := by
  decide +kernel

/-! ### Steps and the host port -/

/-- Vector 2.11-1. -/
theorem test_step_reserved_opcode :
    (stateOf (step (State.reset.accept 0x00000003))).map (fun t => (t.statusWord, t.cmd)) =
    some (0x00000802, 0x00000003) := by decide +kernel

/-- Vectors 2.11-7 to 2.11-9. -/
theorem test_reg_read :
    [0x000, 0x03C, 0x040, 0x044, 0x17FC, 0x2000, 0x006].map State.reset.regRead =
    [0x48554646, 0x00010000, 0x00010307, 0, 0, 0, 0] := by decide +kernel

/-- Every opcode runs as the first instruction after reset: the errors are those of R88, R92, R96, R98,
R99, R111, R113 and R117 in the state of R44. -/
theorem test_first_instruction :
    [0x00, 0x01, 0x02, 0x10, 0x11, 0x12, 0x18, 0x19, 0x1A, 0x1B, 0x20, 0x21, 0x22, 0x23, 0x24, 0x28, 0x29,
      0x2A, 0x2B].map (fun w => (stateOf (step (State.reset.withFetchWord 32 w))).map (fun t => t.err.code)) =
    [0, 0, 0, 0, 0, 10, 10, 1, 10, 1, 0, 0, 0, 0, 10, 0, 2, 10, 8].map some := by decide +kernel

/-! ### Witnesses: the hypotheses of each obligation that has some, met by concrete states, each clause
of several at the ends of its range -/

theorem witness_DecodeInvertsEncode : Instr.wf (.treeLeaf 0xFF) = true ∧ Instr.wf .decodeSymbol = true := by
  decide

/-- Both kinds of words, at the ends of every reserved range. -/
theorem witness_NonCommandsComplete :
    (∀ w ∈ [0x03, 0x0F, 0x13, 0x17, 0x1C, 0x1F, 0x25, 0x27, 0x2B, 0xFF],
      let s := State.reset.accept (BitVec.ofNat 32 w)
      s.schedule = [] ∧ s.busy = true ∧ s.activity = none ∧ s.cmd.extractLsb' 8 24 = 0 ∧
        s.cmd.extractLsb' 0 8 = BitVec.ofNat 8 w ∧
        ((0x03 ≤ w ∧ w ≤ 0x0F) ∨ (0x13 ≤ w ∧ w ≤ 0x17) ∨ (0x1C ≤ w ∧ w ≤ 0x1F) ∨
          (0x25 ≤ w ∧ w ≤ 0x27) ∨ (0x2B ≤ w ∧ w ≤ 0xFF))) ∧
    (State.reset.accept 0x00000101).cmd.extractLsb' 8 24 ≠ 0 := by decide +kernel

theorem witness_TreeTokensExact : 2 ≤ (0x02 : Byte).toNat ∧ 2 ≤ (0xFF : Byte).toNat := by decide

/-- A host write of CMD comes next, while the core is idle and while it is busy. -/
theorem witness_CommandWrites :
    ({ State.reset with schedule := [.host (.regWrite 0x004 0x01)] } : State).schedule =
      [.host (.regWrite 0x004 0x01)] ∧ State.reset.busy = false ∧
    ({ State.reset.accept 0x01 with schedule := [.host (.regWrite 0x004 0x00)] } : State).schedule =
      [.host (.regWrite 0x004 0x00)] ∧ (State.reset.accept 0x01).busy = true := by decide

/-- Each operation of the port while BUSY = 1; of IBUF the last address is read and the first beyond it. -/
theorem witness_BusyPort :
    let s := { State.reset.accept 0x01 with ibuf := [(65535, 0x7E)] }
    s.busy = true ∧ (0x000 : Word) ≠ 0x004 ∧ (0x1FFC : Word) ≠ 0x004 ∧
      (∀ op ∈ [HostOp.regWrite 0x1FFC 1, .ibufWrite 65535 1, .obufWrite 0 1, .regRead 0x008,
          .ibufRead 65535, .obufRead 0],
        ({ s with schedule := [.host op, .core] } : State).schedule = .host op :: [.core] ∧
          ({ s with schedule := [.host op, .core] } : State).busy = true) ∧
      (0x0000FFFF : Word).toNat < s.cfg.ibufBytes.toNat ∧
      s.ibuf.get (0x0000FFFF : Word).toNat = some 0x7E ∧
      s.cfg.ibufBytes.toNat ≤ (0x00010000 : Word).toNat := by decide +kernel

/-- Misaligned offsets and the ends of the unmapped ranges. -/
theorem witness_UnmappedOffsets :
    ([0x001, 0x006, 0x044, 0x3FC, 0x17FC, 0x1FFC, 0x2000, 0xFFFFFFFF] : List Word).all (fun off =>
      decide (off.toNat % 4 ≠ 0 ∨ (0x044 ≤ off.toNat ∧ off.toNat ≤ 0x3FC) ∨
        (0x17FC ≤ off.toNat ∧ off.toNat ≤ 0x1FFC) ∨ 0x2000 ≤ off.toNat)) = true := by decide

/-- The ends of the windows among them. -/
theorem witness_RegisterMap :
    twoCodes.busy = false ∧ twoCodes.codes.valid = true ∧ twoCodes.tree.valid = true ∧
      (⟨2, by decide⟩ : Fin nodeMax).val < twoCodes.tree.count.toNat ∧
      (let s := State.reset.drawTree.drawCodes
       s.busy = false ∧ s.codes.drawn = true ∧ s.tree.drawn = true) ∧
      ([0x800, 0xBFC, 0xC00, 0xFFC, 0x1000, 0x17F8] : List Word).all (fun off =>
        decide (0x800 ≤ off.toNat ∧ off.toNat < 0x17FC)) = true := by decide +kernel

/-- Each read of the port, and the ignored OBUF write, while BUSY = 0. -/
theorem witness_ReadsHaveNoSideEffect : State.reset.busy = false ∧
    (∀ op ∈ [HostOp.regRead 0x008, .ibufRead 0, .obufRead 0, .obufWrite 0 1],
      (∀ off v, op ≠ .regWrite off v) ∧ (∀ a b, op ≠ .ibufWrite a b) ∧
        ({ State.reset with schedule := [.host op] } : State).schedule = [.host op]) :=
  ⟨rfl, by simp⟩

theorem witness_WritableRegisters : State.reset.busy = false ∧ (0x00C : Word) ≠ 0x004 ∧
    ({ State.reset with schedule := [.host (.regWrite 0x00C 3)] } : State).schedule =
      [.host (.regWrite 0x00C 3)] := ⟨rfl, by decide, rfl⟩

/-- The last address of each buffer and the first beyond it. -/
theorem witness_BufferPort :
    let s := { State.reset with writer := { State.reset.writer with obuf := [(66310, 0x7E)] } }
    s.busy = false ∧ Memory.wf s.ibuf = true ∧
      ({ s with schedule := [.host (.ibufWrite 65535 1)] } : State).schedule =
        [.host (.ibufWrite 65535 1)] ∧ (65535 : Word).toNat < s.cfg.ibufBytes.toNat ∧
      (0 : Word) ≠ 65535 ∧ s.cfg.ibufBytes.toNat ≤ (65536 : Word).toNat ∧
      (66310 : Word).toNat < s.cfg.obufBytes.toNat ∧
      s.obufByte (66310 : Word).toNat = some 0x7E ∧
      s.cfg.obufBytes.toNat ≤ (66311 : Word).toNat := by decide

/-- Also while a command runs. -/
theorem witness_ResetInput :
    ({ State.reset.accept 0x01 with schedule := [.reset, .core] } : State).schedule = .reset :: [.core] := rfl

/-- A command with and without steps of its own at its start, a command in its middle, a word that is no
command, and an idle core, also one whose CMD holds such a word. -/
theorem witness_StepRunsCommand :
    (let s := State.reset.accept 0x2A
     s.activity = none ∧ decodeCmd s.cmd = .ok .decodeSymbol ∧ s.busy = true ∧ s.schedule = [] ∧
      ({ s with schedule := [.core, .reset] } : State).schedule = .core :: [.reset] ∧
      ({ s with schedule := [.coreBegin, .reset] } : State).schedule = .coreBegin :: [.reset]) ∧
    Instr.countFreq ∉ [Instr.deserializeTree, .readHeader, .decompress, .decodeSymbol] ∧
    (({ walkAtRoot with busy := true } : State).busy = true ∧ walkAtRoot.activity.isSome = true) ∧
    decodeCmd (State.reset.accept 0x03).cmd = .error .reservedOpcode ∧
    (let s := { State.reset with cmd := 0x03, done := true, err := .badCommand, schedule := [.coreBegin] }
     s.busy = false ∧ s.schedule = .coreBegin :: [] ∧ decodeCmd s.cmd = .error .reservedOpcode) ∧
    State.reset.busy = false ∧ State.reset.schedule = [] := by decide +kernel

theorem holds_bytes_of_range {m : Memory} {a : Nat} {bytes : List Byte}
    (h : ((List.range bytes.length).all (fun j => m.get (a + j) == bytes[j]?)) = true) :
    HoldsBytes m a bytes := by
  intro j hj
  have := List.all_eq_true.1 h j (List.mem_range.2 hj)
  simpa [List.getElem?_eq_getElem hj] using this

/-- A reader at the start of a byte gives that byte's bits. -/
theorem gives_of_byte {r : Reader} {m : Memory} {bits : List Bool} (b : Byte)
    (hb : m.get r.pos.toNat = some b) (hbit : r.bit = 0) (hl : r.pos.toNat < r.limit.toNat)
    (h0 : bits.length ≤ 8) (he : (List.range bits.length).map b.getMsbD = bits) : r.Gives m bits := by
  intro j hj
  have e : (r.bit.toNat + j) / 8 = 0 := by rw [hbit]; simp; omega
  have e' : (r.bit.toNat + j) % 8 = j := by rw [hbit]; simp; omega
  rw [e, e']
  refine ⟨hl, b, hb, ?_⟩
  have := congrArg (fun l : List Bool => l[j]?) he
  simpa [hj] using this

/-- A Leaf token that ends at the bound, and the last bit below BR_END. -/
theorem witness_StepRunsTokensAndBits :
    (let s := State.reset.withFetchWord 16 0x4101
     let d := Des.start 0 2
     s.schedule = [] ∧ s.busy = true ∧ s.activity = some (.deserialize d .deserializeTree) ∧
      encode (.treeLeaf 0x41) = .token [0x01, 0x41] ∧ HoldsBytes s.ibuf d.pos [0x01, 0x41] ∧
      d.pos + [(0x01 : Byte), 0x41].length ≤ d.limit) ∧
    (let s := { State.reset.withFetchWord 1 1 with
       ibuf := [(0, 0x01)], reader := { pos := 0, bit := 7, limit := 1 } }
     let w : Walk := { cur := 0, emitted := 0, dirty := false }
     s.schedule = [] ∧ s.busy = true ∧ s.activity = some (.walk w .decodeSymbol) ∧
      encode .payloadBitRight = .bit true ∧ s.reader.Gives s.ibuf [true]) := by
  refine ⟨⟨rfl, rfl, rfl, rfl, holds_bytes_of_range (by decide +kernel), by decide⟩,
    ⟨rfl, rfl, rfl, rfl, ?_⟩⟩
  intro j hj
  have : j = 0 := by simp at hj; exact hj
  subst this
  exact ⟨by decide, 0x01, rfl, rfl⟩

/-- Where the stream stops: an illegal flag byte, a Leaf token cut by the bound, the bound itself, and
no bit left. -/
theorem witness_StepRunsTokensAndBits_stops :
    (let s := State.reset.withFetchWord 16 0x0002
     s.schedule = [] ∧ s.busy = true ∧
      s.activity = some (.deserialize (Des.start 0 2) .deserializeTree) ∧
      (Des.start 0 2).pos < (Des.start 0 2).limit ∧ s.ibuf.get (Des.start 0 2).pos = some 0x02 ∧
      2 ≤ (0x02 : Byte).toNat) ∧
    (let s := { State.reset.withFetchWord 16 0x0001 with
       activity := some (.deserialize (Des.start 0 1) .readHeader) }
     s.schedule = [] ∧ s.busy = true ∧ (Des.start 0 1).pos < (Des.start 0 1).limit ∧
      s.ibuf.get (Des.start 0 1).pos = some 0x01 ∧
      (Des.start 0 1).limit = (Des.start 0 1).pos + 1) ∧
    (Des.start 8 8).limit ≤ (Des.start 8 8).pos ∧
    (let s := { State.reset.withFetchWord 1 1 with reader := { pos := 1, bit := 0, limit := 1 } }
     s.schedule = [] ∧ s.busy = true ∧
      s.activity = some (.walk { cur := 0, emitted := 0, dirty := false } .decodeSymbol) ∧
      s.reader.limit.toNat ≤ s.reader.pos.toNat) := by decide +kernel

/-! The trees of Scenarios B and C, as the arena holds them. -/

theorem oneLeaf_holds : Holds oneLeaf.tree.nodes oneLeaf.tree.root.toNat (.leaf 0x41) [0] :=
  .leaf (n := Node.ofSymbol 0x41) (by decide +kernel) rfl

theorem oneLeaf_wellFormed : oneLeaf.tree.WellFormed :=
  ⟨_, _, oneLeaf_holds, by decide +kernel, by decide⟩

theorem twoLeaves_holds : Holds twoLeaves.tree.nodes twoLeaves.tree.root.toNat
    (.node (.leaf 0x42) (.leaf 0x41)) [2, 1, 0] :=
  .node (n := Node.ofChildren 1 0) (by decide +kernel) rfl
    (.leaf (n := Node.ofSymbol 0x42) (by decide +kernel) rfl)
    (.leaf (n := Node.ofSymbol 0x41) (by decide +kernel) rfl)

theorem twoLeaves_wellFormed : twoLeaves.tree.WellFormed :=
  ⟨_, _, twoLeaves_holds, by decide +kernel, by decide⟩

/-- DECODE_SYMBOL before its last bit. -/
def lastBit : State :=
  { walkAtRoot with busy := true, ibuf := [(0, 0x80)], reader := { pos := 0, bit := 0, limit := 1 } }

/-- A Leaf token inside `des_tree`, and a bit of a walk over a tree. -/
theorem witness_ArenaInvariant :
    (∃ t, (State.reset.withFetchWord 16 0x4101).ArenaInv ∧
      step (State.reset.withFetchWord 16 0x4101) = .next t) ∧
    ∃ t, lastBit.ArenaInv ∧ step lastBit = .next t := by
  constructor
  · obtain ⟨t, h, -⟩ := goes_on (o := step (State.reset.withFetchWord 16 0x4101)) (p := fun _ => true)
      (by decide +kernel)
    refine ⟨t, ⟨fun h => (by cases h), fun h => (by cases h), ?_, ?_⟩, h⟩
    · intro d use h
      cases h
      exact ⟨rfl, rfl, by decide, [], .nil, by decide⟩
    · intro w use h; cases h
  · obtain ⟨t, h, -⟩ := goes_on (o := step lastBit) (p := fun _ => true) (by decide +kernel)
    refine ⟨t, ⟨fun _ => twoLeaves_wellFormed, fun h => (by cases h), ?_, ?_⟩, h⟩
    · intro d use h; cases h
    · intro w use h
      cases h
      exact ⟨rfl, by decide +kernel⟩

theorem witness_StatusInvariant : ∃ t, (State.reset.accept 0x00).StatusInv ∧
    step (State.reset.accept 0x00) = .next t :=
  ⟨_, ⟨fun _ => ⟨rfl, rfl⟩, fun h => by cases h⟩, rfl⟩

/-- WRITE_BIT at the last byte of OBUF. -/
def lastByte : State :=
  { State.reset.accept 0x21 with
    arg0 := 1, writer := { acc := 0xB2, cnt := 7, outLen := 66310, obuf := [(66309, 0x00)] } }

theorem witness_BufferInvariant : ∃ t, lastByte.BufferInv ∧ step lastByte = .next t := by
  obtain ⟨t, h, -⟩ := goes_on (o := step lastByte) (p := fun _ => true) (by decide +kernel)
  refine ⟨t, ⟨rfl, rfl, ?_, ?_, by decide, ?_⟩, h⟩
  · intro c hc; cases hc
  · intro c hc
    simp only [lastByte, List.mem_singleton] at hc
    subst hc
    decide
  · intro w h; cases h

theorem witness_CodeTableInvariant :
    ∃ t, twoCodes.codes.WellFormed ∧ twoCodes.codes.valid = true ∧
      step (twoCodes.accept 0x00) = .next t :=
  ⟨_, buildCodes_wellFormed (t := .node (.leaf 0x42) (.leaf 0x41)) rfl, rfl, rfl⟩

/-- READ_BIT of a byte that nothing has written. -/
def unwrittenBit : State :=
  { State.reset.accept 0x29 with reader := { pos := 7, bit := 0, limit := 8 } }

theorem witness_FaultsAreUnwrittenReads :
    unwrittenBit.ArenaInv ∧ step unwrittenBit = .fault (.ibufUnwritten 7) := by
  refine ⟨⟨?_, ?_, ?_, ?_⟩, rfl⟩
  · intro h; cases h
  · intro h; cases h
  · intro d use h; cases h
  · intro w use h; cases h

/-- The hypotheses of CompletionLeaves, ErrorsByCommand and WriteSets, and an error of a first check. -/
theorem witness_CompletionLeaves :
    (∃ t, Instr.format .bwFinish = .cmd ∧ exec .bwFinish fiveBits = .next t) ∧
    (∃ t, Instr.format .buildCodes = .cmd ∧ exec .buildCodes State.reset = .next t ∧
      t.err = .badState) := by
  obtain ⟨t, h, -⟩ := goes_on (o := exec .bwFinish fiveBits) (p := fun _ => true) (by decide +kernel)
  obtain ⟨u, g, g1⟩ := goes_on (o := exec .buildCodes State.reset) (p := fun t => t.err == .badState)
    (by decide +kernel)
  exact ⟨⟨t, rfl, h⟩, u, rfl, g, by simpa using g1⟩

/-- An OBUF of 14 bytes with this many used, a full byte but for one bit, a tree of 14 bytes, and a
reader with up to one byte left, of which two bits are. -/
def lastRoom (outLen arg0 brPos : Word) : State :=
  { State.reset with
    cfg := { Config.reference with obufBytes := 14 }, tree := abraTree, ibuf := [(0, 0xFF)]
    arg0 := arg0, arg1 := 2, writer := { State.reset.writer with cnt := 7, outLen := outLen }
    reader := { pos := brPos, bit := 7, limit := 1 } }

/-- Of ErrorEffects: errors before a write. OBUF is full at the first byte of SERIALIZE_TREE, at a bit
0 of WRITE_BIT and of WRITE_CODE and at BW_FINISH, and no bit is left. -/
theorem witness_ErrorEffects_before :
    (let s := { lastRoom 14 0 0 with writer := { State.reset.writer with outLen := 14 } }
     (stateOf (exec .serializeTree s)).map State.err = some .outputOverflow ∧
      ¬s.WroteBefore .serializeTree) ∧
    (let s := lastRoom 14 0 0
     (∀ i ∈ [Instr.writeBit, .writeCode, .bwFinish],
       (stateOf (exec i s)).map State.err = some .outputOverflow) ∧
      ¬s.WroteBefore .writeBit ∧ ¬s.WroteBefore .writeCode ∧ ¬s.WroteBefore .bwFinish) ∧
    (let s := lastRoom 0 0 1
     (∀ i ∈ [Instr.readBit, .decodeSymbol],
       (stateOf (exec i s)).map State.err = some .endOfStream) ∧
      ¬s.WroteBefore .readBit ∧ ¬s.WroteBefore .decodeSymbol) := by
  unfold State.WroteBefore
  decide +kernel

/-- Of ErrorEffects: errors after a write. OBUF is full at a later byte of SERIALIZE_TREE, at a bit 1
of WRITE_BIT and of WRITE_CODE and at the second byte of WRITE_CODE, and the bits end inside a code. -/
theorem witness_ErrorEffects_after :
    (let s := { lastRoom 13 0 0 with writer := { State.reset.writer with outLen := 13 } }
     (stateOf (exec .serializeTree s)).map State.err = some .outputOverflow ∧
      s.WroteBefore .serializeTree ∧ Memory.wf s.writer.obuf = true) ∧
    ((stateOf (exec .writeBit (lastRoom 14 1 0))).map State.err = some .outputOverflow ∧
      (lastRoom 14 1 0).WroteBefore .writeBit) ∧
    ((stateOf (exec .writeCode (lastRoom 14 0x80000000 0))).map State.err = some .outputOverflow ∧
      (lastRoom 14 0x80000000 0).WroteBefore .writeCode) ∧
    (let s := { lastRoom 13 0 0 with arg1 := 9 }
     (stateOf (exec .writeCode s)).map State.err = some .outputOverflow ∧ s.WroteBefore .writeCode) ∧
    ((stateOf (exec .decodeSymbol (lastRoom 0 0 0))).map State.err = some .endOfStream ∧
      (lastRoom 0 0 0).WroteBefore .decodeSymbol) := by
  unfold State.WroteBefore
  decide +kernel

/-- Of ErrorEffects: WRITE_HEADER, COMPRESS, DESERIALIZE_TREE, READ_HEADER and DECOMPRESS
after a write, and ENCODE_BYTE before and after one. -/
theorem witness_ErrorEffects_always :
    ((stateOf (exec .writeHeader (lastRoom 0 0 0))).map State.err = some .outputOverflow ∧
      (lastRoom 0 0 0).WroteBefore .writeHeader) ∧
    (let s := { holding State.reset [0x41] with cfg := { Config.reference with obufBytes := 10 } }
     (stateOf (exec .compress s)).map State.err = some .outputOverflow ∧ s.WroteBefore .compress) ∧
    (let s := { holding State.reset [0x02] with arg1 := 1 }
     (stateOf (exec .deserializeTree s)).map State.err = some .truncatedOrCorrupt ∧
      s.WroteBefore .deserializeTree) ∧
    (let s := holding State.reset [0x02]
     (∀ i ∈ [Instr.readHeader, .decompress],
       (stateOf (exec i s)).map State.err = some .truncatedOrCorrupt) ∧
      s.WroteBefore .readHeader ∧ s.WroteBefore .decompress) ∧
    (let s := { twoCodes with
       cfg := { Config.reference with obufBytes := 1 }
       writer := { State.reset.writer with cnt := 7, outLen := 1 } }
     (stateOf (exec .encodeByte { s with arg0 := 0x41 })).map State.err = some .outputOverflow ∧
      (stateOf (exec .encodeByte { s with arg0 := 0x42 })).map State.err = some .outputOverflow ∧
      State.WroteBefore { s with arg0 := 0x41 } .encodeByte ∧
      ¬State.WroteBefore { s with arg0 := 0x42 } .encodeByte) := by
  unfold State.WroteBefore
  decide +kernel

/-- Both kinds of instructions that are not commands. -/
theorem witness_TokenFrames :
    (∃ t, Instr.format (.treeLeaf 0x41) ≠ .cmd ∧
      Memory.wf (State.reset.withFetchWord 16 0x4101).writer.obuf = true ∧
      (State.reset.withFetchWord 16 0x4101).activity =
        some (.deserialize (Des.start 0 2) .deserializeTree) ∧
      Instr.deserializeTree = DesUse.command .deserializeTree ∧
      exec (.treeLeaf 0x41) (State.reset.withFetchWord 16 0x4101) = .next t) ∧
    ∃ t, Instr.format .payloadBitLeft ≠ .cmd ∧
      walkAtRoot.activity = some (.walk { cur := 2, emitted := 0, dirty := false } .decodeSymbol) ∧
      Instr.decodeSymbol = WalkUse.command .decodeSymbol ∧ exec .payloadBitLeft walkAtRoot = .next t ∧
      t.err = .none := by
  obtain ⟨t, h, -⟩ := goes_on (o := exec (.treeLeaf 0x41) (State.reset.withFetchWord 16 0x4101))
    (p := fun _ => true) (by decide +kernel)
  obtain ⟨u, g, g1⟩ := goes_on (o := exec .payloadBitLeft walkAtRoot)
    (p := fun t => decide (t.err = .none)) (by decide +kernel)
  exact ⟨⟨t, by decide, rfl, rfl, rfl, h⟩, ⟨u, by decide, rfl, rfl, g, of_decide_eq_true g1⟩⟩

theorem witness_WriterStaysClean :
    ∃ t, Instr.format .writeBit = .cmd ∧ fiveBits.writer.Clean ∧ exec .writeBit fiveBits = .next t ∧
      t.err = .none := by
  obtain ⟨t, h, h1⟩ := goes_on (o := exec .writeBit fiveBits) (p := fun t => decide (t.err = .none))
    (by decide +kernel)
  exact ⟨t, rfl, by unfold Writer.Clean; decide, h, of_decide_eq_true h1⟩

/-- Each clause of its own, IN_LEN at the first value that is too large. -/
theorem witness_FirstChecks :
    ({ State.reset with inLen := 65537 } : State).cfg.ibufBytes.toNat < (65537 : Word).toNat ∧
    State.reset.tree.valid = false ∧ (7 : BitVec 3) ≠ 0 ∧ fiveBits.writer.cnt ≠ 0 ∧
    State.reset.codes.valid = false ∧ twoCodes.codes.valid = true ∧
    (twoCodes.codes.entry ((0x45 : Word).setWidth 8)).2 = 0 := by decide +kernel

theorem witness_BrInitCompletes :
    (65536 : Word).toNat ≤ ({ State.reset with inLen := 65536 } : State).cfg.ibufBytes.toNat ∧
    ({ State.reset with inLen := 65537 } : State).cfg.ibufBytes.toNat < (65537 : Word).toNat := by decide

/-- The last bit of an extent, and its end. -/
theorem witness_ReadBitCompletes :
    ({ pos := 0, bit := 7, limit := 1 } : Reader).Gives [(0, 0x01)] [true] ∧
    State.reset.reader.limit.toNat ≤ State.reset.reader.pos.toNat := by
  refine ⟨?_, by decide⟩
  intro j hj
  have : j = 0 := by simp at hj; exact hj
  subst this
  exact ⟨by decide, 0x01, rfl, rfl⟩

/-- No byte completed; a byte completed at the last address; and one beyond it. -/
theorem witness_WriteBitCompletes :
    fiveBits.writer.cnt ≠ 7 ∧
    (lastByte.writer.cnt = 7 ∧ lastByte.writer.outLen.toNat < lastByte.cfg.obufBytes.toNat) ∧
    (let s := { lastByte with writer := { lastByte.writer with outLen := 66311 } }
     s.writer.cnt = 7 ∧ s.cfg.obufBytes.toNat ≤ s.writer.outLen.toNat) := by decide

/-- 32 bits that just fit, 32 bits that do not, fewer bits than a byte in a full OBUF, and 33 bits. -/
theorem witness_WriteCodeCompletes :
    (let s := { lastByte with arg1 := 32, writer := { acc := 0, cnt := 7, outLen := 66307, obuf := [] } }
     s.writer.Clean ∧ Memory.wf s.writer.obuf = true ∧ s.arg1.toNat ≤ 32 ∧
      s.writer.outLen.toNat + (s.writer.cnt.toNat + s.arg1.toNat) / 8 ≤ s.cfg.obufBytes.toNat) ∧
    (let s := { lastByte with arg1 := 32, writer := { acc := 0, cnt := 7, outLen := 66308, obuf := [] } }
     s.writer.Clean ∧ Memory.wf s.writer.obuf = true ∧ s.arg1.toNat ≤ 32 ∧
      s.cfg.obufBytes.toNat < s.writer.outLen.toNat + (s.writer.cnt.toNat + s.arg1.toNat) / 8 ∧
      8 ≤ s.writer.cnt.toNat + s.arg1.toNat) ∧
    (let s := { lastByte with arg1 := 7, writer := { acc := 0, cnt := 0, outLen := 0xFFFFFFFF, obuf := [] } }
     s.writer.Clean ∧ Memory.wf s.writer.obuf = true ∧ s.arg1.toNat ≤ 32 ∧
      s.writer.cnt.toNat + s.arg1.toNat < 8) ∧
    (let s := { lastByte with arg1 := 33 }
     s.writer.Clean ∧ Memory.wf s.writer.obuf = true ∧ 32 < s.arg1.toNat) := by
  unfold Writer.Clean
  decide

/-- No partial byte, one with room, one without. -/
theorem witness_BwFinishCompletes :
    State.reset.writer.cnt = 0 ∧
    (fiveBits.writer.cnt ≠ 0 ∧ fiveBits.writer.outLen.toNat < fiveBits.cfg.obufBytes.toNat) ∧
    (let s := { fiveBits with writer := { fiveBits.writer with outLen := 66311 } }
     s.writer.cnt ≠ 0 ∧ s.cfg.obufBytes.toNat ≤ s.writer.outLen.toNat) := by decide

/-- A code that completes the last byte, and one that finds no room. -/
theorem witness_EncodeByteCompletes :
    (let s := { twoCodes with arg0 := 0x141, writer := { acc := 0, cnt := 7, outLen := 66310, obuf := [] } }
     0x41 = s.arg0.setWidth 8 ∧ s.codes.valid = true ∧ (s.codes.entry 0x41).2 ≠ 0 ∧
      1 = (s.codes.entry 0x41).2.toNat ∧ s.writer.Clean ∧ Memory.wf s.writer.obuf = true ∧
      s.writer.outLen.toNat + (s.writer.cnt.toNat + 1) / 8 ≤ s.cfg.obufBytes.toNat) ∧
    (let s := { twoCodes with arg0 := 0x141, writer := { acc := 0, cnt := 7, outLen := 66311, obuf := [] } }
     s.cfg.obufBytes.toNat < s.writer.outLen.toNat + (s.writer.cnt.toNat + 1) / 8 ∧
      8 ≤ s.writer.cnt.toNat + 1) := by
  unfold Writer.Clean
  decide +kernel

/-- Of CountFreqCompletes and CompressCompletes. -/
theorem witness_CompressCompletes :
    let s := holding State.reset [0x42, 0x41, 0x41]
    HoldsBytes s.ibuf 0 [0x42, 0x41, 0x41] ∧ [(0x42 : Byte), 0x41, 0x41].length = s.inLen.toNat ∧
      [(0x42 : Byte), 0x41, 0x41] ≠ [] ∧ s.inLen.toNat ≤ s.cfg.ibufBytes.toNat ∧
      Memory.wf s.writer.obuf = true :=
  ⟨holds_bytes_of_range (by decide +kernel), by decide, by decide, by decide, rfl⟩

/-- An input within the reference capacities, and the empty input. -/
theorem witness_WhenCompressFails :
    (let s := holding State.reset [0x42, 0x41, 0x41]
     s.cfg.ibufBytes.toNat + 775 ≤ s.cfg.obufBytes.toNat ∧ HoldsBytes s.ibuf 0 [0x42, 0x41, 0x41] ∧
      [(0x42 : Byte), 0x41, 0x41].length = s.inLen.toNat ∧ s.inLen.toNat ≤ s.cfg.ibufBytes.toNat ∧
      [(0x42 : Byte), 0x41, 0x41].length < 9227465 ∧ Memory.wf s.writer.obuf = true) ∧
    HoldsBytes State.reset.ibuf 0 [] ∧ ([] : List Byte).length = State.reset.inLen.toNat :=
  ⟨⟨by decide, holds_bytes_of_range (by decide +kernel), by decide, by decide, by decide, rfl⟩,
    holds_bytes_of_range (by decide), by decide⟩

theorem present_of_list {freq : Vector Word 256} {symbols : List (Byte × Nat)}
    (h1 : symbols.Pairwise (fun a b => a.1.toNat < b.1.toNat))
    (h2 : ∀ x : Byte, freqOf freq x ≠ 0 → x ∈ symbols.map Prod.fst)
    (h3 : ∀ e ∈ symbols, e.2 = freqOf freq e.1 ∧ e.2 ≠ 0) : Present freq symbols := by
  refine ⟨h1, fun x f => ⟨fun hm => h3 _ hm, ?_⟩⟩
  rintro ⟨rfl, h0⟩
  obtain ⟨e, he, rfl⟩ := List.mem_map.1 (h2 x h0)
  rw [← (h3 _ he).1]
  exact he

/-- Three symbols, and none. -/
theorem witness_BuildTreeCompletes : Present tieFreq.freq [(0x01, 1), (0x02, 1), (0x03, 2)] ∧
    Present State.reset.freq [] := by
  refine ⟨present_of_list (by decide) ?_ (by decide +kernel), present_of_list (by decide) ?_ (by decide)⟩
  · intro x h
    by_contra hm
    simp only [List.map_cons, List.map_nil, List.mem_cons, List.not_mem_nil, or_false, not_or] at hm
    have h1 : x.toNat ≠ 1 := fun e => hm.1 (BitVec.eq_of_toNat_eq e)
    have h2 : x.toNat ≠ 2 := fun e => hm.2.1 (BitVec.eq_of_toNat_eq e)
    have h3 : x.toNat ≠ 3 := fun e => hm.2.2 (BitVec.eq_of_toNat_eq e)
    simp [freqOf, tieFreq, State.reset, h1.symm, h2.symm, h3.symm] at h
  · intro x h
    simp [freqOf, State.reset] at h

/-- Of BuildCodesCompletes, SerializeTreeCompletes and WriteHeaderCompletes; BW_CNT = 0. -/
theorem witness_BuildCodesCompletes :
    twoLeaves.tree.valid = true ∧ twoLeaves.tree.WellFormed ∧ twoLeaves.writer.cnt = 0 ∧
      Memory.wf twoLeaves.writer.obuf = true := ⟨rfl, twoLeaves_wellFormed, rfl, rfl⟩

/-! A tree of 34 leaves whose deepest ones lie at depth 33, as the Fibonacci table of vector 2.1-12 gives. -/

/-- Leaves at 0 to 33; the Internal node at 34 + k has the leaf k + 1 and the node before it. -/
def chainNode (i : Nat) : Node :=
  if i < 34 then Node.ofSymbol (BitVec.ofNat 8 i)
  else if i = 34 then Node.ofChildren 0 1
  else Node.ofChildren (BitVec.ofNat 9 (i - 33)) (BitVec.ofNat 9 (i - 1))

def chain : State := { State.reset with
  tree := { nodes := Vector.ofFn (fun i => chainNode i.val), count := 67, root := 66, valid := true } }

def chainTree : Nat → HTree
  | 0 => .node (.leaf 0) (.leaf 1)
  | k + 1 => .node (.leaf (BitVec.ofNat 8 (k + 2))) (chainTree k)

def chainIndices : Nat → List Nat
  | 0 => [34, 0, 1]
  | k + 1 => (35 + k) :: ([k + 2] ++ chainIndices k)

theorem chain_entry {i : Nat} (h : i < 511) : chain.tree.nodes[i]? = some (chainNode i) := by
  simp [chain, nodeMax, h]

theorem chain_leaf {i : Nat} (h : i < 34) :
    Holds chain.tree.nodes i (.leaf (BitVec.ofNat 8 i)) [i] :=
  .leaf (n := Node.ofSymbol (BitVec.ofNat 8 i)) (by rw [chain_entry (by omega), chainNode, if_pos h]) rfl

theorem chain_holds (k : Nat) (h : k ≤ 32) :
    Holds chain.tree.nodes (34 + k) (chainTree k) (chainIndices k) := by
  induction k with
  | zero =>
    exact .node (n := Node.ofChildren 0 1) (chain_entry (by decide)) rfl (chain_leaf (i := 0) (by decide))
      (chain_leaf (i := 1) (by decide))
  | succ k ih =>
    have e1 : (BitVec.ofNat 9 (k + 2)).toNat = k + 2 := by simp; omega
    have e2 : (BitVec.ofNat 9 (34 + k)).toNat = 34 + k := by simp; omega
    have hn : chainNode (34 + (k + 1)) =
        Node.ofChildren (BitVec.ofNat 9 (k + 2)) (BitVec.ofNat 9 (34 + k)) := by
      rw [chainNode, if_neg (by omega), if_neg (by omega)]
      congr 2; omega
    have hc := Holds.node (i := 34 + (k + 1)) (l := .leaf (BitVec.ofNat 8 (k + 2))) (L := [k + 2])
      (n := Node.ofChildren (BitVec.ofNat 9 (k + 2)) (BitVec.ofNat 9 (34 + k)))
      (by rw [← hn]; exact chain_entry (by omega)) rfl
      (by show Holds _ (BitVec.ofNat 9 (k + 2)).toNat _ _; rw [e1]; exact chain_leaf (by omega))
      (by show Holds _ (BitVec.ofNat 9 (34 + k)).toNat _ _; rw [e2]; exact ih (by omega))
    rwa [show 34 + (k + 1) = 35 + k by omega] at hc ⊢

/-- The clause of BuildCodesCompletes on leaves deeper than 32. -/
theorem witness_BuildCodesCompletes_deep :
    chain.tree.valid = true ∧ chain.tree.WellFormed ∧
      Holds chain.tree.nodes chain.tree.root.toNat (chainTree 32) (chainIndices 32) ∧
      (chainTree 32).depth = 33 :=
  ⟨rfl, ⟨chainTree 32, chainIndices 32, chain_holds 32 (by decide), by decide +kernel, by decide +kernel⟩,
    chain_holds 32 (by decide), by decide +kernel⟩

/-- R88: depth 33 is CODE_TOO_LONG. -/
theorem test_build_codes_too_long :
    (stateOf (exec .buildCodes chain)).map (fun t => (t.err, t.codes.valid)) =
      some (.codeTooLong, false) := by decide +kernel

theorem witness_CodesArePrefixFree :
    ∃ u, twoLeaves.tree.valid = true ∧ twoLeaves.tree.WellFormed ∧
      Holds twoLeaves.tree.nodes twoLeaves.tree.root.toNat (.node (.leaf 0x42) (.leaf 0x41)) [2, 1, 0] ∧
      (HTree.node (.leaf 0x42) (.leaf 0x41)).leaves.Nodup ∧ exec .buildCodes twoLeaves = .next u ∧
      u.codes.valid = true ∧ (0x41 : Byte) ≠ 0x42 ∧ (u.codes.entry 0x41).2 ≠ 0 ∧
      (u.codes.entry 0x42).2 ≠ 0 := by
  obtain ⟨u, h, h1⟩ := goes_on (o := exec .buildCodes twoLeaves)
    (p := fun u => decide (u.codes.valid = true ∧ (u.codes.entry 0x41).2 ≠ 0 ∧ (u.codes.entry 0x42).2 ≠ 0))
    (by decide +kernel)
  obtain ⟨h2, h3, h4⟩ := of_decide_eq_true h1
  exact ⟨u, rfl, twoLeaves_wellFormed, twoLeaves_holds, by decide, h, h2, by decide, h3, h4⟩

/-- FREQ[0x41] = a and FREQ[0x42] = b, every other entry 0. -/
def twoFreqs (a b : Word) : Vector Word 256 := (State.reset.freq.set 0x41 a).set 0x42 b

theorem twoFreqs_other (a b : Word) (z : Byte) (h1 : z ≠ 0x41) (h2 : z ≠ 0x42) :
    freqOf (twoFreqs a b) z = 0 := by
  have e1 : z.toNat ≠ 0x41 := fun e => h1 (BitVec.eq_of_toNat_eq e)
  have e2 : z.toNat ≠ 0x42 := fun e => h2 (BitVec.eq_of_toNat_eq e)
  simp [freqOf, twoFreqs, State.reset, e1.symm, e2.symm]

/-- Unequal counts, and equal ones. -/
theorem witness_TwoSymbolCodes :
    ((0x42 : Byte) ≠ 0x41 ∧ freqOf (twoFreqs 2 1) 0x42 ≠ 0 ∧ freqOf (twoFreqs 2 1) 0x41 ≠ 0 ∧
      (∀ z : Byte, z ≠ 0x42 → z ≠ 0x41 → freqOf (twoFreqs 2 1) z = 0) ∧
      freqOf (twoFreqs 2 1) 0x42 < freqOf (twoFreqs 2 1) 0x41) ∧
    ((∀ z : Byte, z ≠ 0x41 → z ≠ 0x42 → freqOf (twoFreqs 1 1) z = 0) ∧
      freqOf (twoFreqs 1 1) 0x41 ≠ 0 ∧ freqOf (twoFreqs 1 1) 0x42 ≠ 0 ∧
      freqOf (twoFreqs 1 1) 0x41 = freqOf (twoFreqs 1 1) 0x42 ∧
      (0x41 : Byte).toNat < (0x42 : Byte).toNat) :=
  ⟨⟨by decide, by decide +kernel, by decide +kernel, fun z h1 h2 => twoFreqs_other 2 1 z h2 h1,
      by decide +kernel⟩,
    twoFreqs_other 1 1, by decide +kernel, by decide +kernel, by decide +kernel, by decide⟩

/-- The bound is just the end of the tree. -/
theorem witness_DeserializeInvertsSerialize :
    let s := { holding State.reset [0xFF, 0x00, 0x01, 0x42, 0x01, 0x41] with arg0 := 1, arg1 := 6 }
    let t := HTree.node (.leaf 0x42) (.leaf 0x41)
    s.inLen.toNat ≤ s.cfg.ibufBytes.toNat ∧ HoldsBytes s.ibuf s.arg0.toNat t.serialize ∧
      s.arg0.toNat + t.serialize.length ≤ min s.arg1.toNat s.inLen.toNat ∧ t.leaves.length ≤ 256 :=
  ⟨by decide, holds_bytes_of_range (by decide +kernel), by decide, by decide⟩

theorem witness_DeserializeIsSound :
    ∃ u, exec .deserializeTree { holding State.reset [0x01, 0x41] with arg1 := 2 } = .next u ∧
      u.err = .none := by
  obtain ⟨t, h, h1⟩ := goes_on
    (o := exec .deserializeTree { holding State.reset [0x01, 0x41] with arg1 := 2 })
    (p := fun t => decide (t.err = .none)) (by decide +kernel)
  exact ⟨t, h, of_decide_eq_true h1⟩

/-- The buffers of vectors 2.4-8 and 2.10-7: two bytes between the tree and header_size, and for 2.10-7
a payload byte. -/
theorem gap_header {bytes : List Byte}
    (h : bytes = [0x0C, 0x00, 0x00, 0x00, 0x03, 0x00, 0x00, 0x00, 0x01, 0x41, 0x77, 0x77] ∨
      bytes = [0x0C, 0x00, 0x00, 0x00, 0x03, 0x00, 0x00, 0x00, 0x01, 0x41, 0x77, 0x77, 0x00]) :
    HeaderIn (holding State.reset bytes).ibuf (holding State.reset bytes).inLen 12 3 (.leaf 0x41) := by
  rcases h with rfl | rfl <;>
    exact ⟨holds_bytes_of_range (by decide +kernel), by decide, by decide, by decide⟩

/-- Bytes between the tree and header_size (vector 2.4-8). -/
theorem witness_ReadHeaderCompletes :
    let s := holding State.reset [0x0C, 0x00, 0x00, 0x00, 0x03, 0x00, 0x00, 0x00, 0x01, 0x41, 0x77, 0x77]
    s.inLen.toNat ≤ s.cfg.ibufBytes.toNat ∧ HeaderIn s.ibuf s.inLen 12 3 (.leaf 0x41) :=
  ⟨by decide, gap_header (.inl rfl)⟩

/-- No byte (READ_HEADER), seven bytes, and a header_size one beyond IN_LEN. -/
theorem witness_CorruptBuffers :
    ((0 : Word).toNat ≤ State.reset.cfg.ibufBytes.toNat ∧ State.reset.inLen.toNat < 8) ∧
    (let s := { State.reset with inLen := 7 }
     s.inLen.toNat ≤ s.cfg.ibufBytes.toNat ∧ s.inLen ≠ 0 ∧ s.inLen.toNat < 8) ∧
    (let s := holding State.reset [0x0B, 0x00, 0x00, 0x00, 0x03, 0x00, 0x00, 0x00, 0x01, 0x41]
     s.inLen.toNat ≤ s.cfg.ibufBytes.toNat ∧ s.inLen ≠ 0 ∧
      HoldsBytes s.ibuf 0 (le32Bytes 11 ++ le32Bytes 3) ∧ s.inLen.toNat < (11 : Word).toNat) :=
  ⟨by decide, by decide, by decide, by decide, holds_bytes_of_range (by decide +kernel), by decide⟩

/-- Bytes that `des_tree` turns away hold no tree. -/
theorem noTree_of_error {m : Memory} {a limit : Nat} {nodes : Vector Node nodeMax}
    (hw : (List.range limit).all (fun p => decide (p < a) || (m.get p).isSome) = true)
    (hd : (desTree m a limit nodes).toOption.isNone = true) : HoldsNoTree m a limit := by
  refine ⟨fun p h1 h2 h => ?_, fun t h1 h2 => Nat.lt_of_not_le fun h3 => ?_⟩
  · have := List.all_eq_true.1 hw p (List.mem_range.2 h2)
    simp [h] at this
    omega
  · obtain ⟨n, -, he⟩ := desTree_serialize t a limit nodes h1 h2 h3
    rw [he] at hd
    cases hd

/-- Vectors 2.3-2 and 2.3-4, and the trees of vector 2.10-6 and of a header that ends in its Leaf token. -/
theorem witness_CorruptBuffers_tree :
    (let s := { holding State.reset [0x00, 0x01, 0x42, 0x01, 0x41] with arg1 := 4 }
     s.inLen.toNat ≤ s.cfg.ibufBytes.toNat ∧
      HoldsNoTree s.ibuf s.arg0.toNat (min s.arg1.toNat s.inLen.toNat)) ∧
    (let s := { holding State.reset [0x00, 0x01, 0x42, 0x01, 0x41] with arg0 := 5, arg1 := 100 }
     HoldsNoTree s.ibuf s.arg0.toNat (min s.arg1.toNat s.inLen.toNat)) ∧
    (let s := holding State.reset [0x0A, 0x00, 0x00, 0x00, 0x03, 0x00, 0x00, 0x00, 0x02, 0x41, 0x00]
     s.inLen.toNat ≤ s.cfg.ibufBytes.toNat ∧ 8 ≤ s.inLen.toNat ∧ s.inLen ≠ 0 ∧
      HoldsBytes s.ibuf 0 (le32Bytes 10 ++ le32Bytes 3) ∧ HoldsNoTree s.ibuf 8 (10 : Word).toNat) ∧
    (let s := holding State.reset [0x09, 0x00, 0x00, 0x00, 0x03, 0x00, 0x00, 0x00, 0x01, 0x41, 0x00]
     HoldsBytes s.ibuf 0 (le32Bytes 9 ++ le32Bytes 3) ∧ HoldsNoTree s.ibuf 8 (9 : Word).toNat) := by
  have tree : ∀ {m : Memory} {a limit : Nat}, _ → _ → HoldsNoTree m a limit :=
    noTree_of_error (nodes := State.reset.tree.nodes)
  exact ⟨⟨by decide, tree (by decide +kernel) (by decide +kernel)⟩,
    tree (by decide +kernel) (by decide +kernel),
    ⟨by decide, by decide, by decide, holds_bytes_of_range (by decide +kernel),
      tree (by decide +kernel) (by decide +kernel)⟩,
    holds_bytes_of_range (by decide +kernel), tree (by decide +kernel) (by decide +kernel)⟩

/-- Three symbols wanted and OBUF_BYTES = 2; and a payload of no byte (vector 2.10-3), whose extent ends
before the first code. -/
theorem witness_CorruptBuffers_payload :
    let s := holding State.reset [0x0A, 0x00, 0x00, 0x00, 0x03, 0x00, 0x00, 0x00, 0x01, 0x41]
    let start : Reader := { pos := 10, bit := 0, limit := 10 }
    s.inLen.toNat ≤ s.cfg.ibufBytes.toNat ∧ HeaderIn s.ibuf s.inLen 10 3 (.leaf 0x41) ∧
      (2 : Word).toNat < (3 : Word).toNat ∧ (3 : Word).toNat ≤ s.cfg.obufBytes.toNat ∧
      ([] : List Byte).length < (3 : Word).toNat ∧
      (0x41, ([] : List Bool) ++ [false]) ∈ (HTree.leaf 0x41).codes ∧ [false] ≠ [] ∧
      start.limit.toNat = (10 : Word).toNat + min (3 : Word).toNat (s.inLen.toNat - (10 : Word).toNat) ∧
      start.Gives s.ibuf (codeStream (fun _ => [false]) [] ++ []) ∧
      start.MovedBy (codeStream (fun _ => [false]) [] ++ []).length start ∧
      start.limit.toNat ≤ start.pos.toNat := by
  refine ⟨by decide, ⟨holds_bytes_of_range (by decide +kernel), by decide, by decide, by decide⟩,
    by decide, by decide, by decide, by decide, by decide, by decide, ?_, ?_, by decide⟩
  · intro j hj; simp [codeStream] at hj
  · unfold Reader.MovedBy; decide

/-- The last codes of eight symbols fill the one byte of the extent, and a ninth is wanted. -/
theorem witness_CorruptBuffers_stop :
    let s := holding State.reset [0x0A, 0x00, 0x00, 0x00, 0x09, 0x00, 0x00, 0x00, 0x01, 0x41, 0x00]
    let start : Reader := { pos := 10, bit := 0, limit := 11 }
    let symbols := List.replicate 8 (0x41 : Byte)
    HeaderIn s.ibuf s.inLen 10 9 (.leaf 0x41) ∧ symbols.length < (9 : Word).toNat ∧
      (∀ y ∈ symbols, (y, [false]) ∈ (HTree.leaf 0x41).codes) ∧
      start.limit.toNat = (10 : Word).toNat + min (9 : Word).toNat (s.inLen.toNat - (10 : Word).toNat) ∧
      start.Gives s.ibuf (codeStream (fun _ => [false]) symbols ++ []) ∧
      start.MovedBy (codeStream (fun _ => [false]) symbols ++ []).length { pos := 11, bit := 0, limit := 11 } ∧
      (11 : Word).toNat ≤ (11 : Word).toNat := by
  refine ⟨⟨holds_bytes_of_range (by decide +kernel), by decide, by decide, by decide⟩, by decide, by decide,
    by decide, gives_of_byte 0x00 (by decide +kernel) rfl (by decide) (by decide) (by decide), ?_, by decide⟩
  unfold Reader.MovedBy; decide

/-- A code of one bit, a one-leaf tree with its bit 1, and no bit at all; no tree. -/
theorem witness_DecodeSymbolCompletes :
    (twoLeaves.tree.valid = true ∧
      Holds twoLeaves.tree.nodes twoLeaves.tree.root.toNat (.node (.leaf 0x42) (.leaf 0x41)) [2, 1, 0] ∧
      (0x41, [true]) ∈ (HTree.node (.leaf 0x42) (.leaf 0x41)).codes ∧
      ({ pos := 0, bit := 7, limit := 1 } : Reader).Gives [(0, 0x01)] [true]) ∧
    (oneLeaf.tree.valid = true ∧
      Holds oneLeaf.tree.nodes oneLeaf.tree.root.toNat (.leaf 0x41) [0]) ∧
    oneLeaf.reader.limit.toNat ≤ oneLeaf.reader.pos.toNat ∧ State.reset.tree.valid = false :=
  ⟨⟨rfl, twoLeaves_holds, by decide, witness_ReadBitCompletes.1⟩, ⟨rfl, oneLeaf_holds⟩, by decide, rfl⟩

/-- Two bits wanted, the first of them the last one readable. -/
theorem witness_DecodeSymbolCompletes_stops :
    (∃ L, Holds (arenaOf [Node.ofSymbol 0x41, Node.ofSymbol 0x42, Node.ofSymbol 0x43,
        Node.ofChildren 1 2, Node.ofChildren 0 3] 4).nodes 4
      (.node (.leaf 0x41) (.node (.leaf 0x42) (.leaf 0x43))) L) ∧
    (0x42, [true] ++ [false]) ∈ (HTree.node (.leaf 0x41) (.node (.leaf 0x42) (.leaf 0x43))).codes ∧
    ({ pos := 0, bit := 7, limit := 1 } : Reader).Gives [(0, 0x01)] [true] ∧
    ({ pos := 0, bit := 7, limit := 1 } : Reader).MovedBy 1 { pos := 1, bit := 0, limit := 1 } ∧
    (1 : Word).toNat ≤ (1 : Word).toNat :=
  ⟨⟨_, .node (n := Node.ofChildren 0 3) (by decide +kernel) rfl
      (.leaf (n := Node.ofSymbol 0x41) (by decide +kernel) rfl)
      (.node (n := Node.ofChildren 1 2) (by decide +kernel) rfl
        (.leaf (n := Node.ofSymbol 0x42) (by decide +kernel) rfl)
        (.leaf (n := Node.ofSymbol 0x43) (by decide +kernel) rfl))⟩,
    by decide, witness_ReadBitCompletes.1, by unfold Reader.MovedBy; decide, by decide⟩

/-- Each clause: the first node, a node that waits for its left subtree, the last free index with an empty
stack, the right subtree of the outermost node, and no index left. -/
theorem witness_TreeTokensComplete :
    (State.reset.withFetchWord 16 0x4101).activity =
      some (.deserialize (Des.start 0 2) .deserializeTree) ∧ (Des.start 0 2).cnt < nodeMax ∧
    (Des.start 0 2).stack = [] ∧ DesUse.deserializeTree ≠ .decompress ∧
    (let d : Des := { pos := 1, limit := 5, cnt := 510, stack := [.left 0] }
     d.cnt < nodeMax ∧ d.stack = .left 0 :: []) ∧
    (let d : Des := { pos := 3, limit := 5, cnt := 2, stack := [.right 0 1] }
     d.cnt < nodeMax ∧ d.stack = [.right 0 1]) ∧
    (let d : Des := { pos := 3, limit := 5, cnt := 511, stack := [.left 0] }
     nodeMax ≤ d.cnt) := by decide

/-- A root whose left child is Internal and whose right one is a Leaf; and DECOMPRESS before its last
symbol and at it. -/
theorem witness_PayloadBitsComplete :
    (∃ L, Holds (arenaOf [Node.ofSymbol 0x41, Node.ofSymbol 0x42, Node.ofChildren 1 0,
        Node.ofChildren 2 0] 3).nodes 3
      (.node (.node (.leaf 0x42) (.leaf 0x41)) (.leaf 0x41)) L) ∧
    (walkAtRoot.activity = some (.walk { cur := 2, emitted := 0, dirty := false } .decodeSymbol) ∧
      Holds walkAtRoot.tree.nodes (2 : NodeIdx).toNat (.node (.leaf 0x42) (.leaf 0x41)) [2, 1, 0]) ∧
    (let s := { twoLeaves.walking .decompress { cur := 2, emitted := 1, dirty := true } with origSize := 3 }
     1 + 1 < s.origSize.toNat) ∧
    (let s := { twoLeaves.walking .decompress { cur := 2, emitted := 2, dirty := true } with origSize := 3 }
     s.origSize.toNat ≤ 2 + 1) := by
  refine ⟨⟨_, .node (n := Node.ofChildren 2 0) (by decide +kernel) rfl
    (.node (n := Node.ofChildren 1 0) (by decide +kernel) rfl
      (.leaf (n := Node.ofSymbol 0x42) (by decide +kernel) rfl)
      (.leaf (n := Node.ofSymbol 0x41) (by decide +kernel) rfl))
    (.leaf (n := Node.ofSymbol 0x41) (by decide +kernel) rfl)⟩, ⟨rfl, twoLeaves_holds⟩, by decide, by decide⟩

theorem witness_MicroStepsAgree :
    let s := { (holding State.reset [0x01, 0x41]).accept 0x19 with arg1 := 2 }
    Instr.format .deserializeTree = .cmd ∧ s.schedule = [] ∧ s.busy = true ∧ s.activity = none ∧
      ∃ t, beginCommand .deserializeTree s = .next t := ⟨rfl, rfl, rfl, rfl, _, rfl⟩

theorem witness_EmptyInput : State.reset.inLen = 0 := rfl

/-- BAA, compressed. -/
theorem compress_baa : ∃ t, exec .compress (holding State.reset [0x42, 0x41, 0x41]) = .next t ∧
    t.err = .none ∧ t.writer.outLen.toNat = 14 ∧ HoldsBytes t.writer.obuf 0
      [0x0D, 0x00, 0x00, 0x00, 0x03, 0x00, 0x00, 0x00, 0x00, 0x01, 0x42, 0x01, 0x41, 0x60] := by
  obtain ⟨t, h, h1⟩ := goes_on (o := exec .compress (holding State.reset [0x42, 0x41, 0x41]))
    (p := fun t => decide (t.err = .none ∧ t.writer.outLen.toNat = 14) &&
      (List.range 14).all (fun j => t.writer.obuf.get (0 + j) == [(0x0D : Byte), 0x00, 0x00, 0x00, 0x03,
        0x00, 0x00, 0x00, 0x00, 0x01, 0x42, 0x01, 0x41, 0x60][j]?)) (by decide +kernel)
  rw [Bool.and_eq_true] at h1
  obtain ⟨h2, h3⟩ := of_decide_eq_true h1.1
  exact ⟨t, h, h2, h3, holds_bytes_of_range h1.2⟩

theorem witness_CompressedHeaderFields :
    ∃ t, HoldsBytes (holding State.reset [0x42, 0x41, 0x41]).ibuf 0 [0x42, 0x41, 0x41] ∧
      Memory.wf (holding State.reset [0x42, 0x41, 0x41]).writer.obuf = true ∧
      exec .compress (holding State.reset [0x42, 0x41, 0x41]) = .next t ∧ t.err = .none := by
  obtain ⟨t, h1, h2, -⟩ := compress_baa
  exact ⟨t, witness_CompressCompletes.1, rfl, h1, h2⟩

theorem witness_CompressOneSymbol :
    let s := holding { State.reset with cfg := { ibufBytes := 3, obufBytes := 11 } } [0x41, 0x41, 0x41]
    1 ≤ 3 ∧ 3 = s.inLen.toNat ∧ HoldsBytes s.ibuf 0 (List.replicate 3 0x41) ∧
      3 ≤ s.cfg.ibufBytes.toNat ∧ 10 + (3 + 7) / 8 ≤ s.cfg.obufBytes.toNat ∧
      Memory.wf s.writer.obuf = true :=
  ⟨by decide, by decide, holds_bytes_of_range (by decide +kernel), by decide, by decide, rfl⟩

/-- The buffer of vector 2.10-7. -/
theorem witness_DecompressDecodes :
    let s := holding State.reset
      [0x0C, 0x00, 0x00, 0x00, 0x03, 0x00, 0x00, 0x00, 0x01, 0x41, 0x77, 0x77, 0x00]
    let start : Reader := { pos := 12, bit := 0, limit := 13 }
    let symbols := List.replicate 3 (0x41 : Byte)
    s.inLen.toNat ≤ s.cfg.ibufBytes.toNat ∧ HeaderIn s.ibuf s.inLen 12 3 (.leaf 0x41) ∧
      symbols.length = (3 : Word).toNat ∧
      (∀ x ∈ symbols, (x, [false]) ∈ (HTree.leaf 0x41).codes) ∧
      start.limit.toNat = (12 : Word).toNat + min (3 : Word).toNat (s.inLen.toNat - (12 : Word).toNat) ∧
      start.Gives s.ibuf (codeStream (fun _ => [false]) symbols) ∧
      symbols.length ≤ s.cfg.obufBytes.toNat ∧ Memory.wf s.writer.obuf = true :=
  ⟨by decide, gap_header (.inr rfl), rfl, by decide, by decide,
    gives_of_byte 0x00 (by decide +kernel) rfl (by decide) (by decide) (by decide), by decide, rfl⟩

/-- Vector 2.10-7. -/
theorem test_decompress_gap :
    (stateOf (exec .decompress (holding State.reset
      [0x0C, 0x00, 0x00, 0x00, 0x03, 0x00, 0x00, 0x00, 0x01, 0x41, 0x77, 0x77, 0x00]))).map
      (fun t => (t.err, t.writer.obuf.map Prod.snd, t.reader)) =
    some (.none, [0x41, 0x41, 0x41], { pos := 12, bit := 3, limit := 13 }) := by decide +kernel

theorem witness_RoundTrip :
    ∃ t, HoldsBytes (holding State.reset [0x42, 0x41, 0x41]).ibuf 0 [0x42, 0x41, 0x41] ∧
      exec .compress (holding State.reset [0x42, 0x41, 0x41]) = .next t ∧ t.err = .none ∧
      ∃ buffer : List Byte, HoldsBytes t.writer.obuf 0 buffer ∧ buffer.length = t.writer.outLen.toNat ∧
        HoldsBytes (holding State.reset buffer).ibuf 0 buffer ∧
        buffer.length = (holding State.reset buffer).inLen.toNat ∧
        (holding State.reset buffer).inLen.toNat ≤ (holding State.reset buffer).cfg.ibufBytes.toNat ∧
        3 ≤ (holding State.reset buffer).cfg.obufBytes.toNat ∧
        Memory.wf (holding State.reset buffer).writer.obuf = true := by
  obtain ⟨t, h1, h2, h3, h4⟩ := compress_baa
  exact ⟨t, witness_CompressCompletes.1, h1, h2, _, h4, h3.symm, holds_bytes_of_range (by decide +kernel),
    by decide, by decide, by decide, rfl⟩

/-- Two states that agree on the input and on nothing else. -/
theorem witness_CodecIsPure :
    let s := holding State.reset [0x42, 0x41, 0x41]
    let s' := { holding twoCodes [0x42, 0x41, 0x41, 0xFF] with inLen := 3, writer := fiveBits.writer }
    s'.cfg = s.cfg ∧ s'.inLen = s.inLen ∧ (∀ a, a < s.inLen.toNat → s'.ibuf.get a = s.ibuf.get a) ∧
      Memory.wf s.writer.obuf = true ∧ Memory.wf s'.writer.obuf = true ∧
      ∃ t, exec .compress s = .next t ∧ t.err = .none := by
  obtain ⟨t, h1, h2, -⟩ := compress_baa
  exact ⟨rfl, by decide, by decide +kernel, rfl, rfl, t, h1, h2⟩

end Sys2Proof.Tests
end

/-! PROOF of MicroStepsAgree (R42): each of the four commands that stop at a token or a bit is followed
from its beginning to where its meaning leads. -/

namespace Sys2Proof.Machine

/-- A beginning with outcome `b` leads, by the core's own steps, to the outcome `o`. -/
def LeadsTo (b o : Host.Outcome State Fault Refusal) : Prop :=
  (∀ t, b = .next t → ∃ n, Sys2Proof.core.run n t = o) ∧ ((∀ t, b ≠ .next t) → b = o)

theorem LeadsTo.refl (o : Host.Outcome State Fault Refusal) : LeadsTo o o :=
  ⟨fun _ h => ⟨0, h.symm⟩, fun _ => rfl⟩

theorem LeadsTo.of_run {t : State} {o : Host.Outcome State Fault Refusal} {n : Nat}
    (h : Sys2Proof.core.run n t = o) : LeadsTo (.next t) o :=
  ⟨fun _ ht => by cases ht; exact ⟨n, h⟩, fun hn => absurd rfl (hn t)⟩

/-- Steps before the beginning of the rest can be left out of account. -/
theorem LeadsTo.run_trans {s : State} {n : Nat} {o : Host.Outcome State Fault Refusal}
    (h : LeadsTo (Sys2Proof.core.run n s) o) : LeadsTo (.next s) o := by
  cases hr : Sys2Proof.core.run n s with
  | next t =>
    obtain ⟨m, hm⟩ := h.1 t hr
    exact .of_run ((run_add n m hr).trans hm)
  | fault f => exact .of_run (h.2 fun t ht => by rw [hr] at ht; cases ht)
  | refused f => exact .of_run (h.2 fun t ht => by rw [hr] at ht; cases ht)

/-! ### `des_tree` from its first token -/

/-- The state in which `des_tree` leaves the arena, HDR_SIZE and ORIG_SIZE holding what the command's
beginning has written. -/
def State.treeRead (s : State) (use : DesUse) (h o : Word) (p0 limit : Nat) (tree : Arena) : State :=
  { ({ s with hdrSize := h, origSize := o }.deserializing use p0 limit) with tree := tree }

section
variable {s : State} {use : DesUse} {h o : Word} {p0 limit : Nat}

/-- An error of the command after `des_tree` leaves what it leaves anywhere in the command. -/
theorem treeRead_outcome {stop : Stop} (hstop : ∀ e, stop ≠ .raise e false) (tree : Arena)
    (hu : use = .deserializeTree → h = s.hdrSize ∧ o = s.origSize) :
    stop.outcome use.draw (s.treeRead use h o p0 limit tree) = stop.outcome use.draw s :=
  (des_outcome hstop use ({ s with hdrSize := h, origSize := o }.deserializing use p0 limit) tree _).trans
    (begin_outcome hstop use s h o p0 limit hu)

/-- `des_tree` fails token by token as it fails at once. DESERIALIZE_TREE has no header to write (`hu`). -/
theorem run_desTree_error {stop : Stop} (hb : s.busy = true) (hs : s.schedule = [])
    (hu : use = .deserializeTree → h = s.hdrSize ∧ o = s.origSize)
    (hd : desTree s.ibuf p0 limit s.tree.nodes = .error stop) :
    ∃ n, Sys2Proof.core.run n ({ s with hdrSize := h, origSize := o }.deserializing use p0 limit) =
      stop.outcome use.draw s := by
  obtain ⟨n, hn⟩ := run_desLoop (nodeMax + 1)
    ({ s with hdrSize := h, origSize := o }.deserializing use p0 limit) (Des.start p0 limit) use hb hs rfl
    (Nat.zero_le _) (Nat.lt_succ_self _)
  have hl : desLoop s.ibuf (nodeMax + 1) (Des.start p0 limit) s.tree.nodes = .error stop := by
    unfold desTree at hd
    split at hd
    · cases hd; assumption
    · cases hd
  refine ⟨n + 1, hn.trans ?_⟩
  simp only [State.deserializing, State.clearValid, hl]
  exact begin_outcome (unwritten_not_clean (desTree_error hd)) use s h o p0 limit hu

/-- `des_tree` reads token by token the tree it reads at once. -/
theorem run_desTree_ok {tree : Arena} {p : Word} (hb : s.busy = true) (hs : s.schedule = [])
    (hd : desTree s.ibuf p0 limit s.tree.nodes = .ok (tree, p)) :
    ∃ n q, p = BitVec.ofNat 32 q ∧
      Sys2Proof.core.run n ({ s with hdrSize := h, origSize := o }.deserializing use p0 limit) =
        afterTree use q (s.treeRead use h o p0 limit tree) := by
  obtain ⟨n, hn⟩ := run_desLoop (nodeMax + 1)
    ({ s with hdrSize := h, origSize := o }.deserializing use p0 limit) (Des.start p0 limit) use hb hs rfl
    (Nat.zero_le _) (Nat.lt_succ_self _)
  unfold desTree at hd
  split at hd
  · cases hd
  · rename_i d nodes root hl
    cases hd
    refine ⟨n + 1, d.pos, rfl, hn.trans ?_⟩
    simp only [State.deserializing, State.clearValid, hl]
    rfl

end

/-! ### The commands that stop at a token or a bit -/

theorem deserializeTree_leadsTo {s : State} (hb : s.busy = true) (hs : s.schedule = []) :
    LeadsTo (beginCommand .deserializeTree s) (exec .deserializeTree s) := by
  by_cases hl : s.inLenTooBig
  · rw [beginCommand, if_pos hl]
    exact .refl _
  · rw [beginCommand, if_neg hl]
    simp only [exec, execDeserializeTree, hl]
    cases hd : desTree s.ibuf s.arg0.toNat s.desLimit s.tree.nodes with
    | error stop =>
      obtain ⟨n, hn⟩ := run_desTree_error (use := .deserializeTree) (h := s.hdrSize) (o := s.origSize)
        hb hs (fun _ => ⟨rfl, rfl⟩) hd
      exact .of_run hn
    | ok r =>
      obtain ⟨tree, p⟩ := r
      obtain ⟨n, q, rfl, hn⟩ := run_desTree_ok (use := .deserializeTree) (h := s.hdrSize) (o := s.origSize)
        hb hs hd
      exact .of_run hn

theorem readHeader_leadsTo {s : State} (hb : s.busy = true) (hs : s.schedule = []) :
    LeadsTo (beginCommand .readHeader s) (exec .readHeader s) := by
  by_cases hl : s.inLenTooBig
  · rw [beginCommand, if_pos hl]
    exact .refl _
  · rw [beginCommand, if_neg hl]
    simp only [exec, execReadHeader, hl, beginHeader, readHeader]
    cases hf : readHeaderFields s.ibuf s.inLen with
    | error stop => exact .refl _
    | ok f =>
      obtain ⟨h, o⟩ := f
      cases hd : desTree s.ibuf 8 h.toNat s.tree.nodes with
      | error stop =>
        obtain ⟨n, hn⟩ := run_desTree_error (use := .readHeader) (h := h) (o := o) hb hs nofun hd
        simp only [hd]
        exact .of_run hn
      | ok r =>
        obtain ⟨tree, p⟩ := r
        obtain ⟨n, q, rfl, hn⟩ := run_desTree_ok (use := .readHeader) (h := h) (o := o) hb hs hd
        simp only [hd]
        exact .of_run hn

/-- DECODE_SYMBOL's error leaves the same from inside the walk as from before it. -/
theorem walking_outcome (stop : Stop) (s : State) (w : Walk) :
    stop.outcome drawReadBit (s.walking .decodeSymbol w) = stop.outcome drawReadBit s := by
  cases stop with
  | fault f => rfl
  | raise e dirty => cases dirty <;> rfl

theorem decodeSymbol_leadsTo {s : State} (hb : s.busy = true) (hs : s.schedule = []) :
    LeadsTo (beginCommand .decodeSymbol s) (exec .decodeSymbol s) := by
  by_cases hv : s.tree.valid
  · rw [beginCommand, if_pos hv]
    simp only [exec, execDecodeSymbol, if_pos hv, decodeSym]
    have hfuel : 8 * (s.reader.limit.toNat - s.reader.pos.toNat) - s.reader.bit.toNat <
        s.reader.bitsLeft + 1 := by
      unfold Reader.bitsLeft
      omega
    obtain ⟨n, hn⟩ := run_walkLoop (s.reader.bitsLeft + 1)
      (s.walking .decodeSymbol { cur := s.tree.root, emitted := 0, dirty := false }) _ .decodeSymbol hb hs
      rfl hfuel
    refine .of_run (hn.trans ?_)
    simp only [State.walking]
    cases hw : walkLoop s.tree.nodes s.ibuf (s.reader.bitsLeft + 1) s.tree.root false s.reader with
    | error stop => exact walking_outcome stop s _
    | ok r => rfl
  · rw [beginCommand, if_neg hv]
    exact .refl _

/-! ### DECOMPRESS -/

/-- An error among the payload bits leaves what it leaves before the payload. -/
theorem payload_outcome {stop : Stop} (hstop : ∀ e, stop ≠ .raise e false) (s : State) (r : Reader)
    (w : Writer) (a : Option Activity) (hacc : w.acc = s.writer.acc) (hcnt : w.cnt = s.writer.cnt) :
    stop.outcome drawDecompress { s with reader := r, writer := w, activity := a } =
      stop.outcome drawDecompress s := by
  cases stop with
  | fault f => rfl
  | raise e dirty =>
    cases dirty with
    | false => exact absurd rfl (hstop e)
    | true => exact congrArg Host.Outcome.next (decompress_draw_output s r w a e hacc hcnt)

theorem decodeMany_not_clean {a : Arena} {m : Memory} {n : Nat} {r : Reader} {w : Writer} {stop : Stop}
    (h : decodeMany a m n r w = .error stop) : ∀ e, stop ≠ .raise e false := by
  rintro e rfl
  rcases decodeMany_error h with h | h | h
  · cases h
  · exact h.not_raise
  · cases h

/-- DECOMPRESS below its reading of the header (R118): the check of original_size, and the loop over
its symbols. -/
def decodePayload (s : State) (h o : Word) (tree : Arena) : Except Stop (Reader × Writer) :=
  if s.obufCap < o.toNat then .error (.raise .outputOverflow true)
  else decodeMany tree s.ibuf o.toNat (payloadReader h o s.inLen) { s.writer with outLen := 0 }

theorem decodePayload_not_clean {s : State} {h o : Word} {tree : Arena} {stop : Stop}
    (hp : decodePayload s h o tree = .error stop) : ∀ e, stop ≠ .raise e false := by
  unfold decodePayload at hp
  split at hp
  · cases hp
    nofun
  · exact decodeMany_not_clean hp

/-- `decompressInput` of a buffer whose header and tree are read is its payload's decoding. -/
theorem decompressInput_of_tree {s : State} {h o p : Word} {tree : Arena}
    (hf : readHeaderFields s.ibuf s.inLen = .ok (h, o))
    (hd : desTree s.ibuf 8 h.toNat s.tree.nodes = .ok (tree, p)) :
    decompressInput s = (decodePayload s h o tree).map fun (r, w) =>
      { header := { hdrSize := h, origSize := o, tree := tree, after := p }, reader := r, writer := w } := by
  simp only [decompressInput, decodePayload, readHeader, hf, hd]
  by_cases hcap : s.obufCap < o.toNat
  · rw [if_pos hcap, if_pos hcap]
    rfl
  · rw [if_neg hcap, if_neg hcap]
    cases decodeMany tree s.ibuf o.toNat (payloadReader h o s.inLen) { s.writer with outLen := 0 } <;> rfl

/-- How DECOMPRESS ends once the header and the tree stand in the state. -/
def payloadOutcome (s : State) : Host.Outcome State Fault Refusal :=
  finish drawDecompress s (decodePayload s s.hdrSize s.origSize s.tree)
    (fun (r, w) => { s with reader := r, writer := w })

/-- The payload bit by bit: `startPayload` leads to where the loop of R118 leads at once. -/
theorem startPayload_leadsTo {s : State} (hb : s.busy = true) (hs : s.schedule = []) :
    LeadsTo (startPayload s) (payloadOutcome s) := by
  unfold startPayload payloadOutcome decodePayload
  by_cases hcap : s.obufCap < s.origSize.toNat
  · rw [if_pos hcap, if_pos hcap]
    exact .refl _
  · rw [if_neg hcap, if_neg hcap]
    by_cases ho : s.origSize = 0
    · simp only [ho, if_true]
      exact .refl _
    · simp only [ho, if_false]
      obtain ⟨k, hk⟩ : ∃ k, s.origSize.toNat = k + 1 :=
        Nat.exists_eq_succ_of_ne_zero fun hz => ho (BitVec.eq_of_toNat_eq hz)
      obtain ⟨n, hn⟩ := run_decodeMany k
        (State.walking { s with
            reader := payloadReader s.hdrSize s.origSize s.inLen, writer := { s.writer with outLen := 0 } }
          .decompress { cur := s.tree.root, emitted := 0, dirty := true })
        { cur := s.tree.root, emitted := 0, dirty := true } hb hs rfl rfl rfl (by
          rw [Nat.zero_add]; exact hk)
      refine .of_run (hn.trans ?_)
      rw [hk]
      simp only [State.walking]
      cases hd : decodeMany s.tree s.ibuf (k + 1) (payloadReader s.hdrSize s.origSize s.inLen)
        { s.writer with outLen := 0 } with
      | error stop => exact payload_outcome (decodeMany_not_clean hd) s _ _ _ rfl rfl
      | ok r => rfl

/-- DECOMPRESS of a non-empty input whose tree is read is what it is from its payload on. -/
theorem exec_decompress_of_tree {s : State} {h o p : Word} {tree : Arena} (hl : ¬ s.inLenTooBig)
    (h0 : s.inLen ≠ 0) (hf : readHeaderFields s.ibuf s.inLen = .ok (h, o))
    (hd : desTree s.ibuf 8 h.toNat s.tree.nodes = .ok (tree, p)) :
    exec .decompress s = payloadOutcome (s.treeRead .decompress h o 8 h.toNat tree) := by
  have he : exec .decompress s = finish drawDecompress s (decompressInput s)
      (fun r => { s.withHeader r.header with reader := r.reader, writer := r.writer }) := by
    rw [exec, execDecompress, if_neg hl, if_neg h0]
  rw [he, decompressInput_of_tree hf hd]
  change _ = finish _ _ (decodePayload s h o tree) _
  cases hp : decodePayload s h o tree with
  | error stop => exact (treeRead_outcome (use := .decompress) (decodePayload_not_clean hp) tree nofun).symm
  | ok r => rfl

theorem decompress_leadsTo {s : State} (hb : s.busy = true) (hs : s.schedule = []) :
    LeadsTo (beginCommand .decompress s) (exec .decompress s) := by
  by_cases hl : s.inLenTooBig
  · rw [beginCommand, if_pos hl]
    exact .refl _
  by_cases h0 : s.inLen = 0
  · rw [beginCommand, if_neg hl, if_pos h0]
    exact .refl _
  rw [beginCommand, if_neg hl, if_neg h0, beginHeader]
  cases hf : readHeaderFields s.ibuf s.inLen with
  | error stop =>
    simp only [exec, execDecompress, hl, h0, decompressInput, readHeader, hf]
    exact .refl _
  | ok f =>
    obtain ⟨h, o⟩ := f
    cases hd : desTree s.ibuf 8 h.toNat s.tree.nodes with
    | error stop =>
      obtain ⟨n, hn⟩ := run_desTree_error (use := .decompress) (h := h) (o := o) hb hs nofun hd
      simp only [exec, execDecompress, hl, h0, decompressInput, readHeader, hf, hd]
      exact .of_run hn
    | ok r =>
      obtain ⟨tree, p⟩ := r
      obtain ⟨n, q, -, hn⟩ := run_desTree_ok (use := .decompress) (h := h) (o := o) hb hs hd
      rw [exec_decompress_of_tree hl h0 hf hd]
      refine .run_trans (n := n) ?_
      rw [hn]
      exact startPayload_leadsTo hb hs

/-- Settles O52: the four commands that stop at a token or a bit are led to their end by `run_desLoop`,
`run_walkLoop` and `run_decodeMany`; every other command begins as a whole. -/
theorem microStepsAgree : Obligations.MicroStepsAgree := by
  intro i s _ hs hb _
  change LeadsTo (beginCommand i s) (exec i s)
  cases i with
  | deserializeTree => exact deserializeTree_leadsTo hb hs
  | readHeader => exact readHeader_leadsTo hb hs
  | decompress => exact decompress_leadsTo hb hs
  | decodeSymbol => exact decodeSymbol_leadsTo hb hs
  | _ => exact .refl _

end Sys2Proof.Machine

/-! PROOF of the state's statements (R23 to R44): the life of a command and the code table under every step,
the register map at the port, the reset state, and the checks before any write. -/

namespace Sys2Proof.Machine

/-! ### The life of a command (R26) -/

/-- A move of the core ends the running command, or leaves STATUS as it is. -/
def CompletesOrRuns (s t : State) : Prop :=
  (∃ u e, t = State.complete u e) ∨ (t.busy = s.busy ∧ t.done = s.done ∧ t.err = s.err)

theorem CompletesOrRuns.complete (s u : State) (e : Err) : CompletesOrRuns s (u.complete e) :=
  .inl ⟨u, e, rfl⟩

theorem Ends.completes {i : Instr} {s t : State} (h : Ends i s t) : CompletesOrRuns s t := by
  cases h with
  | returns _ | clean _ | drawn _ => exact .complete _ _ _

theorem TreeEnds.completesOrRuns {use : DesUse} {p : Nat} {s t : State} (h : TreeEnds use p s t) :
    CompletesOrRuns s t := by
  cases h with
  | result _ | overflow _ | nothing _ => exact .complete _ _ _
  | payload _ _ => exact .inr ⟨rfl, rfl, rfl⟩

theorem TokenStep.completesOrRuns {i : Instr} {d : Des} {use : DesUse} {s t : State}
    (h : TokenStep i d use s t) : CompletesOrRuns s t := by
  cases h with
  | corrupt => exact .complete _ _ _
  | more _ => exact .inr ⟨rfl, rfl, rfl⟩
  | root _ ht => exact ht.completesOrRuns

theorem BitStep.completesOrRuns {v : Bool} {w : Walk} {use : WalkUse} {s t : State}
    (h : BitStep v w use s t) : CompletesOrRuns s t := by
  cases h with
  | symbol _ _ | last _ _ _ => exact .complete _ _ _
  | down _ | again _ _ _ => exact .inr ⟨rfl, rfl, rfl⟩

theorem CoreStep.completesOrRuns {s t : State} (h : CoreStep s t) : CompletesOrRuns s t := by
  cases h with
  | command _ hi he => exact (exec_ends hi he).completes
  | badCommand _ | badHeader _ | badToken _ | noBit _ => exact .complete _ _ _
  | beginTree _ | beginHeader _ _ _ | beginWalk _ _ => exact .inr ⟨rfl, rfl, rfl⟩
  | token _ _ ht => exact ht.completesOrRuns
  | bit _ _ ht => exact ht.completesOrRuns

/-- A completed command leaves BUSY = 0 and no command that the core stands in (R139). -/
theorem State.complete_statusInv (s : State) (e : Err) : (s.complete e).StatusInv :=
  ⟨nofun, nofun⟩

theorem State.StatusInv.hostOp {s : State} (h : s.StatusInv) (op : HostOp) : (s.hostOp op).StatusInv := by
  rcases hostOp_status (s := s) op with ⟨hb, hd, he, ha⟩ | ⟨-, hb, hd, he, ha⟩
  · rw [State.StatusInv, hb, hd, he, ha]
    exact h
  · exact ⟨fun _ => ⟨hd, he⟩, fun _ => hb⟩

theorem State.StatusInv.coreStep {s t : State} (h : s.StatusInv) (hb : s.busy = true) (ht : CoreStep s t) :
    t.StatusInv := by
  rcases ht.completesOrRuns with ⟨u, e, rfl⟩ | ⟨hb', hd, he⟩
  · exact u.complete_statusInv e
  · rw [State.StatusInv, hb', hd, he]
    exact ⟨h.1, fun _ => hb⟩

/-- Settles O19: the host can only start a command (`hostOp_status`), and the core's move ends it or leaves
STATUS (`CoreStep.completesOrRuns`). -/
theorem statusInvariant : Obligations.StatusInvariant := fun _ _ =>
  step_kept (fun _ _ h => h) (fun _ op h => h.hostOp op) (fun _ _ => ⟨nofun, nofun⟩)
    (fun _ _ h hb ht => h.coreStep hb ht)

/-! ### The code table (R37, R38) -/

/-- What any step does to the code table: it stays, it becomes invalid, or it is a table BUILD_CODES made. -/
def CodesKept (s t : State) : Prop :=
  t.codes = s.codes ∨ t.codes.valid = false ∨ t.codes.WellFormed

theorem CodesKept.refl {s t : State} (h : t.codes = s.codes) : CodesKept s t := .inl h

theorem CodesKept.invalid {s t : State} (h : t.codes.valid = false) : CodesKept s t := .inr (.inl h)

theorem CodesKept.wellFormed {s t : State} (h : CodesKept s t)
    (hs : s.codes.valid = true → s.codes.WellFormed) : t.codes.valid = true → t.codes.WellFormed := by
  rcases h with h | h | h
  · rwa [h]
  · intro hv
    rw [h] at hv
    cases hv
  · exact fun _ => h

theorem Returns.codesKept {i : Instr} {s u : State} (h : Returns i s u) : CodesKept s u := by
  cases i with
  | compress =>
    rcases h with ⟨-, rfl⟩ | ⟨_, c, -, -, hc, rfl⟩
    · exact .invalid rfl
    · obtain ⟨_, hcodes, -⟩ := compressInput_codes hc
      exact .inr (.inr (buildCodes_wellFormed hcodes))
  | buildCodes =>
    obtain ⟨_, _, -, -, hcodes, rfl⟩ := h
    exact .inr (.inr (buildCodes_wellFormed hcodes))
  | decompress => rcases h with ⟨-, rfl⟩ | ⟨_, -, -, -, rfl⟩ <;> exact .invalid rfl
  | buildTree => cases h; exact .invalid rfl
  | deserializeTree => obtain ⟨_, _, -, -, rfl⟩ := h; exact .invalid rfl
  | readHeader => obtain ⟨_, -, -, rfl⟩ := h; exact .invalid rfl
  | nop | bwReset => cases h; exact .refl rfl
  | countFreq | writeBit | bwFinish => obtain ⟨_, -, rfl⟩ := h; exact .refl rfl
  | serializeTree => obtain ⟨_, _, -, -, -, -, rfl⟩ := h; exact .refl rfl
  | writeHeader => obtain ⟨_, _, -, -, -, rfl⟩ := h; exact .refl rfl
  | writeCode | encodeByte => obtain ⟨_, -, -, rfl⟩ := h; exact .refl rfl
  | brInit => obtain ⟨-, rfl⟩ := h; exact .refl rfl
  | readBit => obtain ⟨_, _, -, rfl⟩ := h; exact .refl rfl
  | decodeSymbol => obtain ⟨_, _, -, -, rfl⟩ := h; exact .refl rfl
  | treeInternal | treeLeaf _ | payloadBitLeft | payloadBitRight => cases h

/-- What an error draws leaves no valid table that was not there before. -/
theorem drawOf_codesKept (i : Instr) (s : State) : CodesKept s (drawOf i s) :=
  (drawOf_tables i s).2.1.imp_right .inl

theorem desUse_draw_codesKept (use : DesUse) (s : State) : CodesKept s (use.draw s) := by
  rw [desUse_draw]
  exact drawOf_codesKept _ s

theorem walkUse_draw_codesKept (use : WalkUse) (s : State) : CodesKept s (use.draw s) := by
  rw [walkUse_draw]
  exact drawOf_codesKept _ s

theorem Ends.codesKept {i : Instr} {s t : State} (h : Ends i s t) : CodesKept s t := by
  cases h with
  | returns hu => exact hu.codesKept
  | clean _ => exact .refl rfl
  | drawn _ => exact drawOf_codesKept i s

theorem TreeEnds.codesKept {use : DesUse} {p : Nat} {s t : State} (h : TreeEnds use p s t) :
    CodesKept s t := by
  cases h with
  | overflow _ => exact .invalid rfl
  | result _ | nothing _ | payload _ _ => exact .refl rfl

theorem TokenStep.codesKept {i : Instr} {d : Des} {use : DesUse} {s t : State}
    (h : TokenStep i d use s t) : CodesKept s t := by
  cases h with
  | corrupt => exact desUse_draw_codesKept use s
  | more _ => exact .refl rfl
  | root _ ht => exact ht.codesKept

theorem BitStep.codes_eq {v : Bool} {w : Walk} {use : WalkUse} {s t : State} (h : BitStep v w use s t) :
    t.codes = s.codes := by
  cases h with
  | down _ | symbol _ _ | again _ _ _ | last _ _ _ => rfl

theorem CoreStep.codesKept {s t : State} (h : CoreStep s t) : CodesKept s t := by
  cases h with
  | command _ hi he => exact (exec_ends hi he).codesKept
  | badCommand _ | beginWalk _ _ => exact .refl rfl
  | beginTree _ | beginHeader _ _ _ => exact .invalid rfl
  | badHeader _ | badToken _ => exact desUse_draw_codesKept _ s
  | token _ _ ht => exact ht.codesKept
  | @noBit w use _ =>
    cases hd : w.dirty with
    | false => exact .refl rfl
    | true => exact walkUse_draw_codesKept use s
  | bit _ _ ht => exact .refl ht.codes_eq

/-- Settles O21: every valid table is one that `buildCodes_wellFormed` speaks of, and nothing but a whole
COMPRESS or BUILD_CODES makes one valid (`CoreStep.codesKept`). -/
theorem codeTableInvariant : Obligations.CodeTableInvariant := fun _ _ =>
  step_kept (P := fun s => s.codes.valid = true → s.codes.WellFormed) (fun _ _ h => h)
    (fun s op h => (CodesKept.refl (host_tables s op).2.1).wellFormed h) (fun _ _ => nofun)
    (fun _ _ h _ ht => ht.codesKept.wellFormed h)

/-! ### The register map at the port (R23) -/

/-- Every register stands at its offset. -/
theorem regAt_offset (r : Reg) : regAt (BitVec.ofNat 32 r.offset) = some r := by
  cases r with
  | freq b => exact regAt_freq b
  | codeVal b => exact regAt_codeVal b
  | codeLen b => exact regAt_codeLen b
  | node i => exact regAt_node i
  | _ => rfl

/-- What stands in the windows of CODE_VAL, CODE_LEN and NODE is an entry of one of them. -/
theorem regAt_window {off : Word} {r : Reg} (hlo : 0x800 ≤ off.toNat) (h : regAt off = some r) :
    (∃ b, r = .codeVal b) ∨ (∃ b, r = .codeLen b) ∨ ∃ i, r = .node i := by
  unfold regAt at h
  simp only at h
  split at h
  · cases h
  rw [if_neg (by omega), if_neg (by omega)] at h
  split at h
  · cases h
    exact .inl ⟨_, rfl⟩
  split at h
  · cases h
    exact .inr (.inl ⟨_, rfl⟩)
  split at h
  · cases h
    exact .inr (.inr ⟨_, rfl⟩)
  · cases h

/-- The registers that a host write leaves (R56). -/
def Reg.readOnly : Reg → Bool
  | .cmd | .inLen | .outLen | .arg0 | .arg1 | .freq _ => false
  | _ => true

theorem State.regStore_readOnly (s : State) {r : Reg} (h : r.readOnly = true) (v : Word) :
    s.regStore r v = s := by
  cases r with
  | cmd | inLen | outLen | arg0 | arg1 | freq _ => cases h
  | _ => rfl

/-- A host write of a register other than CMD stores while BUSY = 0 and is ignored while BUSY = 1 (R58). -/
theorem State.regWrite_register (s : State) {off : Word} {r : Reg} (v : Word) (h : regAt off = some r)
    (hr : r ≠ .cmd) : s.regWrite off v = if s.busy then s else s.regStore r v := by
  unfold State.regWrite
  rw [h]
  cases r with
  | cmd => exact absurd rfl hr
  | _ => rfl

theorem State.regWrite_readOnly (s : State) {off : Word} {r : Reg} (v : Word) (h : regAt off = some r)
    (hr : r.readOnly = true) : s.regWrite off v = s := by
  rw [s.regWrite_register v h (by rintro rfl; cases hr), s.regStore_readOnly hr, ite_self]

theorem State.regWrite_window (s : State) {off : Word} (v : Word) (hlo : 0x800 ≤ off.toNat) :
    s.regWrite off v = s := by
  cases hr : regAt off with
  | none => rw [State.regWrite, hr]
  | some r =>
    have hro : r.readOnly = true := by
      rcases regAt_window hlo hr with ⟨_, rfl⟩ | ⟨_, rfl⟩ | ⟨_, rfl⟩ <;> rfl
    exact s.regWrite_readOnly v hr hro

/-- While BUSY = 0 a register reads its value at its offset (R23). -/
theorem State.regRead_offset {s : State} (hb : s.busy = false) (r : Reg) {v : Word}
    (hv : s.regValue r = some v) : s.regRead (BitVec.ofNat 32 r.offset) = v :=
  State.regRead_idle hb (regAt_offset r) hv

/-- The control registers read their contents at their offsets (R24 to R35). -/
theorem State.regRead_control {s : State} (hb : s.busy = false) :
    s.regRead 0x000 = 0x48554646 ∧ s.regRead 0x004 = s.cmd ∧ s.regRead 0x008 = s.statusWord ∧
      s.regRead 0x00C = s.inLen ∧ s.regRead 0x010 = s.writer.outLen ∧ s.regRead 0x014 = s.arg0 ∧
      s.regRead 0x018 = s.arg1 ∧ s.regRead 0x01C = s.result ∧ s.regRead 0x020 = s.hdrSize ∧
      s.regRead 0x024 = s.origSize ∧ s.regRead 0x028 = s.writer.word ∧ s.regRead 0x02C = s.reader.pos ∧
      s.regRead 0x030 = s.reader.bit.setWidth 32 ∧ s.regRead 0x034 = s.reader.limit ∧
      s.regRead 0x038 = treeInfoWord s.tree s.codes.valid ∧ s.regRead 0x03C = s.cfg.ibufBytes ∧
      s.regRead 0x040 = s.cfg.obufBytes :=
  have read (r : Reg) {v : Word} (hv : s.regValue r = some v) := State.regRead_offset hb r hv
  ⟨read .id rfl, read .cmd rfl, read .status rfl, read .inLen rfl, read .outLen rfl, read .arg0 rfl,
    read .arg1 rfl, read .result rfl, read .hdrSize rfl, read .origSize rfl, read .bwState rfl,
    read .brPos rfl, read .brBit rfl, read .brEnd rfl, read .treeInfo rfl, read .paramIbuf rfl,
    read .paramObuf rfl⟩

/-- BR_BIT[2:0] of the word BR_BIT reads as (R33). -/
theorem brBit_field (x : BitVec 3) : (x.setWidth 32).extractLsb' 0 3 = x := by
  rw [← BitVec.setWidth_eq_extractLsb' (by decide), BitVec.setWidth_setWidth_of_le _ (by decide),
    BitVec.setWidth_eq]

/-- The twelve read-only registers below the tables ignore writes (R56). -/
theorem State.regWrite_control_readOnly (s : State) (v : Word) :
    ∀ off ∈ ([0x000, 0x008, 0x01C, 0x020, 0x024, 0x028, 0x02C, 0x030, 0x034, 0x038, 0x03C, 0x040] : List Word),
      s.regWrite off v = s := by
  have ignored (r : Reg) (hr : r.readOnly = true) : s.regWrite (BitVec.ofNat 32 r.offset) v = s :=
    s.regWrite_readOnly v (regAt_offset r) hr
  simp only [List.forall_mem_cons]
  exact ⟨ignored .id rfl, ignored .status rfl, ignored .result rfl, ignored .hdrSize rfl,
    ignored .origSize rfl, ignored .bwState rfl, ignored .brPos rfl, ignored .brBit rfl, ignored .brEnd rfl,
    ignored .treeInfo rfl, ignored .paramIbuf rfl, ignored .paramObuf rfl, nofun⟩

/-- CODE_VAL and CODE_LEN read their entries while they hold any (R37, R38, R125). -/
theorem State.regRead_codes {s : State} (hb : s.busy = false)
    (h : s.codes.valid = true ∨ s.codes.drawn = true) (b : Byte) :
    s.regRead (BitVec.ofNat 32 (0x800 + 4 * b.toNat)) = s.codes.val[b.toNat]'b.isLt ∧
      s.regRead (BitVec.ofNat 32 (0xC00 + 4 * b.toNat)) = (s.codes.len[b.toNat]'b.isLt).setWidth 32 := by
  have hholds : (s.codes.valid || s.codes.drawn) = true := Bool.or_eq_true_iff.2 h
  exact ⟨State.regRead_offset hb (.codeVal b) (if_pos hholds),
    State.regRead_offset hb (.codeLen b) (if_pos hholds)⟩

/-- NODE reads its entries below NODE_COUNT, and each one that holds the draw of an error (R39, R125). -/
theorem State.regRead_node {s : State} (hb : s.busy = false) (i : Fin nodeMax)
    (h : (s.tree.valid = true ∧ i.val < s.tree.count.toNat) ∨ s.tree.drawn = true) :
    s.regRead (BitVec.ofNat 32 (0x1000 + 4 * i.val)) = (s.tree.nodes[i.val]).word := by
  refine State.regRead_offset hb (.node i) (if_pos ?_)
  simp only [Bool.or_eq_true, Bool.and_eq_true, decide_eq_true_iff]
  exact h.symm

/-- Settles O9: `State.regRead_control` and the two tables' reads, with the fields of the packed words; no
write reaches a register that `Reg.readOnly` names. -/
theorem registerMap : Obligations.RegisterMap := by
  intro s hb
  obtain ⟨hid, hcmd, hstatus, hinLen, houtLen, harg0, harg1, hresult, hhdr, horig, hbw, hpos, hbit, hend,
    hinfo, hibuf, hobuf⟩ := State.regRead_control hb
  obtain ⟨hbusy, hdone, hdropped, herr⟩ := s.statusWord_fields
  obtain ⟨hacc, hcnt, -⟩ := s.writer.word_fields
  obtain ⟨htree, hcodes⟩ := treeInfo_flags s.tree s.codes.valid
  refine ⟨?_, fun b => State.regRead_offset hb (.freq b) rfl,
    fun off hoff v => s.regWrite_control_readOnly v off hoff, fun off v hlo _ => s.regWrite_window v hlo,
    State.regRead_codes hb, fun i hi => ?_⟩
  · rw [hstatus, hbw, hbit, hinfo]
    exact ⟨hid, hcmd, hbusy, hdone, hdropped, herr, hinLen, houtLen, harg0, harg1, hresult, hhdr, horig, hacc,
      hcnt, hpos, brBit_field _, hend, htree, hcodes, treeInfo_count _ _, treeInfo_root _ _, hibuf, hobuf⟩
  · rw [State.regRead_node hb i hi]
    exact ⟨Node.word_symbol _, Node.word_left _, Node.word_right _, Node.word_isLeaf _⟩

/-! ### Reserved fields (R23, R56) -/

/-- `State.regRead_reserved` at a register's own offset. -/
theorem State.regRead_offset_reserved (s : State) (r : Reg) {m : Word} (hm : r.fieldMask &&& m = 0)
    (hv : ∀ v, s.regValue r = some v → v &&& m = 0) :
    s.regRead (BitVec.ofNat 32 r.offset) &&& m = 0 :=
  State.regRead_reserved (regAt_offset r) hm hv

/-- CODE_LEN reads nothing but a 6-bit length (R38). -/
theorem State.regValue_codeLen_reserved {s : State} {b : Byte} {v : Word}
    (h : s.regValue (.codeLen b) = some v) : v &&& 0xFFFFFFC0 = 0 := by
  simp only [State.regValue] at h
  split at h
  · cases h
    exact codeLen_reserved _
  · cases h

/-- NODE reads nothing but a node's word (R39). -/
theorem State.regValue_node_reserved {s : State} {i : Fin nodeMax} {v : Word}
    (h : s.regValue (.node i) = some v) : v &&& 0x7C000000 = 0 := by
  simp only [State.regValue] at h
  split at h
  · cases h
    exact Node.word_and_reserved _
  · cases h

/-- Settles O10: a read is a draw cut to the register's fields or the register's value
(`State.regRead_cases`), and each value has 0 in the reserved bits. -/
theorem reservedFieldsReadZero : Obligations.ReservedFieldsReadZero := by
  intro s
  have hlen : (0x0000003F : Word) &&& 0xFFFFFFC0 = 0 := by decide
  have hnode : (0x83FFFFFF : Word) &&& 0x7C000000 = 0 := by decide
  refine ⟨s.regRead_offset_reserved .status (by decide) ?_, s.regRead_offset_reserved .bwState (by decide) ?_,
    s.regRead_offset_reserved .brBit (by decide) ?_, s.regRead_offset_reserved .treeInfo (by decide) ?_,
    fun b => s.regRead_offset_reserved (.codeLen b) hlen fun _ => State.regValue_codeLen_reserved,
    fun i => s.regRead_offset_reserved (.node i) hnode fun _ => State.regValue_node_reserved⟩
  · rintro _ ⟨⟩
    exact s.statusWord_reserved
  · rintro _ ⟨⟩
    exact s.writer.word_reserved
  · rintro _ ⟨⟩
    exact brBit_reserved _
  · rintro _ ⟨⟩
    exact treeInfo_word_reserved _ _

/-! ### Host writes (R27 to R29, R36) -/

/-- A host write of any offset but CMD's does not depend on the events to come, and leaves them. -/
theorem State.regWrite_schedule (s : State) (l : List Move) {off : Word} (hoff : off ≠ 0x004) (v : Word) :
    { s with schedule := l }.regWrite off v = { s.regWrite off v with schedule := l } := by
  cases hr : regAt off with
  | none => simp only [State.regWrite, hr]
  | some r =>
    have hcmd : r ≠ .cmd := by
      rintro rfl
      exact hoff (offset_of_regAt_cmd hr)
    rw [State.regWrite_register _ v hr hcmd, State.regWrite_register _ v hr hcmd, State.regStore_schedule]
    split <;> rfl

/-- A write at a register's offset while BUSY = 0 is its store (R23). -/
theorem State.regWrite_offset {s : State} (hb : s.busy = false) (r : Reg) (hr : r ≠ .cmd) (v : Word) :
    s.regWrite (BitVec.ofNat 32 r.offset) v = s.regStore r v := by
  rw [s.regWrite_register v (regAt_offset r) hr, hb, if_neg Bool.false_ne_true]

/-- Settles O12: the step takes the event from the schedule, which no such write reads
(`State.regWrite_schedule`), and at each register's offset the write is its store. -/
theorem writableRegisters : Obligations.WritableRegisters := by
  intro s v hb
  refine ⟨fun off rest hoff hs => ?_, State.regWrite_offset hb .inLen nofun v,
    State.regWrite_offset hb .outLen nofun v, State.regWrite_offset hb .arg0 nofun v,
    State.regWrite_offset hb .arg1 nofun v, fun b => State.regWrite_offset hb (.freq b) nofun v⟩
  rw [step, hs]
  exact congrArg Host.Outcome.next (s.regWrite_schedule rest hoff v)

/-! ### The reset state (R44) -/

theorem reset_atReset : State.reset.AtReset :=
  ⟨rfl, rfl, rfl, rfl, rfl, rfl, rfl, rfl, rfl, rfl, rfl, rfl, rfl, rfl, rfl, rfl, rfl, rfl, rfl, rfl, rfl,
    fun b => Vector.getElem_replicate b.isLt, Memory.get_nil, Memory.get_nil, rfl, rfl⟩

theorem reset_arenaInv : State.reset.ArenaInv := ⟨nofun, nofun, nofun, nofun⟩

theorem reset_statusInv : State.reset.StatusInv := ⟨nofun, nofun⟩

theorem reset_bufferInv : State.reset.BufferInv := ⟨rfl, rfl, nofun, nofun, .nil, nofun⟩

/-- Settles O17: the flags are 0, the buffers empty and no command runs, so that each invariant's premises
fail. -/
theorem resetInvariants : Obligations.ResetInvariants :=
  ⟨reset_atReset, reset_arenaInv, reset_statusInv, reset_bufferInv, rfl, rfl, nofun⟩

/-! ### The checks before any write (R125, case 1) -/

/-- The commands over an IBUF range check IN_LEN first (R27). -/
theorem exec_inLenTooBig {s : State} (h : s.cfg.ibufBytes.toNat < s.inLen.toNat) {i : Instr}
    (hi : i ∈ [Instr.countFreq, .compress, .decompress, .deserializeTree, .readHeader, .brInit]) :
    exec i s = .next (s.complete .badOperand) := by
  have hbig : s.inLenTooBig = true := decide_eq_true h
  have hinput : readInput s = .error (.raise .badOperand false) := if_pos hbig
  simp only [List.mem_cons, List.not_mem_nil, or_false] at hi
  rcases hi with rfl | rfl | rfl | rfl | rfl | rfl
  · rw [exec, execCountFreq, hinput]; rfl
  · rw [exec, execCompress, hinput]; rfl
  · rw [exec, execDecompress, if_pos hbig]; rfl
  · rw [exec, execDeserializeTree, if_pos hbig]; rfl
  · rw [exec, execReadHeader, if_pos hbig]; rfl
  · rw [exec, execBrInit, if_pos hbig]; rfl

/-- The commands that need a tree check TREE_VALID first (R88, R96, R98, R117). -/
theorem exec_treeInvalid {s : State} (h : s.tree.valid = false) {i : Instr}
    (hi : i ∈ [Instr.buildCodes, .serializeTree, .writeHeader, .decodeSymbol]) :
    exec i s = .next (s.complete .badState) := by
  simp only [List.mem_cons, List.not_mem_nil, or_false] at hi
  rcases hi with rfl | rfl | rfl | rfl
  · rw [exec, execBuildCodes, h]; rfl
  · rw [exec, execSerializeTree, h]; rfl
  · rw [exec, execWriteHeader, h]; rfl
  · rw [exec, execDecodeSymbol, h]; rfl

/-- SERIALIZE_TREE refuses a partial writer byte (R96). -/
theorem exec_serializeTree_partial {s : State} (h : s.writer.cnt ≠ 0) :
    exec .serializeTree s = .next (s.complete .badState) := by
  have hcheck : ¬((s.tree.valid && s.writer.cnt == 0) = true) := fun hc =>
    h (beq_iff_eq.1 (Bool.and_eq_true_iff.1 hc).2)
  rw [exec, execSerializeTree, if_neg hcheck]
  rfl

/-- ENCODE_BYTE refuses a symbol without a code (R113). -/
theorem exec_encodeByte_noCode {s : State}
    (h : s.codes.valid = false ∨ (s.codes.entry (symbolArg s.arg0)).2 = 0) :
    exec .encodeByte s = .next (s.complete .badState) := by
  have hcheck : ¬((s.codes.valid &&
      s.codes.len[(symbolArg s.arg0).toNat]'(symbolArg s.arg0).isLt != 0) = true) := by
    rcases h with h | h
    · simp [h]
    · simp [show s.codes.len[(symbolArg s.arg0).toNat]'(symbolArg s.arg0).isLt = 0 from h]
  rw [exec, execEncodeByte, if_neg hcheck]
  rfl

/-- Settles O30: one lemma for each check. -/
theorem firstChecks : Obligations.FirstChecks := fun _ =>
  ⟨fun h _ hi => exec_inLenTooBig h hi, fun h _ hi => exec_treeInvalid h hi, exec_serializeTree_partial,
    exec_encodeByte_noCode⟩

end Sys2Proof.Machine

/-! PROOF of the memory statements (R45 to R61): the byte operations and the offsets of the port, its reads
while BUSY is 0 and 1, the one fault, and the buffers under every step. -/

namespace Sys2Proof.Machine

/-! ### A host event (R46) -/

/-- No read of a register depends on the events to come. -/
theorem State.regRead_schedule (s : State) (l : List Move) (off : Word) :
    { s with schedule := l }.regRead off = s.regRead off :=
  s.regRead_port l s.answer off

/-- At offset 0x004 stands CMD (R25). -/
theorem State.regWrite_cmd (s : State) (v : Word) : s.regWrite 0x004 v = s.cmdWrite v := rfl

/-- The port does not look at the events to come, and leaves them. -/
theorem State.hostOp_schedule (s : State) (l : List Move) (op : HostOp) :
    { s with schedule := l }.hostOp op = { s.hostOp op with schedule := l } := by
  cases op with
  | regRead off => rw [State.hostOp, State.regRead_schedule]; rfl
  | regWrite off v =>
    by_cases hoff : off = 0x004
    · subst hoff
      simp only [State.hostOp, State.regWrite_cmd, State.cmdWrite]
      split <;> rfl
    · exact s.regWrite_schedule l hoff v
  | ibufWrite a b =>
    simp only [State.hostOp, State.ibufWrite]
    split <;> rfl
  | ibufRead a | obufRead a | obufWrite a b => rfl

/-- The step of a host event is the port's operation. -/
theorem step_host {s : State} {op : HostOp} {rest : List Move} (h : s.schedule = .host op :: rest) :
    step s = .next { s.hostOp op with schedule := rest } := by
  rw [step, h]
  exact congrArg Host.Outcome.next (s.hostOp_schedule rest op)

/-- While BUSY = 1 an answered read changes the answer and the number of the next draw (R58). -/
theorem State.answerWith_busy {s : State} (h : s.busy = true) (v : Answer) :
    s.answerWith v = { s with answer := some v, draws := s.draws + 1 } := by
  rw [State.answerWith, if_pos h]

/-- Nothing stands at the offset, so nothing is stored (R55, R56). -/
theorem State.regWrite_none (s : State) {off : Word} (h : regAt off = none) (v : Word) :
    s.regWrite off v = s := by
  rw [State.regWrite, h]

/-- Nothing stands at the offset, so 0 is read (R55, R56). -/
theorem State.regRead_none (s : State) {off : Word} (h : regAt off = none) : s.regRead off = 0 := by
  rw [State.regRead, h]

/-- While BUSY = 1 a host write of any offset but CMD's is ignored (R58). -/
theorem State.regWrite_busy {s : State} (hb : s.busy = true) {off : Word} (hoff : off ≠ 0x004) (v : Word) :
    s.regWrite off v = s := by
  cases hr : regAt off with
  | none => exact s.regWrite_none hr v
  | some r =>
    have hcmd : r ≠ .cmd := by
      rintro rfl
      exact hoff (offset_of_regAt_cmd hr)
    rw [s.regWrite_register v hr hcmd, if_pos hb]

/-- While BUSY = 1 a host write of IBUF is ignored (R58). -/
theorem State.ibufWrite_busy {s : State} (hb : s.busy = true) (a : Word) (b : Byte) :
    s.ibufWrite a b = s := by
  rw [State.ibufWrite, hb, Bool.not_true, Bool.and_false, if_neg Bool.false_ne_true]

/-- A host write of IBUF while BUSY = 0 is a write of the list of bytes (R46). -/
theorem State.ibufWrite_idle {s : State} (hb : s.busy = false) {a : Word}
    (ha : a.toNat < s.cfg.ibufBytes.toNat) (b : Byte) :
    s.ibufWrite a b = { s with ibuf := s.ibuf.set a.toNat b } := by
  have hc : (decide (a.toNat < s.cfg.ibufBytes.toNat) && !s.busy) = true := by simp [ha, hb]
  rw [State.ibufWrite, if_pos hc]

/-- IBUF ends at IBUF_BYTES: nothing is written from there up (R45, R46). -/
theorem State.ibufWrite_beyond (s : State) {a : Word} (ha : s.cfg.ibufBytes.toNat ≤ a.toNat) (b : Byte) :
    s.ibufWrite a b = s := by
  rw [State.ibufWrite, decide_eq_false (Nat.not_lt.2 ha), Bool.false_and, if_neg Bool.false_ne_true]

/-- A written byte of IBUF reads its value, whatever BUSY is (R46). -/
theorem State.ibufRead_written {s : State} {a : Word} {b : Byte} (ha : a.toNat < s.cfg.ibufBytes.toNat)
    (h : s.ibuf.get a.toNat = some b) : s.ibufRead a = b := by
  rw [State.ibufRead, if_pos ha, h]

theorem State.ibufRead_beyond (s : State) {a : Word} (ha : s.cfg.ibufBytes.toNat ≤ a.toNat) :
    s.ibufRead a = 0 :=
  if_neg (Nat.not_lt.2 ha)

/-- What IBUF reads at an address depends on the byte there and on the draws. -/
theorem State.ibufRead_congr {s t : State} {a : Word} (hcfg : t.cfg = s.cfg) (hdraws : t.draws = s.draws)
    (h : t.ibuf.get a.toNat = s.ibuf.get a.toNat) : t.ibufRead a = s.ibufRead a := by
  simp only [State.ibufRead, hcfg, hdraws, h]

/-- While BUSY = 0 an OBUF address reads the byte it holds (R46, R61). -/
theorem State.obufRead_held {s : State} (hb : s.busy = false) {a : Word} {b : Byte}
    (ha : a.toNat < s.cfg.obufBytes.toNat) (h : s.obufByte a.toNat = some b) : s.obufRead a = b := by
  have hcap : a.toNat < s.obufCap := ha
  rw [State.obufRead, hb, if_neg Bool.false_ne_true, if_pos hcap, h]

theorem State.obufRead_beyond {s : State} (hb : s.busy = false) {a : Word}
    (ha : s.cfg.obufBytes.toNat ≤ a.toNat) : s.obufRead a = 0 := by
  rw [State.obufRead, hb, if_neg Bool.false_ne_true]
  exact if_neg (Nat.not_lt.2 ha)

/-! ### Offsets without a register (R55, R56) -/

/-- Settles O8: no register stands at such an offset (`regAt_unmapped`). -/
theorem unmappedOffsets : Obligations.UnmappedOffsets := fun s _ v h =>
  ⟨s.regRead_none (regAt_unmapped h), s.regWrite_none (regAt_unmapped h) v⟩

/-! ### The port while BUSY = 1 (R58, R146) -/

/-- While BUSY = 1 the registers that no command writes read their values at their offsets (R58). -/
theorem State.regRead_stable_offset (s : State) (r : Reg) (hr : r.stable = true) {v : Word}
    (hv : s.regValue r = some v) : s.regRead (BitVec.ofNat 32 r.offset) = v :=
  State.regRead_stable hr (regAt_offset r) hv

/-- Settles O7: writes of registers and of IBUF are ignored (`State.regWrite_busy`,
`State.ibufWrite_busy`), a read is answered, and the stable registers read their values. -/
theorem busyPort : Obligations.BusyPort := by
  intro s hb
  obtain ⟨hbusy, hdone, hdropped, herr⟩ := s.statusWord_fields
  have hstatus : s.regRead 0x008 = s.statusWord := s.regRead_stable_offset .status rfl rfl
  refine ⟨fun rest off v hoff hs => ?_, fun rest a b hs => ?_, fun rest off hs => ?_, fun rest a hs => ?_,
    fun rest a hs => ?_, s.regRead_stable_offset .id rfl rfl, s.regRead_stable_offset .cmd rfl rfl,
    by rw [hstatus, hbusy, hb], by rw [hstatus, hdone], by rw [hstatus, hdropped], by rw [hstatus, herr],
    s.regRead_stable_offset .inLen rfl rfl, s.regRead_stable_offset .arg0 rfl rfl,
    s.regRead_stable_offset .arg1 rfl rfl, s.regRead_stable_offset .paramIbuf rfl rfl,
    s.regRead_stable_offset .paramObuf rfl rfl, fun a b ha h => State.ibufRead_written ha h,
    fun a ha => s.ibufRead_beyond ha⟩
  · rw [step_host hs, State.hostOp, State.regWrite_busy hb hoff]
  · rcases hs with hs | hs
    · rw [step_host hs, State.hostOp, State.ibufWrite_busy hb]
    · exact step_host hs
  · rw [step_host hs, State.hostOp, State.answerWith_busy hb]
  · rw [step_host hs, State.hostOp, State.answerWith_busy hb]
  · rw [step_host hs, State.hostOp, State.answerWith_busy hb]

/-! ### Reads while BUSY = 0 (R57) -/

/-- While BUSY = 0 the step of a read changes nothing but the port's last answer (R57). -/
theorem step_read_idle {s : State} {op : HostOp} {rest : List Move} {v : Answer} (hb : s.busy = false)
    (hop : s.hostOp op = s.answerWith v) (hs : s.schedule = .host op :: rest) :
    step s = .next { s with answer := some v, schedule := rest } := by
  rw [step_host hs, hop, State.answerWith_idle hb]

/-- While BUSY = 0 the answer to one read is no part of what another one reads (R57). -/
theorem State.regRead_answered {s : State} (hb : s.busy = false) (v : Answer) (off : Word) :
    (s.answerWith v).regRead off = s.regRead off := by
  rw [State.answerWith_idle hb]
  exact s.regRead_port s.schedule (some v) off

theorem State.ibufRead_answered {s : State} (hb : s.busy = false) (v : Answer) (a : Word) :
    (s.answerWith v).ibufRead a = s.ibufRead a := by
  rw [State.answerWith_idle hb]
  exact s.ibufRead_port s.schedule (some v) a

theorem State.obufRead_answered {s : State} (hb : s.busy = false) (v : Answer) (a : Word) :
    (s.answerWith v).obufRead a = s.obufRead a := by
  rw [State.answerWith_idle hb]
  exact s.obufRead_port s.schedule (some v) a

/-- While BUSY = 0 the same answer given again leaves nothing new (R57). -/
theorem State.answerWith_again {s : State} (hb : s.busy = false) (v : Answer) :
    (s.answerWith v).answerWith v = s.answerWith v := by
  simp only [State.answerWith, hb]
  rfl

/-- While BUSY = 0 an operation of the port that writes nothing does nothing more when made again (R57). -/
theorem State.hostOp_again {s : State} (hb : s.busy = false) (op : HostOp)
    (hreg : ∀ off v, op ≠ .regWrite off v) (hibuf : ∀ a b, op ≠ .ibufWrite a b) :
    (s.hostOp op).hostOp op = s.hostOp op := by
  cases op with
  | regWrite off v => exact absurd rfl (hreg off v)
  | ibufWrite a b => exact absurd rfl (hibuf a b)
  | obufWrite a b => rfl
  | regRead off => rw [State.hostOp, State.hostOp, State.regRead_answered hb, State.answerWith_again hb]
  | ibufRead a => rw [State.hostOp, State.hostOp, State.ibufRead_answered hb, State.answerWith_again hb]
  | obufRead a => rw [State.hostOp, State.hostOp, State.obufRead_answered hb, State.answerWith_again hb]

/-- An operation of the port that would change nothing is a step that changes nothing. -/
theorem step_host_unchanged {t : State} {op : HostOp} (h : t.hostOp op = t) (again : List Move) :
    step { t with schedule := .host op :: again } = .next { t with schedule := again } := by
  rw [step_host rfl, State.hostOp_schedule, h]

/-- Settles O11: one lemma for the step of each read, and `State.hostOp_again` for the second time. -/
theorem readsHaveNoSideEffect : Obligations.ReadsHaveNoSideEffect := by
  intro s rest hb
  refine ⟨fun _ => step_read_idle hb rfl, fun _ => step_read_idle hb rfl, fun _ => step_read_idle hb rfl,
    fun _ _ => step_host, fun op hreg hibuf hs => ⟨_, step_host hs, step_host_unchanged ?_⟩⟩
  rw [State.hostOp_schedule, State.hostOp_again hb op hreg hibuf]

/-! ### The byte operations (R46) -/

/-- Settles O13: the bytes of IBUF are a list in canonical form, of which one is written
(`Memory.get_set_same`, `Memory.get_set_other`), and OBUF reads what its address holds. -/
theorem bufferPort : Obligations.BufferPort := by
  intro s a b hb hwf
  refine ⟨fun _ => step_host, fun ha => ?_, fun ha => ⟨s.ibufRead_beyond ha, s.ibufWrite_beyond ha b⟩,
    State.obufRead_held hb, State.obufRead_beyond hb, rfl⟩
  rw [State.ibufWrite_idle hb ha]
  refine ⟨State.ibufRead_written ha (Memory.get_set_same hwf _ _), rfl, fun c hc => ?_⟩
  have hne : c.toNat ≠ a.toNat := fun h => hc (BitVec.eq_of_toNat_eq h)
  exact State.ibufRead_congr rfl rfl (Memory.get_set_other hwf b hne)

/-! ### The one fault (R51) -/

/-- An outcome that is no fault but a core read of an IBUF byte that nothing has written (R51). -/
def OnlyUnwritten (m : Memory) (o : Host.Outcome State Fault Refusal) : Prop :=
  ∀ f, o = .fault f → Unwritten m (.fault f)

section
variable {m : Memory} {α : Type} {f : Fault}

theorem OnlyUnwritten.next (t : State) : OnlyUnwritten m (.next t) := nofun

theorem OnlyUnwritten.refused (r : Refusal) : OnlyUnwritten m (.refused r) := nofun

/-- A pseudocode that stops with an error of the command or at an unwritten byte. -/
theorem OnlyUnwritten.stop {stop : Stop} {e : Err} {dirty : Bool}
    (h : stop = .raise e dirty ∨ Unwritten m stop) (draw : State → State) (s : State) :
    OnlyUnwritten m (stop.outcome draw s) := by
  rcases h with rfl | ⟨a, rfl, hn⟩
  · exact .next _
  · rintro _ ⟨⟩
    exact ⟨a, rfl, hn⟩

/-- A command ends with a fault only where its pseudocode stops with it. -/
theorem OnlyUnwritten.finish {r : Except Stop α} (h : ∀ f, r = .error (.fault f) → Unwritten m (.fault f))
    (draw : State → State) (s : State) (write : α → State) : OnlyUnwritten m (finish draw s r write) :=
  fun f hf => h f (finish_fault hf)

/-- A pseudocode that raises an error at its first check faults behind it. -/
theorem fault_behind_check {c : Prop} [Decidable c] {e : Err} {dirty : Bool} {r : Except Stop α}
    (h : (if c then .error (.raise e dirty) else r) = .error (.fault f)) : r = .error (.fault f) := by
  split at h
  · cases h
  · exact h

/-- A pseudocode that runs where its first check holds faults behind it. -/
theorem fault_under_check {c : Prop} [Decidable c] {e : Err} {dirty : Bool} {r : Except Stop α}
    (h : (if c then r else .error (.raise e dirty)) = .error (.fault f)) : c ∧ r = .error (.fault f) := by
  split at h
  · exact ⟨‹c›, h⟩
  · cases h

end

/-- The arena of a valid TREE_INFO is well formed: what a command needs of the arena invariant (R40). -/
abbrev State.TreeSound (s : State) : Prop := s.tree.valid = true → s.tree.WellFormed

/-- A well-formed arena reads as a tree (R40). -/
theorem Arena.WellFormed.readTree_ok {a : Arena} (h : a.WellFormed) : ∃ t, readTree a = .ok t := by
  obtain ⟨t, L, -, -, hread, -⟩ := h.tree
  exact ⟨t, hread⟩

theorem decodeSym_unwritten {a : Arena} (h : a.WellFormed) {m : Memory} {dirty : Bool} {r : Reader} {f : Fault}
    (hf : decodeSym a m dirty r = .error (.fault f)) : Unwritten m (.fault f) := by
  obtain ⟨t, L, ht, -⟩ := h.tree
  rcases decodeSym_error hf with ⟨d, -, h⟩ | h | h
  · cases h
  · exact h
  · rw [h] at hf
    exact absurd hf (walkLoop_sound ht)

theorem compressInput_no_fault {s : State} {input : List Byte} (hi : readInput s = .ok input)
    (h0 : s.inLen ≠ 0) {f : Fault} : compressInput s input ≠ .error (.fault f) := by
  intro hf
  rcases compressInput_error hf with h | h | h
  · cases h
  · cases h
  · rw [h] at hf
    exact compressInput_sound hi h0 hf

theorem execCompress_faults (s : State) : OnlyUnwritten s.ibuf (execCompress s) := by
  unfold execCompress
  split
  · rename_i stop hr
    exact .stop (readInput_error hr) _ _
  · rename_i input hr
    split
    · exact .next _
    · rename_i h0
      exact .finish (fun f hf => absurd hf (compressInput_no_fault hr h0)) _ _ _

theorem execDecompress_faults (s : State) : OnlyUnwritten s.ibuf (execDecompress s) := by
  unfold execDecompress
  split
  · exact .next _
  · split
    · exact .next _
    · refine .finish (fun f hf => ?_) _ _ _
      rcases decompressInput_error hf with h | h | h | h
      · cases h
      · cases h
      · cases h
      · exact h

/-- A command faults nowhere but at an IBUF byte that nothing has written (R51). -/
theorem exec_faults {i : Instr} {s : State} (hi : i.format = .cmd) (hv : s.TreeSound) :
    OnlyUnwritten s.ibuf (exec i s) := by
  cases i with
  | nop | bwReset | buildTree => exact .next _
  | compress => exact execCompress_faults s
  | decompress => exact execDecompress_faults s
  | countFreq => exact .finish (fun f hf => (readInput_error hf).resolve_left nofun) _ _ _
  | buildCodes =>
    refine .finish (fun f hf => ?_) _ _ _
    obtain ⟨hc, hf⟩ := fault_under_check hf
    obtain ⟨t, ht⟩ := (hv hc).readTree_ok
    rw [ht] at hf
    exact absurd (buildCodes_error hf) nofun
  | serializeTree =>
    refine .finish (fun f hf => ?_) _ _ _
    obtain ⟨hc, hf⟩ := fault_under_check hf
    obtain ⟨t, ht⟩ := (hv (Bool.and_eq_true_iff.1 hc).1).readTree_ok
    rw [ht] at hf
    exact absurd (emitAll_error hf) nofun
  | writeHeader =>
    refine .finish (fun f hf => ?_) _ _ _
    obtain ⟨hc, hf⟩ := fault_under_check hf
    obtain ⟨t, ht⟩ := (hv hc).readTree_ok
    rw [ht] at hf
    exact absurd (writeHeader_error hf) nofun
  | deserializeTree =>
    exact .finish (fun f hf => (desTree_error (fault_behind_check hf)).resolve_left nofun) _ _ _
  | readHeader =>
    exact .finish (fun f hf => (readHeader_error (fault_behind_check hf)).resolve_left nofun) _ _ _
  | writeBit =>
    refine .finish (fun f hf => ?_) _ _ _
    obtain ⟨-, -, h⟩ := writeBit_error hf
    cases h
  | writeCode =>
    refine .finish (fun f hf => ?_) _ _ _
    obtain ⟨-, d, h, -⟩ := writeBits_error (fault_behind_check hf)
    cases h
  | bwFinish => exact .finish (fun f hf => absurd (flushByte_error hf) nofun) _ _ _
  | encodeByte =>
    refine .finish (fun f hf => ?_) _ _ _
    obtain ⟨-, d, h, -⟩ := writeBits_error (fault_under_check hf).2
    cases h
  | brInit =>
    refine .finish (fun f hf => ?_) _ _ _
    cases fault_behind_check hf
  | readBit => exact .finish (fun f hf => (readBit_error hf).resolve_left nofun) _ _ _
  | decodeSymbol =>
    refine .finish (fun f hf => ?_) _ _ _
    obtain ⟨hc, hf⟩ := fault_under_check hf
    exact decodeSym_unwritten (hv hc) hf
  | treeInternal | treeLeaf _ | payloadBitLeft | payloadBitRight => cases hi

/-- Nothing after a tree's last token faults. -/
theorem afterTree_faults {m : Memory} (use : DesUse) (p : Nat) (s : State) :
    OnlyUnwritten m (afterTree use p s) := by
  cases use with
  | deserializeTree | readHeader => exact .next _
  | decompress =>
    rw [afterTree, startPayload]
    split
    · exact .next _
    · split <;> exact .next _

/-- A token's meaning does not fault: fetching it did. -/
theorem tokenOutcome_faults {m : Memory} (i : Instr) (d : Des) (use : DesUse) (s : State) :
    OnlyUnwritten m (tokenOutcome use s (desToken i d s.tree.nodes)) := by
  unfold tokenOutcome
  split
  · rename_i stop he
    rw [desToken_error he]
    exact .next _
  · exact .next _
  · exact afterTree_faults _ _ _

theorem afterSymbol_faults {m : Memory} (use : WalkUse) (w : Walk) (x : Byte) (s : State) :
    OnlyUnwritten m (afterSymbol use w x s) := by
  cases use with
  | decodeSymbol => exact .next _
  | decompress =>
    rw [afterSymbol]
    split <;> exact .next _

/-- From a node of the arena a bit leads to a symbol or to a node (R40, R116). -/
theorem walkBit_no_stop {a : Arena} (h : a.WellFormed) {cur : NodeIdx} (hc : cur.toNat < a.count.toNat)
    (v : Bool) {stop : Stop} : walkBit a.nodes cur v ≠ .error stop := by
  obtain ⟨t, L, ht, -⟩ := h.subtree hc
  cases t with
  | leaf x =>
    rw [walkBit_leaf ht]
    exact nofun
  | node l r =>
    obtain ⟨c, Lc, -, -, hw⟩ := walkBit_node ht v
    rw [hw]
    split <;> exact nofun

/-- A payload bit's meaning does not fault in a walk inside the arena: reading the bit did. -/
theorem walkOutcome_faults {m : Memory} {s : State} (h : s.ArenaInv) (v : Bool) :
    OnlyUnwritten m (walkOutcome v s) := by
  obtain ⟨hv, -, -, hwalk⟩ := h
  unfold walkOutcome
  split
  · rename_i w use ha
    obtain ⟨hvalid, hcur⟩ := hwalk w use ha
    split
    · rename_i stop he
      exact absurd he (walkBit_no_stop (hv hvalid) hcur v)
    · exact .next _
    · exact afterSymbol_faults _ _ _ _
  · exact .refused _

theorem resumeDeserialize_faults (s : State) (d : Des) (use : DesUse) :
    OnlyUnwritten s.ibuf (resumeDeserialize s d use) := by
  unfold resumeDeserialize
  split
  · rename_i stop he
    exact .stop (fetchToken_error he) _ _
  · rename_i i d' hf
    rw [exec_of_token (fetchToken_format hf) rfl]
    exact tokenOutcome_faults _ _ _ _

theorem resumeWalk_faults {s : State} (h : s.ArenaInv) (w : Walk) (use : WalkUse) :
    OnlyUnwritten s.ibuf (resumeWalk s w use) := by
  unfold resumeWalk
  split
  · rename_i stop he
    exact .stop (readBit_error he) _ _
  · rename_i v r hr
    rw [exec_decodeBit]
    exact walkOutcome_faults (s := { s with reader := r }) h v

theorem runCommand_faults {s : State} (hv : s.TreeSound) : OnlyUnwritten s.ibuf (runCommand s) := by
  unfold runCommand
  split
  · rename_i i hd
    obtain ⟨op, ho, -⟩ := opcode_of_decodeCmd hd
    exact exec_faults (format_of_opcode ho) hv
  · exact .next _

theorem coreMove_faults {s : State} (h : s.ArenaInv) : OnlyUnwritten s.ibuf (coreMove s) := by
  unfold coreMove
  split
  · split
    · exact runCommand_faults h.1
    · exact resumeDeserialize_faults s _ _
    · exact resumeWalk_faults h _ _
  · exact .next _

theorem beginHeader_faults (use : DesUse) (s : State) : OnlyUnwritten s.ibuf (beginHeader use s) := by
  unfold beginHeader
  split
  · rename_i stop he
    exact .stop (readHeaderFields_error he) _ _
  · exact .next _

theorem beginCommand_faults {i : Instr} {s : State} (hi : i.format = .cmd) (hv : s.TreeSound) :
    OnlyUnwritten s.ibuf (beginCommand i s) := by
  have whole := exec_faults hi hv
  cases i with
  | deserializeTree =>
    rw [beginCommand]
    split
    · exact whole
    · exact .next _
  | readHeader =>
    rw [beginCommand]
    split
    · exact whole
    · exact beginHeader_faults _ _
  | decompress =>
    rw [beginCommand]
    split
    · exact whole
    · split
      · exact whole
      · exact beginHeader_faults _ _
  | decodeSymbol =>
    rw [beginCommand]
    split
    · exact .next _
    · exact whole
  | _ => exact whole

theorem beginMove_faults {s : State} (h : s.ArenaInv) : OnlyUnwritten s.ibuf (beginMove s) := by
  unfold beginMove
  split
  · split
    · rename_i i hd
      obtain ⟨op, ho, -⟩ := opcode_of_decodeCmd hd
      exact beginCommand_faults (format_of_opcode ho) h.1
    · exact coreMove_faults h
  · exact coreMove_faults h

theorem step_faults {s : State} (h : s.ArenaInv) : OnlyUnwritten s.ibuf (step s) := by
  unfold step
  split
  · exact coreMove_faults h
  · rename_i m rest _
    have h' : { s with schedule := rest }.ArenaInv := h
    cases m with
    | host _ | reset => exact .next _
    | core => exact coreMove_faults h'
    | coreBegin => exact beginMove_faults h'

/-- Settles O22: each move of the core faults only where it reads IBUF (`exec_faults` for a whole command,
`resumeDeserialize_faults` and `resumeWalk_faults` for a token and a bit). -/
theorem faultsAreUnwrittenReads : Obligations.FaultsAreUnwrittenReads := by
  intro s f h hf
  obtain ⟨a, he, hn⟩ := step_faults h f hf
  cases he
  exact ⟨a, rfl, hn⟩

/-! ### The buffers under every step (R47, R48, R50) -/

/-- IBUF in its canonical form, inside its capacity (R47, R50). -/
def State.IbufInv (s : State) : Prop :=
  Memory.wf s.ibuf = true ∧ ∀ cell ∈ s.ibuf, cell.1 < s.cfg.ibufBytes.toNat

/-- OBUF and the draws of errors in it in their canonical form, OBUF inside its capacity (R48, R50, R125). -/
structure ObufInv (cap : Nat) (obuf : Memory) (draws : List ObufDraw) : Prop where
  wf : Memory.wf obuf = true
  bounded : ∀ cell ∈ obuf, cell.1 < cap
  draws : draws.Pairwise (fun later earlier => earlier.start < later.start)

abbrev State.ObufInv (s : State) : Prop := Machine.ObufInv s.obufCap s.writer.obuf s.obufDraws

/-- Between two bits of a DECOMPRESS the symbol it is at has room in OBUF (R118). -/
def State.PayloadFits (s : State) : Prop :=
  ∀ w, s.activity = some (.walk w .decompress) →
    s.busy = true ∧ s.writer.outLen.toNat = w.emitted ∧ w.emitted < s.origSize.toNat ∧
      s.origSize.toNat ≤ s.obufCap

theorem State.bufferInv_iff {s : State} : s.BufferInv ↔ s.IbufInv ∧ s.ObufInv ∧ s.PayloadFits := by
  constructor
  · rintro ⟨hiwf, howf, hibound, hobound, hdraws, hpayload⟩
    exact ⟨⟨hiwf, hibound⟩, ⟨howf, hobound, hdraws⟩, hpayload⟩
  · rintro ⟨⟨hiwf, hibound⟩, ⟨howf, hobound, hdraws⟩, hpayload⟩
    exact ⟨hiwf, howf, hibound, hobound, hdraws, hpayload⟩

theorem State.resetInput_bufferInv (s : State) : s.resetInput.BufferInv :=
  ⟨rfl, rfl, nofun, nofun, .nil, nofun⟩

/-- A command that has ended is at no symbol. -/
theorem State.complete_payloadFits (s : State) (e : Err) : (s.complete e).PayloadFits := nofun

/-! #### The host's part -/

/-- Everything an operation of the port can do (R46, R58). -/
inductive HostStep (s : State) : State → Prop
  | ignored : HostStep s s
  | answered (v : Answer) : HostStep s (s.answerWith v)
  | dropped : HostStep s s.dropWrite
  | accepted (v : Word) : HostStep s (s.accept v)
  | stored (hb : s.busy = false) (r : Reg) (v : Word) : HostStep s (s.regStore r v)
  | written {a : Word} (ha : a.toNat < s.cfg.ibufBytes.toNat) (b : Byte) :
      HostStep s { s with ibuf := s.ibuf.set a.toNat b }

theorem hostStep_regWrite (s : State) (off v : Word) : HostStep s (s.regWrite off v) := by
  unfold State.regWrite
  split
  · exact .ignored
  · unfold State.cmdWrite
    split
    · exact .dropped
    · exact .accepted v
  · split
    · exact .ignored
    · exact .stored (Bool.eq_false_iff.2 ‹_›) _ v

theorem hostStep_hostOp (s : State) (op : HostOp) : HostStep s (s.hostOp op) := by
  cases op with
  | regWrite off v => exact hostStep_regWrite s off v
  | ibufWrite a b =>
    rw [State.hostOp, State.ibufWrite]
    split
    · rename_i h
      exact .written (of_decide_eq_true (Bool.and_eq_true_iff.1 h).1) b
    · exact .ignored
  | regRead _ | ibufRead _ | obufRead _ => exact .answered _
  | obufWrite _ _ => exact .ignored

/-- What no store of a register touches. -/
theorem State.regStore_frame (s : State) (r : Reg) (v : Word) :
    (s.regStore r v).cfg = s.cfg ∧ (s.regStore r v).ibuf = s.ibuf ∧
      (s.regStore r v).writer.obuf = s.writer.obuf ∧ (s.regStore r v).obufDraws = s.obufDraws ∧
      (s.regStore r v).activity = s.activity := by
  cases r <;> exact ⟨rfl, rfl, rfl, rfl, rfl⟩

section
variable {s t : State} (h : HostStep s t)
include h

theorem HostStep.cfg_eq : t.cfg = s.cfg := by
  cases h with
  | stored _ r v => exact (s.regStore_frame r v).1
  | ignored | answered _ | dropped | accepted _ | written _ _ => rfl

/-- The host writes IBUF inside its capacity only (R46). -/
theorem HostStep.ibufInv (hi : s.IbufInv) : t.IbufInv := by
  cases h with
  | stored _ r v =>
    obtain ⟨hcfg, hibuf, -⟩ := s.regStore_frame r v
    rwa [State.IbufInv, hcfg, hibuf]
  | written ha b =>
    refine ⟨Memory.wf_set hi.1 _ _, fun cell hc => ?_⟩
    rcases Memory.mem_set hc with rfl | hc
    · exact ha
    · exact hi.2 cell hc
  | ignored | answered _ | dropped | accepted _ => exact hi

/-- The host writes no byte of OBUF (R46). -/
theorem HostStep.obufInv (ho : s.ObufInv) : t.ObufInv := by
  cases h with
  | stored _ r v =>
    obtain ⟨hcfg, -, hobuf, hdraws, -⟩ := s.regStore_frame r v
    rwa [State.ObufInv, State.obufCap, hcfg, hobuf, hdraws]
  | ignored | answered _ | dropped | accepted _ | written _ _ => exact ho

/-- While a command runs the host moves neither OUT_LEN nor ORIG_SIZE (R58). -/
theorem HostStep.payloadFits (hp : s.PayloadFits) : t.PayloadFits := by
  cases h with
  | stored hb r v =>
    intro w ha
    obtain ⟨-, -, -, -, hact⟩ := s.regStore_frame r v
    obtain ⟨hbusy, -⟩ := hp w (hact ▸ ha)
    rw [hb] at hbusy
    cases hbusy
  | accepted _ => exact nofun
  | ignored | answered _ | dropped | written _ _ => exact hp

end

theorem State.BufferInv.hostOp {s : State} (h : s.BufferInv) (op : HostOp) : (s.hostOp op).BufferInv := by
  obtain ⟨hi, ho, hp⟩ := State.bufferInv_iff.1 h
  have hs := hostStep_hostOp s op
  exact State.bufferInv_iff.2 ⟨hs.ibufInv hi, hs.obufInv ho, hs.payloadFits hp⟩

/-! #### What the core leaves of its inputs -/

theorem SameInputs.refl (s : State) : SameInputs s s := ⟨rfl, rfl, rfl, rfl, rfl, rfl, rfl, rfl, rfl⟩

theorem sameInputs_desDraw (use : DesUse) (s : State) : SameInputs s (use.draw s) := by
  rw [desUse_draw]
  exact sameInputs_drawOf _ s

theorem sameInputs_walkDraw (use : WalkUse) (s : State) : SameInputs s (use.draw s) := by
  rw [walkUse_draw]
  exact sameInputs_drawOf _ s

theorem Ends.sameInputs {i : Instr} {s t : State} (h : Ends i s t) : SameInputs s t := by
  cases h with
  | returns hu => exact sameInputs_complete (sameInputs_returns hu) .none
  | clean _ => exact .refl s
  | drawn _ => exact sameInputs_drawOf i s

theorem TreeEnds.sameInputs {use : DesUse} {p : Nat} {s t : State} (h : TreeEnds use p s t) :
    SameInputs s t := by
  cases h with
  | overflow _ => exact sameInputs_complete (sameInputs_drawOf .decompress s) _
  | result _ | nothing _ | payload _ _ => exact .refl s

theorem TokenStep.sameInputs {i : Instr} {d : Des} {use : DesUse} {s t : State}
    (h : TokenStep i d use s t) : SameInputs s t := by
  cases h with
  | corrupt => exact sameInputs_desDraw use s
  | more _ => exact .refl s
  | root _ ht => exact ht.sameInputs

theorem BitStep.sameInputs {v : Bool} {w : Walk} {use : WalkUse} {s t : State}
    (h : BitStep v w use s t) : SameInputs s t := by
  cases h with
  | down _ | symbol _ _ | again _ _ _ | last _ _ _ => exact .refl s

/-- A move of the core, whole command, token or bit, leaves what no command writes (R22, R27, R29, R47). -/
theorem CoreStep.sameInputs {s t : State} (h : CoreStep s t) : SameInputs s t := by
  cases h with
  | command _ hi he => exact (exec_ends hi he).sameInputs
  | badCommand _ | beginTree _ | beginHeader _ _ _ | beginWalk _ _ => exact .refl s
  | badHeader _ | badToken _ => exact sameInputs_desDraw _ s
  | token _ _ ht => exact ht.sameInputs
  | @noBit w use _ =>
    cases hd : w.dirty with
    | false => exact .refl s
    | true => exact sameInputs_walkDraw use s
  | bit _ _ ht => exact ht.sameInputs

theorem State.IbufInv.sameInputs {s t : State} (h : s.IbufInv) (hst : SameInputs s t) : t.IbufInv := by
  obtain ⟨hcfg, -, -, -, -, hibuf, -⟩ := hst
  rwa [State.IbufInv, hcfg, hibuf]

/-! #### What the core writes of OBUF -/

/-- What continues OBUF's output keeps OBUF in order (R50, R101). -/
theorem ObufInv.grows {cap : Nat} {w w' : Writer} {draws : List ObufDraw} (h : ObufInv cap w.obuf draws)
    (hg : w.Grows cap w') : ObufInv cap w'.obuf draws :=
  ⟨hg.wf h.wf, hg.bounded h.bounded, h.draws⟩

/-- An error that draws OBUF from an address up keeps it in order (R125). -/
theorem ObufInv.drawn {cap : Nat} {obuf : Memory} {draws : List ObufDraw} (h : ObufInv cap obuf draws)
    (a number : Nat) : ObufInv cap (obuf.below a) (holdDraw draws a number) :=
  ⟨Memory.wf_below h.wf a, fun cell hc => h.bounded cell (Memory.mem_below.1 hc).1,
    pairwise_holdDraw h.draws a number⟩

theorem Returns.obufInv {i : Instr} {s u : State} (h : Returns i s u) (ho : s.ObufInv) : u.ObufInv := by
  obtain ⟨hcfg, -⟩ := sameInputs_returns h
  rw [State.ObufInv, State.obufCap, hcfg, obufDraws_returns h]
  rcases writer_returns ho.wf h with hg | ⟨-, hg⟩
  · exact ho.grows hg
  · exact ObufInv.grows (w := { s.writer with outLen := 0 }) ho hg

/-- A failing command that does not write OBUF leaves it. -/
theorem drawOf_obuf_same {i : Instr} (s : State) (h : Part.obuf ∉ writesOf i) :
    (drawOf i s).writer.obuf = s.writer.obuf ∧ (drawOf i s).obufDraws = s.obufDraws := by
  cases i with
  | compress | decompress | serializeTree | writeHeader | writeBit | writeCode | bwFinish | encodeByte =>
    exact absurd (by decide) h
  | deserializeTree | readHeader =>
    simp -implicitDefEqProofs [drawOf, drawDeserialize, drawReadHeader]
  | _ => exact ⟨rfl, rfl⟩

theorem State.ObufInv.drawOf {s : State} (ho : s.ObufInv) (i : Instr) : (drawOf i s).ObufInv := by
  obtain ⟨hcfg, -⟩ := sameInputs_drawOf i s
  rw [State.ObufInv, State.obufCap, hcfg]
  by_cases hw : Part.obuf ∈ writesOf i
  · obtain ⟨hobuf, hdraws⟩ := obuf_drawOf s hw
    rw [hobuf, hdraws]
    exact ho.drawn _ _
  · obtain ⟨hobuf, hdraws⟩ := drawOf_obuf_same s hw
    rw [hobuf, hdraws]
    exact ho

theorem State.ObufInv.desDraw {s : State} (ho : s.ObufInv) (use : DesUse) : (use.draw s).ObufInv := by
  rw [desUse_draw]
  exact ho.drawOf _

theorem State.ObufInv.walkDraw {s : State} (ho : s.ObufInv) (use : WalkUse) : (use.draw s).ObufInv := by
  rw [walkUse_draw]
  exact ho.drawOf _

theorem Ends.obufInv {i : Instr} {s t : State} (h : Ends i s t) (ho : s.ObufInv) : t.ObufInv := by
  cases h with
  | returns hu => exact hu.obufInv ho
  | clean _ => exact ho
  | drawn _ => exact ho.drawOf i

theorem TreeEnds.obufInv {use : DesUse} {p : Nat} {s t : State} (h : TreeEnds use p s t) (ho : s.ObufInv) :
    t.ObufInv := by
  cases h with
  | overflow _ => exact State.ObufInv.drawOf ho .decompress
  | result _ | nothing _ | payload _ _ => exact ho

theorem TokenStep.obufInv {i : Instr} {d : Des} {use : DesUse} {s t : State} (h : TokenStep i d use s t)
    (ho : s.ObufInv) : t.ObufInv := by
  cases h with
  | corrupt => exact ho.desDraw use
  | more _ => exact ho
  | root _ ht => exact ht.obufInv ho

/-- The symbol DECOMPRESS is at has room in OBUF (R118). -/
theorem State.PayloadFits.room {s : State} (hp : s.PayloadFits) {w : Walk}
    (ha : s.activity = some (.walk w .decompress)) : s.writer.outLen.toNat < s.obufCap := by
  obtain ⟨-, hlen, hlt, hcap⟩ := hp w ha
  omega

/-- A symbol stands in OBUF where DECOMPRESS has room for it (R118). -/
theorem State.ObufInv.push {s : State} (ho : s.ObufInv) (hlt : s.writer.outLen.toNat < s.obufCap) (x : Byte) :
    Machine.ObufInv s.obufCap (s.writer.push x).obuf s.obufDraws :=
  ho.grows (Writer.grows_push s.cfg.obufBytes.isLt hlt x)

theorem BitStep.obufInv {v : Bool} {w : Walk} {use : WalkUse} {s t : State} (h : BitStep v w use s t)
    (ha : s.activity = some (.walk w use)) (hp : s.PayloadFits) (ho : s.ObufInv) : t.ObufInv := by
  cases h with
  | down _ | symbol _ _ => exact ho
  | again _ hu _ | last _ hu _ =>
    subst hu
    exact ho.push (hp.room ha) _

theorem CoreStep.obufInv {s t : State} (h : CoreStep s t) (hp : s.PayloadFits) (ho : s.ObufInv) :
    t.ObufInv := by
  cases h with
  | command _ hi he => exact (exec_ends hi he).obufInv ho
  | badCommand _ | beginTree _ | beginHeader _ _ _ | beginWalk _ _ => exact ho
  | badHeader _ | badToken _ => exact ho.desDraw _
  | token _ _ ht => exact ht.obufInv ho
  | @noBit w use _ =>
    cases hd : w.dirty with
    | false => exact ho
    | true => exact ho.walkDraw use
  | bit ha _ ht => exact ht.obufInv ha hp ho

/-! #### Room for the next symbol (R118) -/

theorem Ends.payloadFits {i : Instr} {s t : State} (h : Ends i s t) : t.PayloadFits := by
  cases h with
  | returns _ | clean _ | drawn _ => exact State.complete_payloadFits _ _

/-- DECOMPRESS begins its payload only if original_size fits in OBUF (R118). -/
theorem TreeEnds.payloadFits {use : DesUse} {p : Nat} {s t : State} (h : TreeEnds use p s t)
    (hb : s.busy = true) : t.PayloadFits := by
  cases h with
  | result _ | overflow _ | nothing _ => exact State.complete_payloadFits _ _
  | payload hcap h0 =>
    rintro _ ⟨⟩
    have hpos : s.origSize.toNat ≠ 0 := fun hz => h0 (BitVec.eq_of_toNat_eq hz)
    exact ⟨hb, rfl, Nat.pos_of_ne_zero hpos, hcap⟩

theorem TokenStep.payloadFits {i : Instr} {d : Des} {use : DesUse} {s t : State} (h : TokenStep i d use s t)
    (hb : s.busy = true) : t.PayloadFits := by
  cases h with
  | corrupt => exact State.complete_payloadFits _ _
  | more _ => exact nofun
  | root _ ht => exact ht.payloadFits hb

/-- Each symbol moves OUT_LEN on by one, and DECOMPRESS goes on while symbols are left (R118). -/
theorem BitStep.payloadFits {v : Bool} {w : Walk} {use : WalkUse} {s t : State} (h : BitStep v w use s t)
    (ha : s.activity = some (.walk w use)) (hp : s.PayloadFits) : t.PayloadFits := by
  cases h with
  | symbol _ _ | last _ _ _ => exact State.complete_payloadFits _ _
  | down _ =>
    rintro _ ⟨⟩
    exact hp w ha
  | again _ hu hm =>
    subst hu
    rintro _ ⟨⟩
    obtain ⟨hbusy, hlen, -, hcap⟩ := hp w ha
    have hsucc := outLen_succ s.cfg.obufBytes.isLt (hp.room ha)
    exact ⟨hbusy, hsucc.trans (congrArg (· + 1) hlen), hm, hcap⟩

theorem CoreStep.payloadFits {s t : State} (h : CoreStep s t) (hb : s.busy = true) (hp : s.PayloadFits) :
    t.PayloadFits := by
  cases h with
  | command _ hi he => exact (exec_ends hi he).payloadFits
  | badCommand _ | badHeader _ | badToken _ | noBit _ => exact State.complete_payloadFits _ _
  | beginTree _ | beginHeader _ _ _ | beginWalk _ _ => rintro _ ⟨⟩
  | token _ _ ht => exact ht.payloadFits hb
  | bit ha _ ht => exact ht.payloadFits ha hp

theorem State.BufferInv.coreStep {s t : State} (h : s.BufferInv) (hb : s.busy = true) (ht : CoreStep s t) :
    t.BufferInv := by
  obtain ⟨hi, ho, hp⟩ := State.bufferInv_iff.1 h
  exact State.bufferInv_iff.2 ⟨hi.sameInputs ht.sameInputs, ht.obufInv hp ho, ht.payloadFits hb hp⟩

/-- No step changes the configuration (R11, R35). -/
theorem step_cfg {s t : State} (h : step s = .next t) : t.cfg = s.cfg :=
  step_kept (P := fun u => u.cfg = s.cfg) (fun _ _ hu => hu)
    (fun u op hu => (hostStep_hostOp u op).cfg_eq.trans hu) (fun _ hu => hu)
    (fun _ _ hu _ hc => hc.sameInputs.1.trans hu) rfl h

/-- Settles O20: the host writes IBUF inside its capacity and the core OBUF by `Writer.Grows`; the symbols of a
DECOMPRESS bit by bit have room because original_size was checked (`State.PayloadFits`). -/
theorem bufferInvariant : Obligations.BufferInvariant := fun _ _ h hst =>
  ⟨step_kept (fun _ _ hs => hs) (fun _ op hs => hs.hostOp op) (fun s _ => s.resetInput_bufferInv)
    (fun _ _ hs hb hc => hs.coreStep hb hc) h hst, step_cfg hst⟩

end Sys2Proof.Machine

/-! PROOF of the encodings' statements (R67 to R73, R116): which words are commands and which bytes are
tokens, and that a word that is no command completes with BAD_COMMAND. -/

namespace Sys2Proof

/-! ### Command words (R67, R68, R70) -/

theorem encode_of_opcode {i : Instr} {op : Byte} (h : i.opcode? = some op) :
    encode i = .cmd (cmdWord op) := by
  unfold encode
  rw [h]

/-- The instructions without an OPCODE are the tree tokens and the payload bits. -/
theorem token_or_bit_of_opcode_none {i : Instr} (h : i.opcode? = none) :
    i = .treeInternal ∨ (∃ symbol, i = .treeLeaf symbol) ∨ ∃ b, i = decodeBit b := by
  cases i with
  | treeInternal => exact .inl rfl
  | treeLeaf symbol => exact .inr (.inl ⟨symbol, rfl⟩)
  | payloadBitLeft => exact .inr (.inr ⟨false, rfl⟩)
  | payloadBitRight => exact .inr (.inr ⟨true, rfl⟩)
  | _ => cases h

theorem encode_decodeBit (b : Bool) : encode (decodeBit b) = .bit b := by
  cases b <;> rfl

theorem encode_eq_cmd_iff {i : Instr} {w : Word} :
    encode i = .cmd w ↔ ∃ op, i.opcode? = some op ∧ w = cmdWord op := by
  constructor
  · intro h
    cases ho : i.opcode? with
    | some op =>
      rw [encode_of_opcode ho] at h
      cases h
      exact ⟨op, rfl, rfl⟩
    | none =>
      obtain rfl | ⟨symbol, rfl⟩ | ⟨b, rfl⟩ := token_or_bit_of_opcode_none ho
      · cases h
      · cases h
      · rw [encode_decodeBit] at h
        cases h
  · rintro ⟨op, ho, rfl⟩
    exact encode_of_opcode ho

theorem decodeCmd_eq_ok_iff {w : Word} {i : Instr} :
    decodeCmd w = .ok i ↔ ∃ op, i.opcode? = some op ∧ w = cmdWord op := by
  constructor
  · exact opcode_of_decodeCmd
  · rintro ⟨op, ho, rfl⟩
    exact decodeCmd_cmdWord ho

/-- Settles O3: both sides say that the word is the command word of the instruction's OPCODE. -/
theorem commandWordsExact : Obligations.CommandWordsExact := fun _ _ =>
  decodeCmd_eq_ok_iff.trans encode_eq_cmd_iff.symm

/-- Settles O2: a command by its OPCODE's word; of tokens and bits the decoder's branch is the encoder's. -/
theorem decodeInvertsEncode : Obligations.DecodeInvertsEncode := by
  intro i _
  cases ho : i.opcode? with
  | some op =>
    rw [encode_of_opcode ho, decode, decodeCmd_cmdWord ho]
    rfl
  | none =>
    obtain rfl | ⟨symbol, rfl⟩ | ⟨b, rfl⟩ := token_or_bit_of_opcode_none ho
    · rfl
    · rfl
    · rw [encode_decodeBit, decode]

/-- Settles O1: the decoder evaluates on each of the words. -/
theorem wordsDecode : Obligations.WordsDecode := by
  unfold Obligations.WordsDecode
  decide

/-! ### Tree tokens (R72, R73) -/

theorem decodeToken_internal (rest : List Byte) : decodeToken (0x00 :: rest) = .ok (.treeInternal, rest) := rfl

theorem decodeToken_leaf (symbol : Byte) (rest : List Byte) :
    decodeToken (0x01 :: symbol :: rest) = .ok (.treeLeaf symbol, rest) := rfl

theorem decodeToken_illegal {flag : Byte} (h : 2 ≤ flag.toNat) (rest : List Byte) :
    decodeToken (flag :: rest) = .error .illegalFlag := by
  have h0 : flag ≠ 0x00 := by rintro rfl; exact absurd h (by decide)
  have h1 : flag ≠ 0x01 := by rintro rfl; exact absurd h (by decide)
  simp only [decodeToken, if_neg h0, if_neg h1]

theorem bytes_of_decodeToken {bytes : List Byte} {i : Instr} {rest : List Byte}
    (h : decodeToken bytes = .ok (i, rest)) :
    (i = .treeInternal ∧ bytes = 0x00 :: rest) ∨
      ∃ symbol, i = .treeLeaf symbol ∧ bytes = 0x01 :: symbol :: rest := by
  unfold decodeToken at h
  split at h
  · cases h
  · split at h
    · rename_i h0
      cases h
      exact .inl ⟨rfl, by rw [h0]⟩
    · split at h
      · rename_i h1
        split at h
        · cases h
        · cases h
          exact .inr ⟨_, rfl, by rw [h1]⟩
      · cases h

/-- Settles O5: each token is decoded from its bytes (`decodeToken_internal`, `decodeToken_leaf`) and only
from them (`bytes_of_decodeToken`); a flag byte from 2 up is neither flag. -/
theorem treeTokensExact : Obligations.TreeTokensExact := by
  refine ⟨fun bytes i rest => ⟨bytes_of_decodeToken, ?_⟩, fun _ rest h => decodeToken_illegal h rest⟩
  rintro (⟨rfl, rfl⟩ | ⟨symbol, rfl, rfl⟩)
  · exact decodeToken_internal rest
  · exact decodeToken_leaf symbol rest

/-! ### Words that are no command (R67, R70) -/

/-- R70: the OPCODEs that R68 leaves out. -/
def ReservedOpcode (op : Nat) : Prop :=
  (0x03 ≤ op ∧ op ≤ 0x0F) ∨ (0x13 ≤ op ∧ op ≤ 0x17) ∨ (0x1C ≤ op ∧ op ≤ 0x1F) ∨
    (0x25 ≤ op ∧ op ≤ 0x27) ∨ (0x2B ≤ op ∧ op ≤ 0xFF)

/-- A command's OPCODE is one of the rows of R68. -/
theorem not_reserved_of_opcode {i : Instr} {op : Byte} (h : i.opcode? = some op) :
    ¬ReservedOpcode op.toNat := by
  unfold ReservedOpcode
  cases i <;> cases h <;> decide

theorem decodeCmd_rsvd {w : Word} (h : w.extractLsb' 8 24 ≠ 0) : decodeCmd w = .error .rsvdNonZero := by
  rw [decodeCmd, if_neg]
  simpa [cmdWordRsvdZero] using h

/-- R67, R70: neither a word with RSVD ≠ 0 nor one with a reserved OPCODE is a command. -/
theorem decodeCmd_nonCommand {w : Word} (h : w.extractLsb' 8 24 ≠ 0 ∨
    ∃ op : Nat, w.extractLsb' 0 8 = BitVec.ofNat 8 op ∧ ReservedOpcode op) :
    ∃ e, decodeCmd w = .error e := by
  cases hd : decodeCmd w with
  | error e => exact ⟨e, rfl⟩
  | ok i =>
    obtain ⟨op, ho, rfl⟩ := opcode_of_decodeCmd hd
    rcases h with hr | ⟨n, hn, hres⟩
    · rw [decodeCmd_rsvd hr] at hd
      cases hd
    · have hlt : n < 2 ^ 8 := by unfold ReservedOpcode at hres; omega
      rw [(cmdWord_rsvd op).2] at hn
      subst hn
      refine absurd hres ?_
      simpa only [BitVec.toNat_ofNat, Nat.mod_eq_of_lt hlt] using not_reserved_of_opcode ho

end Sys2Proof

namespace Sys2Proof.Machine

theorem runCommand_nonCommand {s : State} {e : DecodeError} (h : decodeCmd s.cmd = .error e) :
    runCommand s = .next (s.complete .badCommand) := by
  rw [runCommand, h]
  rfl

/-- Settles O4: no such word decodes (`decodeCmd_nonCommand`), so the core's move is a completion. -/
theorem nonCommandsComplete : Obligations.NonCommandsComplete := by
  intro s hs hb ha hw
  obtain ⟨e, he⟩ := decodeCmd_nonCommand hw
  have hstep : step s = runCommand s := by simp only [step, hs, coreMove, hb, ha, if_true]
  rw [hstep, runCommand_nonCommand he]
  rfl

end Sys2Proof.Machine

/-! PROOF of the frames (R69, R118, R125): a command, and a token or a bit of one, changes nothing outside the
command's write set. -/

namespace Sys2Proof.Machine

/-! ### Whole commands -/

/-- Settles O26: a command returns, or fails before any write, or leaves draws (`exec_ends`), and each of
the three stays in the write set. -/
theorem writeSets : Obligations.WriteSets := by
  intro i s t hi h p hp
  cases exec_ends hi h with
  | returns hu => exact Part.same_complete (parts_returns hu p hp) _
  | clean _ => exact Part.same_complete (p.same_rfl s) _
  | drawn _ => exact Part.same_complete (parts_drawOf i s p hp) _

/-! ### The parts that one token or bit writes -/

section
variable {p : Part} {s : State}

theorem Part.same_result (h : p ≠ .result) (v : Word) : p.Same s { s with result := v } := by
  cases p <;> simp [Part.Same] at h ⊢

theorem Part.same_tree (h : p ≠ .node) (h' : p ≠ .treeInfo) (t : Arena) : p.Same s { s with tree := t } := by
  cases p <;> simp [Part.Same] at h h' ⊢

theorem Part.same_reader (h : p ≠ .brPos) (h1 : p ≠ .brBit) (h2 : p ≠ .brEnd) (r : Reader) :
    p.Same s { s with reader := r } := by
  cases p <;> simp [Part.Same] at h h1 h2 ⊢

theorem Part.same_outLen (h : p ≠ .outLen) (v : Word) :
    p.Same s { s with writer := { s.writer with outLen := v } } := by
  cases p <;> simp [Part.Same] at h ⊢

theorem Part.same_push (h : p ≠ .outLen) (h' : p ≠ .obuf) (x : Byte) :
    p.Same s { s with writer := s.writer.push x } := by
  cases p <;> simp [Part.Same] at h h' ⊢

/-- Where inside the command the core stands is no part of any write set (R42). -/
theorem Part.same_activity {t : State} (h : p.Same s t) (a : Option Activity) :
    p.Same s { t with activity := a } := by
  cases p <;> exact h

end

/-- Every command that reads a tree writes NODE and TREE_INFO (R69). -/
theorem tree_mem_writesOf_des (use : DesUse) :
    Part.node ∈ writesOf use.command ∧ Part.treeInfo ∈ writesOf use.command := by
  cases use <;> decide

theorem result_mem_writesOf_des {use : DesUse} (h : use ≠ .decompress) :
    Part.result ∈ writesOf use.command := by
  cases use with
  | deserializeTree | readHeader => decide
  | decompress => exact absurd rfl h

/-- A part outside a write set is none of its parts. -/
theorem Part.ne_of_notMem {p q : Part} {l : List Part} (hp : p ∉ l) (hq : q ∈ l) : p ≠ q := by
  rintro rfl
  exact hp hq

/-- DECOMPRESS with its reader over the payload and OUT_LEN = 0 (R118). -/
theorem startPayload_same {s : State} {p : Part} (hp : p ∉ writesOf .decompress) {r : Reader} :
    p.Same s { s with reader := r, writer := { s.writer with outLen := 0 } } :=
  (Part.same_reader (p.ne_of_notMem hp (by decide)) (p.ne_of_notMem hp (by decide))
    (p.ne_of_notMem hp (by decide)) r).trans (Part.same_outLen (p.ne_of_notMem hp (by decide)) 0)

/-- DECOMPRESS with one more symbol in OBUF (R118). -/
theorem push_same {s : State} {p : Part} (hp : p ∉ writesOf .decompress) (x : Byte) :
    p.Same s { s with writer := s.writer.push x } :=
  Part.same_push (p.ne_of_notMem hp (by decide)) (p.ne_of_notMem hp (by decide)) x

/-! ### A token or a bit stays in the write set of its command -/

theorem TreeEnds.same {use : DesUse} {n : Nat} {s t : State} (h : TreeEnds use n s t) {p : Part}
    (hp : p ∉ writesOf use.command) : p.Same s t := by
  cases h with
  | result hu =>
    exact Part.same_complete (Part.same_result (p.ne_of_notMem hp (result_mem_writesOf_des hu)) _) _
  | overflow _ => exact Part.same_complete (parts_drawOf .decompress s p hp) _
  | nothing _ => exact Part.same_complete (startPayload_same hp) _
  | payload _ _ => exact Part.same_activity (startPayload_same hp) _

theorem TokenStep.same {i : Instr} {d : Des} {use : DesUse} {s t : State} (h : TokenStep i d use s t)
    {p : Part} (hp : p ∉ writesOf use.command) : p.Same s t := by
  obtain ⟨hnode, hinfo⟩ := tree_mem_writesOf_des use
  have htree (a : Arena) : p.Same s { s with tree := a } :=
    Part.same_tree (p.ne_of_notMem hp hnode) (p.ne_of_notMem hp hinfo) a
  cases h with
  | corrupt =>
    rw [desUse_draw]
    exact Part.same_complete (parts_drawOf _ s p hp) _
  | @more _ nodes _ => exact Part.same_activity (htree { s.tree with nodes := nodes }) _
  | root _ ht => exact (htree _).trans (ht.same hp)

theorem BitStep.same {v : Bool} {w : Walk} {use : WalkUse} {s t : State} (h : BitStep v w use s t)
    {p : Part} (hp : p ∉ writesOf use.command) : p.Same s t := by
  cases h with
  | down _ => exact Part.same_activity (p.same_rfl s) _
  | symbol _ hu =>
    subst hu
    exact Part.same_complete (Part.same_result (p.ne_of_notMem hp (by decide)) _) _
  | again _ hu _ =>
    subst hu
    exact Part.same_activity (push_same hp _) _
  | last _ hu _ =>
    subst hu
    exact Part.same_complete (push_same hp _) _

/-! ### The one OBUF byte of a decoded symbol -/

/-- No byte of OBUF but OBUF[OUT_LEN] is another one, a drawn one neither. -/
def ObufKept (s t : State) : Prop :=
  ∀ a, a ≠ s.writer.outLen.toNat → t.writer.obuf.get a = s.writer.obuf.get a ∧ t.obufByte a = s.obufByte a

theorem ObufKept.of_get {s t : State} (hd : t.obufDraws = s.obufDraws)
    (h : ∀ a, a ≠ s.writer.outLen.toNat → t.writer.obuf.get a = s.writer.obuf.get a) : ObufKept s t :=
  fun a ha => ⟨h a ha, State.obufByte_congr (h a ha) hd⟩

theorem ObufKept.of_eq {s t : State} (ho : t.writer.obuf = s.writer.obuf) (hd : t.obufDraws = s.obufDraws) :
    ObufKept s t :=
  .of_get hd fun a _ => congrArg (Memory.get · a) ho

theorem TreeEnds.obufKept {use : DesUse} {n : Nat} {s t : State} (h : TreeEnds use n s t)
    (he : t.err = .none) : ObufKept s t := by
  cases h with
  | overflow _ => cases he
  | result _ | nothing _ | payload _ _ => exact .of_eq rfl rfl

theorem TokenStep.obufKept {i : Instr} {d : Des} {use : DesUse} {s t : State} (h : TokenStep i d use s t)
    (he : t.err = .none) : ObufKept s t := by
  cases h with
  | corrupt => cases he
  | more _ => exact .of_eq rfl rfl
  | root _ ht => exact ht.obufKept he

theorem BitStep.obufKept {v : Bool} {w : Walk} {use : WalkUse} {s t : State} (h : BitStep v w use s t)
    (hw : Memory.wf s.writer.obuf = true) : ObufKept s t := by
  cases h with
  | down _ | symbol _ _ => exact .of_eq rfl rfl
  | again _ _ _ | last _ _ _ => exact .of_get rfl fun a ha => Memory.get_set_other hw _ ha

/-- Settles O28: a token stays in its command's write set and writes no byte of OBUF, a bit stays in it too
and pushes at most one symbol. -/
theorem tokenFrames : Obligations.TokenFrames := by
  intro i s t command hi hw hact h
  rcases exec_token hi h with ⟨d, use, ha, ht⟩ | ⟨w, use, v, ha, -, hb⟩
  · obtain rfl : command = use.command := by simpa [ha] using hact
    exact ⟨ht.sameInputs, fun p hp => ht.same hp, ht.obufKept⟩
  · obtain rfl : command = use.command := by simpa [ha] using hact
    exact ⟨hb.sameInputs, fun p hp => hb.same hp, fun _ => hb.obufKept hw⟩

end Sys2Proof.Machine

/-! PROOF of the analysis statements (R34, R40, R83 to R90): the arena and the flags of TREE_INFO under every
step, COUNT_FREQ, BUILD_TREE and BUILD_CODES, and the codes that BUILD_CODES leaves. -/

namespace Sys2Proof.Machine

/-! ### The arena under every step (R34, R40) -/

/-- The tables keep what their flags promise: TREE_VALID a well-formed arena (R40), CODES_VALID a tree (R34). -/
structure State.TablesSound (s : State) : Prop where
  tree : s.TreeSound
  codes : s.codes.valid = true → s.tree.valid = true

theorem State.ArenaInv.tablesSound {s : State} (h : s.ArenaInv) : s.TablesSound := ⟨h.1, h.2.1⟩

namespace State.TablesSound

variable {s t : State}

theorem congr (h : s.TablesSound) (ht : t.tree = s.tree) (hc : t.codes = s.codes) : t.TablesSound := by
  constructor
  · rw [State.TreeSound, ht]
    exact h.tree
  · rw [hc, ht]
    exact h.codes

/-- Without valid codes only the tree matters. -/
theorem of_codesInvalid (ht : s.TreeSound) (hc : s.codes.valid = false) : s.TablesSound :=
  ⟨ht, fun h => absurd (hc.symm.trans h) nofun⟩

theorem of_treeInvalid (ht : s.tree.valid = false) (hc : s.codes.valid = false) : s.TablesSound :=
  .of_codesInvalid (fun h => absurd (ht.symm.trans h) nofun) hc

/-- With a well-formed valid tree the codes may be valid or not. -/
theorem of_wellFormed (hw : s.tree.WellFormed) (hv : s.tree.valid = true) : s.TablesSound :=
  ⟨fun _ => hw, fun _ => hv⟩

/-- A completed command leaves the core inside no command (R139). -/
theorem complete (h : s.TablesSound) (e : Err) : (s.complete e).ArenaInv := ⟨h.tree, h.codes, nofun, nofun⟩

/-- The core stands at a node of the arena, between two bits of a payload (R116). -/
theorem walking (h : s.TablesSound) (hv : s.tree.valid = true) {w : Walk}
    (hc : w.cur.toNat < s.tree.count.toNat) (use : WalkUse) : (s.walking use w).ArenaInv := by
  refine ⟨h.tree, h.codes, nofun, ?_⟩
  rintro _ _ ⟨⟩
  exact ⟨hv, hc⟩

/-- The core stands at the root of a valid tree. -/
theorem walking_root (h : s.TablesSound) (hv : s.tree.valid = true) (use : WalkUse) (n : Nat) (dirty : Bool) :
    (s.walking use { cur := s.tree.root, emitted := n, dirty := dirty }).ArenaInv :=
  h.walking hv (h.tree hv).root_lt use

/-- An error leaves each table as it was or marked invalid, and never valid codes of a drawn tree (R125). -/
theorem drawOf (h : s.TablesSound) (i : Instr) : (drawOf i s).TablesSound := by
  obtain ⟨ht, hc, htc⟩ := drawOf_tables i s
  have hsound : (Machine.drawOf i s).TreeSound := by
    rcases ht with ht | ht
    · rw [State.TreeSound, ht]
      exact h.tree
    · exact fun hv => absurd (ht.symm.trans hv) nofun
  rcases hc with hc | hc
  · rcases ht with ht | ht
    · exact h.congr ht hc
    · rcases htc ht with ht | hc
      · exact h.congr ht hc
      · exact .of_codesInvalid hsound hc
  · exact .of_codesInvalid hsound hc

theorem desDraw (h : s.TablesSound) (use : DesUse) : (use.draw s).TablesSound := by
  rw [desUse_draw]
  exact h.drawOf _

theorem raise_walk (h : s.TablesSound) (use : WalkUse) (e : Err) (dirty : Bool) :
    (s.raise e dirty use.draw).ArenaInv := by
  cases dirty with
  | false => exact h.complete e
  | true =>
    rw [walkUse_draw]
    exact (h.drawOf _).complete e

end State.TablesSound

/-- What a command that returns leaves: the tables as they were, or a tree of its own making. -/
theorem Returns.tablesSound {i : Instr} {s u : State} (h : Returns i s u) (hs : s.TablesSound) :
    u.TablesSound := by
  cases i with
  | compress =>
    rcases h with ⟨-, rfl⟩ | ⟨input, c, hr, h0, hc, rfl⟩
    · exact .of_treeInvalid rfl rfl
    · obtain ⟨hl, -, -⟩ := readInput_ok hr
      have hne : input ≠ [] := by
        rintro rfl
        exact h0 (BitVec.eq_of_toNat_eq hl.symm)
      obtain ⟨_, hT⟩ := inputTree input s.tree hne (by rw [hl]; exact s.inLen.isLt)
      obtain ⟨_, -, htree, -⟩ := compressInput_codes hc
      rw [← htree] at hT
      exact .of_wellFormed hT.wellFormed hT.valid
  | decompress =>
    rcases h with ⟨-, rfl⟩ | ⟨r, -, -, hr, rfl⟩
    · exact .of_treeInvalid rfl rfl
    · exact .of_codesInvalid (fun _ => (readHeader_wellFormed (decompressInput_header hr)).1) rfl
  | buildTree => cases h; exact .of_codesInvalid buildTree_wellFormed rfl
  | buildCodes => obtain ⟨_, _, hv, -, -, rfl⟩ := h; exact .of_wellFormed (hs.tree hv) hv
  | deserializeTree =>
    obtain ⟨_, _, -, hd, rfl⟩ := h
    exact .of_codesInvalid (fun _ => (desTree_wellFormed hd).1) rfl
  | readHeader =>
    obtain ⟨_, -, hr, rfl⟩ := h
    exact .of_codesInvalid (fun _ => (readHeader_wellFormed hr).1) rfl
  | nop | bwReset => cases h; exact hs.congr rfl rfl
  | countFreq | writeBit | bwFinish => obtain ⟨_, -, rfl⟩ := h; exact hs.congr rfl rfl
  | serializeTree => obtain ⟨_, _, -, -, -, -, rfl⟩ := h; exact hs.congr rfl rfl
  | writeHeader => obtain ⟨_, _, -, -, -, rfl⟩ := h; exact hs.congr rfl rfl
  | writeCode | encodeByte => obtain ⟨_, -, -, rfl⟩ := h; exact hs.congr rfl rfl
  | brInit => obtain ⟨-, rfl⟩ := h; exact hs.congr rfl rfl
  | readBit => obtain ⟨_, _, -, rfl⟩ := h; exact hs.congr rfl rfl
  | decodeSymbol => obtain ⟨_, _, -, -, rfl⟩ := h; exact hs.congr rfl rfl
  | treeInternal | treeLeaf _ | payloadBitLeft | payloadBitRight => cases h

theorem Ends.arenaInv {i : Instr} {s t : State} (h : Ends i s t) (hs : s.TablesSound) : t.ArenaInv := by
  cases h with
  | returns hu => exact (hu.tablesSound hs).complete .none
  | clean _ => exact hs.complete _
  | drawn _ => exact (hs.drawOf i).complete _

/-- The core stands between two tokens of a tree, both flags cleared (R92). -/
theorem arenaInv_deserializing {s : State} {d : Des} {use : DesUse} (ha : s.activity = some (.deserialize d use))
    (ht : s.tree.valid = false) (hc : s.codes.valid = false) (hd : d.WellFormed s.tree.nodes) : s.ArenaInv := by
  have hs : s.TablesSound := .of_treeInvalid ht hc
  refine ⟨hs.tree, hs.codes, fun d' use' ha' => ?_, fun w use' ha' => ?_⟩
  · cases ha.symm.trans ha'
    exact ⟨ht, hc, hd⟩
  · cases ha.symm.trans ha'

theorem TreeEnds.arenaInv {use : DesUse} {p : Nat} {s t : State} (h : TreeEnds use p s t)
    (hs : s.TablesSound) (hv : s.tree.valid = true) : t.ArenaInv := by
  cases h with
  | result _ | nothing _ => exact (hs.congr rfl rfl).complete .none
  | overflow _ => exact (hs.drawOf .decompress).complete _
  | payload _ _ => exact (hs.congr rfl rfl).walking_root hv _ _ _

theorem TokenStep.arenaInv {i : Instr} {d : Des} {use : DesUse} {s t : State} (h : TokenStep i d use s t)
    (ht : s.tree.valid = false) (hc : s.codes.valid = false) (hd : d.WellFormed s.tree.nodes) : t.ArenaInv := by
  cases h with
  | corrupt => exact ((State.TablesSound.of_treeInvalid ht hc).desDraw use).complete _
  | more htok => exact arenaInv_deserializing rfl ht hc (desToken_kept hd htok)
  | root htok hends => exact hends.arenaInv (.of_wellFormed (desToken_kept hd htok) rfl) rfl

theorem BitStep.arenaInv {v : Bool} {w : Walk} {use : WalkUse} {s t : State} (h : BitStep v w use s t)
    (hs : s.TablesSound) (hv : s.tree.valid = true) (hcur : w.cur.toNat < s.tree.count.toNat) : t.ArenaInv := by
  cases h with
  | down hw => exact hs.walking hv (walkBit_next (hs.tree hv) hcur hw) _
  | symbol _ _ | last _ _ _ => exact (hs.congr rfl rfl).complete .none
  | again _ _ _ => exact (hs.congr rfl rfl).walking_root hv _ _ _

theorem State.ArenaInv.coreStep {s t : State} (h : s.ArenaInv) (ht : CoreStep s t) : t.ArenaInv := by
  have hs := h.tablesSound
  obtain ⟨-, -, hdes, hwalk⟩ := h
  cases ht with
  | command _ hi he => exact (exec_ends hi he).arenaInv hs
  | badCommand _ => exact hs.complete _
  | beginTree _ | beginHeader _ _ _ => exact arenaInv_deserializing rfl rfl rfl (Des.start_wellFormed _ _ _)
  | badHeader _ | badToken _ => exact (hs.desDraw _).complete _
  | beginWalk _ hv => exact hs.walking_root hv _ _ _
  | token ha hf htok =>
    obtain ⟨hv, hc, hd⟩ := hdes _ _ ha
    exact htok.arenaInv hv hc (fetchToken_wellFormed hf hd)
  | noBit _ => exact hs.raise_walk _ _ _
  | bit ha _ hbit =>
    obtain ⟨hv, hcur⟩ := hwalk _ _ ha
    exact hbit.arenaInv (hs.congr rfl rfl) hv hcur

/-- The host leaves the arena, and the core where it stands or at a command's start (R23, R138). -/
theorem State.ArenaInv.hostOp {s : State} (h : s.ArenaInv) (op : HostOp) : (s.hostOp op).ArenaInv := by
  obtain ⟨ht, hc, ha⟩ := host_tables s op
  have hs : (s.hostOp op).TablesSound := h.tablesSound.congr ht hc
  rcases ha with ha | ha
  · rw [State.ArenaInv, ht, hc, ha]
    exact h
  · refine ⟨hs.tree, hs.codes, ?_, ?_⟩ <;> (rw [ha]; exact nofun)

/-- Settles O18: a whole command leaves sound tables (`Returns.tablesSound`), a token keeps the deserializer's
account of the arena (`desToken_kept`), and a bit stays inside the arena (`walkBit_next`). -/
theorem arenaInvariant : Obligations.ArenaInvariant := fun _ _ =>
  step_kept (fun _ _ h => h) (fun _ op h => h.hostOp op) (fun _ _ => ⟨nofun, nofun, nofun, nofun⟩)
    (fun _ _ h _ ht => h.coreStep ht)

/-! ### COUNT_FREQ (R83) -/

theorem exec_countFreq_input {s : State} {input : List Byte} (h : readInput s = .ok input) :
    exec .countFreq s = .next ({ s with freq := countFreq input }.complete .none) := by
  rw [exec, execCountFreq, h]
  rfl

/-- Settles O38: the input is read whole (`readInput_holds`), each byte of it counts once (`countFreq_get`). -/
theorem countFreqCompletes : Obligations.CountFreqCompletes := by
  refine ⟨rfl, fun s => ⟨fun input hb hl hfit => ?_, fun hbig => exec_inLenTooBig hbig (by decide)⟩⟩
  have hlt : input.length < 2 ^ 32 := by
    rw [hl]
    exact s.inLen.isLt
  exact ⟨countFreq input, fun b => countFreq_get input b hlt, exec_countFreq_input (readInput_holds hb hl hfit)⟩

/-! ### BUILD_TREE (R84 to R86) -/

/-- Settles O39: `buildTree_empty` without a present symbol, `buildTree_spec` with some. -/
theorem buildTreeCompletes : Obligations.BuildTreeCompletes := by
  refine ⟨rfl, fun s symbols hp => ⟨buildTree s.freq s.tree, rfl, fun hnil => ?_, fun hne => ?_⟩⟩
  · rw [buildTree_empty s.tree ((present_unique hp).symm.trans hnil)]
    exact ⟨rfl, rfl, rfl⟩
  · cases present_unique hp
    obtain ⟨_, _, W, -, -, -, hv, hcount, hroot, hgreedy, -⟩ := buildTree_spec s.freq s.tree hne
    exact ⟨hv, buildTree_wellFormed hv, hcount, hroot, W, hgreedy⟩

/-! ### BUILD_CODES (R87, R88) -/

section
variable {s : State} {t : HTree} {L : List Nat}

/-- With a tree in the arena BUILD_CODES is what `buildCodes` makes of it. -/
theorem exec_buildCodes_tree (hv : s.tree.valid = true) (hr : readTree s.tree = .ok t) :
    exec .buildCodes s = finish State.drawCodes s (buildCodes t) (fun c => { s with codes := c }) := by
  rw [exec, execBuildCodes, if_pos hv, hr]

theorem exec_buildCodes_shallow (hv : s.tree.valid = true) (hr : readTree s.tree = .ok t) (hd : t.depth ≤ 32) :
    ∃ c, buildCodes t = .ok c ∧ exec .buildCodes s = .next ({ s with codes := c }.complete .none) := by
  obtain ⟨c, hc⟩ := (buildCodes_ok_iff t).2 hd
  refine ⟨c, hc, ?_⟩
  rw [exec_buildCodes_tree hv hr, hc]
  rfl

theorem exec_buildCodes_deep (hv : s.tree.valid = true) (hr : readTree s.tree = .ok t) (hd : 32 < t.depth) :
    exec .buildCodes s = .next (s.drawCodes.complete .codeTooLong) := by
  rw [exec_buildCodes_tree hv hr]
  rcases buildCodes_cases t with ⟨-, hc⟩ | ⟨-, hc⟩
  · exact absurd ((buildCodes_ok_iff t).1 ⟨_, hc⟩) (Nat.not_le_of_lt hd)
  · rw [hc]
    rfl

/-- A well-formed arena reads as the tree it holds. -/
theorem Arena.WellFormed.readTree_holds {a : Arena} (hw : a.WellFormed) (hh : Holds a.nodes a.root.toNat t L) :
    readTree a = .ok t := by
  obtain ⟨t', L', hh', -, hr, -⟩ := hw.tree
  rw [(hh.unique hh').1]
  exact hr

end

/-- Settles O40: `buildCodes_entry` gives the table, the depth decides between it and CODE_TOO_LONG. -/
theorem buildCodesCompletes : Obligations.BuildCodesCompletes := by
  refine ⟨rfl, fun s => ⟨fun hv hw => ?_, fun hv => exec_treeInvalid hv (by decide)⟩⟩
  obtain ⟨t, L, hh, -, hr, -⟩ := hw.tree
  refine ⟨t, L, hh, fun hd => ?_, fun hd => ⟨_, exec_buildCodes_deep hv hr hd, rfl, rfl⟩⟩
  obtain ⟨c, hc, he⟩ := exec_buildCodes_shallow hv hr hd
  obtain ⟨hvalid, hnone, hlast⟩ := buildCodes_entry hc
  exact ⟨c, he, hvalid, hnone, fun pre x bits post hsplit hx => (hlast pre x bits post hsplit hx).2⟩

/-! ### No code begins another (R89) -/

/-- Two codes of a tree, one of which begins with the other, are one symbol's. -/
theorem HTree.codes_prefix_free {t : HTree} {x y : Byte} {p q : List Bool} (hx : (x, p) ∈ t.codes)
    (hy : (y, q) ∈ t.codes) (hpre : p <+: q) : x = y := by
  cases t with
  | leaf z =>
    obtain ⟨rfl, -⟩ := Prod.mk.inj (List.mem_singleton.1 hx)
    obtain ⟨rfl, -⟩ := Prod.mk.inj (List.mem_singleton.1 hy)
    rfl
  | node l r => exact (HTree.paths_prefix_free (t := .node l r) hx hy hpre).2

/-- A symbol with an entry in the table has the code of a leaf (R88). -/
theorem buildCodes_bits_mem {t : HTree} {c : CodeTable} (h : buildCodes t = .ok c) {x : Byte}
    (hx : (c.entry x).2 ≠ 0) : (x, c.bits x) ∈ t.codes := by
  obtain ⟨-, hnone, hlast⟩ := buildCodes_entry h
  have hleaf : x ∈ t.codes.map Prod.fst := by
    rw [t.codes_symbols]
    by_contra hno
    exact hx (by rw [hnone x hno])
  obtain ⟨pre, bits, post, hsplit, hpost⟩ := exists_last hleaf
  obtain ⟨h32, hentry⟩ := hlast pre x bits post hsplit hpost
  rw [(CodeTable.bits_of_entry h32 hentry).1, hsplit]
  simp

/-- Settles O41: every entry is a leaf's code (`buildCodes_bits_mem`), and of two symbols' codes neither begins
the other (`HTree.codes_prefix_free`); so it is for leaves of one symbol too, the last of which has the entry. -/
theorem codesArePrefixFree : Obligations.CodesArePrefixFree := by
  intro s u t L hv hw hh _ hexec hvalid x y hxy hx hy hpre
  have hr := hw.readTree_holds hh
  by_cases hd : t.depth ≤ 32
  · obtain ⟨c, hc, he⟩ := exec_buildCodes_shallow hv hr hd
    cases he.symm.trans hexec
    exact hxy (HTree.codes_prefix_free (buildCodes_bits_mem hc hx) (buildCodes_bits_mem hc hy) hpre)
  · cases (exec_buildCodes_deep hv hr (Nat.lt_of_not_le hd)).symm.trans hexec
    cases hvalid

/-! ### Two symbols (R90) -/

theorem Before.ne {W : Nat → Nat} {i j : Nat} (h : Before W i j) : i ≠ j := by
  rintro rfl
  rcases h with h | ⟨-, h⟩
  · exact Nat.lt_irrefl _ h
  · exact Nat.lt_irrefl _ h

/-- An Internal entry with two Leaf entries as its children. -/
theorem Holds.of_two_leaves {nodes : Vector Node nodeMax} {i : Nat} {l r : NodeIdx} {x y : Byte}
    (h : nodes[i]? = some (Node.ofChildren l r)) (hl : nodes[l.toNat]? = some (Node.ofSymbol x))
    (hr : nodes[r.toNat]? = some (Node.ofSymbol y)) :
    Holds nodes i (.node (.leaf x) (.leaf y)) [i, l.toNat, r.toNat] :=
  .node (n := Node.ofChildren l r) h rfl (.leaf (n := Node.ofSymbol x) hl rfl) (.leaf (n := Node.ofSymbol y) hr rfl)

/-- The one merge of two leaves: the lighter one, at equal weight the first, is the left child (R84, R86). -/
theorem Arena.Greedy.two {a : Arena} {p q : Byte × Nat} {W : Nat → Nat} (h : a.Greedy [p, q] W) :
    (p.2 ≤ q.2 ∧ ∃ L, Holds a.nodes 2 (.node (.leaf p.1) (.leaf q.1)) L) ∨
      (q.2 < p.2 ∧ ∃ L, Holds a.nodes 2 (.node (.leaf q.1) (.leaf p.1)) L) := by
  obtain ⟨hleaf, hmerge⟩ := h
  obtain ⟨h0, hW0⟩ : a.nodes[0]? = some (Node.ofSymbol p.1) ∧ W 0 = p.2 := hleaf 0 Nat.zero_lt_two
  obtain ⟨h1, hW1⟩ : a.nodes[1]? = some (Node.ofSymbol q.1) ∧ W 1 = q.2 := hleaf 1 Nat.one_lt_two
  obtain ⟨l, r, h2, -, ⟨hl, -⟩, ⟨hr, -⟩, hb, -⟩ := hmerge 2 (Nat.le_refl 2) (Nat.lt_succ_self 2)
  have hne := hb.ne
  have hcases : (l.toNat = 0 ∧ r.toNat = 1) ∨ (l.toNat = 1 ∧ r.toNat = 0) := by omega
  rcases hcases with ⟨hl, hr⟩ | ⟨hl, hr⟩
  · rw [Before, hl, hr, hW0, hW1] at hb
    exact .inl ⟨by omega, _, .of_two_leaves h2 (hl ▸ h0) (hr ▸ h1)⟩
  · rw [Before, hl, hr, hW0, hW1] at hb
    exact .inr ⟨by omega, _, .of_two_leaves h2 (hl ▸ h1) (hr ▸ h0)⟩

section
variable {freq : Vector Word 256} {x y : Byte}

/-- The present symbols, when there are exactly two. -/
theorem present_two (hx : freqOf freq x ≠ 0) (hy : freqOf freq y ≠ 0)
    (hz : ∀ z, z ≠ x → z ≠ y → freqOf freq z = 0) (hlt : x.toNat < y.toNat) :
    Present freq [(x, freqOf freq x), (y, freqOf freq y)] := by
  refine ⟨by simpa using hlt, fun z f => ?_⟩
  simp only [List.mem_cons, List.not_mem_nil, or_false, Prod.mk.injEq]
  constructor
  · rintro (⟨rfl, rfl⟩ | ⟨rfl, rfl⟩)
    · exact ⟨rfl, hx⟩
    · exact ⟨rfl, hy⟩
  · rintro ⟨rfl, hne⟩
    by_cases ex : z = x
    · exact .inl ⟨ex, ex ▸ rfl⟩
    · by_cases ey : z = y
      · exact .inr ⟨ey, ey ▸ rfl⟩
      · exact absurd (hz z ex ey) hne

theorem buildTree_two (t : Arena) {p q : Byte × Nat} (h : Present freq [p, q]) :
    (buildTree freq t).valid = true ∧ (buildTree freq t).root.toNat = 2 ∧ ∃ W, (buildTree freq t).Greedy [p, q] W := by
  have hps := present_unique h
  obtain ⟨_, _, W, -, -, -, hv, -, hroot, hgreedy, -⟩ := buildTree_spec freq t (by rw [← hps]; simp)
  rw [← hps] at hroot hgreedy
  exact ⟨hv, hroot, W, hgreedy⟩

/-- Of two symbols the one of smaller count, at equal count the smaller one, is the left leaf. -/
theorem buildTree_lighter_left (t : Arena) (hne : x ≠ y) (hx : freqOf freq x ≠ 0) (hy : freqOf freq y ≠ 0)
    (hz : ∀ z, z ≠ x → z ≠ y → freqOf freq z = 0)
    (hxy : freqOf freq x < freqOf freq y ∨ (freqOf freq x = freqOf freq y ∧ x.toNat < y.toNat)) :
    (buildTree freq t).valid = true ∧
      ∃ L, Holds (buildTree freq t).nodes (buildTree freq t).root.toNat (.node (.leaf x) (.leaf y)) L := by
  rcases Nat.lt_or_ge x.toNat y.toNat with hlt | hge
  · obtain ⟨hv, hroot, W, hgreedy⟩ := buildTree_two t (present_two hx hy hz hlt)
    rw [hroot]
    rcases hgreedy.two with ⟨-, hh⟩ | ⟨hgt, -⟩
    · exact ⟨hv, hh⟩
    · simp only at hgt
      omega
  · have hlt : y.toNat < x.toNat := Nat.lt_of_le_of_ne hge fun e => hne (BitVec.eq_of_toNat_eq e.symm)
    obtain ⟨hv, hroot, W, hgreedy⟩ := buildTree_two t (present_two hy hx (fun z h h' => hz z h' h) hlt)
    rw [hroot]
    rcases hgreedy.two with ⟨hle, -⟩ | ⟨-, hh⟩
    · simp only at hle
      omega
    · exact ⟨hv, hh⟩

end

/-- Settles O42: the merge puts the lighter leaf left (`buildTree_lighter_left`), so its path is `0`. -/
theorem twoSymbolCodes : Obligations.TwoSymbolCodes := by
  intro s x y hne hx hy hz hxy
  obtain ⟨hv, L, hh⟩ := buildTree_lighter_left s.tree hne hx hy hz hxy
  have hr := (buildTree_wellFormed hv).readTree_holds hh
  obtain ⟨c, hc, he⟩ := exec_buildCodes_shallow
    (s := { s with tree := buildTree s.freq s.tree, codes := { s.codes with valid := false } }.complete .none)
    hv hr (by simp [HTree.depth])
  obtain ⟨hvalid, -, hlast⟩ := buildCodes_entry hc
  have hcx := (hlast [] x [false] [(y, [true])] rfl (by simpa using hne)).2
  have hcy := (hlast [(x, [false])] y [true] [] rfl (by simp)).2
  exact ⟨_, _, rfl, ⟨L, hh⟩, he, rfl, hvalid, hcx, hcy⟩

end Sys2Proof.Machine

/-! PROOF of the tree-format statements (R72, R91 to R99): the serializer, the deserializer and the header
codec, the bytes they turn away, the single token, and the part of OBUF that a command leaves alone. -/

namespace Sys2Proof.Machine

/-! ### The deserializer (R92, R93, R97) -/

theorem State.inLenTooBig_of_fits {s : State} (h : s.inLen.toNat ≤ s.cfg.ibufBytes.toNat) :
    s.inLenTooBig = false :=
  decide_eq_false (Nat.not_lt.2 h)

/-- With IN_LEN in range DESERIALIZE_TREE is what `des_tree` makes of the bytes from ARG0 up. -/
theorem exec_deserializeTree_fits {s : State} (h : s.inLen.toNat ≤ s.cfg.ibufBytes.toNat) :
    exec .deserializeTree s = finish drawDeserialize s
      (desTree s.ibuf s.arg0.toNat s.desLimit s.tree.nodes)
      (fun (tree, p) => { s with tree := tree, codes := { s.codes with valid := false }, result := p }) := by
  rw [exec, execDeserializeTree, State.inLenTooBig_of_fits h, if_neg Bool.false_ne_true]

/-- NODE_COUNT has room for every tree of at most 256 leaves (R74). -/
theorem arenaFor_count (nodes : Vector Node nodeMax) {t : HTree} (h : t.leaves.length ≤ 256) :
    (arenaFor nodes t).count.toNat = t.size := by
  have hsize := t.size_eq
  rw [BitVec.toNat_ofNat]
  exact Nat.mod_eq_of_lt (by omega)

/-- Settles O44: `desTree_serialize`, by induction on the tree, gives the arena and the address. -/
theorem deserializeInvertsSerialize : Obligations.DeserializeInvertsSerialize := by
  intro s t hin hb hl hk
  obtain ⟨nodes, hh, hd⟩ := desTree_serialize t s.arg0.toNat s.desLimit s.tree.nodes hb hl hk
  refine ⟨arenaFor nodes t, hh, rfl, rfl, ?_, ?_⟩
  · have hsize := t.size_eq
    rw [arenaFor_count nodes hk]
    omega
  · rw [exec_deserializeTree_fits hin, hd]
    rfl

/-- A command that completes without error has returned (R139). -/
theorem returns_of_exec {i : Instr} {s t : State} (hi : i.format = .cmd) (h : exec i s = .next t)
    (he : t.err = .none) : ∃ u, Returns i s u ∧ t = u.complete .none := by
  cases exec_ends hi h with
  | returns hu => exact ⟨_, hu, rfl⟩
  | clean hr | drawn hr => exact absurd he hr.ne_none

/-- Settles O45: what `des_tree` accepts begins with a serialized tree (`desTree_sound`), and over that it
answers with that tree (`desTree_serialize`). -/
theorem deserializeIsSound : Obligations.DeserializeIsSound := by
  intro s u h he
  obtain ⟨_, ⟨a, p, -, hd, rfl⟩, rfl⟩ := returns_of_exec rfl h he
  obtain ⟨t, hb, hl, hk⟩ := desTree_sound hd
  obtain ⟨nodes, hh, hd'⟩ := desTree_serialize t s.arg0.toNat s.desLimit s.tree.nodes hb hl hk
  obtain ⟨rfl, rfl⟩ := Prod.mk.inj (Except.ok.inj (hd.symm.trans hd'))
  have hlimit : s.desLimit ≤ s.inLen.toNat := Nat.min_le_right _ _
  have hp : (BitVec.ofNat 32 (s.arg0.toNat + t.serialize.length)).toNat =
      s.arg0.toNat + t.serialize.length := by
    rw [BitVec.toNat_ofNat]
    exact Nat.mod_eq_of_lt (by have := s.inLen.isLt; omega)
  exact ⟨t, hh, rfl, rfl, arenaFor_count nodes hk, hb, hp, hp.trans_le hl⟩

/-! ### The serializer (R91, R96) -/

/-- The serialized tree of k leaves has 3k − 1 bytes (R74). -/
theorem HTree.serialize_length_eq (t : HTree) : t.serialize.length = 3 * t.leaves.length - 1 := by
  have := t.serialize_length
  omega

/-- With a tree in the arena and no partial byte SERIALIZE_TREE is what `emit` makes of its bytes. -/
theorem exec_serializeTree_tree {s : State} {t : HTree} (hv : s.tree.valid = true)
    (hc : s.writer.cnt = 0) (hr : readTree s.tree = .ok t) :
    exec .serializeTree s = finish drawSerialize s (emitAll s.obufCap t.serialize false s.writer)
      (fun w => { s with writer := w, result := w.outLen - s.writer.outLen }) := by
  have hcheck : (s.tree.valid && s.writer.cnt == 0) = true := by simp [hv, hc]
  rw [exec, execSerializeTree, if_pos hcheck, hr]

/-- What OUT_LEN has grown by is how many bytes were appended (R96). -/
theorem Writer.AppendedBytes.outLen_sub {w w' : Writer} {bytes : List Byte}
    (h : w.AppendedBytes bytes w') : w'.outLen - w.outLen = BitVec.ofNat 32 bytes.length := by
  obtain ⟨-, -, hlen, -⟩ := h
  bv_omega

/-- Settles O43: the tree's bytes are emitted where they fit (`emitAll_appended`) and overflow where they do
not (`emitAll_overflow`). -/
theorem serializeTreeCompletes : Obligations.SerializeTreeCompletes := by
  refine ⟨rfl, fun s => ⟨fun hv hw hc hm => ?_, fun h => ?_⟩⟩
  · obtain ⟨t, L, hh, -, hr, -⟩ := hw.tree
    have hexec := exec_serializeTree_tree hv hc hr
    have hcap : s.obufCap < 2 ^ 32 := s.cfg.obufBytes.isLt
    refine ⟨t, L, hh, ?_⟩
    rw [← t.serialize_length_eq]
    refine ⟨fun hfit => ?_, fun hover => ?_⟩
    · obtain ⟨w, hemit, happ, -⟩ := emitAll_appended hcap t.serialize false s.writer hm hfit
      refine ⟨w, happ, ?_⟩
      rw [hexec, hemit, finish_ok, happ.outLen_sub]
    · have hne : t.serialize ≠ [] := by cases t <;> simp [HTree.serialize]
      obtain ⟨dirty, hemit⟩ := emitAll_overflow hcap t.serialize false s.writer hover hne
      rw [hexec, hemit]
      exact ⟨_, rfl, rfl⟩
  · rcases h with hv | hc
    · exact exec_treeInvalid hv (by decide)
    · exact exec_serializeTree_partial hc

/-! ### The header codec (R98, R99) -/

/-- With a tree in the arena WRITE_HEADER is what `writeHeader` makes of it. -/
theorem exec_writeHeader_tree {s : State} {t : HTree} (hv : s.tree.valid = true)
    (hr : readTree s.tree = .ok t) :
    exec .writeHeader s = finish drawWriteHeader s (writeHeader s.obufCap s.arg0 t s.writer)
      (fun w => { s with writer := w, hdrSize := w.outLen, origSize := s.arg0 }) := by
  rw [exec, execWriteHeader, if_pos hv, hr]

/-- Settles O46: `writeHeader_ok` where the header fits, `writeHeader_overflow` where it does not. -/
theorem writeHeaderCompletes : Obligations.WriteHeaderCompletes := by
  refine ⟨rfl, fun s => ⟨fun hv hw hm => ?_, fun hv => exec_treeInvalid hv (by decide)⟩⟩
  obtain ⟨t, L, hh, -, hr, -⟩ := hw.tree
  have hexec := exec_writeHeader_tree hv hr
  have hcap : s.obufCap < 2 ^ 32 := s.cfg.obufBytes.isLt
  have hlen : 3 * t.leaves.length + 7 = 8 + t.serialize.length := by
    have := t.serialize_length
    omega
  refine ⟨t, L, hh, ?_⟩
  rw [hlen]
  refine ⟨fun hfit => ?_, fun hover => ?_⟩
  · obtain ⟨w, hwrite, hcnt, hacc, hout, -, hget⟩ := writeHeader_ok hcap s.arg0 t s.writer hm hfit
    refine ⟨w, hacc, hcnt, ?_, hget, ?_⟩
    · rw [hout, BitVec.toNat_ofNat]
      exact Nat.mod_eq_of_lt (Nat.lt_of_le_of_lt hfit hcap)
    · rw [hexec, hwrite, finish_ok, hout]
  · rw [hexec, writeHeader_overflow hcap s.arg0 t s.writer hover]
    exact ⟨_, rfl, rfl⟩

/-- With IN_LEN in range READ_HEADER is what `readHeader` makes of IBUF. -/
theorem exec_readHeader_fits {s : State} (h : s.inLen.toNat ≤ s.cfg.ibufBytes.toNat) :
    exec .readHeader s = finish drawReadHeader s (readHeader s.ibuf s.inLen s.tree.nodes)
      (fun r => { s.withHeader r with result := r.after }) := by
  rw [exec, execReadHeader, State.inLenTooBig_of_fits h, if_neg Bool.false_ne_true]

/-- Settles O47: `readHeader_ok`, through the two fields and the serialized tree. -/
theorem readHeaderCompletes : Obligations.ReadHeaderCompletes := by
  intro s h o t hin hhdr
  obtain ⟨nodes, hh, hread⟩ := readHeader_ok s.tree.nodes hhdr
  refine ⟨arenaFor nodes t, hh, rfl, rfl, arenaFor_count nodes hhdr.leaves, ?_⟩
  rw [exec_readHeader_fits hin, hread]
  rfl

/-! ### Bytes that are turned away (R92, R97, R99, R118) -/

/-- IBUF holds no header that READ_HEADER accepts: fewer than 8 bytes, or the two fields with a header_size
beyond IN_LEN or with no tree behind them (R99). -/
def NoHeader (ibuf : Memory) (inLen : Word) : Prop :=
  inLen.toNat < 8 ∨ ∃ h o, HoldsBytes ibuf 0 (le32Bytes h ++ le32Bytes o) ∧
    (inLen.toNat < h.toNat ∨ HoldsNoTree ibuf 8 h.toNat)

theorem readHeaderFields_short (ibuf : Memory) {inLen : Word} (h : inLen.toNat < 8) :
    readHeaderFields ibuf inLen = corrupt :=
  if_pos h

theorem readHeaderFields_beyond {ibuf : Memory} {inLen h o : Word}
    (hb : HoldsBytes ibuf 0 (le32Bytes h ++ le32Bytes o)) (hh : inLen.toNat < h.toNat) :
    readHeaderFields ibuf inLen = corrupt := by
  have hread : memReadRange ibuf 0 8 = .ok (le32Bytes h ++ le32Bytes o) := memReadRange_holds hb
  unfold readHeaderFields
  split
  · rfl
  · simp only [hread, le32Bytes, List.cons_append, List.nil_append, le32_le32Bytes, if_pos hh]

/-- READ_HEADER's body turns such bytes away. -/
theorem readHeader_corrupt {ibuf : Memory} {inLen : Word} (nodes : Vector Node nodeMax)
    (h : NoHeader ibuf inLen) : readHeader ibuf inLen nodes = corrupt := by
  rcases Nat.lt_or_ge inLen.toNat 8 with hshort | h8
  · rw [readHeader, readHeaderFields_short ibuf hshort]
    rfl
  · rcases h with hshort | ⟨h, o, hb, hbad⟩
    · exact absurd hshort (Nat.not_lt.2 h8)
    · rcases Nat.lt_or_ge inLen.toNat h.toNat with hbeyond | hle
      · rw [readHeader, readHeaderFields_beyond hb hbeyond]
        rfl
      · have htree := hbad.resolve_left (Nat.not_lt.2 hle)
        simp only [readHeader, readHeaderFields_ok hb h8 hle, desTree_corrupt htree, corrupt]

/-- With a non-empty input in range DECOMPRESS is what `decompressInput` makes of it. -/
theorem exec_decompress_input {s : State} (h : s.inLen.toNat ≤ s.cfg.ibufBytes.toNat)
    (h0 : s.inLen ≠ 0) :
    exec .decompress s = finish drawDecompress s (decompressInput s)
      (fun r => { s.withHeader r.header with reader := r.reader, writer := r.writer }) := by
  rw [exec, execDecompress, State.inLenTooBig_of_fits h, if_neg Bool.false_ne_true, if_neg h0]

theorem decompressInput_corrupt {s : State} (h : NoHeader s.ibuf s.inLen) :
    decompressInput s = corrupt := by
  simp only [decompressInput, readHeader_corrupt s.tree.nodes h, corrupt]

/-- An error of DECOMPRESS behind its IN_LEN checks leaves draws, no tree and an empty output (R118, R125). -/
theorem exec_decompress_raise {s : State} (h : s.inLen.toNat ≤ s.cfg.ibufBytes.toNat)
    (h0 : s.inLen ≠ 0) {e : Err} (he : decompressInput s = .error (.raise e true)) :
    ∃ u, exec .decompress s = .next u ∧ u.err = e ∧ u.writer.outLen = 0 ∧ u.tree.valid = false ∧
      u.codes.valid = false := by
  rw [exec_decompress_input h h0, he]
  exact ⟨_, rfl, rfl, rfl, rfl, rfl⟩

theorem HeaderIn.inLen_ne_zero {ibuf : Memory} {inLen h o : Word} {t : HTree}
    (hin : HeaderIn ibuf inLen h o t) : inLen ≠ 0 := by
  obtain ⟨-, hl, hh, -⟩ := hin
  rintro rfl
  have : h.toNat ≤ 0 := hh
  omega

/-- Settles O48: where there is no header `readHeader_corrupt`, where there is no tree `desTree_corrupt`, and
behind a header `decompressInput_overflow` and `decompressInput_stops`. -/
theorem corruptBuffers : Obligations.CorruptBuffers := by
  intro s hin
  refine ⟨?_, fun hno => ?_, fun h o t hhdr => ⟨fun hover => ?_, ?_⟩⟩
  · rintro hno i (rfl | ⟨rfl, h0⟩)
    · rw [exec_readHeader_fits hin, readHeader_corrupt s.tree.nodes hno]
      exact ⟨_, rfl, rfl, rfl, rfl, nofun⟩
    · obtain ⟨u, hu, he, hout, hv, hc⟩ := exec_decompress_raise hin h0 (decompressInput_corrupt hno)
      exact ⟨u, hu, he, hv, hc, fun _ => hout⟩
  · rw [exec_deserializeTree_fits hin, State.desLimit, desTree_corrupt hno]
    exact ⟨_, rfl, rfl, rfl, rfl⟩
  · exact exec_decompress_raise hin hhdr.inLen_ne_zero (decompressInput_overflow hhdr hover)
  · intro code symbols x bits more start stop hcap hlen hcode hx hmore hpos hbit hlimit hg hm hend
    cases eq_payloadReader hhdr.within hpos hbit hlimit
    exact exec_decompress_raise hin hhdr.inLen_ne_zero
      (decompressInput_stops hhdr hcap hcode hlen hx hmore hg hm hend)

/-! ### The step at a token and at a bit (R92, R109, R116) -/

theorem step_deserialize {s : State} (hs : s.schedule = []) (hb : s.busy = true) {d : Des} {use : DesUse}
    (ha : s.activity = some (.deserialize d use)) : step s = resumeDeserialize s d use := by
  rw [step_core hs, coreMove, if_pos hb, ha]

theorem step_walk {s : State} (hs : s.schedule = []) (hb : s.busy = true) {w : Walk} {use : WalkUse}
    (ha : s.activity = some (.walk w use)) : step s = resumeWalk s w use := by
  rw [step_core hs, coreMove, if_pos hb, ha]

/-- The token at the cursor, all of it below the bound, is fetched (R92). -/
theorem fetchToken_encode {ibuf : Memory} {d : Des} {i : Instr} {bytes : List Byte}
    (he : encode i = .token bytes) (hb : HoldsBytes ibuf d.pos bytes)
    (hl : d.pos + bytes.length ≤ d.limit) :
    fetchToken ibuf d = .ok (i, { d with pos := d.pos + bytes.length }) := by
  cases i with
  | treeInternal => cases he; exact fetchToken_internal hl hb.head
  | treeLeaf x => cases he; exact fetchToken_leaf hl hb.head hb.tail.head
  | _ => cases he

/-- Where the deserializer finds no token: at its bound, at an illegal flag byte, or at a Leaf's flag byte
with the bound behind it (R73, R92). -/
def Des.AtNoToken (d : Des) (ibuf : Memory) : Prop :=
  d.limit ≤ d.pos ∨
    (d.pos < d.limit ∧ ∃ flag, ibuf.get d.pos = some flag ∧
      (2 ≤ flag.toNat ∨ (flag = 0x01 ∧ d.limit = d.pos + 1)))

theorem readWithin_beyond (ibuf : Memory) {limit p : Nat} (h : limit ≤ p) :
    readWithin ibuf limit p = corrupt :=
  if_pos h

theorem fetchToken_corrupt {ibuf : Memory} {d : Des} (h : d.AtNoToken ibuf) :
    fetchToken ibuf d = corrupt := by
  rcases h with hend | ⟨hl, flag, hget, hflag | ⟨rfl, hend⟩⟩
  · rw [fetchToken, readWithin_beyond ibuf hend]
    rfl
  · rw [fetchToken, readWithin_ok hl hget]
    simp only [decodeToken_illegal hflag]
  · rw [fetchToken, readWithin_ok hl hget]
    simp only [decodeToken, readWithin_beyond ibuf hend.le]
    rfl

theorem decodeBit_of_encode {i : Instr} {v : Bool} (h : encode i = .bit v) : i = decodeBit v := by
  cases i with
  | payloadBitLeft | payloadBitRight => cases h; rfl
  | _ => cases h

/-- Every error of `des_tree` leaves no tree and no codes (R92, R125). -/
theorem desUse_draw_invalid (use : DesUse) (s : State) :
    (use.draw s).tree.valid = false ∧ (use.draw s).codes.valid = false := by
  cases use <;> exact ⟨rfl, rfl⟩

/-- Settles O16: the token is fetched (`fetchToken_encode`) or there is none (`fetchToken_corrupt`), the bit
is read (`readBit_gives`) or the extent ends. -/
theorem stepRunsTokensAndBits : Obligations.StepRunsTokensAndBits := by
  intro s hs hb
  refine ⟨fun i d use bytes ha he hbytes hl => ?_, fun d use ha hno => ?_, fun i w use v ha he hg => ?_,
    fun w use ha hend => ?_⟩
  · rw [step_deserialize hs hb ha, resumeDeserialize, fetchToken_encode he hbytes hl]
  · obtain ⟨hv, hc⟩ := desUse_draw_invalid use s
    rw [step_deserialize hs hb ha, resumeDeserialize, fetchToken_corrupt hno]
    exact ⟨_, rfl, rfl, rfl, rfl, hv, hc⟩
  · obtain ⟨hread, hm, -⟩ := readBit_gives (dirty := w.dirty) hg
    rw [step_walk hs hb ha, resumeWalk, hread, decodeBit_of_encode he]
    exact ⟨_, hm, rfl⟩
  · have hread : readBit s.ibuf w.dirty s.reader = .error (.raise .endOfStream w.dirty) := if_pos hend
    rw [step_walk hs hb ha, resumeWalk, hread]
    refine ⟨_, rfl, rfl, rfl, rfl, ?_⟩
    rintro rfl hdirty
    rw [hdirty]
    exact ⟨rfl, rfl, rfl⟩

/-! ### The single tree token (R92, R93) -/

section
variable {d : Des} {nodes : Vector Node nodeMax}

theorem desInternal_room (h : d.cnt < nodeMax) :
    desInternal d nodes =
      .ok ({ d with cnt := d.cnt + 1, stack := .left (BitVec.ofNat 9 d.cnt) :: d.stack }, nodes, none) :=
  if_neg (Nat.not_le.2 h)

theorem desLeaf_room (h : d.cnt < nodeMax) (x : Byte) {nodes' : Vector Node nodeMax}
    {stack : List Frame} {root : Option NodeIdx}
    (hd : deliver (nodes.setIfInBounds d.cnt (Node.ofSymbol x)) (BitVec.ofNat 9 d.cnt) d.stack =
      (nodes', stack, root)) :
    desLeaf x d nodes = .ok ({ d with cnt := d.cnt + 1, stack := stack }, nodes', root) := by
  rw [desLeaf, if_neg (Nat.not_le.2 h), hd]

/-- The 512th token finds no entry of NODE (R94). -/
theorem desToken_full (h : nodeMax ≤ d.cnt) (i : Instr) : desToken i d nodes = corrupt := by
  cases i with
  | treeInternal | treeLeaf x => exact if_pos h
  | _ => rfl

end

/-- DESERIALIZE_TREE and READ_HEADER end with the tree (R97, R99). -/
theorem afterTree_result {use : DesUse} (h : use ≠ .decompress) (p : Nat) (s : State) :
    afterTree use p s = .next ({ s with result := BitVec.ofNat 32 p }.complete .none) := by
  cases use with
  | deserializeTree | readHeader => rfl
  | decompress => exact absurd rfl h

/-- Settles O50: where `deliver` takes the leaf is decided by the top of the recursion stack. -/
theorem treeTokensComplete : Obligations.TreeTokensComplete := by
  intro s d use x ha
  have hexec {i : Instr} (hi : i.format = .treeToken) := exec_of_token hi ha
  refine ⟨fun hlt => ?_, fun i rest hlt hst => ?_, fun hlt hst hu => ?_, fun i l hlt hst hu => ?_,
    fun hfull i hi => ?_⟩
  · rw [hexec rfl, desToken, desInternal_room hlt]
    rfl
  · rw [hexec rfl, desToken, desLeaf_room hlt x (by rw [hst, deliver])]
    rfl
  · rw [hexec rfl, desToken, desLeaf_room hlt x (by rw [hst, deliver])]
    exact afterTree_result hu _ _
  · rw [hexec rfl, desToken, desLeaf_room hlt x (by rw [hst, deliver, deliver])]
    exact afterTree_result hu _ _
  · have hi : i.format = .treeToken := by
      simp only [List.mem_cons, List.not_mem_nil, or_false] at hi
      rcases hi with rfl | rfl <;> rfl
    obtain ⟨hv, hc⟩ := desUse_draw_invalid use s
    rw [hexec hi, desToken_full hfull]
    exact ⟨_, rfl, rfl, hv, hc⟩

/-! ### The part of OBUF that a command leaves alone (R150) -/

/-- The commands that append leave the bytes below the OUT_LEN they start at, with or without an error. -/
theorem Ends.obuf_below {i : Instr} {s t : State} (h : Ends i s t) (hw : Memory.wf s.writer.obuf = true)
    (hi : i ∉ [Instr.writeHeader, .compress, .decompress]) {a : Nat} (ha : a < s.writer.outLen.toNat) :
    t.writer.obuf.get a = s.writer.obuf.get a ∧ t.obufByte a = s.obufByte a := by
  cases h with
  | @returns u hu =>
    have hgrows := (writer_returns hw hu).resolve_right fun hr => hi hr.1
    have hget : u.writer.obuf.get a = s.writer.obuf.get a := hgrows.frame hw a (.inl ha)
    have hdraws := obufDraws_returns hu
    exact ⟨hget, State.obufByte_congr (t := u.complete .none) hget hdraws⟩
  | clean _ => exact ⟨rfl, rfl⟩
  | @drawn e _ =>
    by_cases hp : Part.obuf ∈ writesOf i
    · obtain ⟨hobuf, hdraws⟩ := obuf_drawOf s hp
      rw [if_neg hi] at hobuf hdraws
      have hbyte := State.obufByte_drawn (t := (drawOf i s).complete e) hw hobuf hdraws a
      rw [if_neg (Nat.not_le.2 ha)] at hbyte
      refine ⟨?_, hbyte⟩
      rw [State.complete_writer, hobuf, Memory.get_below hw, if_pos ha]
    · obtain ⟨hget, hdraws⟩ := parts_drawOf i s .obuf hp
      exact ⟨hget a, State.obufByte_congr (hget a) hdraws⟩

/-- A command that returns leaves the bytes from its final OUT_LEN up. -/
theorem Returns.obuf_above {i : Instr} {s u : State} (h : Returns i s u)
    (hw : Memory.wf s.writer.obuf = true) {a : Nat} (ha : u.writer.outLen.toNat ≤ a) :
    u.writer.obuf.get a = s.writer.obuf.get a ∧ u.obufByte a = s.obufByte a := by
  have hget : u.writer.obuf.get a = s.writer.obuf.get a := by
    rcases writer_returns hw h with hg | ⟨-, hg⟩ <;> exact hg.frame hw a (.inr ha)
  exact ⟨hget, State.obufByte_congr hget (obufDraws_returns h)⟩

/-- Settles O27: below the starting OUT_LEN by the way the command ends (`Ends.obuf_below`), from the final
one up by what it returns (`Returns.obuf_above`). -/
theorem obufFrame : Obligations.ObufFrame := by
  intro i s t hi hw h
  refine ⟨fun hnot a ha => (exec_ends hi h).obuf_below hw hnot ha, fun he a ha => ?_⟩
  obtain ⟨u, hu, rfl⟩ := returns_of_exec hi h he
  exact hu.obuf_above hw ha

end Sys2Proof.Machine

/-! PROOF of the bit-stream statements (R100 to R111): the reader's and the writer's commands, and that no
command leaves stray bits in BW_ACC. -/

namespace Sys2Proof.Machine

/-! ### No stray bits (R32) -/

/-- Settles O29: a command that completes without error has returned (`returns_of_exec`), and what it returns
is clean (`clean_returns`). -/
theorem writerStaysClean : Obligations.WriterStaysClean := by
  intro i s t hi hc h he
  obtain ⟨u, hu, rfl⟩ := returns_of_exec hi h he
  rw [State.complete_writer]
  exact clean_returns hc hu

/-! ### The writer (R102, R105 to R107) -/

/-- An error ends the command with its code in STATUS.ERR, before or after a write (R125). -/
theorem finish_raise {α : Type} (draw : State → State) (s : State) (e : Err) (dirty : Bool)
    (write : α → State) :
    ∃ t, finish draw s (.error (.raise e dirty)) write = .next t ∧ t.err = e :=
  ⟨_, rfl, by cases dirty <;> rfl⟩

/-- WRITE_CODE of at most 32 bits is what `write_bit` makes of the first ARG1 bits of ARG0. -/
theorem exec_writeCode_fits {s : State} (h : s.arg1.toNat ≤ 32) :
    exec .writeCode s = finish drawWriter s
      (writeBits s.obufCap (leadingBits s.arg0 s.arg1.toNat) false s.writer)
      (fun w => { s with writer := w }) := by
  rw [exec, execWriteCode, if_neg (Nat.not_lt.2 h)]

theorem exec_writeCode_tooLong {s : State} (h : 32 < s.arg1.toNat) :
    exec .writeCode s = .next (s.complete .badOperand) := by
  rw [exec, execWriteCode, if_pos h]
  rfl

@[simp] theorem leadingBits_length (value : Word) (n : Nat) : (leadingBits value n).length = n := by
  rw [leadingBits, List.length_map, List.length_range]

/-- Settles O35: the bits are written where their bytes fit (`writeBits_completes`) and overflow where they do
not (`writeBits_overflow`). -/
theorem writeCodeCompletes : Obligations.WriteCodeCompletes := by
  intro s
  have hcap : s.obufCap < 2 ^ 32 := s.cfg.obufBytes.isLt
  have hlen := leadingBits_length s.arg0 s.arg1.toNat
  refine ⟨fun h32 hfit => ?_, fun h32 hover h8 => ?_, exec_writeCode_tooLong⟩
  · obtain ⟨w, hw, hcnt, hout, happ⟩ := writeBits_completes hcap (leadingBits s.arg0 s.arg1.toNat) false
      s.writer (by rw [hlen]; exact hfit)
    rw [hlen] at hcnt hout
    refine ⟨w, ?_, hcnt, hout, fun hclean hwf => happ ⟨hclean, hwf⟩⟩
    rw [exec_writeCode_fits h32, hw, finish_ok]
  · obtain ⟨d, hd⟩ := writeBits_overflow hcap (leadingBits s.arg0 s.arg1.toNat) false s.writer
      (by rw [hlen]; exact hover) (by rw [hlen]; exact h8)
    rw [exec_writeCode_fits h32, hd]
    exact finish_raise ..

/-- The mask of a stream position is the power of two of R102. -/
theorem streamMask_eq : ∀ p : BitVec 3, streamMask p = BitVec.ofNat 8 (2 ^ (7 - p.toNat)) := by decide

/-- A bit that completes no byte stays in BW_ACC (R102). -/
theorem Writer.bitIn_eq (w : Writer) (v : Bool) :
    w.bitIn v = { w with acc := (w.setBit v).acc, cnt := w.cnt + 1 } := by
  cases v <;> rfl

/-- A bit that completes a byte leaves it at OBUF[OUT_LEN] and BW_STATE empty (R103). -/
theorem Writer.byteOut_eq (w : Writer) (v : Bool) :
    w.byteOut v = { acc := 0, cnt := 0, outLen := w.outLen + 1
                    obuf := w.obuf.set w.outLen.toNat (w.setBit v).acc } := by
  cases v <;> rfl

/-- Settles O34: the three answers of `write_bit` (`writeBit_cases`), as fields of the writer
(`Writer.bitIn_eq`, `Writer.byteOut_eq`). -/
theorem writeBitCompletes : Obligations.WriteBitCompletes := by
  refine ⟨rfl, fun s byte hbyte => ?_⟩
  have hacc : (s.writer.setBit (bitArg s.arg0)).acc = byte := by
    rw [hbyte, Writer.setBit_acc, streamMask_eq, bitArg]
  rw [exec, execWriteBit]
  rcases writeBit_cases s.obufCap (bitArg s.arg0) false s.writer with
    ⟨h7, hw⟩ | ⟨h7, hlt, hw⟩ | ⟨h7, hge, hw⟩ <;> rw [hw]
  · refine ⟨fun _ => ?_, fun h => absurd h h7, fun h => absurd h h7⟩
    rw [finish_ok, Writer.bitIn_eq, hacc]
  · refine ⟨fun h => absurd h7 h, fun _ _ => ?_, fun _ hge => absurd hlt (Nat.not_lt.2 hge)⟩
    rw [finish_ok, Writer.byteOut_eq, hacc]
  · exact ⟨fun h => absurd h7 h, fun _ hlt => absurd hlt (Nat.not_lt.2 hge), fun _ _ => finish_raise ..⟩

/-- Settles O36: the three answers of BW_FINISH's body (`flushByte_cases`). -/
theorem bwFinishCompletes : Obligations.BwFinishCompletes := by
  refine ⟨rfl, fun s => ?_⟩
  rw [exec, execBwFinish]
  rcases flushByte_cases s.obufCap false s.writer with
    ⟨h0, hf⟩ | ⟨h0, hlt, hf⟩ | ⟨h0, hge, hf⟩ <;> rw [hf]
  · exact ⟨fun _ => rfl, fun h => absurd h0 h, fun h => absurd h0 h⟩
  · exact ⟨fun h => absurd h h0, fun _ _ => rfl, fun _ hge => absurd hlt (Nat.not_lt.2 hge)⟩
  · exact ⟨fun h => absurd h h0, fun _ hlt => absurd hlt (Nat.not_lt.2 hge), fun _ _ => finish_raise ..⟩

/-! ### The reader (R109 to R111) -/

/-- The clamped end of BR_INIT fits its register (R110). -/
theorem readerAt_limit (start extent inLen : Word) :
    (readerAt start extent inLen).limit.toNat = min (start.toNat + extent.toNat) inLen.toNat := by
  rw [readerAt, BitVec.toNat_ofNat]
  exact Nat.mod_eq_of_lt (Nat.lt_of_le_of_lt (Nat.min_le_right _ _) inLen.isLt)

/-- Settles O32: the end of the extent is `readerAt_limit`, the failing check `exec_inLenTooBig`. -/
theorem brInitCompletes : Obligations.BrInitCompletes := by
  refine ⟨rfl, fun s => ⟨fun hin => ?_, fun hbig => exec_inLenTooBig hbig (by decide)⟩⟩
  refine ⟨readerAt s.arg0 s.arg1 s.inLen, ?_, rfl, rfl, readerAt_limit _ _ _⟩
  rw [exec, execBrInit, State.inLenTooBig_of_fits hin, if_neg Bool.false_ne_true, finish_ok]

/-- Settles O33: the bit is read (`readBit_gives`) or the extent has ended before any write. -/
theorem readBitCompletes : Obligations.ReadBitCompletes := by
  refine ⟨rfl, fun s => ⟨fun v hg => ?_, fun hend => ?_⟩⟩
  · obtain ⟨hread, hmoved, -⟩ := readBit_gives (dirty := false) hg
    refine ⟨_, hmoved, ?_⟩
    rw [exec, execReadBit, hread, finish_ok]
    cases v <;> rfl
  · have hread : readBit s.ibuf false s.reader = .error (.raise .endOfStream false) := if_pos hend
    rw [exec, execReadBit, hread]
    rfl

end Sys2Proof.Machine

/-! PROOF of the codec statements (R112 to R123): the encoder and the decoder one command and one payload bit
at a time, COMPRESS and DECOMPRESS as wholes, that the second undoes the first, and what they depend on. -/

namespace Sys2Proof.Machine

/-! ### NOP, BW_RESET and the empty input (R104, R112, R121) -/

/-- Settles O31: neither command has a condition. -/
theorem nopAndBwResetComplete : Obligations.NopAndBwResetComplete :=
  ⟨rfl, rfl, fun _ => ⟨rfl, rfl⟩⟩

/-- COMPRESS reads nothing where IN_LEN is 0 (R121). -/
theorem exec_compress_empty {s : State} (h : s.inLen = 0) :
    exec .compress s = .next (s.compressEmpty.complete .none) := by
  have hlen : ([] : List Byte).length = s.inLen.toNat := by rw [h]; rfl
  have hfit : s.inLen.toNat ≤ s.cfg.ibufBytes.toNat := by rw [h]; exact Nat.zero_le _
  rw [exec, execCompress, readInput_holds (fun _ hj => absurd hj (Nat.not_lt_zero _)) hlen hfit]
  exact if_pos h

/-- DECOMPRESS reads nothing where IN_LEN is 0 (R121). -/
theorem exec_decompress_empty {s : State} (h : s.inLen = 0) :
    exec .decompress s = .next (s.decompressEmpty.complete .none) := by
  have hfit : s.inLen.toNat ≤ s.cfg.ibufBytes.toNat := by rw [h]; exact Nat.zero_le _
  rw [exec, execDecompress, State.inLenTooBig_of_fits hfit, if_neg Bool.false_ne_true, if_pos h]

/-- No byte is counted in an empty input. -/
theorem countFreq_nil (b : Byte) : (countFreq [])[b.toNat]'b.isLt = 0 :=
  Vector.getElem_replicate _

/-- Settles O53: both commands complete with what they write of no tree. -/
theorem emptyInput : Obligations.EmptyInput := fun _ h =>
  ⟨⟨_, exec_compress_empty h, rfl, rfl, rfl, rfl, countFreq_nil, rfl, rfl, rfl, rfl, rfl, rfl, rfl⟩,
    _, exec_decompress_empty h, rfl, rfl, rfl, rfl, rfl, rfl, rfl, rfl, rfl⟩

/-! ### DECOMPRESS (R118) -/

/-- Settles O58: behind an accepted header the decoder takes the symbols from the payload reader
(`decompressInput_ok`), which is the one reader with the extent of R118 (`eq_payloadReader`). -/
theorem decompressDecodes : Obligations.DecompressDecodes := by
  intro s h o t code symbols start hfits hin hlen hcode hpos hbit hlimit hgives hcap hwf
  cases eq_payloadReader hin.within hpos hbit hlimit
  obtain ⟨nodes, r, w, hh, ⟨hend, hrbit, hrpos⟩, hd, hcnt, hacc, hout, -, hget⟩ :=
    decompressInput_ok hin hcode hlen hgives hcap hwf
  refine ⟨arenaFor nodes t, r, w, hh, rfl, arenaFor_count nodes hin.leaves, rfl, ?_, ?_, hend, hout, hacc,
    hcnt, hget, ?_⟩
  · simpa [payloadReader] using hrpos
  · simpa [payloadReader] using hrbit
  · rw [exec_decompress_input hfits hin.inLen_ne_zero, hd]
    rfl

/-! ### ENCODE_BYTE (R113) -/

/-- With a code for its symbol ENCODE_BYTE is what `write_bit` makes of the code's bits. -/
theorem exec_encodeByte_code {s : State} (hv : s.codes.valid = true)
    (hcode : (s.codes.entry (symbolArg s.arg0)).2 ≠ 0) :
    exec .encodeByte s = finish drawWriter s
      (writeBits s.obufCap (s.codes.bits (symbolArg s.arg0)) false s.writer)
      (fun w => { s with writer := w }) := by
  have hcheck : (s.codes.valid &&
      s.codes.len[(symbolArg s.arg0).toNat]'(symbolArg s.arg0).isLt != 0) = true :=
    Bool.and_eq_true_iff.2 ⟨hv, bne_iff_ne.2 hcode⟩
  rw [exec, execEncodeByte, if_pos hcheck]

/-- Settles O37: the code's bits are written where their bytes fit (`writeBits_completes`) and overflow where
they do not (`writeBits_overflow`). -/
theorem encodeByteCompletes : Obligations.EncodeByteCompletes := by
  rintro s _ _ rfl hv hcode rfl
  have hcap : s.obufCap < 2 ^ 32 := s.cfg.obufBytes.isLt
  have hlen : (s.codes.bits (symbolArg s.arg0)).length = (s.codes.entry (symbolArg s.arg0)).2.toNat :=
    leadingBits_length _ _
  refine ⟨fun hfit => ?_, fun hover h8 => ?_⟩
  · obtain ⟨w, hw, hcnt, hout, happ⟩ := writeBits_completes hcap (s.codes.bits (symbolArg s.arg0)) false
      s.writer (by rw [hlen]; exact hfit)
    rw [hlen] at hcnt hout
    refine ⟨w, ?_, hcnt, hout, fun hclean hwf => happ ⟨hclean, hwf⟩⟩
    rw [exec_encodeByte_code hv hcode, hw, finish_ok]
  · obtain ⟨d, hd⟩ := writeBits_overflow hcap (s.codes.bits (symbolArg s.arg0)) false s.writer
      (by rw [hlen]; exact hover) (by rw [hlen]; exact h8)
    rw [exec_encodeByte_code hv hcode, hd]
    exact finish_raise ..

/-! ### DECODE_SYMBOL (R116, R117) -/

/-- With a tree DECODE_SYMBOL is what `decode_sym` makes of it. -/
theorem exec_decodeSymbol_tree {s : State} (hv : s.tree.valid = true) :
    exec .decodeSymbol s = finish drawReadBit s (decodeSym s.tree s.ibuf false s.reader)
      (fun (x, r) => { s with reader := r, result := x.setWidth 32 }) := by
  rw [exec, execDecodeSymbol, if_pos hv]

/-- A one-leaf tree consumes one bit of either value (R116). -/
theorem decodeSym_leaf {a : Arena} {x : Byte} {L : List Nat} (h : Holds a.nodes a.root.toNat (.leaf x) L)
    {ibuf : Memory} {v : Bool} {r : Reader} (hg : r.Gives ibuf [v]) (dirty : Bool) :
    r.MovedBy 1 r.advance ∧ decodeSym a ibuf dirty r = .ok (x, r.advance) := by
  obtain ⟨hbit, hm, -⟩ := readBit_gives (dirty := dirty) hg
  exact ⟨hm, by simp only [decodeSym, walkLoop, hbit, walkBit_leaf h]⟩

/-- Without one bit in the extent `decode_sym` stops at once (R109). -/
theorem decodeSym_no_bit (a : Arena) (ibuf : Memory) (dirty : Bool) {r : Reader}
    (h : r.limit.toNat ≤ r.pos.toNat) : decodeSym a ibuf dirty r = .error (.raise .endOfStream dirty) := by
  simp only [decodeSym, walkLoop, readBit, if_pos h]

/-- Settles O49: the path of a leaf is `decodeSym_code`, a one-leaf tree `decodeSym_leaf`, bits that run out
`decodeSym_stops`. -/
theorem decodeSymbolCompletes : Obligations.DecodeSymbolCompletes := by
  refine ⟨rfl, fun s => ⟨fun t L hv hh => ⟨fun x bits hmem hg => ?_, ?_, ?_⟩, fun hv hend => ?_,
    fun hv => exec_treeInvalid hv (by decide)⟩⟩
  · obtain ⟨r, hm, hd⟩ := decodeSym_code hh hmem false hg
    exact ⟨r, hm, by rw [exec_decodeSymbol_tree hv, hd, finish_ok]⟩
  · rintro x v rfl hg
    obtain ⟨hm, hd⟩ := decodeSym_leaf hh hg false
    exact ⟨_, hm, by rw [exec_decodeSymbol_tree hv, hd, finish_ok]⟩
  · intro x bits rest r hmem hrest hg hm hend
    obtain ⟨d, -, hd⟩ := decodeSym_stops hh hmem hrest false hg hm hend
    rw [exec_decodeSymbol_tree hv, hd]
    exact finish_raise ..
  · rw [exec_decodeSymbol_tree hv, decodeSym_no_bit s.tree s.ibuf false hend]
    rfl

/-! ### The payload bits (R116 to R118) -/

/-- A payload bit that leads to an Internal node (R116). -/
theorem exec_decodeBit_down {s : State} {w : Walk} {use : WalkUse} (ha : s.activity = some (.walk w use))
    {v : Bool} {c : NodeIdx} (hw : walkBit s.tree.nodes w.cur v = .ok (.inl c)) :
    exec (decodeBit v) s = .next (s.walking use { w with cur := c, dirty := true }) := by
  rw [exec_decodeBit, walkOutcome, ha]
  simp only [hw]

/-- A payload bit that leads to a Leaf (R117, R118). -/
theorem exec_decodeBit_symbol {s : State} {w : Walk} {use : WalkUse} (ha : s.activity = some (.walk w use))
    {v : Bool} {x : Byte} (hw : walkBit s.tree.nodes w.cur v = .ok (.inr x)) :
    exec (decodeBit v) s = afterSymbol use w x s := by
  rw [exec_decodeBit, walkOutcome, ha]
  simp only [hw]

/-- The Leaf that a bit leads to, be it the root of a one-leaf tree or the child the bit names (R116). -/
theorem walkBit_to_leaf {nodes : Vector Node nodeMax} {i : NodeIdx} {t : HTree} {L : List Nat}
    (h : Holds nodes i.toNat t L) {v : Bool} {x : Byte}
    (hx : t = .leaf x ∨ ∃ l r, t = .node l r ∧ (if v then r else l) = .leaf x) :
    walkBit nodes i v = .ok (.inr x) := by
  rcases hx with rfl | ⟨l, r, rfl, hchild⟩
  · exact walkBit_leaf h v
  · obtain ⟨_, _, -, -, hw⟩ := walkBit_node h v
    rw [hw, hchild]

/-- The Internal node that a bit leads to (R116). -/
theorem walkBit_to_node {nodes : Vector Node nodeMax} {i : NodeIdx} {l r a b : HTree} {L : List Nat}
    (h : Holds nodes i.toNat (.node l r) L) {v : Bool} (hchild : (if v then r else l) = .node a b) :
    ∃ (c : NodeIdx) (Lc : List Nat), Holds nodes c.toNat (.node a b) Lc ∧
      walkBit nodes i v = .ok (.inl c) := by
  obtain ⟨c, Lc, -, hc, hw⟩ := walkBit_node h v
  rw [hchild] at hc hw
  exact ⟨c, Lc, hc, hw⟩

/-- Settles O51: the bit's child is an Internal node (`walkBit_to_node`) or a Leaf (`walkBit_to_leaf`), and the
Leaf's symbol ends DECODE_SYMBOL, and DECOMPRESS at its last one. -/
theorem payloadBitsComplete : Obligations.PayloadBitsComplete := by
  intro s w use t L v i ha hh hi
  rw [show i = decodeBit v from hi]
  refine ⟨?_, fun x hx => ?_⟩
  · rintro l r a b rfl hchild
    obtain ⟨c, Lc, hc, hw⟩ := walkBit_to_node hh hchild
    exact ⟨c, Lc, hc, exec_decodeBit_down ha hw⟩
  · rw [exec_decodeBit_symbol ha (walkBit_to_leaf hh hx)]
    refine ⟨?_, ?_, ?_⟩
    · rintro rfl
      rfl
    · rintro rfl hmore
      exact if_pos hmore
    · rintro rfl hlast
      exact if_neg (Nat.not_lt.2 hlast)


/-! ### COMPRESS (R114) -/

/-- What COMPRESS leaves of an input with this tree, code table and writer (R114). -/
abbrev State.compressed (s : State) (input : List Byte) (tree : HTree) (codes : CodeTable) (w : Writer) : State :=
  { s with
    freq := countFreq input, tree := buildTree (countFreq input) s.tree, codes := codes, writer := w
    origSize := s.inLen, hdrSize := BitVec.ofNat 32 (8 + tree.serialize.length) }

/-- The writer after these bytes have been written from OBUF[0] up, over what the buffer held before. -/
structure Writer.Wrote (w : Writer) (obuf : Memory) (bytes : List Byte) : Prop where
  acc : w.acc = 0
  cnt : w.cnt = 0
  outLen : w.outLen.toNat = bytes.length
  get : ∀ a, w.obuf.get a = (bytes[a]?).or (obuf.get a)

theorem Writer.Wrote.get_lt {w : Writer} {obuf : Memory} {bytes : List Byte} (h : w.Wrote obuf bytes) {a : Nat}
    (ha : a < bytes.length) : w.obuf.get a = some bytes[a] := by
  rw [h.get, List.getElem?_eq_getElem ha, Option.some_or]

theorem Writer.Wrote.holdsBytes {w : Writer} {obuf : Memory} {bytes : List Byte} (h : w.Wrote obuf bytes) :
    HoldsBytes w.obuf 0 bytes := fun j hj => by
  rw [Nat.zero_add]
  exact h.get_lt hj

/-- An input that COMPRESS takes: IN_LEN bytes, at least one, within IBUF, and the tree built over them;
OBUF is in canonical form. -/
structure State.Input (s : State) (input : List Byte) (tree : HTree) : Prop where
  holds : HoldsBytes s.ibuf 0 input
  length : input.length = s.inLen.toNat
  ne_nil : input ≠ []
  fits : s.inLen.toNat ≤ s.cfg.ibufBytes.toNat
  obuf : Memory.wf s.writer.obuf = true
  tree : InputTree input (buildTree (countFreq input) s.tree) tree

theorem State.exists_input {s : State} {input : List Byte} (hb : HoldsBytes s.ibuf 0 input)
    (hl : input.length = s.inLen.toNat) (hne : input ≠ []) (hfit : s.inLen.toNat ≤ s.cfg.ibufBytes.toNat)
    (hw : Memory.wf s.writer.obuf = true) : ∃ tree, s.Input input tree := by
  obtain ⟨tree, ht⟩ := inputTree input s.tree hne (by rw [hl]; exact s.inLen.isLt)
  exact ⟨tree, hb, hl, hne, hfit, hw, ht⟩

section
variable {s : State} {input : List Byte} {tree : HTree} {codes : CodeTable} (h : s.Input input tree)
include h

theorem State.Input.length_lt : input.length < 2 ^ 32 := by
  rw [h.length]
  exact s.inLen.isLt

/-- The leaves are the bytes of the input (R85, R86). -/
theorem State.Input.mem_leaves {x : Byte} : x ∈ tree.leaves ↔ x ∈ input := by
  rw [h.tree.leaves.mem_iff, mem_presentSymbols_countFreq h.length_lt]

/-- COMPRESS of a non-empty input is what `compressInput` makes of it. -/
theorem State.Input.exec_compress :
    exec .compress s = finish drawCompress s (compressInput s input) (fun c => { s with
      freq := c.freq, tree := c.tree, codes := c.codes
      hdrSize := c.hdrSize, origSize := s.inLen, writer := c.writer }) := by
  rw [exec, execCompress, readInput_holds h.holds h.length h.fits]
  exact if_neg (inLen_ne h.length h.ne_nil)

/-- A code longer than 32 bits (R114). -/
theorem State.Input.exec_compress_deep (hd : 32 < tree.depth) :
    exec .compress s = .next ((drawCompress s).complete .codeTooLong) := by
  rw [h.exec_compress, compressInput_tooLong h.tree hd]
  rfl

/-- A compressed buffer that does not fit (R114). -/
theorem State.Input.exec_compress_overflow (hc : buildCodes tree = .ok codes)
    (hover : s.obufCap < (compressedBytes input tree codes).length) :
    exec .compress s = .next ((drawCompress s).complete .outputOverflow) := by
  rw [h.exec_compress, compressInput_overflow h.obuf h.tree hc hover]
  rfl

/-- A compressed buffer that fits (R114). -/
theorem State.Input.exec_compress_fits (hc : buildCodes tree = .ok codes)
    (hfit : (compressedBytes input tree codes).length ≤ s.obufCap) :
    ∃ w : Writer, w.Wrote s.writer.obuf (compressedBytes input tree codes) ∧
      exec .compress s = .next ((s.compressed input tree codes w).complete .none) := by
  obtain ⟨w, hok, hcnt, hacc, hout, -, hget⟩ := compressInput_ok h.length h.obuf h.tree hc hfit
  exact ⟨w, ⟨hacc, hcnt, hout, hget⟩, by rw [h.exec_compress, hok, finish_ok]⟩

/-- The three ends of COMPRESS over a non-empty input (R114). -/
theorem State.Input.exec_compress_cases :
    (32 < tree.depth ∧ exec .compress s = .next ((drawCompress s).complete .codeTooLong)) ∨
    ∃ codes, buildCodes tree = .ok codes ∧
      ((s.obufCap < (compressedBytes input tree codes).length ∧
          exec .compress s = .next ((drawCompress s).complete .outputOverflow)) ∨
        (compressedBytes input tree codes).length ≤ s.obufCap ∧
          ∃ w : Writer, w.Wrote s.writer.obuf (compressedBytes input tree codes) ∧
            exec .compress s = .next ((s.compressed input tree codes w).complete .none)) := by
  by_cases hd : tree.depth ≤ 32
  · obtain ⟨codes, hc⟩ := (buildCodes_ok_iff tree).2 hd
    by_cases hfit : (compressedBytes input tree codes).length ≤ s.obufCap
    · exact .inr ⟨codes, hc, .inr ⟨hfit, h.exec_compress_fits hc hfit⟩⟩
    · have hover := Nat.lt_of_not_le hfit
      exact .inr ⟨codes, hc, .inl ⟨hover, h.exec_compress_overflow hc hover⟩⟩
  · have hdeep := Nat.lt_of_not_le hd
    exact .inl ⟨hdeep, h.exec_compress_deep hdeep⟩

end

/-- A non-empty input has a symbol. -/
theorem presentSymbols_ne_nil {input : List Byte} (hne : input ≠ []) (hl : input.length < 2 ^ 32) :
    presentSymbols (countFreq input) ≠ [] := by
  obtain ⟨b, hb⟩ := List.exists_mem_of_ne_nil input hne
  intro hnil
  have := (mem_presentSymbols_countFreq hl).2 hb
  rw [hnil] at this
  exact List.not_mem_nil this

/-- Settles O54: the tree is `buildTree_spec`'s, the table `buildCodes`', and the depth and the buffer's length
decide between the three ends of COMPRESS. -/
theorem compressCompletes : Obligations.CompressCompletes := by
  intro s input hb hl hne hfits hwf
  obtain ⟨tree, h⟩ := State.exists_input hb hl hne hfits hwf
  obtain ⟨tree', L, W, hh, -, hleaves, hv, hcount, hroot, hgreedy, -⟩ :=
    buildTree_spec (countFreq input) s.tree (presentSymbols_ne_nil hne h.length_lt)
  obtain rfl : tree = tree' :=
    Except.ok.inj (h.tree.read.symm.trans (h.tree.wellFormed.readTree_holds hh))
  refine ⟨countFreq input, buildTree (countFreq input) s.tree, tree, L, presentSymbols (countFreq input), W,
    fun b => countFreq_get input b h.length_lt, present_presentSymbols _, hh, h.tree.wellFormed, hv, hgreedy,
    hcount, hroot, hleaves, fun hd => ?_, fun hd => ⟨_, h.exec_compress_deep hd, rfl, rfl, rfl, rfl⟩⟩
  obtain ⟨codes, hc⟩ := (buildCodes_ok_iff tree).2 hd
  obtain ⟨hvalid, hnone, -⟩ := buildCodes_entry hc
  refine ⟨codes, hvalid, buildCodes_wellFormed hc, fun x bits hx => (buildCodes_bits hc h.tree.nodup hx).1,
    fun x hx => hnone x (fun hm => hx (h.mem_leaves.1 hm)), fun hfit => ?_,
    fun hover => ⟨_, h.exec_compress_overflow hc hover, rfl, rfl, rfl, rfl⟩⟩
  obtain ⟨w, ⟨hacc, hcnt, hout, hget⟩, hexec⟩ := h.exec_compress_fits hc hfit
  exact ⟨w, hacc, hcnt, hout, hget, hexec⟩

/-- The payload has at most as many bytes as the input (R78). -/
theorem InputTree.payloadBytes_length_le {input : List Byte} {a : Arena} {tree : HTree}
    (h : InputTree input a tree) {codes : CodeTable} (hc : buildCodes tree = .ok codes) :
    (payloadBytes (codeStream codes.bits input)).length ≤ input.length := by
  have := h.payload codes.bits (fun _ he => (buildCodes_bits hc h.nodup he).1)
  rw [payloadBytes_length]
  omega

/-- The compressed buffer is the header's bytes and the payload's. -/
theorem compressedBytes_length (input : List Byte) (tree : HTree) (codes : CodeTable) :
    (compressedBytes input tree codes).length =
      8 + tree.serialize.length + (payloadBytes (codeStream codes.bits input)).length := by
  rw [compressedBytes, List.length_append, headerBytes_length]

/-- A number no greater than a word's value fits a word. -/
theorem toNat_ofNat_of_le {n : Nat} {v : Word} (h : n ≤ v.toNat) : (BitVec.ofNat 32 n).toNat = n := by
  rw [BitVec.toNat_ofNat]
  exact Nat.mod_eq_of_lt (Nat.lt_of_le_of_lt h v.isLt)

/-- Settles O55: over a non-empty input the end is one of `exec_compress_cases`, and the lengths are those of
the payload (R78) and of the header (R75). -/
theorem whenCompressFails : Obligations.WhenCompressFails := by
  intro s input hb hl hfits hwf
  by_cases hne : input = []
  · subst hne
    have h0 : s.inLen = 0 := BitVec.eq_of_toNat_eq hl.symm
    exact ⟨_, exec_compress_empty h0, .inl rfl, fun _ => ⟨Nat.zero_le _, Nat.zero_le _⟩, nofun, nofun⟩
  · obtain ⟨tree, h⟩ := State.exists_input hb hl hne hfits hwf
    rcases h.exec_compress_cases with ⟨hd, hexec⟩ | ⟨codes, hc, ⟨hover, hexec⟩ | ⟨-, w, hw, hexec⟩⟩
    · exact ⟨_, hexec, .inr (.inl rfl), nofun, nofun,
        fun hshort _ => absurd (h.tree.depth hshort) (Nat.not_le_of_lt hd)⟩
    · refine ⟨_, hexec, .inr (.inr rfl), nofun, fun hbig _ => ?_, nofun⟩
      have hlen := compressedBytes_length_le h.tree hc
      change s.cfg.obufBytes.toNat < _ at hover
      omega
    · refine ⟨_, hexec, .inl rfl, fun _ => ⟨?_, ?_⟩, nofun, nofun⟩
      · have hpay := h.tree.payloadBytes_length_le hc
        have hout := hw.outLen
        rw [compressedBytes_length] at hout
        change w.outLen.toNat ≤ (BitVec.ofNat 32 (8 + tree.serialize.length)).toNat + input.length
        rw [toNat_ofNat_of_le (v := w.outLen) (by omega)]
        omega
      · exact hw.outLen.trans_le (compressedBytes_length_le h.tree hc)

/-- A COMPRESS of a non-empty input that ends without error was given one within IBUF, and its buffer fits. -/
theorem compress_succeeds {s t : State} {input : List Byte} (hb : HoldsBytes s.ibuf 0 input)
    (hl : input.length = s.inLen.toNat) (hne : input ≠ []) (hwf : Memory.wf s.writer.obuf = true)
    (hexec : exec .compress s = .next t) (herr : t.err = .none) :
    ∃ tree codes w, InputTree input (buildTree (countFreq input) s.tree) tree ∧ buildCodes tree = .ok codes ∧
      w.Wrote s.writer.obuf (compressedBytes input tree codes) ∧
      t = (s.compressed input tree codes w).complete .none := by
  obtain ⟨tree, codes, w, ht, hc, -, hout, hcnt, hacc, hget, rfl⟩ := compress_leaves hb hl hne hwf hexec herr
  exact ⟨tree, codes, w, ht, hc, ⟨hacc, hcnt, hout, hget⟩, rfl⟩

/-- The tree has a leaf for each symbol of the input. -/
theorem InputTree.leaves_length {input : List Byte} {a : Arena} {tree : HTree} (h : InputTree input a tree)
    (hl : input.length < 2 ^ 32) : tree.leaves.length = input.dedup.length := by
  refine List.Perm.length_eq ((List.perm_ext_iff_of_nodup h.nodup input.nodup_dedup).2 fun x => ?_)
  rw [h.leaves.mem_iff, mem_presentSymbols_countFreq hl, List.mem_dedup]

/-- Settles O56: the buffer begins with the header's two fields, and its tree of k leaves takes 3k − 1 bytes. -/
theorem compressedHeaderFields : Obligations.CompressedHeaderFields := by
  intro s t input hb hl hne hwf hexec herr
  obtain ⟨tree, codes, w, ht, hc, hw, rfl⟩ := compress_succeeds hb hl hne hwf hexec herr
  have hlt : input.length < 2 ^ 32 := by
    rw [hl]
    exact s.inLen.isLt
  have hout := hw.outLen
  rw [compressedBytes_length] at hout
  have hsize := tree.serialize_length
  have hleaves := ht.leaves_length hlt
  refine ⟨?_, hl.symm, ?_, le32_le32Bytes⟩
  · refine (toNat_ofNat_of_le (v := w.outLen) (by omega)).trans ?_
    omega
  · have hbuf := hw.holdsBytes
    rw [compressedBytes, headerBytes, hl, BitVec.ofNat_toNat, BitVec.setWidth_eq] at hbuf
    exact (HoldsBytes.append.1 (HoldsBytes.append.1 hbuf).1).1

/-! ### COMPRESS of one repeated byte (R123) -/

theorem presentSymbols_replicate {n : Nat} (h1 : 1 ≤ n) (hlt : n < 2 ^ 32) (b : Byte) :
    presentSymbols (countFreq (List.replicate n b)) = [(b, n)] := by
  refine (present_unique ⟨List.pairwise_singleton .., fun x f => ?_⟩).symm
  rw [List.mem_singleton, Prod.mk.injEq, freqOf, countFreq_get _ x (by rwa [List.length_replicate]),
    List.count_replicate]
  by_cases hx : b = x
  · subst hx
    simp only [true_and, beq_self_eq_true, if_true]
    exact ⟨fun hf => ⟨hf, by omega⟩, And.left⟩
  · simp only [Ne.symm hx, false_and, beq_iff_eq, hx, if_false]
    exact ⟨False.elim, fun hf => hf.2 hf.1⟩

/-- Only a Leaf has one leaf. -/
theorem HTree.eq_leaf {t : HTree} {b : Byte} (h : t.leaves = [b]) : t = .leaf b := by
  cases t with
  | leaf x => rw [(List.singleton_inj.1 h : x = b)]
  | node l r =>
    have hlen := congrArg List.length h
    rw [HTree.leaves, List.length_append, List.length_singleton] at hlen
    have hl := l.leaves_pos
    have hr := r.leaves_pos
    omega

/-- The code table of a one-leaf tree (R87). -/
theorem buildCodes_leaf (b : Byte) : buildCodes (.leaf b) = .ok (CodeTable.empty.put b [false]) := rfl

theorem codeStream_replicate {code : Byte → List Bool} {b : Byte} {v : Bool} (h : code b = [v]) (n : Nat) :
    codeStream code (List.replicate n b) = List.replicate n v := by
  rw [codeStream, List.flatMap_replicate, h, List.flatten_replicate_singleton]

theorem packByte_replicate_false (n : Nat) : packByte (List.replicate n false) = 0 := by
  induction n with
  | zero => rfl
  | succ n ih =>
    rw [List.replicate_succ, packByte, ih]
    rfl

/-- Zero bits fill zero bytes (R76). -/
theorem payloadBytes_replicate_false (n : Nat) :
    payloadBytes (List.replicate n false) = List.replicate ((n + 7) / 8) 0x00 := by
  refine List.eq_replicate_iff.2 ⟨by rw [payloadBytes_length, List.length_replicate], fun x hx => ?_⟩
  obtain ⟨j, -, rfl⟩ := List.mem_map.1 hx
  rw [streamByte, List.drop_replicate, List.take_replicate, packByte_replicate_false]

/-- The compressed buffer of n copies of a byte: the one-leaf tree's header, and zero bytes. -/
theorem compressedBytes_replicate (n : Nat) (b : Byte) {codes : CodeTable} (h : codes.bits b = [false]) :
    compressedBytes (List.replicate n b) (.leaf b) codes =
      headerBytes (BitVec.ofNat 32 n) (.leaf b) ++ List.replicate ((n + 7) / 8) 0x00 := by
  rw [compressedBytes, codeStream_replicate h, payloadBytes_replicate_false, List.length_replicate]

/-- Settles O57: one symbol is present, so the tree is a Leaf (`HTree.eq_leaf`), and all payload bits are 0
(`compressedBytes_replicate`). -/
theorem compressOneSymbol : Obligations.CompressOneSymbol := by
  intro s b n h1 hn hb hfits hcap hwf
  have hlen : (List.replicate n b).length = s.inLen.toNat := by rw [List.length_replicate, hn]
  have hne : List.replicate n b ≠ [] := by
    rw [Ne, List.replicate_eq_nil_iff]
    omega
  obtain ⟨tree, h⟩ := State.exists_input hb hlen hne (hn ▸ hfits) hwf
  have hps := presentSymbols_replicate h1 (by rw [hn]; exact s.inLen.isLt) b
  have hleaves := h.tree.leaves
  rw [hps] at hleaves
  obtain rfl : tree = .leaf b := HTree.eq_leaf (List.perm_singleton.1 hleaves)
  have hbits := (buildCodes_bits (buildCodes_leaf b) h.tree.nodup (List.mem_singleton_self _)).1
  have hbytes := compressedBytes_replicate n b hbits
  have hhdr : (headerBytes (BitVec.ofNat 32 n) (.leaf b)).length = 10 := headerBytes_length ..
  have hsize : (compressedBytes (List.replicate n b) (.leaf b) (CodeTable.empty.put b [false])).length =
      10 + (n + 7) / 8 := by
    rw [hbytes, List.length_append, List.length_replicate, hhdr]
  obtain ⟨w, hw, hexec⟩ := h.exec_compress_fits (buildCodes_leaf b) (by rw [hsize]; exact hcap)
  obtain ⟨_, _, _, -, -, -, -, hcount, hroot, ⟨hseed, -⟩, -⟩ :=
    buildTree_spec (countFreq (List.replicate n b)) s.tree (by rw [hps]; exact List.cons_ne_nil _ _)
  simp only [hps] at hcount hroot hseed
  refine ⟨_, hexec, rfl, BitVec.eq_of_toNat_eq hcount, BitVec.eq_of_toNat_eq hroot,
    (hseed 0 Nat.zero_lt_one).1, ?_, fun x hx => ?_, hw.outLen.trans hsize, fun j h10 hj => ?_⟩
  · exact (CodeTable.entry_put ..).trans (if_pos rfl)
  · change ((CodeTable.empty.put b [false]).entry x).2 = 0
    rw [CodeTable.entry_put, if_neg hx, CodeTable.entry_empty]
  · change w.obuf.get j = some 0x00
    rw [hw.get, hbytes, List.getElem?_append_right (hhdr.trans_le h10), hhdr,
      List.getElem?_replicate_of_lt (by omega), Option.some_or]

/-! ### The round trip (R120) -/

/-- The bytes at an address are determined by their number. -/
theorem HoldsBytes.eq {m : Memory} {a : Nat} {xs ys : List Byte} (hx : HoldsBytes m a xs)
    (hy : HoldsBytes m a ys) (hlen : xs.length = ys.length) : xs = ys :=
  List.ext_getElem hlen fun j hj hj' => Option.some.inj ((hx j hj).symm.trans (hy j hj'))

section
variable {s : State} {input : List Byte} {a : Arena} {tree : HTree} {codes : CodeTable}
  (ht : InputTree input a tree) (hl : input.length < 2 ^ 32)
  (hb : HoldsBytes s.ibuf 0 (compressedBytes input tree codes))
  (hlen : (compressedBytes input tree codes).length = s.inLen.toNat)
include ht hb hlen

/-- READ_HEADER accepts the header of a compressed buffer (R98, R99). -/
theorem InputTree.headerIn : HeaderIn s.ibuf s.inLen (BitVec.ofNat 32 (8 + tree.serialize.length))
    (BitVec.ofNat 32 input.length) tree := by
  have hleaves : tree.leaves.length ≤ 256 := by
    rw [ht.leaves.length_eq, List.length_map]
    exact presentSymbols_length _
  rw [compressedBytes_length] at hlen
  exact HeaderIn.of_headerBytes (HoldsBytes.append.1 hb).1 (by omega) hleaves

include hl

/-- The payload reader gives the codes of the input, since original_size bounds the payload (R76, R78, R118). -/
theorem InputTree.payloadReader_gives (hc : buildCodes tree = .ok codes) :
    (payloadReader (BitVec.ofNat 32 (8 + tree.serialize.length)) (BitVec.ofNat 32 input.length) s.inLen).Gives
      s.ibuf (codeStream codes.bits input) := by
  have hpay := (HoldsBytes.append.1 hb).2
  have hpaylen := ht.payloadBytes_length_le hc
  have hwithin := (ht.headerIn hb hlen).within
  rw [compressedBytes_length] at hlen
  have hhdr : (BitVec.ofNat 32 (8 + tree.serialize.length)).toNat = 8 + tree.serialize.length :=
    toNat_ofNat_of_le (v := s.inLen) (by omega)
  have horig : (BitVec.ofNat 32 input.length).toNat = input.length := by
    rw [BitVec.toNat_ofNat, Nat.mod_eq_of_lt hl]
  rw [headerBytes_length, Nat.zero_add, ← hhdr] at hpay
  refine Reader.gives_of_bytes rfl hpay ?_
  rw [payloadReader_limit hwithin, horig, hhdr, ← payloadBytes_length]
  change (BitVec.ofNat 32 (8 + tree.serialize.length)).toNat + _ ≤ _
  omega

/-- DECOMPRESS of the compressed buffer of a non-empty input (R118, R120). -/
theorem InputTree.exec_decompress (hc : buildCodes tree = .ok codes) (hfits : s.inLen.toNat ≤ s.cfg.ibufBytes.toNat)
    (hcap : input.length ≤ s.obufCap) (hwf : Memory.wf s.writer.obuf = true) :
    ∃ u, exec .decompress s = .next u ∧ u.err = .none ∧ u.writer.outLen.toNat = input.length ∧
      HoldsBytes u.writer.obuf 0 input := by
  have hin := ht.headerIn hb hlen
  have horig : input.length = (BitVec.ofNat 32 input.length).toNat := by
    rw [BitVec.toNat_ofNat, Nat.mod_eq_of_lt hl]
  obtain ⟨_, r, w, -, -, hd, -, -, hout, -, hget⟩ := decompressInput_ok hin
    (fun _ hx => ht.code_mem hl hc hx) horig (ht.payloadReader_gives hl hb hlen hc) hcap hwf
  rw [exec_decompress_input hfits hin.inLen_ne_zero, hd, finish_ok]
  refine ⟨_, rfl, rfl, hout, fun j hj => ?_⟩
  change w.obuf.get (0 + j) = _
  rw [Nat.zero_add, hget, List.getElem?_eq_getElem hj, Option.some_or]

end

/-- Settles O59: the buffer is empty for the empty input and else the compressed one (`compress_succeeds`),
which DECOMPRESS turns back (`InputTree.exec_decompress`). -/
theorem roundTrip : Obligations.RoundTrip := by
  intro s t s' input buffer hb hl hwf hexec herr hbuf hbuflen hb' hl' hfits' hcap' hwf'
  by_cases hne : input = []
  · subst hne
    have h0 : s.inLen = 0 := BitVec.eq_of_toNat_eq hl.symm
    cases (exec_compress_empty h0).symm.trans hexec
    have h0' : s'.inLen = 0 := BitVec.eq_of_toNat_eq (hl'.symm.trans hbuflen)
    exact ⟨_, exec_decompress_empty h0', rfl, rfl, fun _ hj => absurd hj (Nat.not_lt_zero _)⟩
  · obtain ⟨tree, codes, w, ht, hc, hw, rfl⟩ := compress_succeeds hb hl hne hwf hexec herr
    cases hbuf.eq hw.holdsBytes (hbuflen.trans hw.outLen)
    exact ht.exec_decompress (hl ▸ s.inLen.isLt) hb' hl' hc hfits' hcap' hwf'


/-! ### What COMPRESS and DECOMPRESS depend on (R119) -/

/-- Two states that agree on what COMPRESS and DECOMPRESS depend on, their buffers in canonical form. -/
structure State.SameInput (s s' : State) : Prop where
  cfg : s'.cfg = s.cfg
  inLen : s'.inLen = s.inLen
  ibuf : SameBelow s.inLen.toNat s.ibuf s'.ibuf
  obuf : Memory.wf s.writer.obuf = true
  obuf' : Memory.wf s'.writer.obuf = true

/-- Two states that show the same of what both COMPRESS and DECOMPRESS write. -/
structure State.SameOutput (t t' : State) : Prop where
  hdrSize : t'.hdrSize = t.hdrSize
  origSize : t'.origSize = t.origSize
  codesValid : t'.codes.valid = t.codes.valid
  outLen : t'.writer.outLen = t.writer.outLen
  tree : t.tree.Same t'.tree
  obuf : ∀ j, j < t.writer.outLen.toNat → t'.writer.obuf.get j = t.writer.obuf.get j

theorem Arena.Same.noTree (a a' : Arena) :
    ({ a with valid := false, count := 0, root := 0 } : Arena).Same
      { a' with valid := false, count := 0, root := 0 } :=
  ⟨rfl, rfl, rfl, fun _ hj => absurd hj (Nat.not_lt_zero _)⟩

/-- Two writers that hold the same bytes from OBUF[0] up. -/
theorem Writer.Wrote.same {w w' : Writer} {obuf obuf' : Memory} {bytes : List Byte} (h : w.Wrote obuf bytes)
    (h' : w'.Wrote obuf' bytes) :
    w'.outLen = w.outLen ∧ ∀ j, j < w.outLen.toNat → w'.obuf.get j = w.obuf.get j := by
  refine ⟨BitVec.eq_of_toNat_eq (h'.outLen.trans h.outLen.symm), fun j hj => ?_⟩
  rw [h.outLen] at hj
  rw [h.get_lt hj, h'.get_lt hj]

/-- The tree COMPRESS builds does not depend on the arena it finds. -/
theorem InputTree.agree {input : List Byte} {freq : Vector Word 256} {a : Arena} {tree : HTree}
    (h : InputTree input (buildTree freq a) tree) (a' : Arena) : InputTree input (buildTree freq a') tree := by
  obtain ⟨hv, hc, hr, hn⟩ := buildTree_agree freq a a'
  obtain ⟨hwf, hread⟩ := readTree_agree h.wellFormed hc hr hn
  exact ⟨hv.trans h.valid, hwf, hread.trans h.read, h.leaves, h.payload, h.depth⟩

/-- A COMPRESS that does not fault has read its whole input. -/
theorem exec_compress_reads {s t : State} (hfits : s.inLen.toNat ≤ s.cfg.ibufBytes.toNat)
    (h : exec .compress s = .next t) :
    ∃ input, HoldsBytes s.ibuf 0 input ∧ input.length = s.inLen.toNat := by
  have hread : readInput s = memReadRange s.ibuf 0 s.inLen.toNat := by
    rw [readInput, State.inLenTooBig_of_fits hfits, if_neg Bool.false_ne_true]
  cases hr : memReadRange s.ibuf 0 s.inLen.toNat with
  | ok input =>
    obtain ⟨hlen, hb⟩ := memReadRange_ok hr
    exact ⟨input, hb, hlen⟩
  | error stop =>
    obtain ⟨j, -, -, -, rfl⟩ := memReadRange_error hr
    rw [exec, execCompress, hread, hr] at h
    cases h

/-- What R119 says of COMPRESS. -/
structure CompressAgree (t t' : State) : Prop where
  freq : t'.freq = t.freq
  codes : t.codes.valid = true → t'.codes = t.codes
  acc : t'.writer.acc = t.writer.acc
  cnt : t'.writer.cnt = t.writer.cnt
  output : t.SameOutput t'

section
variable {s s' t : State} (h : s.SameInput s')
include h

theorem State.SameInput.input {input : List Byte} {tree : HTree} (hi : s.Input input tree) :
    s'.Input input tree := by
  refine ⟨fun j hj => ?_, by rw [h.inLen, hi.length], hi.ne_nil, by rw [h.inLen, h.cfg]; exact hi.fits,
    h.obuf', hi.tree.agree s'.tree⟩
  rw [h.ibuf (0 + j) (by rw [Nat.zero_add, ← hi.length]; exact hj)]
  exact hi.holds j hj

theorem State.SameInput.obufCap_eq : s'.obufCap = s.obufCap := by
  rw [State.obufCap, State.obufCap, h.cfg]

/-- An input of one byte or more is built and coded alike from both states. -/
theorem State.SameInput.compress_nonempty {input : List Byte} {tree : HTree} (hi : s.Input input tree)
    (hexec : exec .compress s = .next t) :
    ∃ t', exec .compress s' = .next t' ∧ t'.err = t.err ∧ (t.err = .none → CompressAgree t t') := by
  have hi' := h.input hi
  rcases hi.exec_compress_cases with ⟨hd, he⟩ | ⟨codes, hc, ⟨hover, he⟩ | ⟨hfit, w, hw, he⟩⟩ <;>
    cases he.symm.trans hexec
  · exact ⟨_, hi'.exec_compress_deep hd, rfl, nofun⟩
  · exact ⟨_, hi'.exec_compress_overflow hc (by rw [h.obufCap_eq]; exact hover), rfl, nofun⟩
  · obtain ⟨w', hw', he'⟩ := hi'.exec_compress_fits hc (by rw [h.obufCap_eq]; exact hfit)
    obtain ⟨hout, hobuf⟩ := hw.same hw'
    exact ⟨_, he', rfl, fun _ => ⟨rfl, fun _ => rfl, hw'.acc.trans hw.acc.symm, hw'.cnt.trans hw.cnt.symm,
      rfl, h.inLen, rfl, hout, buildTree_agree _ _ _, hobuf⟩⟩

/-- COMPRESS ends alike from both states. -/
theorem State.SameInput.compress (hexec : exec .compress s = .next t) :
    ∃ t', exec .compress s' = .next t' ∧ t'.err = t.err ∧ (t.err = .none → CompressAgree t t') := by
  by_cases hfits : s.inLen.toNat ≤ s.cfg.ibufBytes.toNat
  · by_cases h0 : s.inLen = 0
    · cases (exec_compress_empty h0).symm.trans hexec
      exact ⟨_, exec_compress_empty (h.inLen.trans h0), rfl, fun _ => ⟨rfl, nofun, rfl, rfl, rfl, rfl, rfl, rfl,
        Arena.Same.noTree _ _, fun _ hj => absurd hj (Nat.not_lt_zero _)⟩⟩
    · obtain ⟨input, hb, hl⟩ := exec_compress_reads hfits hexec
      have hne : input ≠ [] := by
        rintro rfl
        exact h0 (BitVec.eq_of_toNat_eq hl.symm)
      obtain ⟨tree, hi⟩ := State.exists_input hb hl hne hfits h.obuf
      exact h.compress_nonempty hi hexec
  · have hbig := Nat.lt_of_not_le hfits
    cases (exec_inLenTooBig hbig (i := .compress) (by decide)).symm.trans hexec
    exact ⟨_, exec_inLenTooBig (by rw [h.cfg, h.inLen]; exact hbig) (by decide), rfl, nofun⟩

end

/-! ### DECOMPRESS, from states that agree (R119) -/

/-- READ_HEADER accepts no header_size beyond IN_LEN (R99). -/
theorem readHeader_hdrSize_le {m : Memory} {inLen : Word} {nodes : Vector Node nodeMax} {r : HeaderRead}
    (h : readHeader m inLen nodes = .ok r) : r.hdrSize.toNat ≤ inLen.toNat := by
  unfold readHeader at h
  split at h
  · cases h
  · rename_i hf
    split at h <;> cases h
    exact readHeaderFields_le hf

/-- The payload reader stays within IN_LEN (R118). -/
theorem payloadReader_limit_le {h o inLen : Word} (hh : h.toNat ≤ inLen.toNat) :
    (payloadReader h o inLen).limit.toNat ≤ inLen.toNat := by
  rw [payloadReader_limit hh]
  omega

/-- Symbols pushed from OUT_LEN = 0 stand in OBUF from address 0 up (R118). -/
theorem foldl_push_holdsBytes {cap : Nat} (hcap : cap < 2 ^ 32) {symbols : List Byte} (hfit : symbols.length ≤ cap)
    {w : Writer} (hw : Memory.wf w.obuf = true) :
    (symbols.foldl Writer.push { w with outLen := 0 }).outLen.toNat = symbols.length ∧
      HoldsBytes (symbols.foldl Writer.push { w with outLen := 0 }).obuf 0 symbols := by
  obtain ⟨⟨-, -, hout, hget⟩, -⟩ := foldl_push hcap symbols { w with outLen := 0 } hw
    (by change 0 + _ ≤ _; omega)
  refine ⟨hout.trans (Nat.zero_add _), fun j hj => ?_⟩
  have hj' := (hget j).trans (if_pos (Nat.zero_le j))
  rw [Nat.zero_add, hj']
  change (symbols[j]?).or _ = _
  rw [List.getElem?_eq_getElem hj, Option.some_or]

/-- Behind a header DECOMPRESS decodes the payload (R118). -/
theorem decompressInput_of_header {s : State} {r : HeaderRead}
    (h : readHeader s.ibuf s.inLen s.tree.nodes = .ok r) :
    decompressInput s = (decodePayload s r.hdrSize r.origSize r.tree).map fun (reader, w) =>
      { header := r, reader := reader, writer := w } := by
  rw [decompressInput, h, decodePayload]
  by_cases hover : s.obufCap < r.origSize.toNat
  · simp only [if_pos hover]
    rfl
  · simp only [if_neg hover]
    cases decodeMany r.tree s.ibuf r.origSize.toNat (payloadReader r.hdrSize r.origSize s.inLen)
      { s.writer with outLen := 0 } <;> rfl

/-- Two answers of DECOMPRESS's body that show the same, over these symbols. -/
structure Decompressed.Agree (s s' : State) (d d' : Decompressed) (symbols : List Byte) : Prop where
  header : HeaderAgree (.ok d.header) (.ok d'.header)
  reader : d'.reader = d.reader
  fits : symbols.length ≤ s.obufCap
  writer : d.writer = symbols.foldl Writer.push { s.writer with outLen := 0 }
  writer' : d'.writer = symbols.foldl Writer.push { s'.writer with outLen := 0 }

section
variable {s s' t : State} (h : s.SameInput s')
include h

/-- READ_HEADER's body stops alike from both states, or reads headers that show the same. -/
theorem State.SameInput.readHeader_cases :
    (∃ stop, readHeader s.ibuf s.inLen s.tree.nodes = .error stop ∧
      readHeader s'.ibuf s'.inLen s'.tree.nodes = .error stop) ∨
    ∃ r r', readHeader s.ibuf s.inLen s.tree.nodes = .ok r ∧
      readHeader s'.ibuf s'.inLen s'.tree.nodes = .ok r' ∧ HeaderAgree (.ok r) (.ok r') := by
  have hagree := readHeader_agree h.ibuf s.tree.nodes s'.tree.nodes
  rw [h.inLen]
  cases hr : readHeader s.ibuf s.inLen s.tree.nodes <;>
    cases hr' : readHeader s'.ibuf s.inLen s'.tree.nodes <;> rw [hr, hr'] at hagree
  case error.error stop stop' => exact .inl ⟨stop, rfl, congrArg _ hagree⟩
  case error.ok => exact hagree.elim
  case ok.error => exact hagree.elim
  case ok.ok r r' => exact .inr ⟨r, r', rfl, rfl, hagree⟩

/-- Behind such headers the payload stops alike, or gives the same symbols. -/
theorem State.SameInput.decodePayload_cases {r r' : HeaderRead} (hr : readHeader s.ibuf s.inLen s.tree.nodes = .ok r)
    (hagree : HeaderAgree (.ok r) (.ok r')) :
    (∃ stop, decodePayload s r.hdrSize r.origSize r.tree = .error stop ∧
      decodePayload s' r'.hdrSize r'.origSize r'.tree = .error stop) ∨
    ∃ (reader : Reader) (symbols : List Byte), symbols.length ≤ s.obufCap ∧
      decodePayload s r.hdrSize r.origSize r.tree =
        .ok (reader, symbols.foldl Writer.push { s.writer with outLen := 0 }) ∧
      decodePayload s' r'.hdrSize r'.origSize r'.tree =
        .ok (reader, symbols.foldl Writer.push { s'.writer with outLen := 0 }) := by
  obtain ⟨hsize, horig, -, htree⟩ := hagree
  rw [decodePayload, decodePayload, h.obufCap_eq, h.inLen, hsize, horig]
  by_cases hover : s.obufCap < r.origSize.toNat
  · exact .inl ⟨_, if_pos hover, if_pos hover⟩
  · rw [if_neg hover, if_neg hover]
    rcases decodeMany_same h.ibuf (readHeader_wellFormed hr).1 htree r.origSize.toNat
        (payloadReader_limit_le (readHeader_hdrSize_le hr)) { s.writer with outLen := 0 }
        { s'.writer with outLen := 0 } with hstop | ⟨reader, symbols, hlen, hd, hd'⟩
    · exact .inl hstop
    · exact .inr ⟨reader, symbols, hlen.trans_le (Nat.le_of_not_lt hover), hd, hd'⟩

/-- The body of DECOMPRESS stops alike from both states, or decodes the same symbols. -/
theorem State.SameInput.decompressInput_cases :
    (∃ stop, decompressInput s = .error stop ∧ decompressInput s' = .error stop) ∨
    ∃ d d' symbols, decompressInput s = .ok d ∧ decompressInput s' = .ok d' ∧ d.Agree s s' d' symbols := by
  rcases h.readHeader_cases with ⟨stop, hr, hr'⟩ | ⟨r, r', hr, hr', hagree⟩
  · exact .inl ⟨stop, by rw [decompressInput, hr], by rw [decompressInput, hr']⟩
  · rw [decompressInput_of_header hr, decompressInput_of_header hr']
    rcases h.decodePayload_cases hr hagree with ⟨stop, hd, hd'⟩ | ⟨reader, symbols, hfit, hd, hd'⟩ <;>
      rw [hd, hd']
    · exact .inl ⟨stop, rfl, rfl⟩
    · exact .inr ⟨_, _, symbols, rfl, rfl, hagree, rfl, hfit, rfl, rfl⟩

/-- The same symbols leave the same output. -/
theorem State.SameInput.sameOutput {d d' : Decompressed} {symbols : List Byte}
    (ha : d.Agree s s' d' symbols) :
    ({ s.withHeader d.header with reader := d.reader, writer := d.writer }.complete .none).SameOutput
      ({ s'.withHeader d'.header with reader := d'.reader, writer := d'.writer }.complete .none) := by
  obtain ⟨⟨hsize, horig, -, htree⟩, -, hfit, hw, hw'⟩ := ha
  have hcap : s.obufCap < 2 ^ 32 := s.cfg.obufBytes.isLt
  obtain ⟨hout, hb⟩ := foldl_push_holdsBytes hcap hfit h.obuf
  obtain ⟨hout', hb'⟩ := foldl_push_holdsBytes hcap hfit h.obuf'
  rw [← hw] at hout hb
  rw [← hw'] at hout' hb'
  refine ⟨hsize, horig, rfl, BitVec.eq_of_toNat_eq (hout'.trans hout.symm), htree, fun j hj => ?_⟩
  have hj : j < symbols.length := hj.trans_eq hout
  change d'.writer.obuf.get j = d.writer.obuf.get j
  rw [← Nat.zero_add j, hb j hj, hb' j hj]

/-- DECOMPRESS ends alike from both states. -/
theorem State.SameInput.decompress (hexec : exec .decompress s = .next t) :
    ∃ t', exec .decompress s' = .next t' ∧ t'.err = t.err ∧
      (t.err = .none → (s.inLen ≠ 0 → t'.reader = t.reader) ∧ t.SameOutput t') := by
  by_cases hfits : s.inLen.toNat ≤ s.cfg.ibufBytes.toNat
  · by_cases h0 : s.inLen = 0
    · cases (exec_decompress_empty h0).symm.trans hexec
      exact ⟨_, exec_decompress_empty (h.inLen.trans h0), rfl, fun _ => ⟨(absurd h0 ·), rfl, rfl, rfl, rfl,
        Arena.Same.noTree _ _, fun _ hj => absurd hj (Nat.not_lt_zero _)⟩⟩
    · rw [exec_decompress_input hfits h0] at hexec
      rw [exec_decompress_input (by rw [h.inLen, h.cfg]; exact hfits) (by rw [h.inLen]; exact h0)]
      rcases h.decompressInput_cases with ⟨stop, he, he'⟩ | ⟨d, d', symbols, hd, hd', ha⟩
      · rw [he] at hexec
        rw [he']
        rcases decompressInput_error he with rfl | rfl | rfl | ⟨a, rfl, -⟩ <;> cases hexec
        all_goals exact ⟨_, rfl, rfl, nofun⟩
      · rw [hd, finish_ok] at hexec
        rw [hd', finish_ok]
        cases hexec
        exact ⟨_, rfl, rfl, fun _ => ⟨fun _ => ha.reader, h.sameOutput ha⟩⟩
  · have hbig := Nat.lt_of_not_le hfits
    cases (exec_inLenTooBig hbig (i := .decompress) (by decide)).symm.trans hexec
    exact ⟨_, exec_inLenTooBig (by rw [h.cfg, h.inLen]; exact hbig) (by decide), rfl, nofun⟩

end

/-- Settles O60: one lemma for each command. -/
theorem codecIsPure : Obligations.CodecIsPure := by
  intro s s' hcfg hin hbuf hw hw' i hi t hexec
  have h : s.SameInput s' := ⟨hcfg, hin, hbuf, hw, hw'⟩
  simp only [List.mem_cons, List.not_mem_nil, or_false] at hi
  rcases hi with rfl | rfl
  · obtain ⟨t', hexec', herr, hagree⟩ := h.compress hexec
    refine ⟨t', hexec', herr, fun hok => ?_⟩
    obtain ⟨hfreq, hcodes, hacc, hcnt, hsize, horig, hvalid, hout, ⟨htv, htc, htr, htn⟩, hobuf⟩ := hagree hok
    exact ⟨fun _ => ⟨hfreq, hcodes, hacc, hcnt⟩, nofun, hsize, horig, hvalid, hout, htv, htc, htr, htn, hobuf⟩
  · obtain ⟨t', hexec', herr, hagree⟩ := h.decompress hexec
    refine ⟨t', hexec', herr, fun hok => ?_⟩
    obtain ⟨hreader, hsize, horig, hvalid, hout, ⟨htv, htc, htr, htn⟩, hobuf⟩ := hagree hok
    exact ⟨nofun, fun _ => hreader, hsize, horig, hvalid, hout, htv, htc, htr, htn, hobuf⟩

end Sys2Proof.Machine

/-! PROOF of the error statements (R124 to R127): which errors a command reports, and what an error leaves. -/

namespace Sys2Proof.Machine

/-- Settles O24: a command that fails raises an error of its row (`Raises`), before a write or after one. -/
theorem errorsByCommand : Obligations.ErrorsByCommand := by
  intro i s t hi h
  cases exec_ends hi h with
  | returns => exact .inl (State.complete_err _ _)
  | clean hr => exact .inr (by rw [State.complete_err]; exact hr.mem)
  | drawn hr => exact .inr (by rw [State.complete_err]; exact hr.mem)

/-- The two ways a command fails (R125), told apart by the error and by what its pseudocode had written:
nothing changes but STATUS, or the write set is drawn. -/
theorem Ends.fails {i : Instr} {s t : State} (h : Ends i s t) (he : t.err ≠ .none) :
    (¬(t.err ≠ .badOperand ∧ t.err ≠ .badState ∧ s.WroteBefore i) ∧ t = s.complete t.err) ∨
      ((t.err ≠ .badOperand ∧ t.err ≠ .badState ∧ s.WroteBefore i) ∧ t = (drawOf i s).complete t.err) := by
  cases h with
  | returns => exact absurd (State.complete_err _ _) he
  | clean hr =>
    rw [State.complete_err]
    exact .inl ⟨fun hw => Bool.false_ne_true (hr.wrote.2 hw), rfl⟩
  | drawn hr =>
    rw [State.complete_err]
    exact .inr ⟨hr.wrote.1 rfl, rfl⟩

/-- Settles O25: of the two ways to fail (`Ends.fails`) the second leaves draws in the whole write set
(`drawn_drawOf`), and none leaves it (`writeSets`). -/
theorem errorEffects : Obligations.ErrorEffects := by
  intro i s t hi h he
  rcases (exec_ends hi h).fails he with ⟨hclean, ht⟩ | ⟨⟨hop, hst, hw⟩, ht⟩
  · exact ⟨fun _ => ht, fun hop hst hw => absurd ⟨hop, hst, hw⟩ hclean⟩
  · refine ⟨fun hcase => ?_, fun _ _ _ => ⟨fun p hp hb => ?_, writeSets i s t hi h⟩⟩
    · rcases hcase with hop' | hst' | hw'
      · exact absurd hop' hop
      · exact absurd hst' hst
      · exact absurd hw hw'
    · rw [ht]
      exact drawn_drawOf hw t.err hp hb

end Sys2Proof.Machine

/-! PROOF of the statements about reset and hazards (R25, R137 to R142): what a completion leaves, a CMD write
while BUSY is 0 and 1, the reset input, and which meaning a step runs. -/

namespace Sys2Proof.Machine

/-! ### Completion (R139) -/

/-- Each of the three ways a command ends is the completion of a state with its inputs unchanged. -/
theorem Ends.completion {i : Instr} {s t : State} (h : Ends i s t) :
    ∃ u e, t = State.complete u e ∧ SameInputs s u := by
  cases h with
  | returns hu => exact ⟨_, _, rfl, sameInputs_returns hu⟩
  | clean _ => exact ⟨s, _, rfl, rfl, rfl, rfl, rfl, rfl, rfl, rfl, rfl, rfl⟩
  | drawn _ => exact ⟨_, _, rfl, sameInputs_drawOf i s⟩

/-- Settles O23: a command ends by a completion (`Ends.completion`), which sets the flags and no input. -/
theorem completionLeaves : Obligations.CompletionLeaves := by
  intro i s t hi h
  obtain ⟨u, e, rfl, hu⟩ := (exec_ends hi h).completion
  exact ⟨u.complete_busy e, u.complete_done e, rfl, sameInputs_complete hu e⟩

/-! ### CMD writes (R25, R138) -/

theorem State.cmdWrite_idle {s : State} (hb : s.busy = false) (v : Word) : s.cmdWrite v = s.accept v := by
  rw [State.cmdWrite, hb, if_neg Bool.false_ne_true]

theorem State.cmdWrite_busy {s : State} (hb : s.busy = true) (v : Word) : s.cmdWrite v = s.dropWrite :=
  if_pos hb

/-- Settles O6: the port accepts the word (`State.cmdWrite_idle`) or drops it (`State.cmdWrite_busy`). -/
theorem commandWrites : Obligations.CommandWrites := by
  intro s v rest hs
  refine ⟨fun hb => ?_, fun hb => ?_⟩
  · rw [step_host hs, State.hostOp, State.regWrite_cmd, State.cmdWrite_idle hb]
    rfl
  · rw [step_host hs, State.hostOp, State.regWrite_cmd, State.cmdWrite_busy hb]
    rfl

/-! ### One event (R61) -/

/-- The step takes the first event to come. -/
theorem step_event {s : State} {m : Move} {rest : List Move} (h : s.schedule = m :: rest) :
    step s = runMove m { s with schedule := rest } := by
  rw [step, h]

/-! ### The reset input (R141, R142) -/

/-- The reset input sets every field that R44 speaks of as the reset state has it, whatever ran before. -/
theorem State.resetInput_atReset (s : State) : s.resetInput.AtReset := reset_atReset

/-- Settles O14: the event's step is `State.resetInput` (`State.resetInput_atReset`). -/
theorem resetInput : Obligations.ResetInput := fun s rest hs =>
  ⟨State.resetInput { s with schedule := rest }, step_event hs, State.resetInput_atReset _, rfl, rfl⟩

/-! ### The core's moves (R137, R138) -/

/-- Between commands the core keeps its state (R137). -/
theorem coreMove_idle {s : State} (hb : s.busy = false) : coreMove s = .next s := by
  rw [coreMove, hb, if_neg Bool.false_ne_true]

/-- At the start of an accepted command the core runs its meaning (R138). -/
theorem coreMove_command {s : State} {i : Instr} (hb : s.busy = true) (ha : s.activity = none)
    (hd : decodeCmd s.cmd = .ok i) : coreMove s = exec i s := by
  rw [coreMove, if_pos hb, ha]
  simp only [runCommand, hd]

/-- At the start of an accepted command `coreBegin` begins it. -/
theorem beginMove_command {s : State} {i : Instr} (hb : s.busy = true) (ha : s.activity = none)
    (hd : decodeCmd s.cmd = .ok i) : beginMove s = beginCommand i s := by
  simp only [beginMove, hb, ha, hd, Option.isNone_none, Bool.and_self, if_true]

/-- Where no command is to start, `coreBegin` is the core's move. -/
theorem beginMove_eq_coreMove {s : State}
    (h : s.busy = false ∨ s.activity.isSome = true ∨ ∃ e, decodeCmd s.cmd = .error e) :
    beginMove s = coreMove s := by
  rcases h with hb | ha | ⟨e, hd⟩
  · simp only [beginMove, hb, Bool.false_and, Bool.false_eq_true, if_false]
  · have hn : s.activity.isNone = false := by rw [Option.isNone_eq_false_iff]; exact ha
    simp only [beginMove, hn, Bool.and_false, Bool.false_eq_true, if_false]
  · simp only [beginMove, hd, ite_self]

/-- A command that reads no tree and no payload begins as a whole (log entry 6). -/
theorem beginCommand_eq_exec {i : Instr}
    (hi : i ∉ [.deserializeTree, .readHeader, .decompress, .decodeSymbol]) (s : State) :
    beginCommand i s = exec i s := by
  cases i with
  | deserializeTree | readHeader | decompress | decodeSymbol => exact absurd (by decide) hi
  | _ => rfl

/-- Settles O15: the moves of the core are said once for each case (`coreMove_command`, `beginMove_command`,
`beginMove_eq_coreMove`, `coreMove_idle`), and the step is one of them (`step_core`, `step_event`). -/
theorem stepRunsCommand : Obligations.StepRunsCommand := by
  intro s
  refine ⟨fun i hb ha hd => ⟨fun hs => ?_, fun rest hs => ?_, fun rest hs => ?_,
    fun hi => beginCommand_eq_exec hi s⟩, fun rest _ h => ?_, fun hb hs => ?_, fun m rest hb hm hs => ?_⟩
  · exact (step_core hs).trans (coreMove_command hb ha hd)
  · exact (step_event hs).trans (coreMove_command hb ha hd)
  · exact (step_event hs).trans (beginMove_command hb ha hd)
  · exact beginMove_eq_coreMove (s := { s with schedule := rest }) (.inr h)
  · exact (step_core hs).trans (coreMove_idle hb)
  · have hidle : coreMove { s with schedule := rest } = .next { s with schedule := rest } := coreMove_idle hb
    rcases hm with rfl | rfl
    · exact (step_event hs).trans hidle
    · exact (step_event hs).trans
        ((beginMove_eq_coreMove (s := { s with schedule := rest }) (.inl hb)).trans hidle)

end Sys2Proof.Machine
